-- ==== Sys2Proof/Word.lean ====
section
/-! DEFINITION. The two word sizes of the engine: the 64-bit word of every register and of the permutation state
(00_scope.md R5, R9) and the 8-bit byte of DMA memory (20_memory.md R70). -/

namespace Sys2Proof

/-- A word: 64 bits, always unsigned (00_scope.md R9). -/
abbrev Word := BitVec 64

/-- A byte of DMA memory or of a byte string (20_memory.md R70, 00_scope.md R10). -/
abbrev Byte := BitVec 8

end Sys2Proof
end

