-- ==== Sys2Proof/Machine/Bytes.lean ====
section
/-! DEFINITION. Byte order: little-endian everywhere, fixed (20_memory.md R71). -/

namespace Sys2Proof.Machine

/-- The sum of the first `n` terms of `LE64(b, off)` (20_memory.md R71). -/
def le64Sum (b : List Byte) (off : Nat) : Nat → Word
  | 0 => 0
  | j + 1 => le64Sum b off j + ((b.getD (off + j) 0).setWidth 64 <<< (8 * j))

/-- `LE64(b, off)`: the little-endian word at byte offset `off` (20_memory.md R71). -/
def le64 (b : List Byte) (off : Nat) : Word := le64Sum b off 8

/-- `LE64inv(w)`: the eight bytes of `w`, low byte first (20_memory.md R71). -/
def le64inv (w : Word) : List Byte :=
  [w.extractLsb' 0 8, w.extractLsb' 8 8, w.extractLsb' 16 8, w.extractLsb' 24 8,
   w.extractLsb' 32 8, w.extractLsb' 40 8, w.extractLsb' 48 8, w.extractLsb' 56 8]

/-- `LE64inv` of each word in turn, concatenated (20_memory.md R71, R73). -/
def wordBytes (ws : List Word) : List Byte := ws.flatMap le64inv

/-- `zeros(n)` (00_scope.md R10). -/
def zeros (n : Nat) : List Byte := List.replicate n 0

/-- A byte string in a buffer of `n` bytes: cut to `n`, zero-filled to `n` (the buffers of 10_state.md R27, R28 have a
fixed size). -/
def toBuffer (n : Nat) (b : List Byte) : Vector Byte n :=
  ⟨⟨(b ++ zeros n).take n⟩, by simp [zeros]⟩

end Sys2Proof.Machine
end

