-- ==== Sys2Proof/Syntax.lean ====
section
/-! DEFINITION. The commands of the engine, its whole instruction set (30_encoding.md R104): one constructor for each
row of spec/opcode_table.json. -/

namespace Sys2Proof

/-- A command. Every operand other than PERMUTE's round count comes from registers (30_encoding.md R100). -/
inductive Instr where
  /-- NOP, OPC 0x00 (42_orchestrator.md R182). -/
  | nop
  /-- SEAL, OPC 0x01 (42_orchestrator.md R172). -/
  | sealMsg
  /-- OPEN, OPC 0x02 (42_orchestrator.md R174). -/
  | openMsg
  /-- PERMUTE, OPC 0x03, with `rounds = zext(ARG)` (40_permutation.md R130, 30_encoding.md R102). -/
  | permute (rounds : Nat)
  /-- ERASE, OPC 0x04 (42_orchestrator.md R181). -/
  | erase
deriving DecidableEq, Repr

end Sys2Proof
end

