-- ==== Sys2Proof/WellFormed.lean ====
section
/-! DEFINITION. Which commands can be written at all: the one check is PERMUTE's round count, which has an 8-bit field
(30_encoding.md R102) and which the assembler refuses above 255 (30_encoding.md R108). -/

namespace Sys2Proof

/-- A command that some CMD word encodes (30_encoding.md R102, R108). -/
def Instr.wf : Instr → Bool
  | .nop => true
  | .sealMsg => true
  | .openMsg => true
  | .permute rounds => decide (rounds ≤ 255)
  | .erase => true

end Sys2Proof
end

