-- ==== Sys2Proof/Decode.lean ====
section
/-! DEFINITION. The decoder of command words, total on all 2^64 of them (30_encoding.md R105), and after it the encoder,
written from the same format table (30_encoding.md R100). -/

namespace Sys2Proof

/-- Why a command word is not legal (30_encoding.md R105), or why a byte string is no command word. -/
inductive DecodeError where
  /-- RSV = cmd[63:16] is not 0 (30_encoding.md R103). -/
  | reservedNotZero
  /-- OPC = cmd[7:0] is not in the map (30_encoding.md R104). -/
  | unknownOpcode
  /-- ARG = cmd[15:8] is not 0 on an opcode other than PERMUTE (30_encoding.md R100). -/
  | argNotZero
  /-- Not exactly eight bytes: every command is one 64-bit write (30_encoding.md R107). -/
  | notEightBytes
deriving DecidableEq, Repr

/-- What the decoder answers: a command, or the reason there is none. -/
inductive Decoded where
  | command (i : Instr)
  | illegal (e : DecodeError)
deriving DecidableEq, Repr

/-- `OPC = cmd[7:0]` (30_encoding.md R101). -/
def opcField (w : Word) : Byte := w.extractLsb' 0 8

/-- `ARG = cmd[15:8]` (30_encoding.md R102). -/
def argField (w : Word) : Byte := w.extractLsb' 8 8

/-- `RSV = cmd[63:16]` (30_encoding.md R103). -/
def rsvField (w : Word) : BitVec 48 := w.extractLsb' 16 48

/-- A command whose ARG must be 0 (30_encoding.md R100). -/
def withoutArg (w : Word) (i : Instr) : Decoded :=
  if argField w = 0 then .command i else .illegal .argNotZero

/-- The decoder (30_encoding.md R104, R105). -/
def decode (w : Word) : Decoded :=
  if rsvField w ≠ 0 then .illegal .reservedNotZero
  else if opcField w = 0x00 then withoutArg w .nop
  else if opcField w = 0x01 then withoutArg w .sealMsg
  else if opcField w = 0x02 then withoutArg w .openMsg
  else if opcField w = 0x03 then .command (.permute (argField w).toNat)
  else if opcField w = 0x04 then withoutArg w .erase
  else .illegal .unknownOpcode

/-- The decoder on a byte string, in the byte order a host stores a register value in (20_memory.md R74). -/
def decodeBytes (b : List Byte) : Decoded :=
  if b.length = 8 then decode (Machine.le64 b 0) else .illegal .notEightBytes

/-- The OPC byte of a command (30_encoding.md R104). -/
def Instr.opcode : Instr → Byte
  | .nop => 0x00
  | .sealMsg => 0x01
  | .openMsg => 0x02
  | .permute _ => 0x03
  | .erase => 0x04

/-- The ARG byte of a command: PERMUTE's round count, else 0 (30_encoding.md R100). -/
def Instr.arg : Instr → Byte
  | .nop => 0
  | .sealMsg => 0
  | .openMsg => 0
  | .permute rounds => BitVec.ofNat 8 rounds
  | .erase => 0

/-- The command word: RSV = 0, ARG, OPC, from the top bit down (30_encoding.md R100). -/
def encode (i : Instr) : Word := (0 : BitVec 48) ++ i.arg ++ i.opcode

/-- The host's view of the decoder: the instruction whose bits are `w`, its eight bytes laid out low byte first. -/
def decodeTableWord (nbits w : Nat) : Option Instr :=
  match decodeBytes (Machine.le64inv (BitVec.ofNat 64 (w % 2 ^ nbits))) with
  | .command i => some i
  | .illegal _ => none

end Sys2Proof
end

