-- ==== Sys2Proof/Config.lean ====
section
/-! DEFINITION. What the spec leaves to the platform, in two forms: the parameters of 00_scope.md R7 as one record of
plain data, and the free values, which have no body, so that no proof can rest on what they are. -/

namespace Sys2Proof

/-- The direction of a DMA access: R or W (00_scope.md R7). -/
inductive Dir where
  | read
  | write
deriving DecidableEq, Repr

/-- A range of DMA addresses `lo ≤ a < lo + len` that the bus refuses for reads, for writes or for both: one row of
the complement of `mem_ok` (00_scope.md R7, 92_eei_decisions.md P3). -/
structure RefusedRange where
  lo     : Nat
  len    : Nat
  reads  : Bool
  writes : Bool
deriving DecidableEq, Repr

/-- The named parameters of 00_scope.md R7. The two fixed ones (DMA address width and register width, both 64) are
types, not fields. Every statement about a state holds for every value of these fields (log 1). -/
structure Platform where
  /-- `REG_BASE`: the bus address of the 256-byte register window (92_eei_decisions.md P2). -/
  regBase : Word
  /-- `SKIP_EMPTY_PHASE`: whether a phase with no data skips its padded block (41_block_codec.md R158). -/
  skipEmptyPhase : Bool
  /-- `mem_ok`, as the list of the ranges that are NOT answered (92_eei_decisions.md P3). -/
  refused : List RefusedRange
  /-- `DMA_COHERENT`: whether DMA is coherent with the host's caches (92_eei_decisions.md P4). -/
  dmaCoherent : Bool
deriving DecidableEq, Repr

/-- FREE VALUE: what a DMA read, or another agent's read, of a byte that nothing has written returns, by the number of
the draw and the address (93_implementation_defined.md "Memory bytes never written by any agent: any value"; log 3). -/
opaque Config.coldByte : Nat → Nat → Byte

/-- FREE VALUE: what a raced byte is worth, for the engine's reads and in memory (20_memory.md R85; log 5). -/
opaque Config.racedByte : Nat → Nat → Byte

/-- FREE VALUE: what a read beside the engine's returns for a byte that the running command writes, or from a stale cache line
(93_implementation_defined.md; log 6). -/
opaque Config.hostByte : Nat → Nat → Byte

/-- FREE CHOICE: whether a byte of an interrupted write landed, "each byte old or new, independently"
(20_memory.md R77; log 4). -/
opaque Config.landed : Nat → Nat → Bool

end Sys2Proof
end

