-- ==== Sys2Proof/Machine/State.lean ====
section
/-! DEFINITION. Everything the spec gives the machine, as plain data: the state of the block itself (`Engine`, 10_state.md
R20-R45, which by R47 holds no memory and no parameter), and the closed system that a step acts on (`State`): the block with
the memory of the bus, the platform's parameters, and the model's own inputs and records. -/

namespace Sys2Proof.Machine

/-- The sequencer's phases, STATUS.PHASE (10_state.md R29). -/
inductive Phase where
  | idle
  | init
  | header
  | payload
  | trailer
  | final
  | wipe
  | perm
deriving DecidableEq, Repr

/-- The error codes of STATUS.ERR that the engine produces (60_exceptions.md R211). -/
inductive ErrCode where
  | noError
  | illegalCmd
  | badRounds
  | keyNotLoaded
  | nonceNotLoaded
  | badRange
  | busFault
deriving DecidableEq, Repr

/-- The domain-separation tags (41_block_codec.md R141). -/
inductive Tag where
  | header
  | payload
  | trailer
  | final
deriving DecidableEq, Repr

/-- The registers of the window (10_state.md R42), the reserved offsets 0x0B8-0x0F8 among them (10_state.md R41). -/
inductive Reg where
  | id
  | ctrl
  | cmd
  | status
  | config
  | irqEn
  | outLen
  | faultAddr
  | key (i : Fin 4)
  | nonce (i : Fin 4)
  | hdrAddr
  | hdrLen
  | inAddr
  | inLen
  | trlAddr
  | trlLen
  | outAddr
  | reserved (n : Fin 9)
deriving DecidableEq, Repr

/-- A range of DMA addresses: its first byte and its length (00_scope.md glossary, "Region"). -/
structure Region where
  addr : Nat
  len  : Nat
deriving DecidableEq, Repr

/-- Who reads DMA memory beside the engine (log 6). -/
inductive Reader where
  /-- The host, through its caches (20_memory.md R89). -/
  | host
  /-- Another agent: its read is performed on the bus (20_memory.md R81). -/
  | other
deriving DecidableEq, Repr

/-- What reaches the engine or its memory from outside (log 8). Widths are in bits, addresses are bus addresses. -/
inductive HostEvent where
  /-- A read on the register bus (20_memory.md R74, 30_encoding.md R106). -/
  | regRead (addr : Word) (width : Nat)
  /-- A write on the register bus (20_memory.md R74, 30_encoding.md R106). -/
  | regWrite (addr : Word) (width : Nat) (data : Word)
  /-- The host or another agent reads one byte of DMA memory (20_memory.md R81, R85, R89). -/
  | memRead (who : Reader) (addr : Word)
  /-- Another agent's write of one byte is performed on the bus (20_memory.md R82, R85). -/
  | memWrite (addr : Word) (v : Byte)
  /-- The host discards its cached copies of a region (20_memory.md R89). -/
  | cacheDiscard (r : Region)
  /-- The platform's reset input (70_reset_and_hazards.md R240). -/
  | hardReset
  /-- The DMA access under way is never answered (60_exceptions.md R224). -/
  | dmaStall
deriving DecidableEq, Repr

/-- When an event arrives (log 2, 8). A SLOT is a point of a running command where outside events can land: its acceptance,
each phase entry, the point before each DMA access, and the end of the wipe. -/
inductive When where
  /-- Only once no command is running. -/
  | whenIdle
  /-- After `n` more slots of a running command have passed. `inside`: the access that begins at that slot, if it is one,
  has begun when the event lands. -/
  | slot (n : Nat) (inside : Bool)
deriving DecidableEq, Repr

/-- An outside event and when it arrives. -/
structure Arrival where
  time  : When
  event : HostEvent
deriving DecidableEq, Repr

/-- What the register bus or the memory answers to an outside access. -/
inductive Response where
  /-- A register read's value (10_state.md R44). -/
  | readData (v : Word)
  /-- A register write was taken by the port (20_memory.md R74). -/
  | writeDone
  /-- The bus error answer to a misformed register access; `v` is what a read returns, 0 (20_memory.md R74). -/
  | busError (v : Word)
  /-- The address lies outside the window: the block does not decode it (10_state.md R41; log 10). -/
  | notDecoded
  /-- The byte another agent read from DMA memory. -/
  | memData (v : Byte)
deriving DecidableEq, Repr

/-- What the engine does that its surroundings could count: acceptances, phase entries, DMA accesses, calls of F and
completions (20_memory.md R80, R83; log 11). -/
inductive EngineEvent where
  /-- A CMD word was accepted; the value is its OPC byte (42_orchestrator.md R170). -/
  | accepted (opc : Byte)
  /-- The sequencer enters a phase (42_orchestrator.md R183). -/
  | enter (p : Phase)
  /-- One MemRead of `len` bytes (20_memory.md R76). -/
  | read (addr len : Nat)
  /-- One MemWrite of `len` bytes (20_memory.md R77). -/
  | write (addr len : Nat)
  /-- One call of F, with the domain tag injected before it, if any (41_block_codec.md R157). -/
  | permute (tag : Option Tag) (rounds : Nat)
  /-- The command completed with this code (42_orchestrator.md R171). -/
  | completed (err : ErrCode)
  /-- A hard or soft reset (70_reset_and_hazards.md R240, R241). -/
  | reset
deriving DecidableEq, Repr

/-- DMA memory: the bytes that something has written, in strictly rising address order. An address that is not listed
has never been written and has no value of its own (log 3). -/
abbrev Memory := List Host.Cell

/-- The machine state of the block: every item of 10_state.md and of the reset table (70_reset_and_hazards.md R240), and
nothing that R47 says is no state. -/
structure Engine where
  /-- The permutation state S[0..15] (10_state.md R20). -/
  S : Vector Word 16
  /-- KEY[0..3] (10_state.md R23). -/
  key : Vector Word 4
  /-- KEY_MASK (10_state.md R24). -/
  keyMask : BitVec 4
  /-- NONCE[0..3] (10_state.md R25). -/
  nonce : Vector Word 4
  /-- NONCE_MASK (10_state.md R26). -/
  nonceMask : BitVec 4
  /-- TAGBUF, the supplied tag (10_state.md R27). -/
  tagBuf : Vector Byte 32
  /-- T, the computed tag (10_state.md R27, R45). -/
  tag : Vector Byte 32
  /-- BLK, the block buffer (10_state.md R28). -/
  blk : Vector Byte 96
  /-- The comparison accumulator (10_state.md R45, 42_orchestrator.md R176). -/
  diff : Byte
  /-- The sequencer's phase (10_state.md R29). -/
  phase : Phase
  /-- The full 96-byte blocks done in the current region (10_state.md R29). -/
  k : Nat
  /-- STATUS.BUSY (10_state.md R30). -/
  busy : Bool
  /-- STATUS.DONE (10_state.md R32). -/
  done : Bool
  /-- STATUS.AUTH_OK (10_state.md R31). -/
  authOk : Bool
  /-- STATUS.AUTH_FAIL (10_state.md R31). -/
  authFail : Bool
  /-- STATUS.WR_BUSY (10_state.md R43). -/
  wrBusy : Bool
  /-- STATUS.ERR (60_exceptions.md R211). -/
  err : ErrCode
  /-- STATUS.LAST_OPC (30_encoding.md R101). -/
  lastOpc : Byte
  /-- CONFIG.ROUNDS (10_state.md R35). -/
  rounds : BitVec 4
  /-- IRQ_EN.DONE_IE (10_state.md R36). -/
  doneIe : Bool
  /-- OUT_LEN (10_state.md R37). -/
  outLen : Word
  /-- FAULT_ADDR (10_state.md R38). -/
  faultAddr : Word
  /-- HDR_ADDR (10_state.md R39). -/
  hdrAddr : Word
  /-- HDR_LEN (10_state.md R39). -/
  hdrLen : Word
  /-- IN_ADDR (10_state.md R39). -/
  inAddr : Word
  /-- IN_LEN (10_state.md R39). -/
  inLen : Word
  /-- TRL_ADDR (10_state.md R39). -/
  trlAddr : Word
  /-- TRL_LEN (10_state.md R39). -/
  trlLen : Word
  /-- OUT_ADDR (10_state.md R39). -/
  outAddr : Word
deriving DecidableEq, Repr

/-- The closed system: the block and its surroundings. The memory belongs to the host and the parameters to the platform
(10_state.md R47); they stand here, beside the block's state, because a step takes no other argument (log 1). -/
structure State extends Engine where
  /-- The memory of the bus (20_memory.md R70). -/
  mem : Memory
  /-- The platform's parameters (00_scope.md R7); no step changes them (log 1). -/
  platform : Platform
  /-- The model's own: the legal command that is running (log 7). -/
  running : Option Instr
  /-- The model's own: outside events still to arrive, oldest first (log 8). -/
  inbox : List Arrival
  /-- The model's own: answers to outside accesses, newest first (log 8). -/
  responses : List Response
  /-- The model's own: what the engine has done, oldest first (log 11). -/
  trace : List EngineEvent
  /-- The model's own: the number of the next use of a free value (log 3-6). -/
  draws : Nat
  /-- The model's own: addresses raced during the running command (log 5). -/
  raced : List Nat
  /-- The model's own: ranges the running command has written; they turn stale when it ends (log 6). -/
  fresh : List Region
  /-- The model's own: ranges that ended commands have written and that the host has not discarded since (log 6). -/
  stale : List Region
deriving DecidableEq, Repr

/-- Why a step stops. -/
inductive Fault where
  /-- Raised by `step` when a command is stuck in a DMA access that is never answered and no outside event is left to
  arrive: nothing can happen any more (60_exceptions.md R224 "stalls the command forever"). Safe: the hardware makes no
  progress either. -/
  | dmaStalled
deriving DecidableEq, Repr

/-- Why an instruction has no meaning. -/
inductive Refusal where
  /-- Raised by `exec` for an instruction that has no meaning yet; none is left. Safe: nothing is claimed of it. -/
  | notModelled (mnemonic : String)
deriving DecidableEq, Repr

/-- How far a running command has come: it goes on with a value, or it has ended (with an error, by a reset, or stuck). -/
inductive Run (α : Type) where
  | ok (a : α) (s : State)
  | ended (s : State)
deriving DecidableEq, Repr

/-- The platform the reset state carries: the spec's default for SKIP_EMPTY_PHASE, and for the three OPEN parameters
the values of log 1. -/
def resetPlatform : Platform :=
  { regBase := 0, skipEmptyPhase := false, refused := [], dmaCoherent := false }

/-- The block right after a reset: every item of the table of 70_reset_and_hazards.md R240, whatever the parameters are. -/
def Engine.reset : Engine where
  S := Vector.replicate 16 0
  key := Vector.replicate 4 0
  keyMask := 0
  nonce := Vector.replicate 4 0
  nonceMask := 0
  tagBuf := Vector.replicate 32 0
  tag := Vector.replicate 32 0
  blk := Vector.replicate 96 0
  diff := 0
  phase := .idle
  k := 0
  busy := false
  done := false
  authOk := false
  authFail := false
  wrBusy := false
  err := .noError
  lastOpc := 0
  rounds := 0
  doneIe := false
  outLen := 0
  faultAddr := 0
  hdrAddr := 0
  hdrLen := 0
  inAddr := 0
  inLen := 0
  trlAddr := 0
  trlLen := 0
  outAddr := 0

/-- The system right after a hard reset of the block on the platform `p`, with memory `m` and nothing to arrive
(70_reset_and_hazards.md R240, R242; log 13). -/
def State.resetOn (p : Platform) (m : Memory) : State where
  toEngine := Engine.reset
  mem := m
  platform := p
  running := none
  inbox := []
  responses := []
  trace := []
  draws := 0
  raced := []
  fresh := []
  stale := []

/-- The machine right after a hard reset at power-on (70_reset_and_hazards.md R240), memory unwritten (log 14). -/
def State.reset : State := State.resetOn resetPlatform []

end Sys2Proof.Machine
end

