-- ==== Sys2Proof/Machine/Flags.lean ====
section
/-! DEFINITION. The codes and the words the host reads them in: phases, error codes, domain tags, STATUS, irq. -/

namespace Sys2Proof.Machine

/-- The 3-bit value of a phase (10_state.md R29). -/
def Phase.code : Phase → BitVec 3
  | .idle => 0
  | .init => 1
  | .header => 2
  | .payload => 3
  | .trailer => 4
  | .final => 5
  | .wipe => 6
  | .perm => 7

/-- The 4-bit code of an error (60_exceptions.md R211). -/
def ErrCode.code : ErrCode → BitVec 4
  | .noError => 0
  | .illegalCmd => 1
  | .badRounds => 2
  | .keyNotLoaded => 3
  | .nonceNotLoaded => 4
  | .badRange => 5
  | .busFault => 6

/-- The 8-bit value of a domain tag (41_block_codec.md R141). -/
def Tag.value : Tag → Byte
  | .header => 0x01
  | .payload => 0x02
  | .trailer => 0x04
  | .final => 0x08

/-- STATUS, from bit 63 down to bit 0; the reserved bits read 0 (10_state.md R31). -/
def statusWord (s : State) : Word :=
  (0 : BitVec 24) ++ s.lastOpc ++ (0 : BitVec 5) ++ s.phase.code ++ s.nonceMask ++ s.keyMask
    ++ (0 : BitVec 4) ++ s.err.code ++ (0 : BitVec 3)
    ++ BitVec.ofBool s.wrBusy ++ BitVec.ofBool s.authFail ++ BitVec.ofBool s.authOk
    ++ BitVec.ofBool s.done ++ BitVec.ofBool s.busy

/-- `irq = STATUS.DONE AND IRQ_EN.DONE_IE`, level-sensitive (60_exceptions.md R220). -/
def irq (s : State) : Bool := s.done && s.doneIe

/-- All four words of a key or nonce have been written since the last erase (10_state.md R24, R26). -/
def allLoaded (mask : BitVec 4) : Bool := mask == 0b1111#4

/-- CONFIG.ROUNDS holds a valid variant (10_state.md R35, 00_scope.md R6). -/
def roundsValid (r : BitVec 4) : Bool := r == 4#4 || r == 6#4

end Sys2Proof.Machine
end

