-- ==== Sys2Proof/Machine/Permutation.lean ====
section
/-! DEFINITION. The sponge permutation engine: H, the rotation, the quarter-round G, the round and F
(40_permutation.md R120-R129). -/

namespace Sys2Proof.Machine

/-- The permutation state S[0..15]; word `4*r + c` is at row r, column c (10_state.md R20). -/
abbrev Sponge := Vector Word 16

/-- The combining operator; the shift loses bit 63 (40_permutation.md R122). -/
def H (x y : Word) : Word := (x ^^^ y) ^^^ ((x &&& y) <<< 1)

/-- The rotation to the right (40_permutation.md R123, 90_conflicts.md C1). -/
def rotr (x : Word) (n : Nat) : Word := (x >>> n) ||| (x <<< (64 - n))

/-- `S[x] <- H(S[x], S[y])` (40_permutation.md R124). -/
def combine (x y : Fin 16) (S : Sponge) : Sponge := S.set x (H S[x] S[y])

/-- `S[x] <- rotr(S[x] XOR S[y], n)` (40_permutation.md R124). -/
def mixRotate (x y : Fin 16) (n : Nat) (S : Sponge) : Sponge := S.set x (rotr (S[x] ^^^ S[y]) n)

/-- One half of the quarter-round, with its two rotation constants (40_permutation.md R121, R124). -/
def halfG (a b c d : Fin 16) (m n : Nat) (S : Sponge) : Sponge :=
  mixRotate b c n (combine c d (mixRotate d a m (combine a b S)))

/-- The quarter-round G on the indices `a, b, c, d`, with (r0, r1, r2, r3) = (8, 19, 40, 63)
(40_permutation.md R121, R124). -/
def G (a b c d : Fin 16) (S : Sponge) : Sponge := halfG a b c d 40 63 (halfG a b c d 8 19 S)

/-- The four column calls (40_permutation.md R125). -/
def columns (S : Sponge) : Sponge :=
  G 3 7 11 15 (G 2 6 10 14 (G 1 5 9 13 (G 0 4 8 12 S)))

/-- The four diagonal calls (40_permutation.md R125). -/
def diagonals (S : Sponge) : Sponge :=
  G 3 4 9 14 (G 2 7 8 13 (G 1 6 11 12 (G 0 5 10 15 S)))

/-- One round: eight calls of G, columns before diagonals (40_permutation.md R125, 90_conflicts.md C9). -/
def roundOnce (S : Sponge) : Sponge := diagonals (columns S)

/-- `F(R)`: the round applied R times; F(0) is the identity (40_permutation.md R126). -/
def F : Nat → Sponge → Sponge
  | 0, S => S
  | R + 1, S => F R (roundOnce S)

/-- The all-zero state (10_state.md R20). -/
def zeroSponge : Sponge := Vector.replicate 16 0

end Sys2Proof.Machine
end

