-- ==== Sys2Proof/Machine/Codec.lean ====
section
/-! DEFINITION. The block codec: constants, padding, initialization, absorb, encrypt, decrypt, finalization
(41_block_codec.md R140-R158), as functions of the permutation state, the round count and byte strings. The last part
puts them together into the message operations of R148, R151 and R154 and the pure seal and open they make up. -/

namespace Sys2Proof.Machine

/-- Four words: a key or a nonce (10_state.md R23, R25). -/
abbrev Quad := Vector Word 4

/-- Injection of a domain tag into the last state word (41_block_codec.md R141). -/
def injectTag (t : Tag) (S : Sponge) : Sponge := S.set 15 (S[15] ^^^ t.value.setWidth 64)

/-- The initialization constants u[8..15] (41_block_codec.md R142). -/
def initConstants : Vector Word 8 :=
  #v[0xB15E641748DE5E6B, 0xAA95E955E10F8410, 0x28D1034441A9DD40, 0x7F31BBF964E93BF5,
     0xB5E9E22493DFFB96, 0xB980C852479FAFBD, 0xDA24516BF55EAFD4, 0x86026AE8536F1501]

/-- XOR of the key into the capacity words S[12..15] (41_block_codec.md R145, R155). -/
def xorKey (K : Quad) (S : Sponge) : Sponge :=
  #v[S[0], S[1], S[2], S[3], S[4], S[5], S[6], S[7], S[8], S[9], S[10], S[11],
     S[12] ^^^ K[0], S[13] ^^^ K[1], S[14] ^^^ K[2], S[15] ^^^ K[3]]

/-- The state that initialization gives to F: nonce, key, constants, and the parameter words 64, R, 1, 256 XORed into
S[12..15] (41_block_codec.md R143, R145). -/
def initLoad (K N : Quad) (R : Nat) : Sponge :=
  let u := initConstants
  #v[N[0], N[1], N[2], N[3], K[0], K[1], K[2], K[3], u[0], u[1], u[2], u[3],
     u[4] ^^^ 64, u[5] ^^^ BitVec.ofNat 64 R, u[6] ^^^ 1, u[7] ^^^ 256]

/-- `initialize(K, N, R)`: no domain tag before F, and one key XOR after it (41_block_codec.md R145,
90_conflicts.md C3, C7). -/
def initSponge (K N : Quad) (R : Nat) : Sponge := xorKey K (F R (initLoad K N R))

/-- `pad(t)` for a tail of 0..95 bytes (41_block_codec.md R144). -/
def pad (t : List Byte) : List Byte :=
  let b := (t ++ zeros (96 - t.length)).set t.length 0x01
  b.set 95 (b.getD 95 0 ||| 0x80)

/-- `S[i] <- S[i] XOR P[i]` for the twelve rate words, `P[i] = LE64(blk, 8*i)` (41_block_codec.md R140, R146). -/
def xorRate (blk : List Byte) (S : Sponge) : Sponge :=
  #v[S[0] ^^^ le64 blk 0, S[1] ^^^ le64 blk 8, S[2] ^^^ le64 blk 16, S[3] ^^^ le64 blk 24,
     S[4] ^^^ le64 blk 32, S[5] ^^^ le64 blk 40, S[6] ^^^ le64 blk 48, S[7] ^^^ le64 blk 56,
     S[8] ^^^ le64 blk 64, S[9] ^^^ le64 blk 72, S[10] ^^^ le64 blk 80, S[11] ^^^ le64 blk 88,
     S[12], S[13], S[14], S[15]]

/-- `S[i] <- P[i]` for the twelve rate words (41_block_codec.md R152, R153). -/
def setRate (blk : List Byte) (S : Sponge) : Sponge :=
  #v[le64 blk 0, le64 blk 8, le64 blk 16, le64 blk 24, le64 blk 32, le64 blk 40,
     le64 blk 48, le64 blk 56, le64 blk 64, le64 blk 72, le64 blk 80, le64 blk 88,
     S[12], S[13], S[14], S[15]]

/-- `LE64inv` of the twelve rate words, 96 bytes (20_memory.md R71). -/
def rateBytes (S : Sponge) : List Byte :=
  wordBytes [S[0], S[1], S[2], S[3], S[4], S[5], S[6], S[7], S[8], S[9], S[10], S[11]]

/-- `LE64inv` of the four capacity words, 32 bytes (20_memory.md R73). -/
def capacityBytes (S : Sponge) : List Byte := wordBytes [S[12], S[13], S[14], S[15]]

/-- `LE64inv` of all sixteen words, 128 bytes (40_permutation.md R130). -/
def spongeBytes (S : Sponge) : List Byte := rateBytes S ++ capacityBytes S

/-- `S[i] <- LE64(b, 8*i)` for all sixteen words (40_permutation.md R130). -/
def loadSponge (b : List Byte) : Sponge :=
  #v[le64 b 0, le64 b 8, le64 b 16, le64 b 24, le64 b 32, le64 b 40, le64 b 48, le64 b 56,
     le64 b 64, le64 b 72, le64 b 80, le64 b 88, le64 b 96, le64 b 104, le64 b 112, le64 b 120]

/-- `absorb_block(blk, tag, R)` (41_block_codec.md R146). -/
def absorbBlock (t : Tag) (R : Nat) (blk : List Byte) (S : Sponge) : Sponge :=
  xorRate blk (F R (injectTag t S))

/-- `absorb_last(t, tag, R)` (41_block_codec.md R147). -/
def absorbLast (t : Tag) (R : Nat) (tail : List Byte) (S : Sponge) : Sponge :=
  absorbBlock t R (pad tail) S

/-- The two directions of the payload phase (42_orchestrator.md R187). -/
inductive CryptDir where
  | enc
  | dec
deriving DecidableEq, Repr

/-- `encrypt_block(blk, R)`: the new rate words are the ciphertext (41_block_codec.md R149). -/
def encryptBlock (R : Nat) (blk : List Byte) (S : Sponge) : List Byte × Sponge :=
  let S' := absorbBlock .payload R blk S
  (rateBytes S', S')

/-- `encrypt_last(t, R)` (41_block_codec.md R150). -/
def encryptLast (R : Nat) (tail : List Byte) (S : Sponge) : List Byte × Sponge :=
  let o := encryptBlock R (pad tail) S
  (o.1.take tail.length, o.2)

/-- `decrypt_block(blk, R)`: the state takes the ciphertext (41_block_codec.md R152). -/
def decryptBlock (R : Nat) (blk : List Byte) (S : Sponge) : List Byte × Sponge :=
  let S' := F R (injectTag .payload S)
  (rateBytes (xorRate blk S'), setRate blk S')

/-- The decrypt-tail buffer: keystream, overlaid with the ciphertext, then the two markers toggled, in that order
(41_block_codec.md R153, 90_conflicts.md C2). -/
def decryptTailBlock (tail keystream : List Byte) : List Byte :=
  let b := tail ++ keystream.drop tail.length
  let b := b.set tail.length (b.getD tail.length 0 ^^^ 0x01)
  b.set 95 (b.getD 95 0 ^^^ 0x80)

/-- `decrypt_last(t, R)` (41_block_codec.md R153). -/
def decryptLast (R : Nat) (tail : List Byte) (S : Sponge) : List Byte × Sponge :=
  let S' := F R (injectTag .payload S)
  let b := decryptTailBlock tail (rateBytes S')
  ((rateBytes (xorRate b S')).take tail.length, setRate b S')

/-- The full-block operation of a direction (42_orchestrator.md R187). -/
def cryptBlock : CryptDir → Nat → List Byte → Sponge → List Byte × Sponge
  | .enc => encryptBlock
  | .dec => decryptBlock

/-- The tail operation of a direction (42_orchestrator.md R187). -/
def cryptLast : CryptDir → Nat → List Byte → Sponge → List Byte × Sponge
  | .enc => encryptLast
  | .dec => decryptLast

/-- The block that the tail operation of a direction builds in BLK: the padded tail, or the decrypt-tail reconstruction
(10_state.md R28, 41_block_codec.md R150, R153). -/
def cryptTailBlock (d : CryptDir) (R : Nat) (tail : List Byte) (S : Sponge) : List Byte :=
  match d with
  | .enc => pad tail
  | .dec => decryptTailBlock tail (rateBytes (F R (injectTag .payload S)))

/-- Finalization up to the tag words: FINAL tag, F, key, F with no tag, key (41_block_codec.md R155). -/
def finalSponge (K : Quad) (R : Nat) (S : Sponge) : Sponge :=
  xorKey K (F R (xorKey K (F R (injectTag .final S))))

/-- The tag that `finalize(K, R)` returns (41_block_codec.md R155). -/
def finalTag (K : Quad) (R : Nat) (S : Sponge) : List Byte := capacityBytes (finalSponge K R S)

/-- `m` full blocks of `D`, then its tail, absorbed (41_block_codec.md R148). -/
def absorbFrom (t : Tag) (R : Nat) : Nat → List Byte → Sponge → Sponge
  | 0, D, S => absorbLast t R D S
  | m + 1, D, S => absorbFrom t R m (D.drop 96) (absorbBlock t R (D.take 96) S)

/-- `absorb_data(D, tag, R)` (41_block_codec.md R148, R158). -/
def absorbData (skip : Bool) (t : Tag) (R : Nat) (D : List Byte) (S : Sponge) : Sponge :=
  if skip && D.isEmpty then S else absorbFrom t R (D.length / 96) D S

/-- `m` full blocks of `D`, then its tail, encrypted or decrypted (41_block_codec.md R151, R154). -/
def cryptFrom (d : CryptDir) (R : Nat) : Nat → List Byte → Sponge → List Byte × Sponge
  | 0, D, S => cryptLast d R D S
  | m + 1, D, S =>
    let o := cryptBlock d R (D.take 96) S
    let r := cryptFrom d R m (D.drop 96) o.2
    (o.1 ++ r.1, r.2)

/-- `encrypt_data` and `decrypt_data` (41_block_codec.md R151, R154, R158). -/
def cryptData (skip : Bool) (d : CryptDir) (R : Nat) (D : List Byte) (S : Sponge) : List Byte × Sponge :=
  if skip && D.isEmpty then ([], S) else cryptFrom d R (D.length / 96) D S

/-- The message of a Seal or Open as byte strings: what `Seal(nonce, plaintext, header, trailer, key)` takes
(10_state.md R39), with the round count and the parameter SKIP_EMPTY_PHASE. -/
structure MessageParams where
  skip   : Bool
  rounds : Nat
  key    : Quad
  nonce  : Quad
  header  : List Byte
  trailer : List Byte

/-- The payload bytes and the tag of a message, in the phase order of 42_orchestrator.md R185. -/
def processMessage (p : MessageParams) (d : CryptDir) (body : List Byte) : List Byte × List Byte :=
  let S := absorbData p.skip .header p.rounds p.header (initSponge p.key p.nonce p.rounds)
  let o := cryptData p.skip d p.rounds body S
  (o.1, finalTag p.key p.rounds (absorbData p.skip .trailer p.rounds p.trailer o.2))

/-- Seal as a function of byte strings: the ciphertext followed by the tag (42_orchestrator.md R172). -/
def sealBytes (p : MessageParams) (plaintext : List Byte) : List Byte :=
  let o := processMessage p .enc plaintext
  o.1 ++ o.2

/-- Open as a function of byte strings: the plaintext, where the tag matches; `none` is an authentication failure
(42_orchestrator.md R174). -/
def openBytes (p : MessageParams) (sealed : List Byte) : Option (List Byte) :=
  if sealed.length < 32 then none
  else
    let n := sealed.length - 32
    let o := processMessage p .dec (sealed.take n)
    if o.2 = sealed.drop n then some o.1 else none

end Sys2Proof.Machine
end

