-- ==== Sys2Proof/Machine/Memory.lean ====
section
/-! DEFINITION. DMA memory as a list of written bytes in one canonical form, and its reads and writes of one byte and of
byte strings (20_memory.md R70, R90). -/

namespace Sys2Proof.Machine

/-- The canonical form: addresses strictly rise from `lo` on and lie below 2^64 (20_memory.md R70). -/
def Memory.wfFrom : Nat → Memory → Bool
  | _, [] => true
  | lo, (a, _) :: m => decide (lo ≤ a) && decide (a < 2 ^ 64) && Memory.wfFrom (a + 1) m

/-- The canonical form of a whole memory. No entry equals what an unlisted address reads as, since that is no value. -/
def Memory.wf (m : Memory) : Bool := Memory.wfFrom 0 m

/-- The last value written to address `a`; `none` where nothing has written it (20_memory.md R90; log 3). -/
def Memory.read : Memory → Nat → Option Byte
  | [], _ => none
  | (b, v) :: m, a => if a = b then some v else Memory.read m a

/-- The byte `v` put in its place in the rising order. -/
def Memory.insert : Memory → Nat → Byte → Memory
  | [], a, v => [(a, v)]
  | (b, w) :: m, a, v =>
    if a < b then (a, v) :: (b, w) :: m
    else if a = b then (a, v) :: m
    else (b, w) :: Memory.insert m a v

/-- A write of one byte. The space ends at 2^64 (20_memory.md R70): beyond it there is nothing to write. -/
def Memory.write (m : Memory) (a : Nat) (v : Byte) : Memory :=
  if a < 2 ^ 64 then Memory.insert m a v else m

/-- The bytes `v` written to `a`, `a + 1`, … in turn (20_memory.md R77). -/
def Memory.store (m : Memory) (a : Nat) : List Byte → Memory
  | [] => m
  | v :: vs => Memory.store (Memory.write m a v) (a + 1) vs

/-- The `n` bytes at `a`, where every one of them has been written: memory[a .. a+n) of the rules. -/
def Memory.load (m : Memory) (a : Nat) : Nat → Option (List Byte)
  | 0 => some []
  | n + 1 =>
    match Memory.read m a, Memory.load m (a + 1) n with
    | some v, some vs => some (v :: vs)
    | _, _ => none

end Sys2Proof.Machine
end

