-- ==== Sys2Proof/Machine/Operands.lean ====
section
/-! DEFINITION. The operand forms: regions and their validity, the platform's answer to each DMA byte, the register map
and the regions a running command touches. -/

namespace Sys2Proof.Machine

/-- `valid(a, n)`: the region is empty or ends at or below 2^64, in exact arithmetic (20_memory.md R79). -/
def validRegion (r : Region) : Bool := decide (r.len = 0) || decide (r.addr + r.len ≤ 2 ^ 64)

/-- Whether address `a` lies in the region. -/
def Region.contains (r : Region) (a : Nat) : Bool := decide (r.addr ≤ a) && decide (a < r.addr + r.len)

/-- Whether a refused range refuses address `a` in direction `d`. -/
def rangeRefuses (d : Dir) (a : Nat) (r : RefusedRange) : Bool :=
  decide (r.lo ≤ a) && decide (a < r.lo + r.len) &&
    match d with
    | .read => r.reads
    | .write => r.writes

/-- `mem_ok(addr, dir)` (00_scope.md R7). The space ends at 2^64, and nothing answers beyond it (20_memory.md R70). -/
def memOk (p : Platform) (d : Dir) (a : Nat) : Bool :=
  decide (a < 2 ^ 64) && !p.refused.any (rangeRefuses d a)

/-- The least refused address of the `n` bytes at `a`, if any (20_memory.md R76, R77, 60_exceptions.md R215). -/
def firstRefused (p : Platform) (d : Dir) (a : Nat) : Nat → Option Nat
  | 0 => none
  | n + 1 => if memOk p d a then firstRefused p d (a + 1) n else some a

/-- The header region (10_state.md R39). -/
def State.hdr (s : State) : Region := ⟨s.hdrAddr.toNat, s.hdrLen.toNat⟩

/-- The IN region (10_state.md R39). -/
def State.inp (s : State) : Region := ⟨s.inAddr.toNat, s.inLen.toNat⟩

/-- The trailer region (10_state.md R39). -/
def State.trl (s : State) : Region := ⟨s.trlAddr.toNat, s.trlLen.toNat⟩

/-- `n` bytes at OUT_ADDR (10_state.md R39). -/
def State.out (s : State) (n : Nat) : Region := ⟨s.outAddr.toNat, n⟩

/-- The regions the running command reads (42_orchestrator.md R173, R175, 40_permutation.md R130). -/
def readRegions (s : State) : List Region :=
  match s.running with
  | some .sealMsg => [s.hdr, s.inp, s.trl]
  | some .openMsg => [s.hdr, s.inp, s.trl]
  | some (.permute _) => [⟨s.inAddr.toNat, 128⟩]
  | _ => []

/-- The regions the running command writes (42_orchestrator.md R173, R175, 40_permutation.md R130). -/
def writeRegions (s : State) : List Region :=
  match s.running with
  | some .sealMsg => [s.out (s.inLen.toNat + 32)]
  | some .openMsg => [s.out (s.inLen.toNat - 32)]
  | some (.permute _) => [s.out 128]
  | _ => []

/-- A write of another agent to `a` conflicts with the running command: the command reads or writes that byte
(20_memory.md R85, 70_reset_and_hazards.md R246). By R246 every byte of its regions counts while BUSY = 1; that this is so also where
the command makes no access, by a failed check or a short OPEN, is the model's choice (log 5). -/
def conflicts (s : State) (a : Nat) : Bool :=
  s.busy && (readRegions s ++ writeRegions s).any (fun r => r.contains a)

/-- What is left of a region without the bytes of another: at most two pieces. -/
def Region.minus (r q : Region) : List Region :=
  [⟨r.addr, min r.len (q.addr - r.addr)⟩,
    ⟨max r.addr (q.addr + q.len), r.addr + r.len - max r.addr (q.addr + q.len)⟩].filter fun x => x.len != 0

/-- Whether the host may hold a stale copy of the byte at `a` in a cache (20_memory.md R89). -/
def staleAt (s : State) (a : Nat) : Bool := !s.platform.dmaCoherent && s.stale.any fun r => r.contains a

/-- What a read of `a` cannot rely on: a byte the running command writes (20_memory.md R85), and, for the host alone, a byte of
which it may hold a stale copy (20_memory.md R89); other agents see the bus (R81). That the output region counts while BUSY = 1
also where the command makes no access is the model's choice (log 6). -/
def hostReadOpen (who : Reader) (s : State) (a : Nat) : Bool :=
  (s.busy && (writeRegions s).any (fun r => r.contains a)) ||
    match who with
    | .host => staleAt s a
    | .other => false

/-- The offset of each register (10_state.md R42). -/
def Reg.offset : Reg → Nat
  | .id => 0x000
  | .ctrl => 0x008
  | .cmd => 0x010
  | .status => 0x018
  | .config => 0x020
  | .irqEn => 0x028
  | .outLen => 0x030
  | .faultAddr => 0x038
  | .key i => 0x040 + 8 * i.val
  | .nonce i => 0x060 + 8 * i.val
  | .hdrAddr => 0x080
  | .hdrLen => 0x088
  | .inAddr => 0x090
  | .inLen => 0x098
  | .trlAddr => 0x0A0
  | .trlLen => 0x0A8
  | .outAddr => 0x0B0
  | .reserved n => 0x0B8 + 8 * n.val

/-- Every register of the window, in the order of the map (10_state.md R42). -/
def allRegs : List Reg :=
  [.id, .ctrl, .cmd, .status, .config, .irqEn, .outLen, .faultAddr,
   .key 0, .key 1, .key 2, .key 3, .nonce 0, .nonce 1, .nonce 2, .nonce 3,
   .hdrAddr, .hdrLen, .inAddr, .inLen, .trlAddr, .trlLen, .outAddr,
   .reserved 0, .reserved 1, .reserved 2, .reserved 3, .reserved 4, .reserved 5, .reserved 6, .reserved 7, .reserved 8]

/-- The register at an offset that is a multiple of 8 below 0x100; `none` at any other offset (20_memory.md R74). -/
def regAt (off : Nat) : Option Reg := allRegs.find? (fun r => r.offset == off)

/-- The protected registers (10_state.md R43). -/
def Reg.isProtected : Reg → Bool
  | .cmd | .config | .key _ | .nonce _ => true
  | .hdrAddr | .hdrLen | .inAddr | .inLen | .trlAddr | .trlLen | .outAddr => true
  | .id | .ctrl | .status | .irqEn | .outLen | .faultAddr | .reserved _ => false

/-- What a bus address and an access width select (20_memory.md R74, 10_state.md R41). -/
inductive Selected where
  /-- A register. -/
  | reg (r : Reg)
  /-- Inside the window, but not a 64-bit access at a multiple of 8. -/
  | misformed
  /-- Outside the window. -/
  | outside
deriving DecidableEq, Repr

/-- The window's address decoder: `REG_BASE + offset`, 256 bytes (10_state.md R42, 20_memory.md R70, R74). -/
def select (p : Platform) (addr : Word) (width : Nat) : Selected :=
  if addr.toNat < p.regBase.toNat ∨ p.regBase.toNat + 256 ≤ addr.toNat then .outside
  else if width ≠ 64 then .misformed
  else match regAt (addr.toNat - p.regBase.toNat) with
    | some r => .reg r
    | none => .misformed

/-- The bus address of a register (10_state.md R42). -/
def busAddr (p : Platform) (r : Reg) : Word := p.regBase + BitVec.ofNat 64 r.offset

end Sys2Proof.Machine
end

