-- ==== Sys2Proof/Machine/Ops.lean ====
section
/-! DEFINITION. The shared operations: registers, resets, outside events, the slots of a running command, DMA, acceptance,
completion, raising an error (this hardware's exception), erasure. -/

namespace Sys2Proof.Machine

/-! ## Small updates -/

/-- Records what the engine does (log 11). -/
def logEvent (e : EngineEvent) (s : State) : State := { s with trace := s.trace ++ [e] }

/-- Records an answer to an outside access (log 8). -/
def respond (r : Response) (s : State) : State := { s with responses := r :: s.responses }

/-- One more use of a free value has been made (log 3-6). -/
def nextDraw (s : State) : State := { s with draws := s.draws + 1 }

/-- Replaces the permutation state. -/
def setSponge (S : Sponge) (s : State) : State := { s with S := S }

/-- Loads BLK (10_state.md R28). -/
def setBlk (b : List Byte) (s : State) : State := { s with blk := toBuffer 96 b }

/-- `erase(BLK)` (41_block_codec.md R159, 00_scope.md R12). -/
def eraseBlk (s : State) : State := { s with blk := Vector.replicate 96 0 }

/-- One more full block done (10_state.md R29). -/
def countBlock (s : State) : State := { s with k := s.k + 1 }

/-- `erase(S); erase(BLK); erase(TAGBUF); erase(T); diff <- 0` (42_orchestrator.md R178, 60_exceptions.md R212). -/
def eraseTransients (s : State) : State :=
  { s with
    S := zeroSponge, blk := Vector.replicate 96 0, tagBuf := Vector.replicate 32 0,
    tag := Vector.replicate 32 0, diff := 0 }

/-- `KEY <- 0; NONCE <- 0; KEY_MASK <- 0; NONCE_MASK <- 0` (42_orchestrator.md R178, 60_exceptions.md R212). -/
def eraseSecrets (s : State) : State :=
  { s with
    key := Vector.replicate 4 0, keyMask := 0, nonce := Vector.replicate 4 0, nonceMask := 0 }

/-- `wipe()` (42_orchestrator.md R178). -/
def wipe (s : State) : State := eraseSecrets (eraseTransients s)

/-- `reg(OUT_LEN) <- v` (10_state.md R37). -/
def setOutLen (v : Word) (s : State) : State := { s with outLen := v }

/-- Sets the two authentication results (10_state.md R31). -/
def setAuth (ok fail : Bool) (s : State) : State := { s with authOk := ok, authFail := fail }

/-! ## Completion and errors -/

/-- The command is over: no byte is raced any more, and what it wrote stays stale in the host's caches until the host discards
it (20_memory.md R85, R89; log 5, 6). -/
def settle (s : State) : State :=
  { s with running := none, raced := [], fresh := [], stale := s.fresh ++ s.stale }

/-- `complete(err)` (42_orchestrator.md R171). -/
def complete (e : ErrCode) (s : State) : State :=
  logEvent (.completed e) (settle { s with err := e, phase := .idle, k := 0, busy := false, done := true })

/-- Whether the running command is a SEAL or an OPEN; an illegal word is neither, whatever its OPC byte
(60_exceptions.md R212, R216; log 7). -/
def runsMessage (s : State) : Bool :=
  match s.running with
  | some .sealMsg => true
  | some .openMsg => true
  | _ => false

/-- `raise Error(code)`: the one exception of this hardware (60_exceptions.md R212). Its erasures and its completion are one
event: no read with BUSY = 1 falls between them and sees the masks or NONCE already erased, which is the model's choice
(log 24). -/
def raiseError (e : ErrCode) (s : State) : State :=
  let s := eraseTransients s
  let s := if runsMessage s then eraseSecrets s else s
  complete e (setAuth false false (setOutLen 0 s))

/-- A DMA access was refused at address `a` (60_exceptions.md R215). FAULT_ADDR is set in one event with the completion: that no
read with BUSY = 1 sees it set, which 10_state.md R44 allows, is the model's choice (log 24). -/
def busFault (a : Nat) (s : State) : State :=
  raiseError .busFault { s with faultAddr := BitVec.ofNat 64 a }

/-! ## Resets -/

/-- Hard reset, and soft reset, which equals it: every item of the block at its reset value. Memory, the platform and
what has not arrived yet are not the block's (70_reset_and_hazards.md R240-R242; of the model's own fields, log 13). -/
def resetEngine (s : State) : State :=
  logEvent .reset (settle { s with toEngine := Engine.reset })

/-! ## The register window -/

/-- A host read of a register; it has no side effect (10_state.md R44, R42). -/
def readReg (r : Reg) (s : State) : Word :=
  match r with
  | .id => 0x4E4F525800000001
  | .ctrl => 0
  | .cmd => 0
  | .status => statusWord s
  | .config => s.rounds.setWidth 64
  | .irqEn => (BitVec.ofBool s.doneIe).setWidth 64
  | .outLen => s.outLen
  | .faultAddr => s.faultAddr
  | .key _ => 0
  | .nonce i => s.nonce[i]
  | .hdrAddr => s.hdrAddr
  | .hdrLen => s.hdrLen
  | .inAddr => s.inAddr
  | .inLen => s.inLen
  | .trlAddr => s.trlAddr
  | .trlLen => s.trlLen
  | .outAddr => s.outAddr
  | .reserved _ => 0

/-- The effect of a host write on the register itself. A CMD word that is accepted takes effect in `step`, through the
decoder; nothing is stored (10_state.md R34). -/
def storeReg (r : Reg) (v : Word) (s : State) : State :=
  match r with
  | .id => s
  | .ctrl => if v.getLsbD 0 then resetEngine s else s
  | .cmd => s
  | .status => { s with done := s.done && !v.getLsbD 1, wrBusy := s.wrBusy && !v.getLsbD 4 }
  | .config => { s with rounds := v.extractLsb' 0 4 }
  | .irqEn => { s with doneIe := v.getLsbD 0 }
  | .outLen => s
  | .faultAddr => s
  | .key i => { s with key := s.key.set i v, keyMask := s.keyMask ||| (1#4 <<< i.val) }
  | .nonce i => { s with nonce := s.nonce.set i v, nonceMask := s.nonceMask ||| (1#4 <<< i.val) }
  | .hdrAddr => { s with hdrAddr := v }
  | .hdrLen => { s with hdrLen := v }
  | .inAddr => { s with inAddr := v }
  | .inLen => { s with inLen := v }
  | .trlAddr => { s with trlAddr := v }
  | .trlLen => { s with trlLen := v }
  | .outAddr => { s with outAddr := v }
  | .reserved _ => s

/-- A write of a protected register while BUSY = 1 is dropped and sets WR_BUSY (10_state.md R43). -/
def turnAway (s : State) : State := { s with wrBusy := true }

/-- A host write of a register (10_state.md R23-R43). -/
def writeReg (r : Reg) (v : Word) (s : State) : State :=
  if r.isProtected && s.busy then turnAway s else storeReg r v s

/-! ## Outside events -/

/-- The byte the host or another agent reads from DMA memory (20_memory.md R81, R85, R89; log 3, 6). -/
def hostByteAt (who : Reader) (s : State) (a : Nat) : Byte :=
  if hostReadOpen who s a then Config.hostByte s.draws a
  else match Memory.read s.mem a with
    | some v => v
    | none => Config.coldByte s.draws a

/-- Another agent's write of one byte: a race where it conflicts with the running command, after which the byte is worth
anything until the command ends (20_memory.md R85, 70_reset_and_hazards.md R246; log 5). The event names no writer, and a stale byte
stays stale to the host's reads, also after the host's own write of it, until a discard: the model's choice (log 6). -/
def agentWrite (a : Nat) (v : Byte) (s : State) : State :=
  if conflicts s a then
    nextDraw { s with mem := Memory.write s.mem a (Config.racedByte s.draws a), raced := a :: s.raced }
  else { s with mem := Memory.write s.mem a v }

/-- The effect of an outside event. A CMD write to an idle engine is the one event that is not handled here: `step` hands
it to the decoder. A discard of the host's cached copies drops them for the commands that have ended, at any time (20_memory.md R89);
that one before the running command's end frees no byte of THAT command is the model's choice (log 6). -/
def hostEvent (e : HostEvent) (s : State) : State :=
  match e with
  | .regRead addr width =>
    match select s.platform addr width with
    | .reg r => respond (.readData (readReg r s)) s
    | .misformed => respond (.busError 0) s
    | .outside => respond .notDecoded s
  | .regWrite addr width data =>
    match select s.platform addr width with
    | .reg r => writeReg r data (respond .writeDone s)
    | .misformed => respond (.busError 0) s
    | .outside => respond .notDecoded s
  | .memRead who addr => nextDraw (respond (.memData (hostByteAt who s addr.toNat)) s)
  | .memWrite addr v => agentWrite addr.toNat v s
  | .cacheDiscard q => { s with stale := s.stale.flatMap fun r => r.minus q }
  | .hardReset => resetEngine s
  | .dmaStall => s

/-- The command word an event offers to the engine: a well-formed write of CMD. This is the engine's fetch
(30_encoding.md R106, 10_state.md R34). -/
def cmdWord? (p : Platform) (e : HostEvent) : Option Word :=
  match e with
  | .regWrite addr width data => if select p addr width = .reg .cmd then some data else none
  | _ => none

/-! ## The slots of a running command -/

/-- Going on after a command's part that went well. -/
def Run.bind {α β : Type} (r : Run α) (f : α → State → Run β) : Run β :=
  match r with
  | .ok a s => f a s
  | .ended s => .ended s

/-- The state a command has come to. -/
def Run.state {α : Type} : Run α → State
  | .ok _ s => s
  | .ended s => s

/-- Whether an event is the platform's silence (60_exceptions.md R224). -/
def HostEvent.isStall : HostEvent → Bool
  | .dmaStall => true
  | _ => false

/-- The outside events that land at a slot take effect, in order (log 2). `begun` is there where a DMA access begins at
this slot: what that access leaves when it is cut short. The command goes on, unless a reset abandons it (only a reset
clears BUSY meanwhile; 70_reset_and_hazards.md R241) or its access is never answered (60_exceptions.md R224). -/
def land (begun : Option (State → State)) : List Arrival → State → Run Unit
  | [], s => .ok () { s with inbox := [] }
  | x :: rest, s =>
    match x.time with
    | .whenIdle => .ok () { s with inbox := x :: rest }
    | .slot (n + 1) inside => .ok () { s with inbox := { x with time := .slot n inside } :: rest }
    | .slot 0 inside =>
      let s := { s with inbox := rest }
      let cutShort := begun.getD id
      if begun.isSome && x.event.isStall then .ended (cutShort s)
      else if (hostEvent x.event s).busy then land begun rest (hostEvent x.event s)
      else .ended (hostEvent x.event (if inside then cutShort s else s))

/-- A slot at which no DMA access begins. -/
def slot (s : State) : Run Unit := land none s.inbox s

/-- `phase <- P`, with `k` back at 0 (10_state.md R29). -/
def setPhase (p : Phase) (s : State) : State := { s with phase := p, k := 0 }

/-- The sequencer enters a phase, and outside events can land (42_orchestrator.md R183). -/
def enter (p : Phase) (s : State) : Run Unit := slot (logEvent (.enter p) (setPhase p s))

/-! ## DMA -/

/-- The byte a DMA read returns: any value where the byte is raced or was never written, else the last value written
(20_memory.md R76, R85, R90; log 3, 5). -/
def dmaByte (s : State) (a : Nat) : Byte :=
  if s.raced.contains a then Config.racedByte s.draws a
  else match Memory.read s.mem a with
    | some v => v
    | none => Config.coldByte s.draws a

/-- The `n` bytes a DMA read at `a` returns, in ascending order (20_memory.md R76). -/
def dmaBytes (s : State) (a : Nat) : Nat → List Byte
  | 0 => []
  | n + 1 => dmaByte s a :: dmaBytes s (a + 1) n

/-- The byte that a DMA write of `v` leaves at `a`: any value where it is raced (20_memory.md R85; log 5). -/
def dmaStored (s : State) (a : Nat) (v : Byte) : Byte :=
  if s.raced.contains a then Config.racedByte s.draws a else v

/-- The bytes that a DMA write of `v` leaves from `a` on. -/
def dmaStoredBytes (s : State) (a : Nat) : List Byte → List Byte
  | [] => []
  | v :: vs => dmaStored s a v :: dmaStoredBytes s (a + 1) vs

/-- Memory after an access that wrote to the region; the host's cached copies of it are stale from now on
(20_memory.md R77, R89). -/
def setWritten (m : Memory) (r : Region) (s : State) : State :=
  nextDraw { s with mem := m, fresh := r :: s.fresh }

/-- All bytes written (20_memory.md R77). -/
def storeAll (a : Nat) (v : List Byte) (s : State) : State :=
  setWritten (Memory.store s.mem a (dmaStoredBytes s a v)) ⟨a, v.length⟩ s

/-- Each byte old or new, independently, by draw `d` (20_memory.md R77; log 4). -/
def tornStore (d : Nat) (m : Memory) (a : Nat) : List Byte → Memory
  | [] => m
  | v :: vs => tornStore d (if Config.landed d a then Memory.write m a v else m) (a + 1) vs

/-- The part of a write that the bus can have taken: the bytes before the first refused one (20_memory.md R77). -/
def answeredPart (p : Platform) (a : Nat) (v : List Byte) : List Byte :=
  match firstRefused p .write a v.length with
  | some x => v.take (x - a)
  | none => v

/-- A write that was cut short: the bytes before the first refused one may each have landed, no other byte changes
(20_memory.md R77, 60_exceptions.md R215, 70_reset_and_hazards.md R241). That the host may hold every byte of the access stale, also
those from the refused byte on, which are never written, is the model's choice (log 6). -/
def storeTorn (a : Nat) (v : List Byte) (s : State) : State :=
  setWritten (tornStore s.draws s.mem a (dmaStoredBytes s a (answeredPart s.platform a v))) ⟨a, v.length⟩ s

/-- `MemRead(addr, n)`, one access; none where n = 0 (20_memory.md R76, R80). -/
def dmaRead (a n : Nat) (s : State) : Run (List Byte) :=
  if n = 0 then .ok [] s
  else
    (land (some (logEvent (.read a n))) s.inbox s).bind fun _ s =>
    let s := logEvent (.read a n) s
    match firstRefused s.platform .read a n with
    | some x => .ended (busFault x s)
    | none => .ok (dmaBytes s a n) (nextDraw s)

/-- `MemWrite(addr, n, v)`, one access; none where v is empty (20_memory.md R77, R80). -/
def dmaWrite (a : Nat) (v : List Byte) (s : State) : Run Unit :=
  if v.isEmpty then .ok () s
  else
    (land (some fun s => storeTorn a v (logEvent (.write a v.length) s)) s.inbox s).bind fun _ s =>
    let s := logEvent (.write a v.length) s
    match firstRefused s.platform .write a v.length with
    | some x => .ended (busFault x (storeTorn a v s))
    | none => .ok () (storeAll a v s)

/-! ## Acceptance -/

/-- `accept(v)` up to the choice of the command (42_orchestrator.md R170). `cmd` is `none` for an illegal word. -/
def accept (opc : Byte) (cmd : Option Instr) (s : State) : State :=
  logEvent (.accepted opc)
    { s with
      done := false, authOk := false, authFail := false, err := .noError, lastOpc := opc,
      faultAddr := 0, busy := true, running := cmd, raced := [] }

/-- A write of CMD with this OPC byte: dropped while BUSY = 1 (10_state.md R34, R43), else accepted and run
(42_orchestrator.md R170). -/
def issue (opc : Byte) (cmd : Option Instr) (body : State → Run Unit) (s : State) : State :=
  if s.busy then turnAway s
  else ((slot (accept opc cmd s)).bind fun _ t => body t).state

/-- A command word that is not legal: it ends at once with ILLEGAL_CMD (30_encoding.md R105, 60_exceptions.md R216). -/
def illegalCommand (w : Word) (s : State) : State :=
  issue (w.extractLsb' 0 8) none (fun t => .ended (raiseError .illegalCmd t)) s

end Sys2Proof.Machine
end

