-- ==== Sys2Proof/Machine/Orchestrator.lean ====
section
/-! DEFINITION. The orchestrator's commands NOP, ERASE, SEAL and OPEN (42_orchestrator.md). -/

namespace Sys2Proof.Machine

/-! ## NOP and ERASE -/

/-- NOP (42_orchestrator.md R182). -/
def execNop (s : State) : Host.Outcome State Fault Refusal :=
  .next (issue 0x00 (some .nop) (fun s => .ok () (complete .noError s)) s)

/-- `phase <- WIPE; wipe()`, with a slot between the wipe and what follows (42_orchestrator.md R172, R174, R181). -/
def wipePhase (s : State) : Run Unit := (enter .wipe s).bind fun _ s => slot (wipe s)

/-- ERASE (42_orchestrator.md R181). -/
def execErase (s : State) : Host.Outcome State Fault Refusal :=
  .next (issue 0x04 (some .erase)
    (fun s => (wipePhase s).bind fun _ s => .ok () (complete .noError (setOutLen 0 s))) s)

/-! ## The checks -/

/-- Steps 2 to 5 of the checks; `none` where they pass (42_orchestrator.md R180, 60_exceptions.md R217). -/
def inputCheck (s : State) : Option ErrCode :=
  if !roundsValid s.rounds then some .badRounds
  else if !allLoaded s.keyMask then some .keyNotLoaded
  else if !allLoaded s.nonceMask then some .nonceNotLoaded
  else if !validRegion s.hdr || !validRegion s.inp || !validRegion s.trl then some .badRange
  else none

/-- Step 7 for SEAL: OUT_LEN must fit in 64 bits and the output region be valid (42_orchestrator.md R179). -/
def sealOutputOk (s : State) : Bool :=
  decide (s.inLen.toNat + 32 ≤ 2 ^ 64 - 1) && validRegion (s.out (s.inLen.toNat + 32))

/-- Step 7 for OPEN (42_orchestrator.md R179). -/
def openOutputOk (s : State) : Bool := validRegion (s.out (s.inLen.toNat - 32))

/-! ## The regions -/

/-- One codec operation on the block in BLK, with the call of F it makes (41_block_codec.md R157). -/
def codecStep (t : Tag) (R : Nat) (blk : List Byte) (S : Sponge) (s : State) : State :=
  setSponge S (logEvent (.permute (some t) R) (setBlk blk s))

/-- The full blocks of `absorb_region` from block `k` on (42_orchestrator.md R186). -/
def absorbBlocks (a : Nat) (t : Tag) (R : Nat) : Nat → State → Run Unit
  | 0, s => .ok () s
  | left + 1, s =>
    (dmaRead (a + 96 * s.k) 96 s).bind fun b s =>
    absorbBlocks a t R left (countBlock (codecStep t R b (absorbBlock t R b s.S) s))

/-- `absorb_region(a, n, tag)` (42_orchestrator.md R186). -/
def absorbRegion (r : Region) (t : Tag) (R : Nat) (s : State) : Run Unit :=
  if s.platform.skipEmptyPhase && decide (r.len = 0) then .ok () s
  else
    (absorbBlocks r.addr t R (r.len / 96) s).bind fun _ s =>
    (dmaRead (r.addr + 96 * (r.len / 96)) (r.len % 96) s).bind fun tail s =>
    .ok () (eraseBlk (codecStep t R (pad tail) (absorbLast t R tail s.S) s))

/-- The full blocks of `crypt_region` from block `k` on (42_orchestrator.md R187). -/
def cryptBlocks (ia oa : Nat) (d : CryptDir) (R : Nat) : Nat → State → Run Unit
  | 0, s => .ok () s
  | left + 1, s =>
    (dmaRead (ia + 96 * s.k) 96 s).bind fun b s =>
    let o := cryptBlock d R b s.S
    (dmaWrite (oa + 96 * s.k) o.1 (codecStep .payload R b o.2 s)).bind fun _ s =>
    cryptBlocks ia oa d R left (countBlock s)

/-- `crypt_region(ia, oa, n, dir)` (42_orchestrator.md R187). BLK holds the tail's padded or
reconstructed block (10_state.md R28) until the codec operation ends, which is before the write (41_block_codec.md R159). -/
def cryptRegion (ia oa n : Nat) (d : CryptDir) (R : Nat) (s : State) : Run Unit :=
  if s.platform.skipEmptyPhase && decide (n = 0) then .ok () s
  else
    (cryptBlocks ia oa d R (n / 96) s).bind fun _ s =>
    (dmaRead (ia + 96 * (n / 96)) (n % 96) s).bind fun tail s =>
    let o := cryptLast d R tail s.S
    (dmaWrite (oa + 96 * (n / 96)) o.1 (eraseBlk (codecStep .payload R (cryptTailBlock d R tail s.S) o.2 s))).bind fun _ s =>
    .ok () (eraseBlk s)

/-- `initialize(KEY, NONCE, R)` (41_block_codec.md R145). -/
def initStep (R : Nat) (s : State) : State :=
  logEvent (.permute none R) (setSponge (initSponge s.key s.nonce R) s)

/-- `T <- finalize(KEY, R)`; S is erased with it (41_block_codec.md R155). -/
def finalStep (R : Nat) (s : State) : State :=
  let t := finalTag s.key R s.S
  logEvent (.permute none R) (logEvent (.permute (some .final) R)
    { s with tag := toBuffer 32 t, S := zeroSponge })

/-- The phases HEADER, PAYLOAD and TRAILER of a message with an `n`-byte body, and `finalize` at the start of FINAL
(42_orchestrator.md R172, R174, R185). -/
def messagePhases (d : CryptDir) (n R : Nat) (s : State) : Run Unit :=
  (enter .header (initStep R s)).bind fun _ s =>
  (absorbRegion s.hdr .header R s).bind fun _ s =>
  (enter .payload s).bind fun _ s =>
  (cryptRegion s.inAddr.toNat s.outAddr.toNat n d R s).bind fun _ s =>
  (enter .trailer s).bind fun _ s =>
  (absorbRegion s.trl .trailer R s).bind fun _ s =>
  (enter .final s).bind fun _ s =>
  .ok () (finalStep R s)

/-! ## SEAL -/

/-- SEAL after its checks (42_orchestrator.md R172). -/
def sealRun (s : State) : Run Unit :=
  let n := s.inLen.toNat
  (messagePhases .enc n s.rounds.toNat s).bind fun _ s =>
  (dmaWrite (s.outAddr.toNat + n) s.tag.toList s).bind fun _ s =>
  (wipePhase s).bind fun _ s =>
  .ok () (complete .noError (setOutLen (BitVec.ofNat 64 (n + 32)) s))

/-- SEAL after its acceptance (42_orchestrator.md R172, R180). -/
def sealBody (s : State) : Run Unit :=
  (enter .init s).bind fun _ s =>
  match inputCheck s with
  | some e => .ended (raiseError e s)
  | none => if !sealOutputOk s then .ended (raiseError .badRange s) else sealRun s

/-- SEAL (42_orchestrator.md R172). -/
def execSeal (s : State) : Host.Outcome State Fault Refusal :=
  .next (issue 0x01 (some .sealMsg) sealBody s)

/-! ## OPEN -/

/-- `diff` after all 32 bytes; no early exit (42_orchestrator.md R176). -/
def tagDiff (x y : List Byte) : Byte := (List.zipWith (· ^^^ ·) x y).foldl (· ||| ·) 0

/-- OPEN's "short" step: an authentication failure with no access and no permutation (42_orchestrator.md R174, R180). That no
read with BUSY = 1 falls between its wipe and its completion is the model's choice (log 24). -/
def openShort (s : State) : State :=
  complete .noError (setOutLen 0 (setAuth false true (wipe s)))

/-- The supplied tag is loaded into TAGBUF (42_orchestrator.md R174, 10_state.md R27). -/
def loadTagBuf (b : List Byte) (s : State) : State := { s with tagBuf := toBuffer 32 b }

/-- `ok <- ct_equal(T, TAGBUF)`: the accumulator takes the OR of the byte differences (42_orchestrator.md R176). -/
def compareTags (s : State) : State := { s with diff := tagDiff s.tag.toList s.tagBuf.toList }

/-- OPEN after its checks, with an `n`-byte body (42_orchestrator.md R174). -/
def openRun (s : State) : Run Unit :=
  let n := s.inLen.toNat - 32
  (dmaRead (s.inAddr.toNat + n) 32 s).bind fun b s =>
  (messagePhases .dec n s.rounds.toNat (loadTagBuf b s)).bind fun _ s =>
  let s := compareTags s
  let ok := s.diff == 0
  (if ok then .ok () s else dmaWrite s.outAddr.toNat (zeros n) s).bind fun _ s =>
  (wipePhase s).bind fun _ s =>
  .ok () (complete .noError
    (setOutLen (if ok then BitVec.ofNat 64 n else 0) (setAuth ok (!ok) s)))

/-- OPEN after its acceptance (42_orchestrator.md R174, R180). -/
def openBody (s : State) : Run Unit :=
  (enter .init s).bind fun _ s =>
  match inputCheck s with
  | some e => .ended (raiseError e s)
  | none =>
    if s.inLen.toNat < 32 then .ok () (openShort s)
    else if !openOutputOk s then .ended (raiseError .badRange s)
    else openRun s

/-- OPEN (42_orchestrator.md R174). -/
def execOpen (s : State) : Host.Outcome State Fault Refusal :=
  .next (issue 0x02 (some .openMsg) openBody s)

end Sys2Proof.Machine
end

