-- ==== Sys2Proof/Machine/Permute.lean ====
section
/-! DEFINITION. PERMUTE, the permutation self-test (40_permutation.md R130). -/

namespace Sys2Proof.Machine

/-- PERMUTE after its acceptance (40_permutation.md R130). -/
def permuteBody (rounds : Nat) (s : State) : Run Unit :=
  (enter .perm s).bind fun _ s =>
  if !validRegion ⟨s.inAddr.toNat, 128⟩ || !validRegion (s.out 128) then .ended (raiseError .badRange s)
  else
    (dmaRead s.inAddr.toNat 128 s).bind fun b s =>
    let s := logEvent (.permute none rounds) (setSponge (F rounds (loadSponge b)) s)
    (dmaWrite s.outAddr.toNat (spongeBytes s.S) s).bind fun _ s =>
    .ok () (complete .noError (setOutLen 128 (setSponge zeroSponge s)))

/-- PERMUTE (40_permutation.md R130). -/
def execPermute (rounds : Nat) (s : State) : Host.Outcome State Fault Refusal :=
  .next (issue 0x03 (some (.permute rounds)) (permuteBody rounds) s)

end Sys2Proof.Machine
end

