-- ==== Sys2Proof/Machine/Dispatch.lean ====
section
/-! DEFINITION. One arm per command (30_encoding.md R104). -/

namespace Sys2Proof.Machine

def exec (i : Instr) (s : State) : Host.Outcome State Fault Refusal :=
  match i with
  | .nop => Sys2Proof.Machine.execNop s
  | .sealMsg => Sys2Proof.Machine.execSeal s
  | .openMsg => Sys2Proof.Machine.execOpen s
  | .permute rounds => Sys2Proof.Machine.execPermute rounds s
  | .erase => Sys2Proof.Machine.execErase s

end Sys2Proof.Machine
end

