-- ==== Sys2Proof/Machine/Step.lean ====
section
/-! DEFINITION. One step: the next outside access takes effect. A write of CMD is decoded and runs its command to its end
(70_reset_and_hazards.md R253). -/

namespace Sys2Proof.Machine

/-- A word that reaches CMD (10_state.md R34, 30_encoding.md R105). -/
def runWord (w : Word) (s : State) : Host.Outcome State Fault Refusal :=
  match decode w with
  | .command i => exec i s
  | .illegal _ => .next (illegalCommand w s)

/-- The next access of the inbox takes effect. With nothing to arrive an idle engine stays as it is, and one that is
stuck in a DMA access stays stuck for ever (log 8, 9). -/
def step (s : State) : Host.Outcome State Fault Refusal :=
  match s.inbox with
  | [] => if s.busy then .fault .dmaStalled else .next s
  | x :: rest =>
    let s := { s with inbox := rest }
    match cmdWord? s.platform x.event with
    | some w => runWord w (respond .writeDone s)
    | none => .next (hostEvent x.event s)

/-- `s` with the 64-bit command word `w` about to be written to CMD: the inbox's head is that write, and the engine is
idle, since a busy one takes no command (log 8). -/
def State.withFetchWord (s : State) (nbits w : Nat) : State :=
  { s with
    busy := false, running := none, phase := .idle, k := 0,
    inbox := ⟨.whenIdle, .regWrite (busAddr s.platform .cmd) 64 (BitVec.ofNat 64 (w % 2 ^ nbits))⟩ :: s.inbox }

end Sys2Proof.Machine
end

