-- ==== Sys2Proof/Machine/HostProgram.lean ====
section
/-! DEFINITION. The host-program statements (30_encoding.md R108), the pseudo-instructions with their expansions
(30_encoding.md R109), and the register accesses they put on the bus. -/

namespace Sys2Proof.Machine

/-- A base statement (30_encoding.md R108); `mem` declares memory and is no access. -/
inductive BaseStmt where
  | wr (r : Reg) (v : Word)
  | rd (r : Reg)
  | cmd (i : Instr)
  | wait
deriving DecidableEq, Repr

/-- A statement of a host program: a base statement or a pseudo-instruction (30_encoding.md R108, R109). -/
inductive HostStmt where
  | base (b : BaseStmt)
  | rounds (r : Word)
  | setkey (k0 k1 k2 k3 : Word)
  | setnonce (n0 n1 n2 n3 : Word)
  | hdr (a n : Word)
  | inp (a n : Word)
  | trl (a n : Word)
  | out (a : Word)
  | sealMsg
  | openMsg
  | permute (r : Nat)
  | erase
  | ack
  | srst
deriving DecidableEq, Repr

/-- The exact expansion of a pseudo-instruction (30_encoding.md R109). -/
def HostStmt.expand : HostStmt → List BaseStmt
  | .base b => [b]
  | .rounds r => [.wr .config r]
  | .setkey k0 k1 k2 k3 => [.wr (.key 0) k0, .wr (.key 1) k1, .wr (.key 2) k2, .wr (.key 3) k3]
  | .setnonce n0 n1 n2 n3 => [.wr (.nonce 0) n0, .wr (.nonce 1) n1, .wr (.nonce 2) n2, .wr (.nonce 3) n3]
  | .hdr a n => [.wr .hdrAddr a, .wr .hdrLen n]
  | .inp a n => [.wr .inAddr a, .wr .inLen n]
  | .trl a n => [.wr .trlAddr a, .wr .trlLen n]
  | .out a => [.wr .outAddr a]
  | .sealMsg => [.cmd .sealMsg, .wait]
  | .openMsg => [.cmd .openMsg, .wait]
  | .permute r => [.cmd (.permute r), .wait]
  | .erase => [.cmd .erase, .wait]
  | .ack => [.wr .status 0x12]
  | .srst => [.wr .ctrl 1]

/-- The bus access of a base statement; `none` where the assembler refuses it: a round count above 255. `wait` is its
last poll, the read of STATUS that finds BUSY = 0 (30_encoding.md R108). -/
def BaseStmt.access (p : Platform) : BaseStmt → Option HostEvent
  | .wr r v => some (.regWrite (busAddr p r) 64 v)
  | .rd r => some (.regRead (busAddr p r) 64)
  | .cmd i => if i.wf then some (.regWrite (busAddr p .cmd) 64 (encode i)) else none
  | .wait => some (.regRead (busAddr p .status) 64)

/-- The accesses of a program whose host waits for each command before its next access, as 70_reset_and_hazards.md R244
asks; `none` where the assembler refuses a statement. -/
def assemble (p : Platform) (prog : List HostStmt) : Option (List Arrival) :=
  ((prog.flatMap HostStmt.expand).mapM (BaseStmt.access p)).map
    fun es => es.map fun e => ⟨.whenIdle, e⟩

end Sys2Proof.Machine
end

