-- ==== Sys2Proof/Safety.lean ====
section
/-! DEFINITION. The terms the claims are stated in: quiet states, erased storage, the machine's invariant, what a command
leaves alone, when a command's conditions are met, and the expected access lists of the spec. -/

namespace Sys2Proof.Machine

/-! ## States -/

/-- No outside event lands in a command that starts now: the inbox is empty or its head waits for an idle engine. Under
this the whole command runs as one atomic step (70_reset_and_hazards.md R253). -/
def quiet (s : State) : Bool :=
  match s.inbox with
  | [] => true
  | x :: _ => x.time == .whenIdle

/-- The engine takes a command now, and nothing lands in it. -/
def idleQuiet (s : State) : Prop := s.busy = false ∧ quiet s = true

/-- S, BLK, TAGBUF, T and diff are zero (10_state.md R20, R27, R28, R45). -/
def transientsErased (s : State) : Prop :=
  s.S = zeroSponge ∧ s.blk = Vector.replicate 96 0 ∧ s.tagBuf = Vector.replicate 32 0 ∧
    s.tag = Vector.replicate 32 0 ∧ s.diff = 0

/-- KEY, NONCE and both masks are zero (42_orchestrator.md R178). -/
def secretsErased (s : State) : Prop :=
  s.key = Vector.replicate 4 0 ∧ s.keyMask = 0 ∧ s.nonce = Vector.replicate 4 0 ∧ s.nonceMask = 0

/-- What holds of every state a step can leave: memory in its canonical form; an idle engine holds no transient data and
its sequencer rests; a running one has reported nothing; the authentication results exclude each other and belong to an
OPEN without error; an error leaves no output length. -/
structure State.Inv (s : State) : Prop where
  memory : Memory.wf s.mem = true
  idle : s.busy = false →
    transientsErased s ∧ s.phase = .idle ∧ s.k = 0 ∧ s.running = none ∧ s.raced = [] ∧ s.fresh = []
  running : s.busy = true →
    s.done = false ∧ s.authOk = false ∧ s.authFail = false ∧ s.err = .noError
  auth : ¬ (s.authOk = true ∧ s.authFail = true)
  open_ : s.authOk = true ∨ s.authFail = true → s.lastOpc = 0x02 ∧ s.err = .noError
  failed : s.err ≠ .noError ∨ s.authFail = true → s.outLen = 0

/-- Software may use OUT: the completed OPEN reports ERR = 0 and AUTH_OK = 1 (70_reset_and_hazards.md R247). -/
def mayReleaseOut (s : State) : Bool := !s.busy && s.done && s.err == .noError && s.authOk

/-! ## What stays as it is -/

/-- The registers that only the host changes, CONFIG and the region registers (92_eei_decisions.md D34), the interrupt
enable and the platform. -/
def sameOperands (s t : State) : Prop :=
  t.rounds = s.rounds ∧ t.hdrAddr = s.hdrAddr ∧ t.hdrLen = s.hdrLen ∧ t.inAddr = s.inAddr ∧ t.inLen = s.inLen ∧
    t.trlAddr = s.trlAddr ∧ t.trlLen = s.trlLen ∧ t.outAddr = s.outAddr ∧ t.platform = s.platform

/-- KEY, NONCE and their masks unchanged. -/
def sameSecrets (s t : State) : Prop :=
  t.key = s.key ∧ t.keyMask = s.keyMask ∧ t.nonce = s.nonce ∧ t.nonceMask = s.nonceMask

/-- Every byte of memory outside the region reads as before. -/
def sameMemoryOutside (r : Region) (s t : State) : Prop :=
  ∀ a, r.contains a = false → Memory.read t.mem a = Memory.read s.mem a

/-- What no command changes in a quiet state: operands, IRQ_EN, WR_BUSY, and what is still to arrive. -/
def sameAround (s t : State) : Prop :=
  sameOperands s t ∧ t.doneIe = s.doneIe ∧ t.wrBusy = s.wrBusy ∧ t.inbox = s.inbox ∧ t.responses = s.responses

/-- The registers after a completion with code `e` (42_orchestrator.md R171). -/
def completedWith (e : ErrCode) (t : State) : Prop :=
  t.err = e ∧ t.busy = false ∧ t.done = true ∧ t.phase = .idle ∧ t.k = 0 ∧ t.running = none

/-- The authentication results (10_state.md R31). -/
def authIs (ok fail : Bool) (t : State) : Prop := t.authOk = ok ∧ t.authFail = fail

/-- A command makes no progress from `s` to `t`: what it has done and reached, its results and its data are as they were
(60_exceptions.md R224). -/
def noProgress (s t : State) : Prop :=
  t.trace = s.trace ∧ t.running = s.running ∧ t.phase = s.phase ∧ t.k = s.k ∧ t.S = s.S ∧ t.blk = s.blk ∧
    t.tagBuf = s.tagBuf ∧ t.tag = s.tag ∧ t.diff = s.diff ∧ t.outLen = s.outLen ∧ t.faultAddr = s.faultAddr ∧
    t.err = s.err ∧ t.lastOpc = s.lastOpc ∧ authIs s.authOk s.authFail t ∧ sameSecrets s t ∧ sameOperands s t

/-! ## When a message runs -/

/-- The contract of SEAL and OPEN up to the input regions: steps 2 to 5 of 42_orchestrator.md R180. -/
def inputsGood (s : State) : Prop :=
  (s.rounds = 4 ∨ s.rounds = 6) ∧ s.keyMask = 0b1111 ∧ s.nonceMask = 0b1111 ∧
    validRegion s.hdr = true ∧ validRegion s.inp = true ∧ validRegion s.trl = true

/-- The platform answers every byte of the region in this direction (00_scope.md R7). -/
def answered (p : Platform) (d : Dir) (r : Region) : Prop := ∀ a, r.contains a = true → memOk p d a = true

/-- The regions share no byte. -/
def apart (r q : Region) : Prop := ∀ a, ¬ (r.contains a = true ∧ q.contains a = true)

/-- The bytes of a region, all of them written before. -/
def holds (s : State) (r : Region) (b : List Byte) : Prop := Memory.load s.mem r.addr r.len = some b

/-- The regions a message of an `n`-byte body may share: OUT in place of IN, or apart from it, and apart from the trailer,
which is read after OUT is written (20_memory.md R90). -/
def goodOverlap (s : State) (n : Nat) : Prop :=
  (s.outAddr = s.inAddr ∨ apart (s.out n) ⟨s.inAddr.toNat, n⟩) ∧ apart (s.out n) s.trl

/-- The message that the registers and the header and trailer bytes describe. -/
def messageParams (s : State) (hdr trl : List Byte) : MessageParams :=
  { skip := s.platform.skipEmptyPhase, rounds := s.rounds.toNat, key := s.key, nonce := s.nonce,
    header := hdr, trailer := trl }

/-- The region a command writes, by the registers it starts with (42_orchestrator.md R188). -/
def outputRegion (i : Instr) (s : State) : Region :=
  match i with
  | .nop => s.out 0
  | .sealMsg => s.out (s.inLen.toNat + 32)
  | .openMsg => s.out (s.inLen.toNat - 32)
  | .permute _ => s.out 128
  | .erase => s.out 0

/-- The regions a command reads, by the registers it starts with (42_orchestrator.md R173, R175, 40_permutation.md R130). -/
def inputRegions (i : Instr) (s : State) : List Region :=
  match i with
  | .nop => []
  | .sealMsg => [s.hdr, s.inp, s.trl]
  | .openMsg => [s.hdr, s.inp, s.trl]
  | .permute _ => [⟨s.inAddr.toNat, 128⟩]
  | .erase => []

/-- Every region a command may touch, by the registers it starts with. -/
def touchedRegions (i : Instr) (s : State) : List Region := inputRegions i s ++ [outputRegion i s]

/-- An outside event that is no race with command `i`, no reset and no stall: a read, a write of memory that the command does
not touch, or a register write other than a soft reset (20_memory.md R85). -/
def harmless (i : Instr) (s : State) (e : HostEvent) : Bool :=
  match e with
  | .regRead _ _ => true
  | .regWrite addr width data => !(select s.platform addr width == .reg .ctrl && data.getLsbD 0)
  | .memRead _ _ => true
  | .memWrite addr _ => !(touchedRegions i s).any (fun r => r.contains addr.toNat)
  | .cacheDiscard _ => true
  | .hardReset => false
  | .dmaStall => false

/-! ## Traces -/

/-- The DMA accesses of a trace. -/
def dmaOf (tr : List EngineEvent) : List EngineEvent :=
  tr.filter fun e => match e with
    | .read _ _ => true
    | .write _ _ => true
    | _ => false

/-- The calls of F in a trace. -/
def permutesOf (tr : List EngineEvent) : List EngineEvent :=
  tr.filter fun e => match e with
    | .permute _ _ => true
    | _ => false

/-- The phases entered in a trace. -/
def phasesOf (tr : List EngineEvent) : List Phase :=
  tr.filterMap fun e => match e with
    | .enter p => some p
    | _ => none

/-- How many completions a trace holds. -/
def completionsOf (tr : List EngineEvent) : Nat :=
  (tr.filter fun e => match e with
    | .completed _ => true
    | _ => false).length

/-- How many resets a trace holds. -/
def resetsOf (tr : List EngineEvent) : Nat := tr.count .reset

/-- An access of length 0 is not made (42_orchestrator.md R173, R175). -/
def madeAccess (e : EngineEvent) : List EngineEvent :=
  match e with
  | .read _ n => if n = 0 then [] else [e]
  | .write _ n => if n = 0 then [] else [e]
  | _ => [e]

/-- The reads of an absorbed region: full blocks, then the tail (42_orchestrator.md R173 items 1-2 and 5-6). -/
def absorbAccesses (r : Region) : List EngineEvent :=
  (List.range (r.len / 96)).map (fun k => .read (r.addr + 96 * k) 96) ++
    madeAccess (.read (r.addr + 96 * (r.len / 96)) (r.len % 96))

/-- The accesses of the payload region (42_orchestrator.md R173 items 3-4). -/
def cryptAccesses (ia oa n : Nat) : List EngineEvent :=
  (List.range (n / 96)).flatMap (fun k => [.read (ia + 96 * k) 96, .write (oa + 96 * k) 96]) ++
    madeAccess (.read (ia + 96 * (n / 96)) (n % 96)) ++
    madeAccess (.write (oa + 96 * (n / 96)) (n % 96))

/-- SEAL's accesses, exactly and in order (42_orchestrator.md R173). -/
def sealAccesses (s : State) : List EngineEvent :=
  absorbAccesses s.hdr ++ cryptAccesses s.inAddr.toNat s.outAddr.toNat s.inLen.toNat ++
    absorbAccesses s.trl ++ [.write (s.outAddr.toNat + s.inLen.toNat) 32]

/-- OPEN's accesses, exactly and in order (42_orchestrator.md R175). -/
def openAccesses (s : State) (mismatch : Bool) : List EngineEvent :=
  let n := s.inLen.toNat - 32
  [.read (s.inAddr.toNat + n) 32] ++ absorbAccesses s.hdr ++
    cryptAccesses s.inAddr.toNat s.outAddr.toNat n ++ absorbAccesses s.trl ++
    (if mismatch then madeAccess (.write s.outAddr.toNat n) else [])

/-- The first byte of an access that the platform refuses, if any (60_exceptions.md R215). -/
def accessFault (p : Platform) (e : EngineEvent) : Option Nat :=
  match e with
  | .read a n => firstRefused p .read a n
  | .write a n => firstRefused p .write a n
  | _ => none

/-- The accesses of a list up to and with the first that the platform refuses, and that access's first refused byte; `none`
where all are answered (60_exceptions.md R217, R218). -/
def untilFault (p : Platform) : List EngineEvent → Option (List EngineEvent × Nat)
  | [] => none
  | e :: es =>
    match accessFault p e with
    | some x => some ([e], x)
    | none => (untilFault p es).map fun o => (e :: o.1, o.2)

/-- The calls of F of one phase with `n` bytes of data (41_block_codec.md R157). -/
def phaseCalls (s : State) (t : Tag) (n : Nat) : List EngineEvent :=
  if s.platform.skipEmptyPhase && decide (n = 0) then []
  else List.replicate (n / 96 + 1) (.permute (some t) s.rounds.toNat)

/-- The calls of F of a message with an `n`-byte body (41_block_codec.md R157). -/
def messageCalls (s : State) (n : Nat) : List EngineEvent :=
  [.permute none s.rounds.toNat] ++ phaseCalls s .header s.hdrLen.toNat ++ phaseCalls s .payload n ++
    phaseCalls s .trailer s.trlLen.toNat ++
    [.permute (some .final) s.rounds.toNat, .permute none s.rounds.toNat]

/-- The phases of a command that runs to its end, without the IDLE at both ends (42_orchestrator.md R183). -/
def phaseSequence : Instr → List Phase
  | .nop => []
  | .sealMsg => [.init, .header, .payload, .trailer, .final, .wipe]
  | .openMsg => [.init, .header, .payload, .trailer, .final, .wipe]
  | .permute _ => [.perm]
  | .erase => [.wipe]

/-- Two states that differ at most in secret or message data: key, nonce, transients, memory, and what came from them
(60_exceptions.md R229). -/
def sameControl (s t : State) : Prop :=
  t = { s with
    S := t.S, key := t.key, nonce := t.nonce, tagBuf := t.tagBuf, tag := t.tag, blk := t.blk, diff := t.diff,
    mem := t.mem, responses := t.responses, draws := t.draws }

/-! ## Outside events that a command met -/

/-- The outside events that took effect while a command ran from `s` to `t`, oldest first (log 2, 8). -/
def landed (s t : State) : List HostEvent :=
  (s.inbox.take (s.inbox.length - t.inbox.length)).map (·.event)

/-- Whether an outside event gets an answer: an access of the register bus, or another agent's read (log 8). -/
def HostEvent.isAnswered : HostEvent → Bool
  | .regRead _ _ => true
  | .regWrite _ _ _ => true
  | .memRead _ _ => true
  | .memWrite _ _ => false
  | .cacheDiscard _ => false
  | .hardReset => false
  | .dmaStall => false

/-- The accesses that landed in a command, each with its answer, oldest first (log 8). -/
def answersOf (s t : State) : List (HostEvent × Response) :=
  ((landed s t).filter (·.isAnswered)).zip (t.responses.take (t.responses.length - s.responses.length)).reverse

/-- The protected registers, by name (10_state.md R43). -/
def protectedRegs : List Reg :=
  [.cmd, .config, .key 0, .key 1, .key 2, .key 3, .nonce 0, .nonce 1, .nonce 2, .nonce 3,
   .hdrAddr, .hdrLen, .inAddr, .inLen, .trlAddr, .trlLen, .outAddr]

/-! ## Register accesses -/

/-- The window fits at REG_BASE: 256-byte aligned (92_eei_decisions.md P2). -/
def windowAligned (p : Platform) : Prop := p.regBase.toNat % 256 = 0

/-- The next access to arrive, and what is left after it. -/
def arrives (s : State) (e : HostEvent) (rest : List Arrival) : Prop :=
  ∃ w, s.inbox = ⟨w, e⟩ :: rest

/-- What the outside event `e` does to `s` is `u`: at a step, and at a slot of a running command, which then goes on from `u`
(log 2, 8). -/
def takesTo (s : State) (e : HostEvent) (rest : List Arrival) (u : State) : Prop :=
  (arrives s e rest → step s = .next u) ∧
  (s.busy = true → ∀ (begun : Option (State → State)) (inside : Bool),
    land begun (⟨.slot 0 inside, e⟩ :: rest) s = land begun rest u)

end Sys2Proof.Machine
end

