-- ==== Sys2Proof/Certificates/Slice0/Obligations.lean ====
section
/-! DEFINITION. The statements for the provers. Each says in its docstring which rule of spec/ it formalises. The model's own
choices in them: outside events land at slots, and none in a `quiet` state (log 2); the inbox and the answers (log 8); the
trace (log 11); the platform as part of the state (log 1). -/

open Sys2Proof Sys2Proof.Machine

/-! ## Command words -/

/-- 30_encoding.md R100, R104, R105: the words that decode are exactly the encodings of the well-formed commands, and each
decodes to the command it encodes, PERMUTE's round count included. -/
def Obligations.DecodeInvertsEncodeExactly : Prop :=
  ∀ (w : Word) (i : Instr), decode w = .command i ↔ (i.wf = true ∧ encode i = w)

/-- 30_encoding.md R105: which words are legal, and the match and mask table. -/
def Obligations.LegalCommandWords : Prop :=
  (∀ w : Word, (∃ i, decode w = .command i) ↔
    (w.extractLsb' 16 48 = 0 ∧ w.extractLsb' 0 8 ∈ [0x00#8, 0x01#8, 0x02#8, 0x03#8, 0x04#8] ∧
      (w.extractLsb' 0 8 = 0x03#8 ∨ w.extractLsb' 8 8 = 0#8))) ∧
  (∀ w : Word, decode w = .command .nop ↔ w &&& 0xFFFFFFFFFFFFFFFF = 0x0000000000000000) ∧
  (∀ w : Word, decode w = .command .sealMsg ↔ w &&& 0xFFFFFFFFFFFFFFFF = 0x0000000000000001) ∧
  (∀ w : Word, decode w = .command .openMsg ↔ w &&& 0xFFFFFFFFFFFFFFFF = 0x0000000000000002) ∧
  (∀ w : Word, (∃ r, decode w = .command (.permute r)) ↔ w &&& 0xFFFFFFFFFFFF00FF = 0x0000000000000003) ∧
  (∀ w : Word, decode w = .command .erase ↔ w &&& 0xFFFFFFFFFFFFFFFF = 0x0000000000000004)

/-- 95_test_vectors.md L2.12, 30_encoding.md R100, R104: words written out from the format decode to their commands. -/
def Obligations.WrittenOutWordsDecode : Prop :=
  decode 0x0000000000000000 = .command .nop ∧ decode 0x0000000000000001 = .command .sealMsg ∧
  decode 0x0000000000000002 = .command .openMsg ∧ decode 0x0000000000000203 = .command (.permute 2) ∧
  decode 0x000000000000FF03 = .command (.permute 255) ∧ decode 0x0000000000000004 = .command .erase ∧
  decode 0x0000000000000005 = .illegal .unknownOpcode ∧ decode 0x0000000000000101 = .illegal .argNotZero ∧
  decode 0x0000000000010000 = .illegal .reservedNotZero ∧ decode 0x8000000000000003 = .illegal .reservedNotZero

/-- 10_state.md R34, 70_reset_and_hazards.md R253: when the next access is a well-formed write of CMD, the step is `runWord` of
its data, with the access taken from the inbox and its answer recorded; where the data decodes to `i` that is `exec i`, and
where it is illegal that is `illegalCommand`. -/
def Obligations.StepRunsTheDecodedCommand : Prop :=
  ∀ (s : State) (w : Word) (rest : List Arrival),
    windowAligned s.platform → arrives s (.regWrite (busAddr s.platform .cmd) 64 w) rest →
    step s = runWord w (respond .writeDone { s with inbox := rest }) ∧
    (∀ i, decode w = .command i → step s = exec i (respond .writeDone { s with inbox := rest })) ∧
    (∀ e, decode w = .illegal e → step s = .next (illegalCommand w (respond .writeDone { s with inbox := rest })))

/-- 60_exceptions.md R216: an illegal word is accepted, records its OPC byte, and ends at once with ILLEGAL_CMD; no access,
no other register changes, also where the OPC byte is SEAL's or OPEN's (the reading of log 7). -/
def Obligations.IllegalWordEndsWithIllegalCmd : Prop :=
  ∀ (s : State) (w : Word) (e : DecodeError), idleQuiet s → decode w = .illegal e →
    ∃ t, runWord w s = .next t ∧ completedWith .illegalCmd t ∧ t.lastOpc = w.extractLsb' 0 8 ∧
      t.outLen = 0 ∧ authIs false false t ∧ t.faultAddr = 0 ∧ sameSecrets s t ∧ sameAround s t ∧ t.mem = s.mem ∧
      transientsErased t ∧ t.trace = s.trace ++ [.accepted (w.extractLsb' 0 8), .completed .illegalCmd]

/-! ## The permutation -/

/-- 40_permutation.md R122: H, its corner cases and its example. -/
def Obligations.CombiningOperator : Prop :=
  (∀ x y : Word, H x y = (x ^^^ y) ^^^ ((x &&& y) <<< 1)) ∧ (∀ x : Word, H x 0 = x) ∧ H 0 0 = 0 ∧
  (∀ x y : Word, H x y = H y x) ∧ H 0x8000000000000000 0x8000000000000000 = 0 ∧
  H 0xFFFFFFFFFFFFFFFF 0xFFFFFFFFFFFFFFFF = 0xFFFFFFFFFFFFFFFE ∧ H 3 5 = 4

/-- 40_permutation.md R123: bit i of rotr(x, n) is bit (i + n) mod 64 of x, with the rule's examples. -/
def Obligations.RotationIsToTheRight : Prop :=
  (∀ (x : Word) (n : Nat), n ∈ [8, 19, 40, 63] →
    rotr x n = (x >>> n) ||| (x <<< (64 - n)) ∧ ∀ i, i < 64 → (rotr x n).getLsbD i = x.getLsbD ((i + n) % 64)) ∧
  rotr 1 8 = 0x0100000000000000 ∧ rotr 1 63 = 2 ∧ rotr 0x0123456789ABCDEF 40 = 0x6789ABCDEF012345

/-- 40_permutation.md R124, R127: G reads and writes only its four words, and two calls on disjoint index sets commute, so
the four calls of a half-round may run in any order. -/
def Obligations.QuarterRoundsAreLanes : Prop :=
  (∀ (a b c d i : Fin 16) (S : Sponge), [a, b, c, d].Nodup → i ∉ [a, b, c, d] → (G a b c d S)[i] = S[i]) ∧
  (∀ (a b c d i : Fin 16) (S T : Sponge), [a, b, c, d].Nodup → i ∈ [a, b, c, d] →
    (∀ j ∈ [a, b, c, d], S[j] = T[j]) → (G a b c d S)[i] = (G a b c d T)[i]) ∧
  (∀ (a b c d e f g h : Fin 16) (S : Sponge), [a, b, c, d, e, f, g, h].Nodup →
    G a b c d (G e f g h S) = G e f g h (G a b c d S))

/-- 40_permutation.md R126: F(R) is the round applied R times, and F(2) of (0, 1, .., 15) is the table. -/
def Obligations.PermutationIsTheIteratedRound : Prop :=
  (∀ (R : Nat) (S : Sponge), F R S = roundOnce^[R] S) ∧
  F 2 #v[0, 1, 2, 3, 4, 5, 6, 7, 8, 9, 10, 11, 12, 13, 14, 15] =
    #v[0xE4D324772B91DF79, 0x3AEC9ABAAEB02CCB, 0x9DFBA13DB4289311, 0xEF9EB4BF5A97F2C8,
       0x3F466E92C1532034, 0xE6E986626CC405C1, 0xACE40F3B549184E1, 0xD9CFD35762614477,
       0xB15E641748DE5E6B, 0xAA95E955E10F8410, 0x28D1034441A9DD40, 0x7F31BBF964E93BF5,
       0xB5E9E22493DFFB96, 0xB980C852479FAFBD, 0xDA24516BF55EAFD4, 0x86026AE8536F1501]

/-- 40_permutation.md R129: the corner cases of F. That F is total is its type. -/
def Obligations.PermutationIsBijective : Prop :=
  (∀ R : Nat, F R zeroSponge = zeroSponge) ∧ (∀ S : Sponge, F 0 S = S) ∧ ∀ R : Nat, Function.Bijective (F R)

/-! ## The codec -/

/-- 20_memory.md R71: LE64 and LE64inv, bit field by bit field. -/
def Obligations.LittleEndianWords : Prop :=
  (∀ (b : List Byte) (off j : Nat) (v : Byte), j < 8 → b[off + j]? = some v →
    (le64 b off).extractLsb' (8 * j) 8 = v) ∧
  (∀ (w : Word) (j : Nat), j < 8 → (le64inv w)[j]? = some (w.extractLsb' (8 * j) 8)) ∧
  (∀ w : Word, (le64inv w).length = 8 ∧ le64 (le64inv w) 0 = w)

/-- 41_block_codec.md R144: every byte of a padded tail. -/
def Obligations.PaddedTailBytes : Prop :=
  ∀ t : List Byte, t.length ≤ 95 → (pad t).length = 96 ∧ ∀ i, i < 96 →
    (pad t)[i]? = some
      ((if i < t.length then t.getD i 0 else if i = t.length then 0x01 else 0x00) ||| (if i = 95 then 0x80 else 0x00))

/-- 41_block_codec.md R156: no data byte reaches the capacity words of a block operation directly: they do not depend on the
block at all. -/
def Obligations.CapacityTakesNoDataBytes : Prop :=
  ∀ (R : Nat) (g : Tag) (d : CryptDir) (b b' : List Byte) (S : Sponge) (i : Fin 16), 12 ≤ i.val →
    (absorbBlock g R b S)[i] = (absorbBlock g R b' S)[i] ∧
    (absorbLast g R b S)[i] = (absorbLast g R b' S)[i] ∧
    (cryptBlock d R b S).2[i] = (cryptBlock d R b' S).2[i] ∧
    (cryptLast d R b S).2[i] = (cryptLast d R b' S).2[i] ∧
    (cryptBlock d R b S).2[i] = (F R (injectTag .payload S))[i]

/-- 41_block_codec.md R160: decryption undoes encryption and leaves the same state, and Open of a Seal output returns the
plaintext, for every parameter, round count, key, nonce, header and trailer. -/
def Obligations.OpenUndoesSeal : Prop :=
  (∀ (skip : Bool) (R : Nat) (D : List Byte) (S : Sponge),
    cryptData skip .dec R (cryptData skip .enc R D S).1 S = (D, (cryptData skip .enc R D S).2)) ∧
  (∀ (p : MessageParams) (plaintext : List Byte), openBytes p (sealBytes p plaintext) = some plaintext)

/-- 42_orchestrator.md R184 (the length law), 41_block_codec.md R151, R155: ciphertext as long as plaintext, tag of 32 bytes;
an input shorter than the tag never opens. -/
def Obligations.SealLengthLaw : Prop :=
  (∀ (skip : Bool) (d : CryptDir) (R : Nat) (D : List Byte) (S : Sponge), (cryptData skip d R D S).1.length = D.length) ∧
  (∀ (p : MessageParams) (plaintext : List Byte), (sealBytes p plaintext).length = plaintext.length + 32) ∧
  (∀ (p : MessageParams) (c : List Byte), c.length < 32 → openBytes p c = none) ∧
  (∀ (p : MessageParams) (c m : List Byte), openBytes p c = some m → c.length = m.length + 32)

/-- 41_block_codec.md R141, R142, R143, R145, R155: the tags and their injection, the constants as words 8..15 of F(2) on
(0, 1, .., 15), the loaded state and the key XOR of `initialize`, and the two permutations and key XORs of `finalize`. -/
def Obligations.InitializeAndFinalizeEquations : Prop :=
  (Tag.header.value = 0x01 ∧ Tag.payload.value = 0x02 ∧ Tag.trailer.value = 0x04 ∧ Tag.final.value = 0x08) ∧
  (∀ (g : Tag) (S : Sponge), injectTag g S = S.set 15 (S[15] ^^^ g.value.setWidth 64)) ∧
  (∀ i : Fin 8, initConstants[i] = (F 2 #v[0, 1, 2, 3, 4, 5, 6, 7, 8, 9, 10, 11, 12, 13, 14, 15])[8 + i.val]) ∧
  (∀ (K N : Quad) (R : Nat),
    let u := initConstants
    let L : Sponge := #v[N[0], N[1], N[2], N[3], K[0], K[1], K[2], K[3], u[0], u[1], u[2], u[3],
      u[4] ^^^ 64, u[5] ^^^ BitVec.ofNat 64 R, u[6] ^^^ 1, u[7] ^^^ 256]
    (∀ i : Fin 16, i.val < 12 → (initSponge K N R)[i] = (F R L)[i]) ∧
    ∀ i : Fin 4, (initSponge K N R)[12 + i.val] = (F R L)[12 + i.val] ^^^ K[i]) ∧
  ∀ (K : Quad) (R : Nat) (S : Sponge),
    let A := F R (S.set 15 (S[15] ^^^ 0x08))
    let B := F R ((((A.set 12 (A[12] ^^^ K[0])).set 13 (A[13] ^^^ K[1])).set 14 (A[14] ^^^ K[2])).set 15 (A[15] ^^^ K[3]))
    finalTag K R S =
      le64inv (B[12] ^^^ K[0]) ++ le64inv (B[13] ^^^ K[1]) ++ le64inv (B[14] ^^^ K[2]) ++ le64inv (B[15] ^^^ K[3])

/-- 41_block_codec.md R146, R147, R149, R150, R152, R153: every word that a full-block operation leaves in the state and every
word it gives out, after the tag and F: absorb and encrypt XOR the block into the rate, encrypt gives out the new rate words,
decrypt gives out state XOR ciphertext and takes the ciphertext; the capacity is F's. For a tail of 0 to 95 bytes absorb and
encrypt are these on `pad`; decrypt is this on the keystream overlaid with the tail, its two markers toggled. -/
def Obligations.BlockOperationEquations : Prop :=
  (∀ (R : Nat) (g : Tag) (b : List Byte) (S : Sponge) (i : Fin 16),
    (12 ≤ i.val →
      (absorbBlock g R b S)[i] = (F R (injectTag g S))[i] ∧
      (encryptBlock R b S).2[i] = (F R (injectTag .payload S))[i] ∧
      (decryptBlock R b S).2[i] = (F R (injectTag .payload S))[i]) ∧
    (i.val < 12 →
      (absorbBlock g R b S)[i] = (F R (injectTag g S))[i] ^^^ le64 b (8 * i.val) ∧
      (encryptBlock R b S).2[i] = (F R (injectTag .payload S))[i] ^^^ le64 b (8 * i.val) ∧
      le64 (encryptBlock R b S).1 (8 * i.val) = (encryptBlock R b S).2[i] ∧
      le64 (decryptBlock R b S).1 (8 * i.val) = (F R (injectTag .payload S))[i] ^^^ le64 b (8 * i.val) ∧
      (decryptBlock R b S).2[i] = le64 b (8 * i.val))) ∧
  ∀ (R : Nat) (g : Tag) (t : List Byte) (S : Sponge), t.length ≤ 95 →
    absorbLast g R t S = absorbBlock g R (pad t) S ∧
    encryptLast R t S = ((encryptBlock R (pad t) S).1.take t.length, (encryptBlock R (pad t) S).2) ∧
    ∃ b : List Byte, b.length = 96 ∧
      (∀ (i : Fin 16) (j : Nat), i.val < 12 → j < 8 → b[8 * i.val + j]? = some
        ((if 8 * i.val + j < t.length then t.getD (8 * i.val + j) 0
            else (F R (injectTag .payload S))[i].extractLsb' (8 * j) 8) ^^^
          (if 8 * i.val + j = t.length then 0x01 else 0x00) ^^^ (if 8 * i.val + j = 95 then 0x80 else 0x00))) ∧
      decryptLast R t S = ((decryptBlock R b S).1.take t.length, (decryptBlock R b S).2)

/-- 41_block_codec.md R148, R151, R154, 42_orchestrator.md R172, R174, R185: where a phase is not skipped, its data is split
into n div 96 full blocks, in order, and one tail of n mod 96 bytes; and a message is initialize, the header absorbed, the
payload, the trailer absorbed, finalize, OPEN giving out the payload only where the tags agree. -/
def Obligations.PhaseAndMessageEquations : Prop :=
  (∀ (skip : Bool) (g : Tag) (R : Nat) (D : List Byte) (S : Sponge), skip = false ∨ D ≠ [] →
    let blocks := (List.range (D.length / 96)).map fun k => (D.drop (96 * k)).take 96
    let tail := D.drop (96 * (D.length / 96))
    let enc := blocks.foldl (fun o b => (o.1 ++ (encryptBlock R b o.2).1, (encryptBlock R b o.2).2)) ([], S)
    let dec := blocks.foldl (fun o b => (o.1 ++ (decryptBlock R b o.2).1, (decryptBlock R b o.2).2)) ([], S)
    (∀ b ∈ blocks, b.length = 96) ∧ tail.length = D.length % 96 ∧ blocks.flatten ++ tail = D ∧
    absorbData skip g R D S = absorbLast g R tail (blocks.foldl (fun S b => absorbBlock g R b S) S) ∧
    cryptData skip .enc R D S = (enc.1 ++ (encryptLast R tail enc.2).1, (encryptLast R tail enc.2).2) ∧
    cryptData skip .dec R D S = (dec.1 ++ (decryptLast R tail dec.2).1, (decryptLast R tail dec.2).2)) ∧
  ∀ (p : MessageParams) (body tag : List Byte), tag.length = 32 →
    let A := absorbData p.skip .header p.rounds p.header (initSponge p.key p.nonce p.rounds)
    let e := cryptData p.skip .enc p.rounds body A
    let d := cryptData p.skip .dec p.rounds body A
    sealBytes p body = e.1 ++ finalTag p.key p.rounds (absorbData p.skip .trailer p.rounds p.trailer e.2) ∧
    (finalTag p.key p.rounds (absorbData p.skip .trailer p.rounds p.trailer d.2) = tag →
      openBytes p (body ++ tag) = some d.1) ∧
    (finalTag p.key p.rounds (absorbData p.skip .trailer p.rounds p.trailer d.2) ≠ tag → openBytes p (body ++ tag) = none)

/-- 41_block_codec.md R148, R151, R154, R158: with SKIP_EMPTY_PHASE an empty phase changes nothing, without it an empty phase
processes one padded empty block. -/
def Obligations.EmptyPhases : Prop :=
  ∀ (g : Tag) (d : CryptDir) (R : Nat) (S : Sponge),
    absorbData true g R [] S = S ∧ cryptData true d R [] S = ([], S) ∧
    absorbData false g R [] S = xorRate (pad []) (F R (injectTag g S)) ∧
    cryptData false d R [] S = ([], xorRate (pad []) (F R (injectTag .payload S)))

/-! ## DMA -/

/-- 20_memory.md R76: MemRead, where nothing lands in it and no byte is raced. -/
def Obligations.DmaReadAnswersOrFaults : Prop :=
  ∀ (s : State) (a n : Nat), quiet s = true → s.raced = [] →
    (n = 0 → dmaRead a n s = .ok [] s) ∧
    (0 < n → (∀ j, j < n → memOk s.platform .read (a + j) = true) →
      ∃ b t, dmaRead a n s = .ok b t ∧ b.length = n ∧
        (∀ j v, j < n → Memory.read s.mem (a + j) = some v → b[j]? = some v) ∧
        t = { s with trace := s.trace ++ [.read a n], draws := t.draws }) ∧
    (∀ j, j < n → memOk s.platform .read (a + j) = false → (∀ i, i < j → memOk s.platform .read (a + i) = true) →
      ∃ t, dmaRead a n s = .ended t ∧ completedWith .busFault t ∧ t.faultAddr = BitVec.ofNat 64 (a + j) ∧
        t.mem = s.mem)

/-- 20_memory.md R77, 70_reset_and_hazards.md R241, 60_exceptions.md R224: MemWrite, where no byte is raced: first where nothing lands
in it, then where the access is cut short once it has begun, by a reset or by the platform's silence (log 9): each of the `k` bytes
before the first refused one is old or new (log 4), no other changes. A reset before it begins writes nothing. -/
def Obligations.DmaWriteLandsOrTears : Prop :=
  (∀ (s : State) (a : Nat) (v : List Byte), quiet s = true → s.raced = [] → Memory.wf s.mem = true →
    (v = [] → dmaWrite a v s = .ok () s) ∧
    ((∀ j, j < v.length → memOk s.platform .write (a + j) = true) → v ≠ [] →
      ∃ t, dmaWrite a v s = .ok () t ∧
        (∀ b, Memory.read t.mem b = if a ≤ b ∧ b < a + v.length then v[b - a]? else Memory.read s.mem b) ∧
        t = { s with
          trace := s.trace ++ [.write a v.length], mem := t.mem, draws := t.draws, fresh := ⟨a, v.length⟩ :: s.fresh }) ∧
    (∀ j, j < v.length → memOk s.platform .write (a + j) = false →
      (∀ i, i < j → memOk s.platform .write (a + i) = true) →
      ∃ t, dmaWrite a v s = .ended t ∧ completedWith .busFault t ∧ t.faultAddr = BitVec.ofNat 64 (a + j) ∧
        (∀ b, ¬ (a ≤ b ∧ b < a + j) → Memory.read t.mem b = Memory.read s.mem b) ∧
        (∀ b, a ≤ b → b < a + j → Memory.read t.mem b = Memory.read s.mem b ∨ Memory.read t.mem b = v[b - a]?))) ∧
  ∀ (s : State) (a k : Nat) (v : List Byte) (rest : List Arrival) (inside : Bool) (e : HostEvent),
    s.busy = true → s.raced = [] → Memory.wf s.mem = true → v ≠ [] → k ≤ v.length →
    (∀ j, j < k → memOk s.platform .write (a + j) = true) →
    (k < v.length → memOk s.platform .write (a + k) = false) →
    let torn (t : State) : Prop :=
      (∀ b, ¬ (a ≤ b ∧ b < a + k) → Memory.read t.mem b = Memory.read s.mem b) ∧
      ∀ b, a ≤ b → b < a + k → Memory.read t.mem b = Memory.read s.mem b ∨ Memory.read t.mem b = v[b - a]?
    let resets : Prop := e = .hardReset ∨ (windowAligned s.platform ∧
      ∃ x : Word, x.getLsbD 0 = true ∧ e = .regWrite (busAddr s.platform .ctrl) 64 x)
    (s.inbox = ⟨.slot 0 inside, .dmaStall⟩ :: rest →
      ∃ t, dmaWrite a v s = .ended t ∧ torn t ∧
        t = { s with
          inbox := rest, trace := s.trace ++ [.write a v.length], mem := t.mem, draws := t.draws,
          fresh := ⟨a, v.length⟩ :: s.fresh }) ∧
    (resets → s.inbox = ⟨.slot 0 true, e⟩ :: rest →
      ∃ t, dmaWrite a v s = .ended t ∧ torn t ∧ t.trace = s.trace ++ [.write a v.length, .reset] ∧
        t.toEngine = Engine.reset) ∧
    (resets → s.inbox = ⟨.slot 0 false, e⟩ :: rest →
      ∃ t, dmaWrite a v s = .ended t ∧ t.mem = s.mem ∧ t.trace = s.trace ++ [.reset] ∧ t.toEngine = Engine.reset)

/-! ## NOP, ERASE, PERMUTE -/

/-- 42_orchestrator.md R182: NOP completes and changes nothing else. -/
def Obligations.NopOnlyCompletes : Prop :=
  ∀ s : State, idleQuiet s → ∃ t, exec .nop s = .next t ∧ completedWith .noError t ∧ t.lastOpc = 0x00 ∧
    authIs false false t ∧ t.faultAddr = 0 ∧ t.outLen = s.outLen ∧ sameSecrets s t ∧ sameAround s t ∧
    t.S = s.S ∧ t.blk = s.blk ∧ t.tagBuf = s.tagBuf ∧ t.tag = s.tag ∧ t.diff = s.diff ∧
    t.mem = s.mem ∧ t.trace = s.trace ++ [.accepted 0x00, .completed .noError]

/-- 42_orchestrator.md R181: ERASE wipes key, nonce and every buffer, and sets OUT_LEN to 0. -/
def Obligations.EraseWipesEverything : Prop :=
  ∀ s : State, idleQuiet s → ∃ t, exec .erase s = .next t ∧ completedWith .noError t ∧ t.lastOpc = 0x04 ∧
    authIs false false t ∧ t.faultAddr = 0 ∧ t.outLen = 0 ∧ secretsErased t ∧ transientsErased t ∧ sameAround s t ∧
    t.mem = s.mem ∧ t.trace = s.trace ++ [.accepted 0x04, .enter .wipe, .completed .noError]

/-- 40_permutation.md R130: PERMUTE loads 16 words, applies F(rounds), writes them back; key, nonce and every byte outside
OUT stay. In place works too. -/
def Obligations.PermuteAppliesF : Prop :=
  ∀ (s : State) (r : Nat) (b : List Byte), idleQuiet s → Memory.wf s.mem = true →
    answered s.platform .read ⟨s.inAddr.toNat, 128⟩ → answered s.platform .write (s.out 128) →
    holds s ⟨s.inAddr.toNat, 128⟩ b →
    ∃ t, exec (.permute r) s = .next t ∧ completedWith .noError t ∧ t.lastOpc = 0x03 ∧ authIs false false t ∧
      t.faultAddr = 0 ∧ t.outLen = 128 ∧ holds t (s.out 128) (spongeBytes (F r (loadSponge b))) ∧
      sameMemoryOutside (s.out 128) s t ∧ sameSecrets s t ∧ sameAround s t ∧ t.S = zeroSponge ∧
      t.blk = s.blk ∧ t.tagBuf = s.tagBuf ∧ t.tag = s.tag ∧ t.diff = s.diff ∧
      t.trace = s.trace ++ [.accepted 0x03, .enter .perm, .read s.inAddr.toNat 128, .permute none r,
        .write s.outAddr.toNat 128, .completed .noError]

/-- 40_permutation.md R130, 60_exceptions.md R212, R215: PERMUTE's errors. A bad range makes no access and leaves FAULT_ADDR 0; a
refused read makes no write; a refused write is its second and last access; each fault reports its first refused byte. Key and
nonce are kept in every case. -/
def Obligations.PermuteErrorsKeepTheKey : Prop :=
  ∀ (s : State) (r : Nat), idleQuiet s → Memory.wf s.mem = true →
    let endsWith (e : ErrCode) (fault : Nat) (made : List EngineEvent) (written : Nat) : Prop :=
      ∃ t, exec (.permute r) s = .next t ∧ completedWith e t ∧ t.lastOpc = 0x03 ∧ authIs false false t ∧ t.outLen = 0 ∧
        t.faultAddr.toNat = fault ∧ dmaOf t.trace = dmaOf s.trace ++ made ∧ sameMemoryOutside (s.out written) s t ∧
        (written = 0 → t.mem = s.mem) ∧ sameSecrets s t ∧ sameAround s t ∧ transientsErased t
    ((validRegion ⟨s.inAddr.toNat, 128⟩ = false ∨ validRegion (s.out 128) = false) → endsWith .badRange 0 [] 0) ∧
    (validRegion ⟨s.inAddr.toNat, 128⟩ = true → validRegion (s.out 128) = true →
      ∀ j, j < 128 → memOk s.platform .read (s.inAddr.toNat + j) = false →
        (∀ i, i < j → memOk s.platform .read (s.inAddr.toNat + i) = true) →
      endsWith .busFault (s.inAddr.toNat + j) [.read s.inAddr.toNat 128] 0) ∧
    (answered s.platform .read ⟨s.inAddr.toNat, 128⟩ → validRegion (s.out 128) = true →
      ∀ j, j < 128 → memOk s.platform .write (s.outAddr.toNat + j) = false →
        (∀ i, i < j → memOk s.platform .write (s.outAddr.toNat + i) = true) →
      endsWith .busFault (s.outAddr.toNat + j) [.read s.inAddr.toNat 128, .write s.outAddr.toNat 128] j)

/-! ## SEAL and OPEN -/

/-- 42_orchestrator.md R172, R186, R187, R188: a SEAL that meets its contract and whose bytes are all answered writes exactly
the ciphertext and tag of the codec's Seal, erases key and nonce, and leaves every other byte and operand register. In place
is allowed, and the header may overlap OUT, since it is read first (20_memory.md R90). -/
def Obligations.SealWritesCiphertextAndTag : Prop :=
  ∀ (s : State) (hdr pt trl : List Byte), idleQuiet s → Memory.wf s.mem = true → inputsGood s →
    s.inLen.toNat + 32 ≤ 2 ^ 64 - 1 → validRegion (s.out (s.inLen.toNat + 32)) = true →
    answered s.platform .read s.hdr → answered s.platform .read s.inp → answered s.platform .read s.trl →
    answered s.platform .write (s.out (s.inLen.toNat + 32)) →
    holds s s.hdr hdr → holds s s.inp pt → holds s s.trl trl → goodOverlap s s.inLen.toNat →
    ∃ t, exec .sealMsg s = .next t ∧ completedWith .noError t ∧ t.lastOpc = 0x01 ∧ authIs false false t ∧
      t.faultAddr = 0 ∧ t.outLen.toNat = s.inLen.toNat + 32 ∧
      holds t (s.out (s.inLen.toNat + 32)) (sealBytes (messageParams s hdr trl) pt) ∧
      sameMemoryOutside (s.out (s.inLen.toNat + 32)) s t ∧ secretsErased t ∧ transientsErased t ∧ sameAround s t

/-- 42_orchestrator.md R174, R177, R186-R188: an OPEN that meets its contract and whose bytes are all answered leaves the
codec's plaintext and AUTH_OK where the tag matches, and zeros and AUTH_FAIL where it does not; key and nonce are erased
either way. -/
def Obligations.OpenWritesPlaintextOrZeros : Prop :=
  ∀ (s : State) (hdr ct trl : List Byte), idleQuiet s → Memory.wf s.mem = true → inputsGood s →
    32 ≤ s.inLen.toNat → validRegion (s.out (s.inLen.toNat - 32)) = true →
    answered s.platform .read s.hdr → answered s.platform .read s.inp → answered s.platform .read s.trl →
    answered s.platform .write (s.out (s.inLen.toNat - 32)) →
    holds s s.hdr hdr → holds s s.inp ct → holds s s.trl trl → goodOverlap s (s.inLen.toNat - 32) →
    ∃ t, exec .openMsg s = .next t ∧ completedWith .noError t ∧ t.lastOpc = 0x02 ∧ t.faultAddr = 0 ∧
      sameMemoryOutside (s.out (s.inLen.toNat - 32)) s t ∧ secretsErased t ∧ transientsErased t ∧ sameAround s t ∧
      (∀ pt, openBytes (messageParams s hdr trl) ct = some pt →
        authIs true false t ∧ t.outLen.toNat = s.inLen.toNat - 32 ∧ holds t (s.out (s.inLen.toNat - 32)) pt) ∧
      (openBytes (messageParams s hdr trl) ct = none →
        authIs false true t ∧ t.outLen = 0 ∧ holds t (s.out (s.inLen.toNat - 32)) (zeros (s.inLen.toNat - 32)))

/-- 42_orchestrator.md R174 step "short", R189: a ciphertext shorter than the tag is an authentication failure with no access
and no permutation, and leaves the registers a tag mismatch leaves. -/
def Obligations.ShortOpenFailsWithoutAccess : Prop :=
  ∀ s : State, idleQuiet s → inputsGood s → s.inLen.toNat < 32 →
    ∃ t, exec .openMsg s = .next t ∧ completedWith .noError t ∧ t.lastOpc = 0x02 ∧ authIs false true t ∧
      t.outLen = 0 ∧ t.faultAddr = 0 ∧ secretsErased t ∧ transientsErased t ∧ sameAround s t ∧ t.mem = s.mem ∧
      t.trace = s.trace ++ [.accepted 0x02, .enter .init, .completed .noError]

/-- 42_orchestrator.md R180, 60_exceptions.md R213: the checks of SEAL and OPEN in their order; the first that fails decides the
code, before any access, and the secrets are erased. -/
def Obligations.ContractChecksInOrder : Prop :=
  ∀ (s : State) (i : Instr), idleQuiet s → i = .sealMsg ∨ i = .openMsg →
    let endsWith (e : ErrCode) : Prop :=
      ∃ t, exec i s = .next t ∧ completedWith e t ∧ authIs false false t ∧ t.outLen = 0 ∧ t.faultAddr = 0 ∧
        secretsErased t ∧ transientsErased t ∧ sameAround s t ∧ t.mem = s.mem ∧
        t.trace = s.trace ++ [.accepted i.opcode, .enter .init, .completed e]
    let rangesGood := validRegion s.hdr = true ∧ validRegion s.inp = true ∧ validRegion s.trl = true
    (¬ (s.rounds = 4 ∨ s.rounds = 6) → endsWith .badRounds) ∧
    ((s.rounds = 4 ∨ s.rounds = 6) → s.keyMask ≠ 0b1111 → endsWith .keyNotLoaded) ∧
    ((s.rounds = 4 ∨ s.rounds = 6) → s.keyMask = 0b1111 → s.nonceMask ≠ 0b1111 → endsWith .nonceNotLoaded) ∧
    ((s.rounds = 4 ∨ s.rounds = 6) → s.keyMask = 0b1111 → s.nonceMask = 0b1111 → ¬ rangesGood → endsWith .badRange) ∧
    (inputsGood s → i = .sealMsg →
      ¬ (s.inLen.toNat + 32 ≤ 2 ^ 64 - 1 ∧ validRegion (s.out (s.inLen.toNat + 32)) = true) → endsWith .badRange) ∧
    (inputsGood s → i = .openMsg → 32 ≤ s.inLen.toNat → validRegion (s.out (s.inLen.toNat - 32)) = false →
      endsWith .badRange)

/-- 42_orchestrator.md R173: SEAL's DMA accesses, exactly and in order. -/
def Obligations.SealAccessOrder : Prop :=
  ∀ s : State, idleQuiet s → inputsGood s →
    s.inLen.toNat + 32 ≤ 2 ^ 64 - 1 → validRegion (s.out (s.inLen.toNat + 32)) = true →
    answered s.platform .read s.hdr → answered s.platform .read s.inp → answered s.platform .read s.trl →
    answered s.platform .write (s.out (s.inLen.toNat + 32)) →
    ∃ t, exec .sealMsg s = .next t ∧ completedWith .noError t ∧ dmaOf t.trace = dmaOf s.trace ++ sealAccesses s

/-- 42_orchestrator.md R175: OPEN's DMA accesses, exactly and in order; the zeroing write only on a mismatch. -/
def Obligations.OpenAccessOrder : Prop :=
  ∀ s : State, idleQuiet s → inputsGood s →
    32 ≤ s.inLen.toNat → validRegion (s.out (s.inLen.toNat - 32)) = true →
    answered s.platform .read s.hdr → answered s.platform .read s.inp → answered s.platform .read s.trl →
    answered s.platform .write (s.out (s.inLen.toNat - 32)) →
    ∃ t, exec .openMsg s = .next t ∧ completedWith .noError t ∧ t.authFail = !t.authOk ∧
      dmaOf t.trace = dmaOf s.trace ++ openAccesses s t.authFail

/-- 60_exceptions.md R215, R217, R218, 42_orchestrator.md R188: a SEAL or OPEN that meets its contract and some of whose accesses
the platform refuses makes its accesses in order up to the first refused one and no other, and ends with BUS_FAULT at that
access's first refused byte, secrets erased. OPEN's zeroing write needs no case of its own: it covers bytes already written. -/
def Obligations.RefusedAccessEndsTheMessage : Prop :=
  ∀ (s : State) (made : List EngineEvent) (x : Nat), idleQuiet s → inputsGood s →
    let endsAtFault (i : Instr) : Prop :=
      ∃ t, exec i s = .next t ∧ completedWith .busFault t ∧ t.lastOpc = i.opcode ∧ authIs false false t ∧ t.outLen = 0 ∧
        t.faultAddr.toNat = x ∧ dmaOf t.trace = dmaOf s.trace ++ made ∧ secretsErased t ∧ transientsErased t ∧
        sameAround s t
    (s.inLen.toNat + 32 ≤ 2 ^ 64 - 1 → validRegion (s.out (s.inLen.toNat + 32)) = true →
      untilFault s.platform (sealAccesses s) = some (made, x) → endsAtFault .sealMsg) ∧
    (32 ≤ s.inLen.toNat → validRegion (s.out (s.inLen.toNat - 32)) = true →
      untilFault s.platform (openAccesses s false) = some (made, x) → endsAtFault .openMsg)

/-- 41_block_codec.md R157: the permutation calls of a SEAL and of an OPEN, their tags and their number, under both values of
SKIP_EMPTY_PHASE. -/
def Obligations.MessagePermutationCalls : Prop :=
  ∀ s : State, idleQuiet s → inputsGood s →
    answered s.platform .read s.hdr → answered s.platform .read s.inp → answered s.platform .read s.trl →
    (s.inLen.toNat + 32 ≤ 2 ^ 64 - 1 → answered s.platform .write (s.out (s.inLen.toNat + 32)) →
      validRegion (s.out (s.inLen.toNat + 32)) = true →
      ∃ t, exec .sealMsg s = .next t ∧
        permutesOf t.trace = permutesOf s.trace ++ messageCalls s s.inLen.toNat) ∧
    (32 ≤ s.inLen.toNat → answered s.platform .write (s.out (s.inLen.toNat - 32)) →
      validRegion (s.out (s.inLen.toNat - 32)) = true →
      ∃ t, exec .openMsg s = .next t ∧
        permutesOf t.trace = permutesOf s.trace ++ messageCalls s (s.inLen.toNat - 32))

/-! ## Whole-machine rules -/

/-- The machine's invariant holds right after reset, whatever the platform's parameters and the memory it finds
(70_reset_and_hazards.md R240, R242). That `State.reset` is this with the parameters of log 1 and unwritten memory is the model's
choice (log 1, log 14). -/
def Obligations.ResetMeetsTheInvariant : Prop :=
  State.reset = State.resetOn resetPlatform [] ∧ State.reset.Inv ∧
  ∀ (p : Platform) (m : Memory), Memory.wf m = true → (State.resetOn p m).Inv

/-- 10_state.md R20, R28, R31, R45, 42_orchestrator.md R171, R184: every step from a state that meets the invariant leaves one
that meets it, whatever arrives during a command: memory stays canonical, an idle engine holds no transient data, a running
one reports nothing, AUTH_OK and AUTH_FAIL exclude each other. -/
def Obligations.EveryStepKeepsTheInvariant : Prop :=
  ∀ s t : State, s.Inv → step s = .next t → t.Inv

/-- 42_orchestrator.md R178, 60_exceptions.md R212: whatever happens during a SEAL or an OPEN, once the engine is idle again key,
nonce, masks and every transient are zero. -/
def Obligations.MessagesEraseSecretsOnEveryPath : Prop :=
  ∀ (s t : State) (i : Instr), i = .sealMsg ∨ i = .openMsg → s.busy = false → exec i s = .next t → t.busy = false →
    secretsErased t ∧ transientsErased t

/-- 92_eei_decisions.md D38, 60_exceptions.md R212: NOP, PERMUTE and an illegal word (log 7) keep key, nonce and masks on every
path but a reset. -/
def Obligations.OtherCommandsKeepTheKey : Prop :=
  (∀ (s t : State) (i : Instr), i = .nop ∨ (∃ r, i = .permute r) → s.busy = false → exec i s = .next t →
    sameSecrets s t ∨ resetsOf s.trace < resetsOf t.trace) ∧
  (∀ (s t : State) (w : Word) (e : DecodeError), decode w = .illegal e → s.busy = false → runWord w s = .next t →
    sameSecrets s t ∨ resetsOf s.trace < resetsOf t.trace)

/-- 42_orchestrator.md R188, 20_memory.md R83, 70_reset_and_hazards.md R241, R242: in a quiet state no command, whatever its
outcome, changes a byte outside its output region; and whatever lands in a command, a reset or a stall too, a byte outside its
output region that no other agent's write in the inbox names is as it was. -/
def Obligations.CommandsWriteOnlyTheirOutput : Prop :=
  (∀ (s t : State) (i : Instr), idleQuiet s → Memory.wf s.mem = true → exec i s = .next t →
    sameMemoryOutside (outputRegion i s) s t) ∧
  ∀ (s t : State) (i : Instr) (a : Nat), s.busy = false → Memory.wf s.mem = true → exec i s = .next t →
    (outputRegion i s).contains a = false → (∀ b v, HostEvent.memWrite b v ∈ landed s t → b.toNat ≠ a) →
    Memory.read t.mem a = Memory.read s.mem a

/-- 42_orchestrator.md R171, 10_state.md R29, R44, 20_memory.md R81, 60_exceptions.md R224, 70_reset_and_hazards.md R241, R252: a
command that starts adds one acceptance and then either completes exactly once, as its last event and with its code, or is cut
off by exactly one reset without completing, or stays busy, stuck, without completing, STATUS.PHASE being the phase entered last.
It is stuck only where the platform's silence (log 9) landed in it, which at the slot of an access ends it there, after what that
access has left. -/
def Obligations.EveryCommandEndsAtMostOnce : Prop :=
  (∀ (s t : State) (i : Instr), s.busy = false → exec i s = .next t →
    ∃ d, t.trace = s.trace ++ .accepted i.opcode :: d ∧
      ((t.busy = false ∧ t.done = true ∧ completionsOf d = 1 ∧ resetsOf d = 0 ∧ t.running = none ∧ t.phase = .idle ∧
         ∃ d', d = d' ++ [.completed t.err]) ∨
       (t.busy = false ∧ t.done = false ∧ completionsOf d = 0 ∧ resetsOf d = 1 ∧ t.running = none ∧ t.phase = .idle ∧
         ∃ d', d = d' ++ [.reset]) ∨
       (t.busy = true ∧ t.done = false ∧ completionsOf d = 0 ∧ resetsOf d = 0 ∧ t.running = some i ∧
         (phasesOf d).getLast? = some t.phase ∧ .dmaStall ∈ landed s t))) ∧
  ∀ (s : State) (rest : List Arrival) (f : State → State) (inside : Bool), s.busy = true →
    land (some f) (⟨.slot 0 inside, .dmaStall⟩ :: rest) s = .ended (f { s with inbox := rest }) ∧
    land none (⟨.slot 0 inside, .dmaStall⟩ :: rest) s = land none rest { s with inbox := rest }

/-- 42_orchestrator.md R183, R185, 10_state.md R29: the phases a command enters are a beginning of its sequence, so a phase is
never entered after a later one, whatever happens meanwhile; a command that runs to its end (no error, no short OPEN) enters
all of them; and the sequencer that enters a phase holds it, with `k` back at 0. -/
def Obligations.PhasesOnlyAdvance : Prop :=
  (∀ (s t : State) (i : Instr), s.busy = false → exec i s = .next t →
    ∃ ps, phasesOf t.trace = phasesOf s.trace ++ ps ∧ ps <+: phaseSequence i ∧
      (t.done = true → t.err = .noError → (i = .openMsg → 32 ≤ s.inLen.toNat) → ps = phaseSequence i)) ∧
  ∀ (s : State) (p : Phase), quiet s = true →
    enter p s = .ok () { s with phase := p, k := 0, trace := s.trace ++ [.enter p] }

/-- 92_eei_decisions.md D34, 10_state.md R39, R43: no command changes CONFIG, a region register or the platform; only a reset that
lands in it can. -/
def Obligations.CommandsKeepOperandRegisters : Prop :=
  ∀ (s t : State) (i : Instr), s.busy = false → exec i s = .next t →
    t.platform = s.platform ∧ (sameOperands s t ∨ resetsOf s.trace < resetsOf t.trace)

/-- 60_exceptions.md R210, R214: an error and an authentication failure are never reported together; both leave OUT_LEN = 0;
only OPEN reports an authentication result. -/
def Obligations.ErrorsAndAuthFailuresStayApart : Prop :=
  ∀ (s t : State) (i : Instr), s.busy = false → exec i s = .next t →
    (t.err ≠ .noError → authIs false false t ∧ t.outLen = 0) ∧
    (t.authFail = true → t.err = .noError ∧ t.authOk = false ∧ t.outLen = 0 ∧ i = .openMsg) ∧
    (t.authOk = true → t.err = .noError ∧ t.authFail = false ∧ i = .openMsg)

/-- 60_exceptions.md R215: after BUS_FAULT, FAULT_ADDR is an address of one of the command's regions that the platform refuses. -/
def Obligations.FaultAddressWasRefused : Prop :=
  ∀ (s t : State) (i : Instr), s.busy = false → exec i s = .next t → t.err = .busFault →
    (∃ d, memOk s.platform d t.faultAddr.toNat = false) ∧
    (touchedRegions i s).any (fun r => r.contains t.faultAddr.toNat) = true

/-- 60_exceptions.md R229, 70_reset_and_hazards.md R251: what a SEAL or a PERMUTE does on the bus, its phases and calls of F, and
how it ends, do not depend on key, nonce, message or memory bytes. For an OPEN this holds up to the one bit of the comparison. -/
def Obligations.ActivityIsDataIndependent : Prop :=
  (∀ (s s' t t' : State) (i : Instr), i ≠ .openMsg → s.busy = false → sameControl s s' →
    exec i s = .next t → exec i s' = .next t' →
    t'.trace = t.trace ∧ t'.err = t.err ∧ t'.busy = t.busy ∧ t'.outLen = t.outLen ∧ t'.faultAddr = t.faultAddr) ∧
  (∀ s s' t t' : State, idleQuiet s → sameControl s s' →
    exec .openMsg s = .next t → exec .openMsg s' = .next t' → t'.authOk = t.authOk →
    t'.trace = t.trace ∧ t'.err = t.err ∧ t'.outLen = t.outLen ∧ t'.faultAddr = t.faultAddr)

/-- 70_reset_and_hazards.md R247: where software may use OUT after an OPEN, OUT holds the plaintext of an authentic message;
this needs no assumption about what the platform answers. -/
def Obligations.ReleasedPlaintextIsAuthentic : Prop :=
  ∀ (s t : State) (hdr ct trl : List Byte), idleQuiet s → Memory.wf s.mem = true →
    holds s s.hdr hdr → holds s s.inp ct → holds s s.trl trl → goodOverlap s (s.inLen.toNat - 32) →
    exec .openMsg s = .next t → mayReleaseOut t = true →
    ∃ pt, openBytes (messageParams s hdr trl) ct = some pt ∧ holds t (s.out t.outLen.toNat) pt

/-- 20_memory.md R85: outside races, accesses that arrive while a command runs do not disturb it: it does and leaves what it
does and leaves when it runs alone. -/
def Obligations.HarmlessAccessesDoNotDisturb : Prop :=
  ∀ (s t u : State) (i : Instr) (l : List Arrival), s.busy = false → Memory.wf s.mem = true →
    (∀ x ∈ l, harmless i s x.event = true) →
    (∀ r ∈ inputRegions i s, answered s.platform .read r ∧ ∃ b, holds s r b) →
    answered s.platform .write (outputRegion i s) →
    exec i { s with inbox := [] } = .next u → exec i { s with inbox := l } = .next t →
    t.trace = u.trace ∧ t.err = u.err ∧ t.busy = u.busy ∧ t.authOk = u.authOk ∧ t.authFail = u.authFail ∧
      t.outLen = u.outLen ∧ t.faultAddr = u.faultAddr ∧ sameSecrets u t ∧ sameOperands u t ∧
      ∀ a, (outputRegion i s).contains a = true → Memory.read t.mem a = Memory.read u.mem a

/-! ## The register window -/

/-- 10_state.md R22, R23, R45: no register shows the permutation state, the key, the buffers or the block index. -/
def Obligations.SecretsAreNotReadable : Prop :=
  ∀ (r : Reg) (s : State) (S : Sponge) (key : Quad) (tagBuf tag : Vector Byte 32) (blk : Vector Byte 96) (diff : Byte)
    (k : Nat),
    readReg r { s with S := S, key := key, tagBuf := tagBuf, tag := tag, blk := blk, diff := diff, k := k } = readReg r s ∧
    (∀ i, readReg (.key i) s = 0)

/-- 10_state.md R31: every bit of STATUS, with the numbers of the error codes (60_exceptions.md R211) and of the phases
(10_state.md R29), and what a read of STATUS and of every other register with storage answers (10_state.md R25, R35 to R39). -/
def Obligations.StatusFields : Prop :=
  [ErrCode.noError, .illegalCmd, .badRounds, .keyNotLoaded, .nonceNotLoaded, .badRange, .busFault].map ErrCode.code =
    [0, 1, 2, 3, 4, 5, 6] ∧
  [Phase.idle, .init, .header, .payload, .trailer, .final, .wipe, .perm].map Phase.code = [0, 1, 2, 3, 4, 5, 6, 7] ∧
  ∀ s : State,
    (statusWord s).getLsbD 0 = s.busy ∧ (statusWord s).getLsbD 1 = s.done ∧ (statusWord s).getLsbD 2 = s.authOk ∧
    (statusWord s).getLsbD 3 = s.authFail ∧ (statusWord s).getLsbD 4 = s.wrBusy ∧
    (statusWord s).extractLsb' 5 3 = 0 ∧ (statusWord s).extractLsb' 8 4 = s.err.code ∧
    (statusWord s).extractLsb' 12 4 = 0 ∧ (statusWord s).extractLsb' 16 4 = s.keyMask ∧
    (statusWord s).extractLsb' 20 4 = s.nonceMask ∧ (statusWord s).extractLsb' 24 3 = s.phase.code ∧
    (statusWord s).extractLsb' 27 5 = 0 ∧ (statusWord s).extractLsb' 32 8 = s.lastOpc ∧
    (statusWord s).extractLsb' 40 24 = 0 ∧
    readReg .status s = statusWord s ∧ readReg .outLen s = s.outLen ∧ readReg .faultAddr s = s.faultAddr ∧
    readReg .config s = s.rounds.setWidth 64 ∧ readReg .irqEn s = (if s.doneIe then 1 else 0) ∧
    (∀ i, readReg (.nonce i) s = s.nonce[i]) ∧ readReg .hdrAddr s = s.hdrAddr ∧ readReg .hdrLen s = s.hdrLen ∧
    readReg .inAddr s = s.inAddr ∧ readReg .inLen s = s.inLen ∧ readReg .trlAddr s = s.trlAddr ∧
    readReg .trlLen s = s.trlLen ∧ readReg .outAddr s = s.outAddr

/-- 10_state.md R44, R42: a well-formed read answers with the register's value and changes nothing else, idle, stuck, or at a
slot of a running command (log 2), where the command goes on as after no event. A read that a command meets, started in a state
of the machine's invariant (EveryStepKeepsTheInvariant), shows STATUS with
BUSY = 1 and what the acceptance set, a phase of the command, the old OUT_LEN, FAULT_ADDR = 0 (never a fault's address: log 24),
and the operand registers as they were. -/
def Obligations.RegisterReadsHaveNoSideEffect : Prop :=
  (∀ (s : State) (r : Reg) (rest : List Arrival),
    windowAligned s.platform → arrives s (.regRead (busAddr s.platform r) 64) rest →
    step s = .next { s with inbox := rest, responses := .readData (readReg r s) :: s.responses }) ∧
  (∀ (begun : Option (State → State)) (s : State) (r : Reg) (inside : Bool) (rest : List Arrival),
    s.busy = true → windowAligned s.platform →
    land begun (⟨.slot 0 inside, .regRead (busAddr s.platform r) 64⟩ :: rest) s =
      land begun rest { s with inbox := rest, responses := .readData (readReg r s) :: s.responses }) ∧
  ∀ (s t : State) (i : Instr) (r : Reg) (x : Response),
    s.Inv → s.busy = false → windowAligned s.platform → exec i s = .next t →
    (.regRead (busAddr s.platform r) 64, x) ∈ answersOf s t →
    ∃ v, x = .readData v ∧
      (r = .status → v.extractLsb' 0 4 = 0b0001 ∧ v.extractLsb' 8 4 = 0 ∧ v.extractLsb' 32 8 = i.opcode ∧
        ∃ p ∈ Phase.idle :: phaseSequence i, v.extractLsb' 24 3 = p.code) ∧
      (r = .outLen → v = s.outLen) ∧ (r = .faultAddr → v = 0) ∧ ((∃ j, r = .key j) → v = 0) ∧
      (r ∈ [Reg.config, .hdrAddr, .hdrLen, .inAddr, .inLen, .trlAddr, .trlLen, .outAddr] → v = readReg r s)

/-- 20_memory.md R74, 10_state.md R41: an access of another width, or at an offset that is no multiple of 8, is answered with a
bus error, a read of it returns 0, and no engine state changes; an access outside the window is not the block's (the answer notDecoded is log 10's). -/
def Obligations.MisformedAccessChangesNothing : Prop :=
  ∀ (s : State) (addr data : Word) (width : Nat) (rest : List Arrival) (e : HostEvent),
    e = .regRead addr width ∨ e = .regWrite addr width data → arrives s e rest →
    (s.platform.regBase.toNat ≤ addr.toNat ∧ addr.toNat < s.platform.regBase.toNat + 256 →
      width ≠ 64 ∨ (addr.toNat - s.platform.regBase.toNat) % 8 ≠ 0 →
      step s = .next { s with inbox := rest, responses := .busError 0 :: s.responses }) ∧
    (addr.toNat < s.platform.regBase.toNat ∨ s.platform.regBase.toNat + 256 ≤ addr.toNat →
      step s = .next { s with inbox := rest, responses := .notDecoded :: s.responses })

/-- 10_state.md R43, R31, R33, R36, R41: a write of a protected register while BUSY = 1, of CMD too, only sets WR_BUSY; CTRL,
STATUS and IRQ_EN take writes as when idle: STATUS clears DONE and WR_BUSY where a 1 is written, IRQ_EN takes bit 0, idle or
busy; a write of a read-only or reserved register does nothing, nor does one of CTRL with bit 0 clear. Each of these holds at a
step and at a slot of a running command (log 2), which goes on. Nothing but a protected write that lands in a command sets
WR_BUSY. The inbox and the answers are log 8's. -/
def Obligations.WritesWhileBusy : Prop :=
  (∀ (s : State) (r : Reg) (v : Word) (rest : List Arrival), windowAligned s.platform →
    let e : HostEvent := .regWrite (busAddr s.platform r) 64 v
    let s' : State := { s with inbox := rest, responses := .writeDone :: s.responses }
    (s.busy = true → r ∈ protectedRegs → takesTo s e rest { s' with wrBusy := true }) ∧
    (r = .irqEn → takesTo s e rest { s' with doneIe := v.getLsbD 0 }) ∧
    (r = .status → takesTo s e rest
      { s' with done := s.done && !v.getLsbD 1, wrBusy := s.wrBusy && !v.getLsbD 4 }) ∧
    (r = .ctrl → v.getLsbD 0 = false → takesTo s e rest s') ∧
    (s.busy = true → r = .ctrl → arrives s e rest → ∃ t, step s = .next t ∧ t.busy = !v.getLsbD 0) ∧
    (r ∈ [Reg.id, .outLen, .faultAddr] ∨ (∃ n, r = .reserved n) → takesTo s e rest s')) ∧
  ∀ (s t : State) (i : Instr), s.busy = false → windowAligned s.platform → exec i s = .next t →
    ((∃ r ∈ protectedRegs, ∃ v, .regWrite (busAddr s.platform r) 64 v ∈ landed s t) →
      (∀ v, .regWrite (busAddr s.platform .status) 64 v ∉ landed s t) → resetsOf t.trace = resetsOf s.trace →
      t.wrBusy = true) ∧
    (t.wrBusy = true → s.wrBusy = true ∨
      ∃ r ∈ protectedRegs, ∃ v, .regWrite (busAddr s.platform r) 64 v ∈ landed s t)

/-- 10_state.md R23, R24, R25, R26: a write of KEYi or NONCEi to an idle engine sets the word and its mask bit, any value
included, and nothing else. -/
def Obligations.KeyAndNonceWrites : Prop :=
  ∀ (s : State) (i : Fin 4) (v : Word) (rest : List Arrival), s.busy = false → windowAligned s.platform →
    (arrives s (.regWrite (busAddr s.platform (.key i)) 64 v) rest →
      ∃ t, step s = .next t ∧ t.key[i] = v ∧ t.keyMask.getLsbD i.val = true ∧
        (∀ j : Fin 4, j ≠ i → t.key[j] = s.key[j] ∧ t.keyMask.getLsbD j.val = s.keyMask.getLsbD j.val) ∧
        t = { s with inbox := rest, responses := .writeDone :: s.responses, key := t.key, keyMask := t.keyMask }) ∧
    (arrives s (.regWrite (busAddr s.platform (.nonce i)) 64 v) rest →
      ∃ t, step s = .next t ∧ t.nonce[i] = v ∧ readReg (.nonce i) t = v ∧ t.nonceMask.getLsbD i.val = true ∧
        (∀ j : Fin 4, j ≠ i → t.nonce[j] = s.nonce[j] ∧ t.nonceMask.getLsbD j.val = s.nonceMask.getLsbD j.val) ∧
        t = { s with inbox := rest, responses := .writeDone :: s.responses, nonce := t.nonce, nonceMask := t.nonceMask })

/-- 10_state.md R42, R35, R36, R39, R40, R41: the register map: each register's offset from REG_BASE, at which a 64-bit access
selects it. A write of a region register, CONFIG or IRQ_EN to an idle engine changes that one item
and nothing else, and it reads back; a write of a read-only or reserved register changes nothing. -/
def Obligations.OtherRegistersReadBack : Prop :=
  ([Reg.id, .ctrl, .cmd, .status, .config, .irqEn, .outLen, .faultAddr].map Reg.offset =
      [0x000, 0x008, 0x010, 0x018, 0x020, 0x028, 0x030, 0x038] ∧
    [Reg.hdrAddr, .hdrLen, .inAddr, .inLen, .trlAddr, .trlLen, .outAddr].map Reg.offset =
      [0x080, 0x088, 0x090, 0x098, 0x0A0, 0x0A8, 0x0B0] ∧
    (∀ i : Fin 4, (Reg.key i).offset = 0x040 + 8 * i.val ∧ (Reg.nonce i).offset = 0x060 + 8 * i.val) ∧
    (∀ n : Fin 9, (Reg.reserved n).offset = 0x0B8 + 8 * n.val) ∧
    ∀ (p : Platform) (r : Reg), windowAligned p →
      (busAddr p r).toNat = p.regBase.toNat + r.offset ∧ select p (busAddr p r) 64 = .reg r) ∧
  ∀ (s : State) (r : Reg) (v : Word) (rest : List Arrival), s.busy = false → windowAligned s.platform →
    arrives s (.regWrite (busAddr s.platform r) 64 v) rest →
    let s' : State := { s with inbox := rest, responses := .writeDone :: s.responses }
    (r = .hdrAddr → step s = .next { s' with hdrAddr := v }) ∧
    (r = .hdrLen → step s = .next { s' with hdrLen := v }) ∧
    (r = .inAddr → step s = .next { s' with inAddr := v }) ∧
    (r = .inLen → step s = .next { s' with inLen := v }) ∧
    (r = .trlAddr → step s = .next { s' with trlAddr := v }) ∧
    (r = .trlLen → step s = .next { s' with trlLen := v }) ∧
    (r = .outAddr → step s = .next { s' with outAddr := v }) ∧
    (r = .config → step s = .next { s' with rounds := v.extractLsb' 0 4 }) ∧
    (r = .irqEn → step s = .next { s' with doneIe := v.getLsbD 0 }) ∧
    (r ∈ [Reg.hdrAddr, .hdrLen, .inAddr, .inLen, .trlAddr, .trlLen, .outAddr] → ∃ t, step s = .next t ∧ readReg r t = v) ∧
    (r = .config → ∃ t, step s = .next t ∧ readReg r t = v &&& 0xF) ∧
    (r = .irqEn → ∃ t, step s = .next t ∧ readReg r t = v &&& 1) ∧
    (r ∈ [Reg.hdrAddr, .hdrLen, .inAddr, .inLen, .trlAddr, .trlLen, .outAddr, .config, .irqEn] →
      ∃ t, step s = .next t ∧ ∀ q, q ≠ r → readReg q t = readReg q s) ∧
    (r ∈ [Reg.id, .outLen, .faultAddr] ∨ (∃ n, r = .reserved n) → step s = .next s') ∧
    readReg .id s = 0x4E4F525800000001 ∧ readReg .ctrl s = 0 ∧ readReg .cmd s = 0 ∧ ∀ n, readReg (.reserved n) s = 0

/-- 10_state.md R32, R36, 60_exceptions.md R220, R221: the level of irq: DONE AND DONE_IE; every completion raises DONE; writing
1 to STATUS[1] drops it, writing 0 does not. -/
def Obligations.InterruptIsDoneAndEnabled : Prop :=
  (∀ s : State, irq s = (s.done && s.doneIe)) ∧
  (∀ (s t : State) (i : Instr), idleQuiet s → exec i s = .next t → irq t = s.doneIe) ∧
  (∀ (s t : State) (w : Word), idleQuiet s → runWord w s = .next t → irq t = s.doneIe) ∧
  (∀ (s : State) (v : Word) (rest : List Arrival), windowAligned s.platform →
    arrives s (.regWrite (busAddr s.platform .status) 64 v) rest →
    ∃ t, step s = .next t ∧ irq t = (irq s && !v.getLsbD 1))

/-- 70_reset_and_hazards.md R252, 20_memory.md R74: a register access is always answered, idle or stuck, also a CMD write
whose command other accesses meet (their answers come after it), and each access that lands in a running command gets one
answer, in order: a well-formed write writeDone, a misformed access a bus error. That an access OUTSIDE the window is answered
too (notDecoded) is the model's choice (log 10); the answers' form is log 8's. And the platform never changes (log 1). -/
def Obligations.RegisterAccessesAreAlwaysAnswered : Prop :=
  (∀ (s : State) (e : HostEvent) (addr data : Word) (width : Nat) (rest : List Arrival),
    e = .regRead addr width ∨ e = .regWrite addr width data → arrives s e rest →
    ∃ t later r, step s = .next t ∧ t.responses = later ++ r :: s.responses) ∧
  (∀ (s t : State) (i : Instr), s.busy = false → exec i s = .next t →
    (∃ later, t.responses = later ++ s.responses ∧
      later.length = ((landed s t).filter (·.isAnswered)).length) ∧
    s.inbox.map (·.event) = landed s t ++ t.inbox.map (·.event) ∧
    (∀ r v x, windowAligned s.platform → (.regWrite (busAddr s.platform r) 64 v, x) ∈ answersOf s t → x = .writeDone) ∧
    ∀ (e : HostEvent) (addr data : Word) (width : Nat) (x : Response),
      e = .regRead addr width ∨ e = .regWrite addr width data → (e, x) ∈ answersOf s t →
      s.platform.regBase.toNat ≤ addr.toNat ∧ addr.toNat < s.platform.regBase.toNat + 256 →
      width ≠ 64 ∨ (addr.toNat - s.platform.regBase.toNat) % 8 ≠ 0 → x = .busError 0) ∧
  (∀ s t : State, step s = .next t → t.platform = s.platform)

/-- 70_reset_and_hazards.md R242, 20_memory.md R70, R81, R85, R89, 30_encoding.md R106: memory changes only by a command or by
another agent's write; no register access, no reset and no dropped CMD write changes a byte. Another agent's write leaves exactly
its byte changed; one to a byte of HDR, IN, TRL or OUT of the running command (`touchedRegions`) is a race, after which that byte is
worth a free value in memory and to the command's DMA (log 5). A read of a written byte answers it, but for a byte that the
running command writes and, for the host without coherence, one that an ended command wrote and the host has not discarded since;
every byte that a command changes is such a one when it ends, whatever was discarded meanwhile, and a discard takes the bytes of
its region, and no others, off those of ended commands, also while BUSY = 1 (log 6); that a write beside the engine's takes none off
is the model's choice (log 6). The memory's form, the counter and the answers
are log 3's and log 8's. -/
def Obligations.OnlyCommandsAndAgentsWriteMemory : Prop :=
  (∀ (s t : State) (e : HostEvent) (rest : List Arrival), arrives s e rest → step s = .next t →
    (∀ a v, e ≠ .memWrite a v) → cmdWord? s.platform e = none ∨ s.busy = true → t.mem = s.mem) ∧
  (∀ (s : State) (a : Word) (v : Byte) (rest : List Arrival), Memory.wf s.mem = true →
    ((∀ i, s.busy = true → s.running = some i → ∀ r ∈ touchedRegions i s, r.contains a.toNat = false) →
      ∃ u, takesTo s (.memWrite a v) rest u ∧ u = { s with inbox := rest, mem := u.mem } ∧
        ∀ b, Memory.read u.mem b = if b = a.toNat then some v else Memory.read s.mem b) ∧
    (∀ i, s.busy = true → s.running = some i → (∃ r ∈ touchedRegions i s, r.contains a.toNat = true) →
      ∃ u, takesTo s (.memWrite a v) rest u ∧
        u = { s with inbox := rest, mem := u.mem, raced := a.toNat :: s.raced, draws := s.draws + 1 } ∧
        ∀ b, Memory.read u.mem b =
          if b = a.toNat then some (Config.racedByte s.draws a.toNat) else Memory.read s.mem b)) ∧
  (∀ (s : State) (a : Nat) (v : Byte), a ∈ s.raced →
    dmaByte s a = Config.racedByte s.draws a ∧ dmaStored s a v = Config.racedByte s.draws a) ∧
  (∀ (s : State) (who : Reader) (a : Word) (rest : List Arrival), ∃ x,
    takesTo s (.memRead who a) rest
      { s with inbox := rest, responses := .memData x :: s.responses, draws := s.draws + 1 } ∧
    ∀ v, (∀ i, s.busy = true → s.running = some i → (outputRegion i s).contains a.toNat = false) →
      (who = .other ∨ s.platform.dmaCoherent = true ∨ ∀ r ∈ s.stale, r.contains a.toNat = false) →
      Memory.read s.mem a.toNat = some v → x = v) ∧
  (∀ (s : State) (q : Region) (rest : List Arrival), ∃ l,
    takesTo s (.cacheDiscard q) rest { s with inbox := rest, stale := l } ∧
    ∀ a, (∃ r ∈ l, r.contains a = true) ↔ (∃ r ∈ s.stale, r.contains a = true) ∧ q.contains a = false) ∧
  ∀ (s t : State) (i : Instr) (a : Nat), s.busy = false → Memory.wf s.mem = true → exec i s = .next t →
    ((∃ r ∈ s.stale, r.contains a = true) → (∀ q, HostEvent.cacheDiscard q ∈ landed s t → q.contains a = false) →
      ∃ r ∈ t.stale, r.contains a = true) ∧
    ((∃ r ∈ t.fresh ++ t.stale, r.contains a = true) →
      (∃ r ∈ s.fresh ++ s.stale, r.contains a = true) ∨ (outputRegion i s).contains a = true) ∧
    ((∀ b v, HostEvent.memWrite b v ∈ landed s t → b.toNat ≠ a) → Memory.read t.mem a ≠ Memory.read s.mem a →
      ∃ r ∈ t.fresh ++ t.stale, r.contains a = true) ∧
    (t.busy = false → t.fresh = [])

/-! ## Reset -/

/-- 70_reset_and_hazards.md R240: every item of the reset table, as the state and as the host reads it, and that a SEAL or an OPEN
before software programs the engine fails with BAD_ROUNDS; whatever the platform's parameters and the memory are. -/
def Obligations.ResetTable : Prop :=
  ∀ (p : Platform) (m : Memory),
  let s := State.resetOn p m
  transientsErased s ∧ secretsErased s ∧ s.phase = .idle ∧ s.k = 0 ∧ statusWord s = 0 ∧ readReg .ctrl s = 0 ∧
  readReg .config s = 0 ∧ readReg .irqEn s = 0 ∧ s.outLen = 0 ∧ s.faultAddr = 0 ∧ s.hdrAddr = 0 ∧ s.hdrLen = 0 ∧
  s.inAddr = 0 ∧ s.inLen = 0 ∧ s.trlAddr = 0 ∧ s.trlLen = 0 ∧ s.outAddr = 0 ∧
  readReg .id s = 0x4E4F525800000001 ∧ irq s = false ∧
  (∃ t, exec .sealMsg s = .next t ∧ t.err = .badRounds) ∧ ∃ t, exec .openMsg s = .next t ∧ t.err = .badRounds

/-- 70_reset_and_hazards.md R241, R242, 10_state.md R33: a write of 1 to CTRL.SRST, to an idle or a stuck engine, sets every item
of the block to its reset value, touches no memory and completes nothing; a write of 0 does nothing; a hard reset does the
same as a soft one. What is kept of the model's own fields is log 13's. -/
def Obligations.SoftResetEqualsHardReset : Prop :=
  ∀ (s : State) (v : Word) (rest : List Arrival), windowAligned s.platform →
    (arrives s (.regWrite (busAddr s.platform .ctrl) 64 v) rest →
      (v.getLsbD 0 = true → step s = .next
        { s with
          toEngine := Engine.reset, running := none, raced := [], fresh := [], stale := s.fresh ++ s.stale, inbox := rest,
          responses := .writeDone :: s.responses, trace := s.trace ++ [.reset] }) ∧
      (v.getLsbD 0 = false → step s = .next { s with inbox := rest, responses := .writeDone :: s.responses })) ∧
    (arrives s .hardReset rest → step s = .next
      { s with
        toEngine := Engine.reset, running := none, raced := [], fresh := [], stale := s.fresh ++ s.stale, inbox := rest,
        trace := s.trace ++ [.reset] })

/-- 70_reset_and_hazards.md R241, 10_state.md R33: a hard reset, or a write of 1 to CTRL.SRST, that lands in a command abandons it
at once: the trace gains a reset exactly where one landed; the block is then as after reset, nothing completes, and the command
makes no access after it. At a slot (log 2) the reset ends the command there, after what an access it cuts short has left
(log 4). The answer is log 8's, what is kept of the model's own fields log 13's. -/
def Obligations.ResetAbandonsTheCommand : Prop :=
  (∀ (s t : State) (i : Instr), s.busy = false → windowAligned s.platform → exec i s = .next t →
    ((.hardReset ∈ landed s t ∨ ∃ v : Word, v.getLsbD 0 = true ∧ .regWrite (busAddr s.platform .ctrl) 64 v ∈ landed s t) ↔
      resetsOf s.trace < resetsOf t.trace)) ∧
  (∀ (s t : State) (i : Instr), s.busy = false → exec i s = .next t → resetsOf s.trace < resetsOf t.trace →
    (∃ d, t.trace = s.trace ++ d ++ [.reset] ∧ completionsOf d = 0) ∧ t.toEngine = Engine.reset ∧ statusWord t = 0 ∧
      t.running = none ∧ t.platform = s.platform) ∧
  ∀ (s : State) (rest : List Arrival) (f : State → State) (begun : Option (State → State)), s.busy = true →
    let afterReset (u : State) : State :=
      { u with
        toEngine := Engine.reset, running := none, raced := [], fresh := [], stale := u.fresh ++ u.stale,
        trace := u.trace ++ [.reset] }
    land begun (⟨.slot 0 false, .hardReset⟩ :: rest) s = .ended (afterReset { s with inbox := rest }) ∧
    land none (⟨.slot 0 true, .hardReset⟩ :: rest) s = .ended (afterReset { s with inbox := rest }) ∧
    land (some f) (⟨.slot 0 true, .hardReset⟩ :: rest) s = .ended (afterReset (f { s with inbox := rest })) ∧
    ∀ v : Word, windowAligned s.platform → v.getLsbD 0 = true →
      let e : HostEvent := .regWrite (busAddr s.platform .ctrl) 64 v
      let answered (u : State) : State := { u with responses := .writeDone :: u.responses }
      land begun (⟨.slot 0 false, e⟩ :: rest) s = .ended (afterReset (answered { s with inbox := rest })) ∧
      land none (⟨.slot 0 true, e⟩ :: rest) s = .ended (afterReset (answered { s with inbox := rest })) ∧
      ((∀ u, (f u).platform = u.platform) →
        land (some f) (⟨.slot 0 true, e⟩ :: rest) s = .ended (afterReset (answered (f { s with inbox := rest }))))

/-- 60_exceptions.md R224, 70_reset_and_hazards.md R252: a command stuck in an access that is never answered makes no progress:
without an outside event there is no step (the fault is the model's own, log 9), and an outside event leaves its trace,
phase, block index, data, results and operands as they are, unless it is a reset, which ends it. -/
def Obligations.OnlyAResetEndsAStall : Prop :=
  ∀ s : State, s.busy = true →
    (s.inbox = [] → step s = .fault .dmaStalled) ∧
    (∀ t, step s = .next t → (t.busy = true ∧ noProgress s t) ∨ (t.toEngine = Engine.reset ∧ t.trace = s.trace ++ [.reset]))
end

