-- ==== Sys2Proof/Laws/Memory.lean ====
section
/-! SUPPORT. The laws of memory: a read after a write, and that every memory operation keeps the canonical form. -/

namespace Sys2Proof.Machine

/-! ## Reading after writing -/

theorem Memory.read_insert (m : Memory) (a b : Nat) (v : Byte) (lo : Nat) (h : Memory.wfFrom lo m = true) :
    Memory.read (Memory.insert m a v) b = if b = a then some v else Memory.read m b := by
  induction m generalizing lo with
  | nil => simp [Memory.insert, Memory.read]
  | cons c m ih =>
    obtain ⟨x, w⟩ := c
    simp only [Memory.wfFrom, Bool.and_eq_true, decide_eq_true_eq] at h
    simp only [Memory.insert]
    split
    · rename_i hax
      simp only [Memory.read]
    · split
      · rename_i hax
        subst hax
        simp only [Memory.read]
        split <;> rfl
      · rename_i hne hnx
        simp only [Memory.read]
        rw [ih _ h.2]
        by_cases hbx : b = x
        · subst hbx; simp [Ne.symm hnx]
        · simp [hbx]

/-- A read after a write: the written byte at its address, the old byte anywhere else. -/
theorem Memory.read_write {m : Memory} (h : Memory.wf m = true) {a : Nat} (ha : a < 2 ^ 64) (v : Byte) (b : Nat) :
    Memory.read (Memory.write m a v) b = if b = a then some v else Memory.read m b := by
  simp only [Memory.write, if_pos ha]
  exact Memory.read_insert m a b v 0 h

/-! ## The canonical form -/

theorem Memory.wfFrom_mono {m : Memory} {lo lo' : Nat} (h : Memory.wfFrom lo m = true) (hl : lo' ≤ lo) :
    Memory.wfFrom lo' m = true := by
  cases m with
  | nil => rfl
  | cons c m =>
    obtain ⟨x, w⟩ := c
    simp only [Memory.wfFrom, Bool.and_eq_true, decide_eq_true_eq] at h ⊢
    exact ⟨⟨by omega, h.1.2⟩, h.2⟩

theorem Memory.wfFrom_insert {m : Memory} {lo a : Nat} (v : Byte) (h : Memory.wfFrom lo m = true) (hl : lo ≤ a)
    (ha : a < 2 ^ 64) : Memory.wfFrom lo (Memory.insert m a v) = true := by
  induction m generalizing lo with
  | nil => simp [Memory.insert, Memory.wfFrom, hl]; omega
  | cons c m ih =>
    obtain ⟨x, w⟩ := c
    simp only [Memory.wfFrom, Bool.and_eq_true, decide_eq_true_eq] at h
    simp only [Memory.insert]
    split
    · simp only [Memory.wfFrom, Bool.and_eq_true, decide_eq_true_eq]
      exact ⟨⟨hl, ha⟩, ⟨by omega, h.1.2⟩, h.2⟩
    · split
      · rename_i hax
        simp only [Memory.wfFrom, Bool.and_eq_true, decide_eq_true_eq]
        exact ⟨⟨hl, ha⟩, hax ▸ h.2⟩
      · simp only [Memory.wfFrom, Bool.and_eq_true, decide_eq_true_eq]
        exact ⟨h.1, ih h.2 (by omega)⟩

/-- A write keeps the canonical form. -/
theorem Memory.wf_write {m : Memory} (h : Memory.wf m = true) (a : Nat) (v : Byte) :
    Memory.wf (Memory.write m a v) = true := by
  simp only [Memory.write]
  split
  · exact Memory.wfFrom_insert v h (Nat.zero_le _) ‹_›
  · exact h

/-- A write of a byte string keeps the canonical form. -/
theorem Memory.wf_store {m : Memory} (h : Memory.wf m = true) (a : Nat) (v : List Byte) :
    Memory.wf (Memory.store m a v) = true := by
  induction v generalizing m a with
  | nil => exact h
  | cons x v ih => exact ih (Memory.wf_write h a x) (a + 1)

/-- A write cut short keeps the canonical form. -/
theorem wf_tornStore {m : Memory} (h : Memory.wf m = true) (d a : Nat) (v : List Byte) :
    Memory.wf (tornStore d m a v) = true := by
  induction v generalizing m a with
  | nil => exact h
  | cons x v ih =>
    simp only [tornStore]
    apply ih
    split
    · exact Memory.wf_write h a x
    · exact h

/-! ## Byte strings -/

/-- A read after the write of a byte string: its bytes inside, the old byte outside. -/
theorem Memory.read_store {m : Memory} (h : Memory.wf m = true) {a : Nat} (v : List Byte)
    (ha : a + v.length ≤ 2 ^ 64) (b : Nat) :
    Memory.read (Memory.store m a v) b =
      if a ≤ b ∧ b < a + v.length then v[b - a]? else Memory.read m b := by
  induction v generalizing m a with
  | nil =>
    simp [Memory.store]
  | cons x v ih =>
    simp only [List.length_cons] at ha ⊢
    rw [Memory.store, ih (Memory.wf_write h a x) (by omega)]
    rcases Nat.lt_trichotomy b a with hb | hb | hb
    · rw [if_neg (by omega), if_neg (by omega), Memory.read_write h (by omega), if_neg (by omega)]
    · subst hb
      rw [if_neg (by omega), if_pos (by omega), Memory.read_write h (by omega)]
      simp
    · by_cases hin : b < a + (v.length + 1)
      · rw [if_pos (by omega), if_pos (by omega)]
        obtain ⟨k, rfl⟩ : ∃ k, b = a + 1 + k := ⟨b - (a + 1), by omega⟩
        have h1 : a + 1 + k - (a + 1) = k := by omega
        have h2 : a + 1 + k - a = k + 1 := by omega
        rw [h1, h2, List.getElem?_cons_succ]
      · rw [if_neg (by omega), if_neg (by omega), Memory.read_write h (by omega), if_neg (by omega)]

/-- Outside the bytes of a write cut short nothing changes. -/
theorem read_tornStore_outside {m : Memory} (h : Memory.wf m = true) (d : Nat) {a : Nat} (v : List Byte)
    (ha : a + v.length ≤ 2 ^ 64) {b : Nat} (hb : ¬ (a ≤ b ∧ b < a + v.length)) :
    Memory.read (tornStore d m a v) b = Memory.read m b := by
  induction v generalizing m a with
  | nil => rfl
  | cons x v ih =>
    simp only [List.length_cons] at ha hb
    simp only [tornStore]
    rw [ih _ (by omega) (by omega)]
    · split
      · rw [Memory.read_write h (by omega), if_neg (by omega)]
      · rfl
    · split
      · exact Memory.wf_write h a x
      · exact h

/-- A byte of a write cut short is the old one or the new one (20_memory.md R77). -/
theorem read_tornStore_inside {m : Memory} (h : Memory.wf m = true) (d : Nat) {a : Nat} (v : List Byte)
    (ha : a + v.length ≤ 2 ^ 64) {b : Nat} (hb : a ≤ b ∧ b < a + v.length) :
    Memory.read (tornStore d m a v) b = Memory.read m b ∨ Memory.read (tornStore d m a v) b = v[b - a]? := by
  induction v generalizing m a with
  | nil => simp at hb; omega
  | cons x v ih =>
    simp only [List.length_cons] at ha hb
    have hw : Memory.wf (if Config.landed d a then Memory.write m a x else m) = true := by
      split
      · exact Memory.wf_write h a x
      · exact h
    simp only [tornStore]
    by_cases hab : b = a
    · subst hab
      rw [read_tornStore_outside hw d v (by omega) (by omega)]
      split
      · rw [Memory.read_write h (by omega)]; simp
      · exact .inl rfl
    · have hold : Memory.read (if Config.landed d a then Memory.write m a x else m) b = Memory.read m b := by
        split
        · rw [Memory.read_write h (by omega), if_neg hab]
        · rfl
      obtain ⟨k, rfl⟩ : ∃ k, b = a + 1 + k := ⟨b - (a + 1), by omega⟩
      have h1 : a + 1 + k - (a + 1) = k := by omega
      have h2 : a + 1 + k - a = k + 1 := by omega
      have := ih hw (a := a + 1) (by omega) (by omega)
      rw [hold, h1] at this
      rwa [h2, List.getElem?_cons_succ]

/-- What a loaded byte string holds at each offset. -/
theorem Memory.read_of_load {m : Memory} {a n : Nat} {v : List Byte} (h : Memory.load m a n = some v) :
    v.length = n ∧ ∀ j, j < n → Memory.read m (a + j) = v[j]? := by
  induction n generalizing a v with
  | zero => simp only [Memory.load, Option.some.injEq] at h; subst h; exact ⟨rfl, by omega⟩
  | succ n ih =>
    simp only [Memory.load] at h
    split at h
    · rename_i x xs hx hxs
      simp only [Option.some.injEq] at h
      subst h
      obtain ⟨hl, hr⟩ := ih hxs
      refine ⟨by simp [hl], fun j hj => ?_⟩
      cases j with
      | zero => simpa using hx
      | succ j =>
        have := hr j (by omega)
        rw [List.getElem?_cons_succ, ← this]
        congr 1; omega
    · exact absurd h (by simp)

/-- Bytes that read as the string load as the string. -/
theorem Memory.load_of_read {m : Memory} {a : Nat} {v : List Byte}
    (h : ∀ j, j < v.length → Memory.read m (a + j) = v[j]?) : Memory.load m a v.length = some v := by
  induction v generalizing a with
  | nil => rfl
  | cons x v ih =>
    have h0 : Memory.read m a = some x := by simpa using h 0 (by simp)
    have h1 : Memory.load m (a + 1) v.length = some v := by
      refine ih fun j hj => ?_
      have := h (j + 1) (by simp only [List.length_cons]; omega)
      rw [List.getElem?_cons_succ] at this
      rw [← this]; congr 1; omega
    simp [Memory.load, h0, h1]

end Sys2Proof.Machine
end

