-- ==== Sys2Proof/Laws/State.lean ====
section
/-! SUPPORT. One lemma per field for each named update of the state, true by unfolding, so that no proof unfolds a record
update; and the composite updates as these. -/

namespace Sys2Proof.Machine

variable (s : State)

/-! ## logEvent -/

@[simp] theorem logEvent_S (e : EngineEvent) : (logEvent e s).S = s.S := rfl
@[simp] theorem logEvent_key (e : EngineEvent) : (logEvent e s).key = s.key := rfl
@[simp] theorem logEvent_keyMask (e : EngineEvent) : (logEvent e s).keyMask = s.keyMask := rfl
@[simp] theorem logEvent_nonce (e : EngineEvent) : (logEvent e s).nonce = s.nonce := rfl
@[simp] theorem logEvent_nonceMask (e : EngineEvent) : (logEvent e s).nonceMask = s.nonceMask := rfl
@[simp] theorem logEvent_tagBuf (e : EngineEvent) : (logEvent e s).tagBuf = s.tagBuf := rfl
@[simp] theorem logEvent_tag (e : EngineEvent) : (logEvent e s).tag = s.tag := rfl
@[simp] theorem logEvent_blk (e : EngineEvent) : (logEvent e s).blk = s.blk := rfl
@[simp] theorem logEvent_diff (e : EngineEvent) : (logEvent e s).diff = s.diff := rfl
@[simp] theorem logEvent_phase (e : EngineEvent) : (logEvent e s).phase = s.phase := rfl
@[simp] theorem logEvent_k (e : EngineEvent) : (logEvent e s).k = s.k := rfl
@[simp] theorem logEvent_busy (e : EngineEvent) : (logEvent e s).busy = s.busy := rfl
@[simp] theorem logEvent_done (e : EngineEvent) : (logEvent e s).done = s.done := rfl
@[simp] theorem logEvent_authOk (e : EngineEvent) : (logEvent e s).authOk = s.authOk := rfl
@[simp] theorem logEvent_authFail (e : EngineEvent) : (logEvent e s).authFail = s.authFail := rfl
@[simp] theorem logEvent_wrBusy (e : EngineEvent) : (logEvent e s).wrBusy = s.wrBusy := rfl
@[simp] theorem logEvent_err (e : EngineEvent) : (logEvent e s).err = s.err := rfl
@[simp] theorem logEvent_lastOpc (e : EngineEvent) : (logEvent e s).lastOpc = s.lastOpc := rfl
@[simp] theorem logEvent_rounds (e : EngineEvent) : (logEvent e s).rounds = s.rounds := rfl
@[simp] theorem logEvent_doneIe (e : EngineEvent) : (logEvent e s).doneIe = s.doneIe := rfl
@[simp] theorem logEvent_outLen (e : EngineEvent) : (logEvent e s).outLen = s.outLen := rfl
@[simp] theorem logEvent_faultAddr (e : EngineEvent) : (logEvent e s).faultAddr = s.faultAddr := rfl
@[simp] theorem logEvent_hdrAddr (e : EngineEvent) : (logEvent e s).hdrAddr = s.hdrAddr := rfl
@[simp] theorem logEvent_hdrLen (e : EngineEvent) : (logEvent e s).hdrLen = s.hdrLen := rfl
@[simp] theorem logEvent_inAddr (e : EngineEvent) : (logEvent e s).inAddr = s.inAddr := rfl
@[simp] theorem logEvent_inLen (e : EngineEvent) : (logEvent e s).inLen = s.inLen := rfl
@[simp] theorem logEvent_trlAddr (e : EngineEvent) : (logEvent e s).trlAddr = s.trlAddr := rfl
@[simp] theorem logEvent_trlLen (e : EngineEvent) : (logEvent e s).trlLen = s.trlLen := rfl
@[simp] theorem logEvent_outAddr (e : EngineEvent) : (logEvent e s).outAddr = s.outAddr := rfl
@[simp] theorem logEvent_mem (e : EngineEvent) : (logEvent e s).mem = s.mem := rfl
@[simp] theorem logEvent_platform (e : EngineEvent) : (logEvent e s).platform = s.platform := rfl
@[simp] theorem logEvent_running (e : EngineEvent) : (logEvent e s).running = s.running := rfl
@[simp] theorem logEvent_inbox (e : EngineEvent) : (logEvent e s).inbox = s.inbox := rfl
@[simp] theorem logEvent_responses (e : EngineEvent) : (logEvent e s).responses = s.responses := rfl
@[simp] theorem logEvent_trace (e : EngineEvent) : (logEvent e s).trace = s.trace ++ [e] := rfl
@[simp] theorem logEvent_draws (e : EngineEvent) : (logEvent e s).draws = s.draws := rfl
@[simp] theorem logEvent_raced (e : EngineEvent) : (logEvent e s).raced = s.raced := rfl
@[simp] theorem logEvent_fresh (e : EngineEvent) : (logEvent e s).fresh = s.fresh := rfl
@[simp] theorem logEvent_stale (e : EngineEvent) : (logEvent e s).stale = s.stale := rfl
@[simp] theorem logEvent_toEngine (e : EngineEvent) : (logEvent e s).toEngine = s.toEngine := rfl

/-! ## respond -/

@[simp] theorem respond_S (r : Response) : (respond r s).S = s.S := rfl
@[simp] theorem respond_key (r : Response) : (respond r s).key = s.key := rfl
@[simp] theorem respond_keyMask (r : Response) : (respond r s).keyMask = s.keyMask := rfl
@[simp] theorem respond_nonce (r : Response) : (respond r s).nonce = s.nonce := rfl
@[simp] theorem respond_nonceMask (r : Response) : (respond r s).nonceMask = s.nonceMask := rfl
@[simp] theorem respond_tagBuf (r : Response) : (respond r s).tagBuf = s.tagBuf := rfl
@[simp] theorem respond_tag (r : Response) : (respond r s).tag = s.tag := rfl
@[simp] theorem respond_blk (r : Response) : (respond r s).blk = s.blk := rfl
@[simp] theorem respond_diff (r : Response) : (respond r s).diff = s.diff := rfl
@[simp] theorem respond_phase (r : Response) : (respond r s).phase = s.phase := rfl
@[simp] theorem respond_k (r : Response) : (respond r s).k = s.k := rfl
@[simp] theorem respond_busy (r : Response) : (respond r s).busy = s.busy := rfl
@[simp] theorem respond_done (r : Response) : (respond r s).done = s.done := rfl
@[simp] theorem respond_authOk (r : Response) : (respond r s).authOk = s.authOk := rfl
@[simp] theorem respond_authFail (r : Response) : (respond r s).authFail = s.authFail := rfl
@[simp] theorem respond_wrBusy (r : Response) : (respond r s).wrBusy = s.wrBusy := rfl
@[simp] theorem respond_err (r : Response) : (respond r s).err = s.err := rfl
@[simp] theorem respond_lastOpc (r : Response) : (respond r s).lastOpc = s.lastOpc := rfl
@[simp] theorem respond_rounds (r : Response) : (respond r s).rounds = s.rounds := rfl
@[simp] theorem respond_doneIe (r : Response) : (respond r s).doneIe = s.doneIe := rfl
@[simp] theorem respond_outLen (r : Response) : (respond r s).outLen = s.outLen := rfl
@[simp] theorem respond_faultAddr (r : Response) : (respond r s).faultAddr = s.faultAddr := rfl
@[simp] theorem respond_hdrAddr (r : Response) : (respond r s).hdrAddr = s.hdrAddr := rfl
@[simp] theorem respond_hdrLen (r : Response) : (respond r s).hdrLen = s.hdrLen := rfl
@[simp] theorem respond_inAddr (r : Response) : (respond r s).inAddr = s.inAddr := rfl
@[simp] theorem respond_inLen (r : Response) : (respond r s).inLen = s.inLen := rfl
@[simp] theorem respond_trlAddr (r : Response) : (respond r s).trlAddr = s.trlAddr := rfl
@[simp] theorem respond_trlLen (r : Response) : (respond r s).trlLen = s.trlLen := rfl
@[simp] theorem respond_outAddr (r : Response) : (respond r s).outAddr = s.outAddr := rfl
@[simp] theorem respond_mem (r : Response) : (respond r s).mem = s.mem := rfl
@[simp] theorem respond_platform (r : Response) : (respond r s).platform = s.platform := rfl
@[simp] theorem respond_running (r : Response) : (respond r s).running = s.running := rfl
@[simp] theorem respond_inbox (r : Response) : (respond r s).inbox = s.inbox := rfl
@[simp] theorem respond_responses (r : Response) : (respond r s).responses = r :: s.responses := rfl
@[simp] theorem respond_trace (r : Response) : (respond r s).trace = s.trace := rfl
@[simp] theorem respond_draws (r : Response) : (respond r s).draws = s.draws := rfl
@[simp] theorem respond_raced (r : Response) : (respond r s).raced = s.raced := rfl
@[simp] theorem respond_fresh (r : Response) : (respond r s).fresh = s.fresh := rfl
@[simp] theorem respond_stale (r : Response) : (respond r s).stale = s.stale := rfl
@[simp] theorem respond_toEngine (r : Response) : (respond r s).toEngine = s.toEngine := rfl

/-! ## nextDraw -/

@[simp] theorem nextDraw_S : (nextDraw s).S = s.S := rfl
@[simp] theorem nextDraw_key : (nextDraw s).key = s.key := rfl
@[simp] theorem nextDraw_keyMask : (nextDraw s).keyMask = s.keyMask := rfl
@[simp] theorem nextDraw_nonce : (nextDraw s).nonce = s.nonce := rfl
@[simp] theorem nextDraw_nonceMask : (nextDraw s).nonceMask = s.nonceMask := rfl
@[simp] theorem nextDraw_tagBuf : (nextDraw s).tagBuf = s.tagBuf := rfl
@[simp] theorem nextDraw_tag : (nextDraw s).tag = s.tag := rfl
@[simp] theorem nextDraw_blk : (nextDraw s).blk = s.blk := rfl
@[simp] theorem nextDraw_diff : (nextDraw s).diff = s.diff := rfl
@[simp] theorem nextDraw_phase : (nextDraw s).phase = s.phase := rfl
@[simp] theorem nextDraw_k : (nextDraw s).k = s.k := rfl
@[simp] theorem nextDraw_busy : (nextDraw s).busy = s.busy := rfl
@[simp] theorem nextDraw_done : (nextDraw s).done = s.done := rfl
@[simp] theorem nextDraw_authOk : (nextDraw s).authOk = s.authOk := rfl
@[simp] theorem nextDraw_authFail : (nextDraw s).authFail = s.authFail := rfl
@[simp] theorem nextDraw_wrBusy : (nextDraw s).wrBusy = s.wrBusy := rfl
@[simp] theorem nextDraw_err : (nextDraw s).err = s.err := rfl
@[simp] theorem nextDraw_lastOpc : (nextDraw s).lastOpc = s.lastOpc := rfl
@[simp] theorem nextDraw_rounds : (nextDraw s).rounds = s.rounds := rfl
@[simp] theorem nextDraw_doneIe : (nextDraw s).doneIe = s.doneIe := rfl
@[simp] theorem nextDraw_outLen : (nextDraw s).outLen = s.outLen := rfl
@[simp] theorem nextDraw_faultAddr : (nextDraw s).faultAddr = s.faultAddr := rfl
@[simp] theorem nextDraw_hdrAddr : (nextDraw s).hdrAddr = s.hdrAddr := rfl
@[simp] theorem nextDraw_hdrLen : (nextDraw s).hdrLen = s.hdrLen := rfl
@[simp] theorem nextDraw_inAddr : (nextDraw s).inAddr = s.inAddr := rfl
@[simp] theorem nextDraw_inLen : (nextDraw s).inLen = s.inLen := rfl
@[simp] theorem nextDraw_trlAddr : (nextDraw s).trlAddr = s.trlAddr := rfl
@[simp] theorem nextDraw_trlLen : (nextDraw s).trlLen = s.trlLen := rfl
@[simp] theorem nextDraw_outAddr : (nextDraw s).outAddr = s.outAddr := rfl
@[simp] theorem nextDraw_mem : (nextDraw s).mem = s.mem := rfl
@[simp] theorem nextDraw_platform : (nextDraw s).platform = s.platform := rfl
@[simp] theorem nextDraw_running : (nextDraw s).running = s.running := rfl
@[simp] theorem nextDraw_inbox : (nextDraw s).inbox = s.inbox := rfl
@[simp] theorem nextDraw_responses : (nextDraw s).responses = s.responses := rfl
@[simp] theorem nextDraw_trace : (nextDraw s).trace = s.trace := rfl
@[simp] theorem nextDraw_draws : (nextDraw s).draws = s.draws + 1 := rfl
@[simp] theorem nextDraw_raced : (nextDraw s).raced = s.raced := rfl
@[simp] theorem nextDraw_fresh : (nextDraw s).fresh = s.fresh := rfl
@[simp] theorem nextDraw_stale : (nextDraw s).stale = s.stale := rfl
@[simp] theorem nextDraw_toEngine : (nextDraw s).toEngine = s.toEngine := rfl

/-! ## setSponge -/

@[simp] theorem setSponge_S (X : Sponge) : (setSponge X s).S = X := rfl
@[simp] theorem setSponge_key (X : Sponge) : (setSponge X s).key = s.key := rfl
@[simp] theorem setSponge_keyMask (X : Sponge) : (setSponge X s).keyMask = s.keyMask := rfl
@[simp] theorem setSponge_nonce (X : Sponge) : (setSponge X s).nonce = s.nonce := rfl
@[simp] theorem setSponge_nonceMask (X : Sponge) : (setSponge X s).nonceMask = s.nonceMask := rfl
@[simp] theorem setSponge_tagBuf (X : Sponge) : (setSponge X s).tagBuf = s.tagBuf := rfl
@[simp] theorem setSponge_tag (X : Sponge) : (setSponge X s).tag = s.tag := rfl
@[simp] theorem setSponge_blk (X : Sponge) : (setSponge X s).blk = s.blk := rfl
@[simp] theorem setSponge_diff (X : Sponge) : (setSponge X s).diff = s.diff := rfl
@[simp] theorem setSponge_phase (X : Sponge) : (setSponge X s).phase = s.phase := rfl
@[simp] theorem setSponge_k (X : Sponge) : (setSponge X s).k = s.k := rfl
@[simp] theorem setSponge_busy (X : Sponge) : (setSponge X s).busy = s.busy := rfl
@[simp] theorem setSponge_done (X : Sponge) : (setSponge X s).done = s.done := rfl
@[simp] theorem setSponge_authOk (X : Sponge) : (setSponge X s).authOk = s.authOk := rfl
@[simp] theorem setSponge_authFail (X : Sponge) : (setSponge X s).authFail = s.authFail := rfl
@[simp] theorem setSponge_wrBusy (X : Sponge) : (setSponge X s).wrBusy = s.wrBusy := rfl
@[simp] theorem setSponge_err (X : Sponge) : (setSponge X s).err = s.err := rfl
@[simp] theorem setSponge_lastOpc (X : Sponge) : (setSponge X s).lastOpc = s.lastOpc := rfl
@[simp] theorem setSponge_rounds (X : Sponge) : (setSponge X s).rounds = s.rounds := rfl
@[simp] theorem setSponge_doneIe (X : Sponge) : (setSponge X s).doneIe = s.doneIe := rfl
@[simp] theorem setSponge_outLen (X : Sponge) : (setSponge X s).outLen = s.outLen := rfl
@[simp] theorem setSponge_faultAddr (X : Sponge) : (setSponge X s).faultAddr = s.faultAddr := rfl
@[simp] theorem setSponge_hdrAddr (X : Sponge) : (setSponge X s).hdrAddr = s.hdrAddr := rfl
@[simp] theorem setSponge_hdrLen (X : Sponge) : (setSponge X s).hdrLen = s.hdrLen := rfl
@[simp] theorem setSponge_inAddr (X : Sponge) : (setSponge X s).inAddr = s.inAddr := rfl
@[simp] theorem setSponge_inLen (X : Sponge) : (setSponge X s).inLen = s.inLen := rfl
@[simp] theorem setSponge_trlAddr (X : Sponge) : (setSponge X s).trlAddr = s.trlAddr := rfl
@[simp] theorem setSponge_trlLen (X : Sponge) : (setSponge X s).trlLen = s.trlLen := rfl
@[simp] theorem setSponge_outAddr (X : Sponge) : (setSponge X s).outAddr = s.outAddr := rfl
@[simp] theorem setSponge_mem (X : Sponge) : (setSponge X s).mem = s.mem := rfl
@[simp] theorem setSponge_platform (X : Sponge) : (setSponge X s).platform = s.platform := rfl
@[simp] theorem setSponge_running (X : Sponge) : (setSponge X s).running = s.running := rfl
@[simp] theorem setSponge_inbox (X : Sponge) : (setSponge X s).inbox = s.inbox := rfl
@[simp] theorem setSponge_responses (X : Sponge) : (setSponge X s).responses = s.responses := rfl
@[simp] theorem setSponge_trace (X : Sponge) : (setSponge X s).trace = s.trace := rfl
@[simp] theorem setSponge_draws (X : Sponge) : (setSponge X s).draws = s.draws := rfl
@[simp] theorem setSponge_raced (X : Sponge) : (setSponge X s).raced = s.raced := rfl
@[simp] theorem setSponge_fresh (X : Sponge) : (setSponge X s).fresh = s.fresh := rfl
@[simp] theorem setSponge_stale (X : Sponge) : (setSponge X s).stale = s.stale := rfl

/-! ## setBlk -/

@[simp] theorem setBlk_S (b : List Byte) : (setBlk b s).S = s.S := rfl
@[simp] theorem setBlk_key (b : List Byte) : (setBlk b s).key = s.key := rfl
@[simp] theorem setBlk_keyMask (b : List Byte) : (setBlk b s).keyMask = s.keyMask := rfl
@[simp] theorem setBlk_nonce (b : List Byte) : (setBlk b s).nonce = s.nonce := rfl
@[simp] theorem setBlk_nonceMask (b : List Byte) : (setBlk b s).nonceMask = s.nonceMask := rfl
@[simp] theorem setBlk_tagBuf (b : List Byte) : (setBlk b s).tagBuf = s.tagBuf := rfl
@[simp] theorem setBlk_tag (b : List Byte) : (setBlk b s).tag = s.tag := rfl
@[simp] theorem setBlk_blk (b : List Byte) : (setBlk b s).blk = toBuffer 96 b := rfl
@[simp] theorem setBlk_diff (b : List Byte) : (setBlk b s).diff = s.diff := rfl
@[simp] theorem setBlk_phase (b : List Byte) : (setBlk b s).phase = s.phase := rfl
@[simp] theorem setBlk_k (b : List Byte) : (setBlk b s).k = s.k := rfl
@[simp] theorem setBlk_busy (b : List Byte) : (setBlk b s).busy = s.busy := rfl
@[simp] theorem setBlk_done (b : List Byte) : (setBlk b s).done = s.done := rfl
@[simp] theorem setBlk_authOk (b : List Byte) : (setBlk b s).authOk = s.authOk := rfl
@[simp] theorem setBlk_authFail (b : List Byte) : (setBlk b s).authFail = s.authFail := rfl
@[simp] theorem setBlk_wrBusy (b : List Byte) : (setBlk b s).wrBusy = s.wrBusy := rfl
@[simp] theorem setBlk_err (b : List Byte) : (setBlk b s).err = s.err := rfl
@[simp] theorem setBlk_lastOpc (b : List Byte) : (setBlk b s).lastOpc = s.lastOpc := rfl
@[simp] theorem setBlk_rounds (b : List Byte) : (setBlk b s).rounds = s.rounds := rfl
@[simp] theorem setBlk_doneIe (b : List Byte) : (setBlk b s).doneIe = s.doneIe := rfl
@[simp] theorem setBlk_outLen (b : List Byte) : (setBlk b s).outLen = s.outLen := rfl
@[simp] theorem setBlk_faultAddr (b : List Byte) : (setBlk b s).faultAddr = s.faultAddr := rfl
@[simp] theorem setBlk_hdrAddr (b : List Byte) : (setBlk b s).hdrAddr = s.hdrAddr := rfl
@[simp] theorem setBlk_hdrLen (b : List Byte) : (setBlk b s).hdrLen = s.hdrLen := rfl
@[simp] theorem setBlk_inAddr (b : List Byte) : (setBlk b s).inAddr = s.inAddr := rfl
@[simp] theorem setBlk_inLen (b : List Byte) : (setBlk b s).inLen = s.inLen := rfl
@[simp] theorem setBlk_trlAddr (b : List Byte) : (setBlk b s).trlAddr = s.trlAddr := rfl
@[simp] theorem setBlk_trlLen (b : List Byte) : (setBlk b s).trlLen = s.trlLen := rfl
@[simp] theorem setBlk_outAddr (b : List Byte) : (setBlk b s).outAddr = s.outAddr := rfl
@[simp] theorem setBlk_mem (b : List Byte) : (setBlk b s).mem = s.mem := rfl
@[simp] theorem setBlk_platform (b : List Byte) : (setBlk b s).platform = s.platform := rfl
@[simp] theorem setBlk_running (b : List Byte) : (setBlk b s).running = s.running := rfl
@[simp] theorem setBlk_inbox (b : List Byte) : (setBlk b s).inbox = s.inbox := rfl
@[simp] theorem setBlk_responses (b : List Byte) : (setBlk b s).responses = s.responses := rfl
@[simp] theorem setBlk_trace (b : List Byte) : (setBlk b s).trace = s.trace := rfl
@[simp] theorem setBlk_draws (b : List Byte) : (setBlk b s).draws = s.draws := rfl
@[simp] theorem setBlk_raced (b : List Byte) : (setBlk b s).raced = s.raced := rfl
@[simp] theorem setBlk_fresh (b : List Byte) : (setBlk b s).fresh = s.fresh := rfl
@[simp] theorem setBlk_stale (b : List Byte) : (setBlk b s).stale = s.stale := rfl

/-! ## eraseBlk -/

@[simp] theorem eraseBlk_S : (eraseBlk s).S = s.S := rfl
@[simp] theorem eraseBlk_key : (eraseBlk s).key = s.key := rfl
@[simp] theorem eraseBlk_keyMask : (eraseBlk s).keyMask = s.keyMask := rfl
@[simp] theorem eraseBlk_nonce : (eraseBlk s).nonce = s.nonce := rfl
@[simp] theorem eraseBlk_nonceMask : (eraseBlk s).nonceMask = s.nonceMask := rfl
@[simp] theorem eraseBlk_tagBuf : (eraseBlk s).tagBuf = s.tagBuf := rfl
@[simp] theorem eraseBlk_tag : (eraseBlk s).tag = s.tag := rfl
@[simp] theorem eraseBlk_blk : (eraseBlk s).blk = Vector.replicate 96 0 := rfl
@[simp] theorem eraseBlk_diff : (eraseBlk s).diff = s.diff := rfl
@[simp] theorem eraseBlk_phase : (eraseBlk s).phase = s.phase := rfl
@[simp] theorem eraseBlk_k : (eraseBlk s).k = s.k := rfl
@[simp] theorem eraseBlk_busy : (eraseBlk s).busy = s.busy := rfl
@[simp] theorem eraseBlk_done : (eraseBlk s).done = s.done := rfl
@[simp] theorem eraseBlk_authOk : (eraseBlk s).authOk = s.authOk := rfl
@[simp] theorem eraseBlk_authFail : (eraseBlk s).authFail = s.authFail := rfl
@[simp] theorem eraseBlk_wrBusy : (eraseBlk s).wrBusy = s.wrBusy := rfl
@[simp] theorem eraseBlk_err : (eraseBlk s).err = s.err := rfl
@[simp] theorem eraseBlk_lastOpc : (eraseBlk s).lastOpc = s.lastOpc := rfl
@[simp] theorem eraseBlk_rounds : (eraseBlk s).rounds = s.rounds := rfl
@[simp] theorem eraseBlk_doneIe : (eraseBlk s).doneIe = s.doneIe := rfl
@[simp] theorem eraseBlk_outLen : (eraseBlk s).outLen = s.outLen := rfl
@[simp] theorem eraseBlk_faultAddr : (eraseBlk s).faultAddr = s.faultAddr := rfl
@[simp] theorem eraseBlk_hdrAddr : (eraseBlk s).hdrAddr = s.hdrAddr := rfl
@[simp] theorem eraseBlk_hdrLen : (eraseBlk s).hdrLen = s.hdrLen := rfl
@[simp] theorem eraseBlk_inAddr : (eraseBlk s).inAddr = s.inAddr := rfl
@[simp] theorem eraseBlk_inLen : (eraseBlk s).inLen = s.inLen := rfl
@[simp] theorem eraseBlk_trlAddr : (eraseBlk s).trlAddr = s.trlAddr := rfl
@[simp] theorem eraseBlk_trlLen : (eraseBlk s).trlLen = s.trlLen := rfl
@[simp] theorem eraseBlk_outAddr : (eraseBlk s).outAddr = s.outAddr := rfl
@[simp] theorem eraseBlk_mem : (eraseBlk s).mem = s.mem := rfl
@[simp] theorem eraseBlk_platform : (eraseBlk s).platform = s.platform := rfl
@[simp] theorem eraseBlk_running : (eraseBlk s).running = s.running := rfl
@[simp] theorem eraseBlk_inbox : (eraseBlk s).inbox = s.inbox := rfl
@[simp] theorem eraseBlk_responses : (eraseBlk s).responses = s.responses := rfl
@[simp] theorem eraseBlk_trace : (eraseBlk s).trace = s.trace := rfl
@[simp] theorem eraseBlk_draws : (eraseBlk s).draws = s.draws := rfl
@[simp] theorem eraseBlk_raced : (eraseBlk s).raced = s.raced := rfl
@[simp] theorem eraseBlk_fresh : (eraseBlk s).fresh = s.fresh := rfl
@[simp] theorem eraseBlk_stale : (eraseBlk s).stale = s.stale := rfl

/-! ## countBlock -/

@[simp] theorem countBlock_S : (countBlock s).S = s.S := rfl
@[simp] theorem countBlock_key : (countBlock s).key = s.key := rfl
@[simp] theorem countBlock_keyMask : (countBlock s).keyMask = s.keyMask := rfl
@[simp] theorem countBlock_nonce : (countBlock s).nonce = s.nonce := rfl
@[simp] theorem countBlock_nonceMask : (countBlock s).nonceMask = s.nonceMask := rfl
@[simp] theorem countBlock_tagBuf : (countBlock s).tagBuf = s.tagBuf := rfl
@[simp] theorem countBlock_tag : (countBlock s).tag = s.tag := rfl
@[simp] theorem countBlock_blk : (countBlock s).blk = s.blk := rfl
@[simp] theorem countBlock_diff : (countBlock s).diff = s.diff := rfl
@[simp] theorem countBlock_phase : (countBlock s).phase = s.phase := rfl
@[simp] theorem countBlock_k : (countBlock s).k = s.k + 1 := rfl
@[simp] theorem countBlock_busy : (countBlock s).busy = s.busy := rfl
@[simp] theorem countBlock_done : (countBlock s).done = s.done := rfl
@[simp] theorem countBlock_authOk : (countBlock s).authOk = s.authOk := rfl
@[simp] theorem countBlock_authFail : (countBlock s).authFail = s.authFail := rfl
@[simp] theorem countBlock_wrBusy : (countBlock s).wrBusy = s.wrBusy := rfl
@[simp] theorem countBlock_err : (countBlock s).err = s.err := rfl
@[simp] theorem countBlock_lastOpc : (countBlock s).lastOpc = s.lastOpc := rfl
@[simp] theorem countBlock_rounds : (countBlock s).rounds = s.rounds := rfl
@[simp] theorem countBlock_doneIe : (countBlock s).doneIe = s.doneIe := rfl
@[simp] theorem countBlock_outLen : (countBlock s).outLen = s.outLen := rfl
@[simp] theorem countBlock_faultAddr : (countBlock s).faultAddr = s.faultAddr := rfl
@[simp] theorem countBlock_hdrAddr : (countBlock s).hdrAddr = s.hdrAddr := rfl
@[simp] theorem countBlock_hdrLen : (countBlock s).hdrLen = s.hdrLen := rfl
@[simp] theorem countBlock_inAddr : (countBlock s).inAddr = s.inAddr := rfl
@[simp] theorem countBlock_inLen : (countBlock s).inLen = s.inLen := rfl
@[simp] theorem countBlock_trlAddr : (countBlock s).trlAddr = s.trlAddr := rfl
@[simp] theorem countBlock_trlLen : (countBlock s).trlLen = s.trlLen := rfl
@[simp] theorem countBlock_outAddr : (countBlock s).outAddr = s.outAddr := rfl
@[simp] theorem countBlock_mem : (countBlock s).mem = s.mem := rfl
@[simp] theorem countBlock_platform : (countBlock s).platform = s.platform := rfl
@[simp] theorem countBlock_running : (countBlock s).running = s.running := rfl
@[simp] theorem countBlock_inbox : (countBlock s).inbox = s.inbox := rfl
@[simp] theorem countBlock_responses : (countBlock s).responses = s.responses := rfl
@[simp] theorem countBlock_trace : (countBlock s).trace = s.trace := rfl
@[simp] theorem countBlock_draws : (countBlock s).draws = s.draws := rfl
@[simp] theorem countBlock_raced : (countBlock s).raced = s.raced := rfl
@[simp] theorem countBlock_fresh : (countBlock s).fresh = s.fresh := rfl
@[simp] theorem countBlock_stale : (countBlock s).stale = s.stale := rfl

/-! ## eraseTransients -/

@[simp] theorem eraseTransients_S : (eraseTransients s).S = zeroSponge := rfl
@[simp] theorem eraseTransients_key : (eraseTransients s).key = s.key := rfl
@[simp] theorem eraseTransients_keyMask : (eraseTransients s).keyMask = s.keyMask := rfl
@[simp] theorem eraseTransients_nonce : (eraseTransients s).nonce = s.nonce := rfl
@[simp] theorem eraseTransients_nonceMask : (eraseTransients s).nonceMask = s.nonceMask := rfl
@[simp] theorem eraseTransients_tagBuf : (eraseTransients s).tagBuf = Vector.replicate 32 0 := rfl
@[simp] theorem eraseTransients_tag : (eraseTransients s).tag = Vector.replicate 32 0 := rfl
@[simp] theorem eraseTransients_blk : (eraseTransients s).blk = Vector.replicate 96 0 := rfl
@[simp] theorem eraseTransients_diff : (eraseTransients s).diff = 0 := rfl
@[simp] theorem eraseTransients_phase : (eraseTransients s).phase = s.phase := rfl
@[simp] theorem eraseTransients_k : (eraseTransients s).k = s.k := rfl
@[simp] theorem eraseTransients_busy : (eraseTransients s).busy = s.busy := rfl
@[simp] theorem eraseTransients_done : (eraseTransients s).done = s.done := rfl
@[simp] theorem eraseTransients_authOk : (eraseTransients s).authOk = s.authOk := rfl
@[simp] theorem eraseTransients_authFail : (eraseTransients s).authFail = s.authFail := rfl
@[simp] theorem eraseTransients_wrBusy : (eraseTransients s).wrBusy = s.wrBusy := rfl
@[simp] theorem eraseTransients_err : (eraseTransients s).err = s.err := rfl
@[simp] theorem eraseTransients_lastOpc : (eraseTransients s).lastOpc = s.lastOpc := rfl
@[simp] theorem eraseTransients_rounds : (eraseTransients s).rounds = s.rounds := rfl
@[simp] theorem eraseTransients_doneIe : (eraseTransients s).doneIe = s.doneIe := rfl
@[simp] theorem eraseTransients_outLen : (eraseTransients s).outLen = s.outLen := rfl
@[simp] theorem eraseTransients_faultAddr : (eraseTransients s).faultAddr = s.faultAddr := rfl
@[simp] theorem eraseTransients_hdrAddr : (eraseTransients s).hdrAddr = s.hdrAddr := rfl
@[simp] theorem eraseTransients_hdrLen : (eraseTransients s).hdrLen = s.hdrLen := rfl
@[simp] theorem eraseTransients_inAddr : (eraseTransients s).inAddr = s.inAddr := rfl
@[simp] theorem eraseTransients_inLen : (eraseTransients s).inLen = s.inLen := rfl
@[simp] theorem eraseTransients_trlAddr : (eraseTransients s).trlAddr = s.trlAddr := rfl
@[simp] theorem eraseTransients_trlLen : (eraseTransients s).trlLen = s.trlLen := rfl
@[simp] theorem eraseTransients_outAddr : (eraseTransients s).outAddr = s.outAddr := rfl
@[simp] theorem eraseTransients_mem : (eraseTransients s).mem = s.mem := rfl
@[simp] theorem eraseTransients_platform : (eraseTransients s).platform = s.platform := rfl
@[simp] theorem eraseTransients_running : (eraseTransients s).running = s.running := rfl
@[simp] theorem eraseTransients_inbox : (eraseTransients s).inbox = s.inbox := rfl
@[simp] theorem eraseTransients_responses : (eraseTransients s).responses = s.responses := rfl
@[simp] theorem eraseTransients_trace : (eraseTransients s).trace = s.trace := rfl
@[simp] theorem eraseTransients_draws : (eraseTransients s).draws = s.draws := rfl
@[simp] theorem eraseTransients_raced : (eraseTransients s).raced = s.raced := rfl
@[simp] theorem eraseTransients_fresh : (eraseTransients s).fresh = s.fresh := rfl
@[simp] theorem eraseTransients_stale : (eraseTransients s).stale = s.stale := rfl

/-! ## eraseSecrets -/

@[simp] theorem eraseSecrets_S : (eraseSecrets s).S = s.S := rfl
@[simp] theorem eraseSecrets_key : (eraseSecrets s).key = Vector.replicate 4 0 := rfl
@[simp] theorem eraseSecrets_keyMask : (eraseSecrets s).keyMask = 0 := rfl
@[simp] theorem eraseSecrets_nonce : (eraseSecrets s).nonce = Vector.replicate 4 0 := rfl
@[simp] theorem eraseSecrets_nonceMask : (eraseSecrets s).nonceMask = 0 := rfl
@[simp] theorem eraseSecrets_tagBuf : (eraseSecrets s).tagBuf = s.tagBuf := rfl
@[simp] theorem eraseSecrets_tag : (eraseSecrets s).tag = s.tag := rfl
@[simp] theorem eraseSecrets_blk : (eraseSecrets s).blk = s.blk := rfl
@[simp] theorem eraseSecrets_diff : (eraseSecrets s).diff = s.diff := rfl
@[simp] theorem eraseSecrets_phase : (eraseSecrets s).phase = s.phase := rfl
@[simp] theorem eraseSecrets_k : (eraseSecrets s).k = s.k := rfl
@[simp] theorem eraseSecrets_busy : (eraseSecrets s).busy = s.busy := rfl
@[simp] theorem eraseSecrets_done : (eraseSecrets s).done = s.done := rfl
@[simp] theorem eraseSecrets_authOk : (eraseSecrets s).authOk = s.authOk := rfl
@[simp] theorem eraseSecrets_authFail : (eraseSecrets s).authFail = s.authFail := rfl
@[simp] theorem eraseSecrets_wrBusy : (eraseSecrets s).wrBusy = s.wrBusy := rfl
@[simp] theorem eraseSecrets_err : (eraseSecrets s).err = s.err := rfl
@[simp] theorem eraseSecrets_lastOpc : (eraseSecrets s).lastOpc = s.lastOpc := rfl
@[simp] theorem eraseSecrets_rounds : (eraseSecrets s).rounds = s.rounds := rfl
@[simp] theorem eraseSecrets_doneIe : (eraseSecrets s).doneIe = s.doneIe := rfl
@[simp] theorem eraseSecrets_outLen : (eraseSecrets s).outLen = s.outLen := rfl
@[simp] theorem eraseSecrets_faultAddr : (eraseSecrets s).faultAddr = s.faultAddr := rfl
@[simp] theorem eraseSecrets_hdrAddr : (eraseSecrets s).hdrAddr = s.hdrAddr := rfl
@[simp] theorem eraseSecrets_hdrLen : (eraseSecrets s).hdrLen = s.hdrLen := rfl
@[simp] theorem eraseSecrets_inAddr : (eraseSecrets s).inAddr = s.inAddr := rfl
@[simp] theorem eraseSecrets_inLen : (eraseSecrets s).inLen = s.inLen := rfl
@[simp] theorem eraseSecrets_trlAddr : (eraseSecrets s).trlAddr = s.trlAddr := rfl
@[simp] theorem eraseSecrets_trlLen : (eraseSecrets s).trlLen = s.trlLen := rfl
@[simp] theorem eraseSecrets_outAddr : (eraseSecrets s).outAddr = s.outAddr := rfl
@[simp] theorem eraseSecrets_mem : (eraseSecrets s).mem = s.mem := rfl
@[simp] theorem eraseSecrets_platform : (eraseSecrets s).platform = s.platform := rfl
@[simp] theorem eraseSecrets_running : (eraseSecrets s).running = s.running := rfl
@[simp] theorem eraseSecrets_inbox : (eraseSecrets s).inbox = s.inbox := rfl
@[simp] theorem eraseSecrets_responses : (eraseSecrets s).responses = s.responses := rfl
@[simp] theorem eraseSecrets_trace : (eraseSecrets s).trace = s.trace := rfl
@[simp] theorem eraseSecrets_draws : (eraseSecrets s).draws = s.draws := rfl
@[simp] theorem eraseSecrets_raced : (eraseSecrets s).raced = s.raced := rfl
@[simp] theorem eraseSecrets_fresh : (eraseSecrets s).fresh = s.fresh := rfl
@[simp] theorem eraseSecrets_stale : (eraseSecrets s).stale = s.stale := rfl

/-! ## setOutLen -/

@[simp] theorem setOutLen_S (v : Word) : (setOutLen v s).S = s.S := rfl
@[simp] theorem setOutLen_key (v : Word) : (setOutLen v s).key = s.key := rfl
@[simp] theorem setOutLen_keyMask (v : Word) : (setOutLen v s).keyMask = s.keyMask := rfl
@[simp] theorem setOutLen_nonce (v : Word) : (setOutLen v s).nonce = s.nonce := rfl
@[simp] theorem setOutLen_nonceMask (v : Word) : (setOutLen v s).nonceMask = s.nonceMask := rfl
@[simp] theorem setOutLen_tagBuf (v : Word) : (setOutLen v s).tagBuf = s.tagBuf := rfl
@[simp] theorem setOutLen_tag (v : Word) : (setOutLen v s).tag = s.tag := rfl
@[simp] theorem setOutLen_blk (v : Word) : (setOutLen v s).blk = s.blk := rfl
@[simp] theorem setOutLen_diff (v : Word) : (setOutLen v s).diff = s.diff := rfl
@[simp] theorem setOutLen_phase (v : Word) : (setOutLen v s).phase = s.phase := rfl
@[simp] theorem setOutLen_k (v : Word) : (setOutLen v s).k = s.k := rfl
@[simp] theorem setOutLen_busy (v : Word) : (setOutLen v s).busy = s.busy := rfl
@[simp] theorem setOutLen_done (v : Word) : (setOutLen v s).done = s.done := rfl
@[simp] theorem setOutLen_authOk (v : Word) : (setOutLen v s).authOk = s.authOk := rfl
@[simp] theorem setOutLen_authFail (v : Word) : (setOutLen v s).authFail = s.authFail := rfl
@[simp] theorem setOutLen_wrBusy (v : Word) : (setOutLen v s).wrBusy = s.wrBusy := rfl
@[simp] theorem setOutLen_err (v : Word) : (setOutLen v s).err = s.err := rfl
@[simp] theorem setOutLen_lastOpc (v : Word) : (setOutLen v s).lastOpc = s.lastOpc := rfl
@[simp] theorem setOutLen_rounds (v : Word) : (setOutLen v s).rounds = s.rounds := rfl
@[simp] theorem setOutLen_doneIe (v : Word) : (setOutLen v s).doneIe = s.doneIe := rfl
@[simp] theorem setOutLen_outLen (v : Word) : (setOutLen v s).outLen = v := rfl
@[simp] theorem setOutLen_faultAddr (v : Word) : (setOutLen v s).faultAddr = s.faultAddr := rfl
@[simp] theorem setOutLen_hdrAddr (v : Word) : (setOutLen v s).hdrAddr = s.hdrAddr := rfl
@[simp] theorem setOutLen_hdrLen (v : Word) : (setOutLen v s).hdrLen = s.hdrLen := rfl
@[simp] theorem setOutLen_inAddr (v : Word) : (setOutLen v s).inAddr = s.inAddr := rfl
@[simp] theorem setOutLen_inLen (v : Word) : (setOutLen v s).inLen = s.inLen := rfl
@[simp] theorem setOutLen_trlAddr (v : Word) : (setOutLen v s).trlAddr = s.trlAddr := rfl
@[simp] theorem setOutLen_trlLen (v : Word) : (setOutLen v s).trlLen = s.trlLen := rfl
@[simp] theorem setOutLen_outAddr (v : Word) : (setOutLen v s).outAddr = s.outAddr := rfl
@[simp] theorem setOutLen_mem (v : Word) : (setOutLen v s).mem = s.mem := rfl
@[simp] theorem setOutLen_platform (v : Word) : (setOutLen v s).platform = s.platform := rfl
@[simp] theorem setOutLen_running (v : Word) : (setOutLen v s).running = s.running := rfl
@[simp] theorem setOutLen_inbox (v : Word) : (setOutLen v s).inbox = s.inbox := rfl
@[simp] theorem setOutLen_responses (v : Word) : (setOutLen v s).responses = s.responses := rfl
@[simp] theorem setOutLen_trace (v : Word) : (setOutLen v s).trace = s.trace := rfl
@[simp] theorem setOutLen_draws (v : Word) : (setOutLen v s).draws = s.draws := rfl
@[simp] theorem setOutLen_raced (v : Word) : (setOutLen v s).raced = s.raced := rfl
@[simp] theorem setOutLen_fresh (v : Word) : (setOutLen v s).fresh = s.fresh := rfl
@[simp] theorem setOutLen_stale (v : Word) : (setOutLen v s).stale = s.stale := rfl

/-! ## setAuth -/

@[simp] theorem setAuth_S (ok fail : Bool) : (setAuth ok fail s).S = s.S := rfl
@[simp] theorem setAuth_key (ok fail : Bool) : (setAuth ok fail s).key = s.key := rfl
@[simp] theorem setAuth_keyMask (ok fail : Bool) : (setAuth ok fail s).keyMask = s.keyMask := rfl
@[simp] theorem setAuth_nonce (ok fail : Bool) : (setAuth ok fail s).nonce = s.nonce := rfl
@[simp] theorem setAuth_nonceMask (ok fail : Bool) : (setAuth ok fail s).nonceMask = s.nonceMask := rfl
@[simp] theorem setAuth_tagBuf (ok fail : Bool) : (setAuth ok fail s).tagBuf = s.tagBuf := rfl
@[simp] theorem setAuth_tag (ok fail : Bool) : (setAuth ok fail s).tag = s.tag := rfl
@[simp] theorem setAuth_blk (ok fail : Bool) : (setAuth ok fail s).blk = s.blk := rfl
@[simp] theorem setAuth_diff (ok fail : Bool) : (setAuth ok fail s).diff = s.diff := rfl
@[simp] theorem setAuth_phase (ok fail : Bool) : (setAuth ok fail s).phase = s.phase := rfl
@[simp] theorem setAuth_k (ok fail : Bool) : (setAuth ok fail s).k = s.k := rfl
@[simp] theorem setAuth_busy (ok fail : Bool) : (setAuth ok fail s).busy = s.busy := rfl
@[simp] theorem setAuth_done (ok fail : Bool) : (setAuth ok fail s).done = s.done := rfl
@[simp] theorem setAuth_authOk (ok fail : Bool) : (setAuth ok fail s).authOk = ok := rfl
@[simp] theorem setAuth_authFail (ok fail : Bool) : (setAuth ok fail s).authFail = fail := rfl
@[simp] theorem setAuth_wrBusy (ok fail : Bool) : (setAuth ok fail s).wrBusy = s.wrBusy := rfl
@[simp] theorem setAuth_err (ok fail : Bool) : (setAuth ok fail s).err = s.err := rfl
@[simp] theorem setAuth_lastOpc (ok fail : Bool) : (setAuth ok fail s).lastOpc = s.lastOpc := rfl
@[simp] theorem setAuth_rounds (ok fail : Bool) : (setAuth ok fail s).rounds = s.rounds := rfl
@[simp] theorem setAuth_doneIe (ok fail : Bool) : (setAuth ok fail s).doneIe = s.doneIe := rfl
@[simp] theorem setAuth_outLen (ok fail : Bool) : (setAuth ok fail s).outLen = s.outLen := rfl
@[simp] theorem setAuth_faultAddr (ok fail : Bool) : (setAuth ok fail s).faultAddr = s.faultAddr := rfl
@[simp] theorem setAuth_hdrAddr (ok fail : Bool) : (setAuth ok fail s).hdrAddr = s.hdrAddr := rfl
@[simp] theorem setAuth_hdrLen (ok fail : Bool) : (setAuth ok fail s).hdrLen = s.hdrLen := rfl
@[simp] theorem setAuth_inAddr (ok fail : Bool) : (setAuth ok fail s).inAddr = s.inAddr := rfl
@[simp] theorem setAuth_inLen (ok fail : Bool) : (setAuth ok fail s).inLen = s.inLen := rfl
@[simp] theorem setAuth_trlAddr (ok fail : Bool) : (setAuth ok fail s).trlAddr = s.trlAddr := rfl
@[simp] theorem setAuth_trlLen (ok fail : Bool) : (setAuth ok fail s).trlLen = s.trlLen := rfl
@[simp] theorem setAuth_outAddr (ok fail : Bool) : (setAuth ok fail s).outAddr = s.outAddr := rfl
@[simp] theorem setAuth_mem (ok fail : Bool) : (setAuth ok fail s).mem = s.mem := rfl
@[simp] theorem setAuth_platform (ok fail : Bool) : (setAuth ok fail s).platform = s.platform := rfl
@[simp] theorem setAuth_running (ok fail : Bool) : (setAuth ok fail s).running = s.running := rfl
@[simp] theorem setAuth_inbox (ok fail : Bool) : (setAuth ok fail s).inbox = s.inbox := rfl
@[simp] theorem setAuth_responses (ok fail : Bool) : (setAuth ok fail s).responses = s.responses := rfl
@[simp] theorem setAuth_trace (ok fail : Bool) : (setAuth ok fail s).trace = s.trace := rfl
@[simp] theorem setAuth_draws (ok fail : Bool) : (setAuth ok fail s).draws = s.draws := rfl
@[simp] theorem setAuth_raced (ok fail : Bool) : (setAuth ok fail s).raced = s.raced := rfl
@[simp] theorem setAuth_fresh (ok fail : Bool) : (setAuth ok fail s).fresh = s.fresh := rfl
@[simp] theorem setAuth_stale (ok fail : Bool) : (setAuth ok fail s).stale = s.stale := rfl

/-! ## turnAway -/

@[simp] theorem turnAway_S : (turnAway s).S = s.S := rfl
@[simp] theorem turnAway_key : (turnAway s).key = s.key := rfl
@[simp] theorem turnAway_keyMask : (turnAway s).keyMask = s.keyMask := rfl
@[simp] theorem turnAway_nonce : (turnAway s).nonce = s.nonce := rfl
@[simp] theorem turnAway_nonceMask : (turnAway s).nonceMask = s.nonceMask := rfl
@[simp] theorem turnAway_tagBuf : (turnAway s).tagBuf = s.tagBuf := rfl
@[simp] theorem turnAway_tag : (turnAway s).tag = s.tag := rfl
@[simp] theorem turnAway_blk : (turnAway s).blk = s.blk := rfl
@[simp] theorem turnAway_diff : (turnAway s).diff = s.diff := rfl
@[simp] theorem turnAway_phase : (turnAway s).phase = s.phase := rfl
@[simp] theorem turnAway_k : (turnAway s).k = s.k := rfl
@[simp] theorem turnAway_busy : (turnAway s).busy = s.busy := rfl
@[simp] theorem turnAway_done : (turnAway s).done = s.done := rfl
@[simp] theorem turnAway_authOk : (turnAway s).authOk = s.authOk := rfl
@[simp] theorem turnAway_authFail : (turnAway s).authFail = s.authFail := rfl
@[simp] theorem turnAway_wrBusy : (turnAway s).wrBusy = true := rfl
@[simp] theorem turnAway_err : (turnAway s).err = s.err := rfl
@[simp] theorem turnAway_lastOpc : (turnAway s).lastOpc = s.lastOpc := rfl
@[simp] theorem turnAway_rounds : (turnAway s).rounds = s.rounds := rfl
@[simp] theorem turnAway_doneIe : (turnAway s).doneIe = s.doneIe := rfl
@[simp] theorem turnAway_outLen : (turnAway s).outLen = s.outLen := rfl
@[simp] theorem turnAway_faultAddr : (turnAway s).faultAddr = s.faultAddr := rfl
@[simp] theorem turnAway_hdrAddr : (turnAway s).hdrAddr = s.hdrAddr := rfl
@[simp] theorem turnAway_hdrLen : (turnAway s).hdrLen = s.hdrLen := rfl
@[simp] theorem turnAway_inAddr : (turnAway s).inAddr = s.inAddr := rfl
@[simp] theorem turnAway_inLen : (turnAway s).inLen = s.inLen := rfl
@[simp] theorem turnAway_trlAddr : (turnAway s).trlAddr = s.trlAddr := rfl
@[simp] theorem turnAway_trlLen : (turnAway s).trlLen = s.trlLen := rfl
@[simp] theorem turnAway_outAddr : (turnAway s).outAddr = s.outAddr := rfl
@[simp] theorem turnAway_mem : (turnAway s).mem = s.mem := rfl
@[simp] theorem turnAway_platform : (turnAway s).platform = s.platform := rfl
@[simp] theorem turnAway_running : (turnAway s).running = s.running := rfl
@[simp] theorem turnAway_inbox : (turnAway s).inbox = s.inbox := rfl
@[simp] theorem turnAway_responses : (turnAway s).responses = s.responses := rfl
@[simp] theorem turnAway_trace : (turnAway s).trace = s.trace := rfl
@[simp] theorem turnAway_draws : (turnAway s).draws = s.draws := rfl
@[simp] theorem turnAway_raced : (turnAway s).raced = s.raced := rfl
@[simp] theorem turnAway_fresh : (turnAway s).fresh = s.fresh := rfl
@[simp] theorem turnAway_stale : (turnAway s).stale = s.stale := rfl

/-! ## settle -/

@[simp] theorem settle_S : (settle s).S = s.S := rfl
@[simp] theorem settle_key : (settle s).key = s.key := rfl
@[simp] theorem settle_keyMask : (settle s).keyMask = s.keyMask := rfl
@[simp] theorem settle_nonce : (settle s).nonce = s.nonce := rfl
@[simp] theorem settle_nonceMask : (settle s).nonceMask = s.nonceMask := rfl
@[simp] theorem settle_tagBuf : (settle s).tagBuf = s.tagBuf := rfl
@[simp] theorem settle_tag : (settle s).tag = s.tag := rfl
@[simp] theorem settle_blk : (settle s).blk = s.blk := rfl
@[simp] theorem settle_diff : (settle s).diff = s.diff := rfl
@[simp] theorem settle_phase : (settle s).phase = s.phase := rfl
@[simp] theorem settle_k : (settle s).k = s.k := rfl
@[simp] theorem settle_busy : (settle s).busy = s.busy := rfl
@[simp] theorem settle_done : (settle s).done = s.done := rfl
@[simp] theorem settle_authOk : (settle s).authOk = s.authOk := rfl
@[simp] theorem settle_authFail : (settle s).authFail = s.authFail := rfl
@[simp] theorem settle_wrBusy : (settle s).wrBusy = s.wrBusy := rfl
@[simp] theorem settle_err : (settle s).err = s.err := rfl
@[simp] theorem settle_lastOpc : (settle s).lastOpc = s.lastOpc := rfl
@[simp] theorem settle_rounds : (settle s).rounds = s.rounds := rfl
@[simp] theorem settle_doneIe : (settle s).doneIe = s.doneIe := rfl
@[simp] theorem settle_outLen : (settle s).outLen = s.outLen := rfl
@[simp] theorem settle_faultAddr : (settle s).faultAddr = s.faultAddr := rfl
@[simp] theorem settle_hdrAddr : (settle s).hdrAddr = s.hdrAddr := rfl
@[simp] theorem settle_hdrLen : (settle s).hdrLen = s.hdrLen := rfl
@[simp] theorem settle_inAddr : (settle s).inAddr = s.inAddr := rfl
@[simp] theorem settle_inLen : (settle s).inLen = s.inLen := rfl
@[simp] theorem settle_trlAddr : (settle s).trlAddr = s.trlAddr := rfl
@[simp] theorem settle_trlLen : (settle s).trlLen = s.trlLen := rfl
@[simp] theorem settle_outAddr : (settle s).outAddr = s.outAddr := rfl
@[simp] theorem settle_mem : (settle s).mem = s.mem := rfl
@[simp] theorem settle_platform : (settle s).platform = s.platform := rfl
@[simp] theorem settle_running : (settle s).running = none := rfl
@[simp] theorem settle_inbox : (settle s).inbox = s.inbox := rfl
@[simp] theorem settle_responses : (settle s).responses = s.responses := rfl
@[simp] theorem settle_trace : (settle s).trace = s.trace := rfl
@[simp] theorem settle_draws : (settle s).draws = s.draws := rfl
@[simp] theorem settle_raced : (settle s).raced = [] := rfl
@[simp] theorem settle_fresh : (settle s).fresh = [] := rfl
@[simp] theorem settle_stale : (settle s).stale = s.fresh ++ s.stale := rfl
@[simp] theorem settle_toEngine : (settle s).toEngine = s.toEngine := rfl

/-! ## complete -/

@[simp] theorem complete_S (c : ErrCode) : (complete c s).S = s.S := rfl
@[simp] theorem complete_key (c : ErrCode) : (complete c s).key = s.key := rfl
@[simp] theorem complete_keyMask (c : ErrCode) : (complete c s).keyMask = s.keyMask := rfl
@[simp] theorem complete_nonce (c : ErrCode) : (complete c s).nonce = s.nonce := rfl
@[simp] theorem complete_nonceMask (c : ErrCode) : (complete c s).nonceMask = s.nonceMask := rfl
@[simp] theorem complete_tagBuf (c : ErrCode) : (complete c s).tagBuf = s.tagBuf := rfl
@[simp] theorem complete_tag (c : ErrCode) : (complete c s).tag = s.tag := rfl
@[simp] theorem complete_blk (c : ErrCode) : (complete c s).blk = s.blk := rfl
@[simp] theorem complete_diff (c : ErrCode) : (complete c s).diff = s.diff := rfl
@[simp] theorem complete_phase (c : ErrCode) : (complete c s).phase = .idle := rfl
@[simp] theorem complete_k (c : ErrCode) : (complete c s).k = 0 := rfl
@[simp] theorem complete_busy (c : ErrCode) : (complete c s).busy = false := rfl
@[simp] theorem complete_done (c : ErrCode) : (complete c s).done = true := rfl
@[simp] theorem complete_authOk (c : ErrCode) : (complete c s).authOk = s.authOk := rfl
@[simp] theorem complete_authFail (c : ErrCode) : (complete c s).authFail = s.authFail := rfl
@[simp] theorem complete_wrBusy (c : ErrCode) : (complete c s).wrBusy = s.wrBusy := rfl
@[simp] theorem complete_err (c : ErrCode) : (complete c s).err = c := rfl
@[simp] theorem complete_lastOpc (c : ErrCode) : (complete c s).lastOpc = s.lastOpc := rfl
@[simp] theorem complete_rounds (c : ErrCode) : (complete c s).rounds = s.rounds := rfl
@[simp] theorem complete_doneIe (c : ErrCode) : (complete c s).doneIe = s.doneIe := rfl
@[simp] theorem complete_outLen (c : ErrCode) : (complete c s).outLen = s.outLen := rfl
@[simp] theorem complete_faultAddr (c : ErrCode) : (complete c s).faultAddr = s.faultAddr := rfl
@[simp] theorem complete_hdrAddr (c : ErrCode) : (complete c s).hdrAddr = s.hdrAddr := rfl
@[simp] theorem complete_hdrLen (c : ErrCode) : (complete c s).hdrLen = s.hdrLen := rfl
@[simp] theorem complete_inAddr (c : ErrCode) : (complete c s).inAddr = s.inAddr := rfl
@[simp] theorem complete_inLen (c : ErrCode) : (complete c s).inLen = s.inLen := rfl
@[simp] theorem complete_trlAddr (c : ErrCode) : (complete c s).trlAddr = s.trlAddr := rfl
@[simp] theorem complete_trlLen (c : ErrCode) : (complete c s).trlLen = s.trlLen := rfl
@[simp] theorem complete_outAddr (c : ErrCode) : (complete c s).outAddr = s.outAddr := rfl
@[simp] theorem complete_mem (c : ErrCode) : (complete c s).mem = s.mem := rfl
@[simp] theorem complete_platform (c : ErrCode) : (complete c s).platform = s.platform := rfl
@[simp] theorem complete_running (c : ErrCode) : (complete c s).running = none := rfl
@[simp] theorem complete_inbox (c : ErrCode) : (complete c s).inbox = s.inbox := rfl
@[simp] theorem complete_responses (c : ErrCode) : (complete c s).responses = s.responses := rfl
@[simp] theorem complete_trace (c : ErrCode) : (complete c s).trace = s.trace ++ [.completed c] := rfl
@[simp] theorem complete_draws (c : ErrCode) : (complete c s).draws = s.draws := rfl
@[simp] theorem complete_raced (c : ErrCode) : (complete c s).raced = [] := rfl
@[simp] theorem complete_fresh (c : ErrCode) : (complete c s).fresh = [] := rfl
@[simp] theorem complete_stale (c : ErrCode) : (complete c s).stale = s.fresh ++ s.stale := rfl

/-! ## accept -/

@[simp] theorem accept_S (opc : Byte) (cmd : Option Instr) : (accept opc cmd s).S = s.S := rfl
@[simp] theorem accept_key (opc : Byte) (cmd : Option Instr) : (accept opc cmd s).key = s.key := rfl
@[simp] theorem accept_keyMask (opc : Byte) (cmd : Option Instr) : (accept opc cmd s).keyMask = s.keyMask := rfl
@[simp] theorem accept_nonce (opc : Byte) (cmd : Option Instr) : (accept opc cmd s).nonce = s.nonce := rfl
@[simp] theorem accept_nonceMask (opc : Byte) (cmd : Option Instr) : (accept opc cmd s).nonceMask = s.nonceMask := rfl
@[simp] theorem accept_tagBuf (opc : Byte) (cmd : Option Instr) : (accept opc cmd s).tagBuf = s.tagBuf := rfl
@[simp] theorem accept_tag (opc : Byte) (cmd : Option Instr) : (accept opc cmd s).tag = s.tag := rfl
@[simp] theorem accept_blk (opc : Byte) (cmd : Option Instr) : (accept opc cmd s).blk = s.blk := rfl
@[simp] theorem accept_diff (opc : Byte) (cmd : Option Instr) : (accept opc cmd s).diff = s.diff := rfl
@[simp] theorem accept_phase (opc : Byte) (cmd : Option Instr) : (accept opc cmd s).phase = s.phase := rfl
@[simp] theorem accept_k (opc : Byte) (cmd : Option Instr) : (accept opc cmd s).k = s.k := rfl
@[simp] theorem accept_busy (opc : Byte) (cmd : Option Instr) : (accept opc cmd s).busy = true := rfl
@[simp] theorem accept_done (opc : Byte) (cmd : Option Instr) : (accept opc cmd s).done = false := rfl
@[simp] theorem accept_authOk (opc : Byte) (cmd : Option Instr) : (accept opc cmd s).authOk = false := rfl
@[simp] theorem accept_authFail (opc : Byte) (cmd : Option Instr) : (accept opc cmd s).authFail = false := rfl
@[simp] theorem accept_wrBusy (opc : Byte) (cmd : Option Instr) : (accept opc cmd s).wrBusy = s.wrBusy := rfl
@[simp] theorem accept_err (opc : Byte) (cmd : Option Instr) : (accept opc cmd s).err = .noError := rfl
@[simp] theorem accept_lastOpc (opc : Byte) (cmd : Option Instr) : (accept opc cmd s).lastOpc = opc := rfl
@[simp] theorem accept_rounds (opc : Byte) (cmd : Option Instr) : (accept opc cmd s).rounds = s.rounds := rfl
@[simp] theorem accept_doneIe (opc : Byte) (cmd : Option Instr) : (accept opc cmd s).doneIe = s.doneIe := rfl
@[simp] theorem accept_outLen (opc : Byte) (cmd : Option Instr) : (accept opc cmd s).outLen = s.outLen := rfl
@[simp] theorem accept_faultAddr (opc : Byte) (cmd : Option Instr) : (accept opc cmd s).faultAddr = 0 := rfl
@[simp] theorem accept_hdrAddr (opc : Byte) (cmd : Option Instr) : (accept opc cmd s).hdrAddr = s.hdrAddr := rfl
@[simp] theorem accept_hdrLen (opc : Byte) (cmd : Option Instr) : (accept opc cmd s).hdrLen = s.hdrLen := rfl
@[simp] theorem accept_inAddr (opc : Byte) (cmd : Option Instr) : (accept opc cmd s).inAddr = s.inAddr := rfl
@[simp] theorem accept_inLen (opc : Byte) (cmd : Option Instr) : (accept opc cmd s).inLen = s.inLen := rfl
@[simp] theorem accept_trlAddr (opc : Byte) (cmd : Option Instr) : (accept opc cmd s).trlAddr = s.trlAddr := rfl
@[simp] theorem accept_trlLen (opc : Byte) (cmd : Option Instr) : (accept opc cmd s).trlLen = s.trlLen := rfl
@[simp] theorem accept_outAddr (opc : Byte) (cmd : Option Instr) : (accept opc cmd s).outAddr = s.outAddr := rfl
@[simp] theorem accept_mem (opc : Byte) (cmd : Option Instr) : (accept opc cmd s).mem = s.mem := rfl
@[simp] theorem accept_platform (opc : Byte) (cmd : Option Instr) : (accept opc cmd s).platform = s.platform := rfl
@[simp] theorem accept_running (opc : Byte) (cmd : Option Instr) : (accept opc cmd s).running = cmd := rfl
@[simp] theorem accept_inbox (opc : Byte) (cmd : Option Instr) : (accept opc cmd s).inbox = s.inbox := rfl
@[simp] theorem accept_responses (opc : Byte) (cmd : Option Instr) : (accept opc cmd s).responses = s.responses := rfl
@[simp] theorem accept_trace (opc : Byte) (cmd : Option Instr) : (accept opc cmd s).trace = s.trace ++ [.accepted opc] := rfl
@[simp] theorem accept_draws (opc : Byte) (cmd : Option Instr) : (accept opc cmd s).draws = s.draws := rfl
@[simp] theorem accept_raced (opc : Byte) (cmd : Option Instr) : (accept opc cmd s).raced = [] := rfl
@[simp] theorem accept_fresh (opc : Byte) (cmd : Option Instr) : (accept opc cmd s).fresh = s.fresh := rfl
@[simp] theorem accept_stale (opc : Byte) (cmd : Option Instr) : (accept opc cmd s).stale = s.stale := rfl

/-! ## setPhase -/

@[simp] theorem setPhase_S (p : Phase) : (setPhase p s).S = s.S := rfl
@[simp] theorem setPhase_key (p : Phase) : (setPhase p s).key = s.key := rfl
@[simp] theorem setPhase_keyMask (p : Phase) : (setPhase p s).keyMask = s.keyMask := rfl
@[simp] theorem setPhase_nonce (p : Phase) : (setPhase p s).nonce = s.nonce := rfl
@[simp] theorem setPhase_nonceMask (p : Phase) : (setPhase p s).nonceMask = s.nonceMask := rfl
@[simp] theorem setPhase_tagBuf (p : Phase) : (setPhase p s).tagBuf = s.tagBuf := rfl
@[simp] theorem setPhase_tag (p : Phase) : (setPhase p s).tag = s.tag := rfl
@[simp] theorem setPhase_blk (p : Phase) : (setPhase p s).blk = s.blk := rfl
@[simp] theorem setPhase_diff (p : Phase) : (setPhase p s).diff = s.diff := rfl
@[simp] theorem setPhase_phase (p : Phase) : (setPhase p s).phase = p := rfl
@[simp] theorem setPhase_k (p : Phase) : (setPhase p s).k = 0 := rfl
@[simp] theorem setPhase_busy (p : Phase) : (setPhase p s).busy = s.busy := rfl
@[simp] theorem setPhase_done (p : Phase) : (setPhase p s).done = s.done := rfl
@[simp] theorem setPhase_authOk (p : Phase) : (setPhase p s).authOk = s.authOk := rfl
@[simp] theorem setPhase_authFail (p : Phase) : (setPhase p s).authFail = s.authFail := rfl
@[simp] theorem setPhase_wrBusy (p : Phase) : (setPhase p s).wrBusy = s.wrBusy := rfl
@[simp] theorem setPhase_err (p : Phase) : (setPhase p s).err = s.err := rfl
@[simp] theorem setPhase_lastOpc (p : Phase) : (setPhase p s).lastOpc = s.lastOpc := rfl
@[simp] theorem setPhase_rounds (p : Phase) : (setPhase p s).rounds = s.rounds := rfl
@[simp] theorem setPhase_doneIe (p : Phase) : (setPhase p s).doneIe = s.doneIe := rfl
@[simp] theorem setPhase_outLen (p : Phase) : (setPhase p s).outLen = s.outLen := rfl
@[simp] theorem setPhase_faultAddr (p : Phase) : (setPhase p s).faultAddr = s.faultAddr := rfl
@[simp] theorem setPhase_hdrAddr (p : Phase) : (setPhase p s).hdrAddr = s.hdrAddr := rfl
@[simp] theorem setPhase_hdrLen (p : Phase) : (setPhase p s).hdrLen = s.hdrLen := rfl
@[simp] theorem setPhase_inAddr (p : Phase) : (setPhase p s).inAddr = s.inAddr := rfl
@[simp] theorem setPhase_inLen (p : Phase) : (setPhase p s).inLen = s.inLen := rfl
@[simp] theorem setPhase_trlAddr (p : Phase) : (setPhase p s).trlAddr = s.trlAddr := rfl
@[simp] theorem setPhase_trlLen (p : Phase) : (setPhase p s).trlLen = s.trlLen := rfl
@[simp] theorem setPhase_outAddr (p : Phase) : (setPhase p s).outAddr = s.outAddr := rfl
@[simp] theorem setPhase_mem (p : Phase) : (setPhase p s).mem = s.mem := rfl
@[simp] theorem setPhase_platform (p : Phase) : (setPhase p s).platform = s.platform := rfl
@[simp] theorem setPhase_running (p : Phase) : (setPhase p s).running = s.running := rfl
@[simp] theorem setPhase_inbox (p : Phase) : (setPhase p s).inbox = s.inbox := rfl
@[simp] theorem setPhase_responses (p : Phase) : (setPhase p s).responses = s.responses := rfl
@[simp] theorem setPhase_trace (p : Phase) : (setPhase p s).trace = s.trace := rfl
@[simp] theorem setPhase_draws (p : Phase) : (setPhase p s).draws = s.draws := rfl
@[simp] theorem setPhase_raced (p : Phase) : (setPhase p s).raced = s.raced := rfl
@[simp] theorem setPhase_fresh (p : Phase) : (setPhase p s).fresh = s.fresh := rfl
@[simp] theorem setPhase_stale (p : Phase) : (setPhase p s).stale = s.stale := rfl

/-! ## setWritten -/

@[simp] theorem setWritten_S (m : Memory) (r : Region) : (setWritten m r s).S = s.S := rfl
@[simp] theorem setWritten_key (m : Memory) (r : Region) : (setWritten m r s).key = s.key := rfl
@[simp] theorem setWritten_keyMask (m : Memory) (r : Region) : (setWritten m r s).keyMask = s.keyMask := rfl
@[simp] theorem setWritten_nonce (m : Memory) (r : Region) : (setWritten m r s).nonce = s.nonce := rfl
@[simp] theorem setWritten_nonceMask (m : Memory) (r : Region) : (setWritten m r s).nonceMask = s.nonceMask := rfl
@[simp] theorem setWritten_tagBuf (m : Memory) (r : Region) : (setWritten m r s).tagBuf = s.tagBuf := rfl
@[simp] theorem setWritten_tag (m : Memory) (r : Region) : (setWritten m r s).tag = s.tag := rfl
@[simp] theorem setWritten_blk (m : Memory) (r : Region) : (setWritten m r s).blk = s.blk := rfl
@[simp] theorem setWritten_diff (m : Memory) (r : Region) : (setWritten m r s).diff = s.diff := rfl
@[simp] theorem setWritten_phase (m : Memory) (r : Region) : (setWritten m r s).phase = s.phase := rfl
@[simp] theorem setWritten_k (m : Memory) (r : Region) : (setWritten m r s).k = s.k := rfl
@[simp] theorem setWritten_busy (m : Memory) (r : Region) : (setWritten m r s).busy = s.busy := rfl
@[simp] theorem setWritten_done (m : Memory) (r : Region) : (setWritten m r s).done = s.done := rfl
@[simp] theorem setWritten_authOk (m : Memory) (r : Region) : (setWritten m r s).authOk = s.authOk := rfl
@[simp] theorem setWritten_authFail (m : Memory) (r : Region) : (setWritten m r s).authFail = s.authFail := rfl
@[simp] theorem setWritten_wrBusy (m : Memory) (r : Region) : (setWritten m r s).wrBusy = s.wrBusy := rfl
@[simp] theorem setWritten_err (m : Memory) (r : Region) : (setWritten m r s).err = s.err := rfl
@[simp] theorem setWritten_lastOpc (m : Memory) (r : Region) : (setWritten m r s).lastOpc = s.lastOpc := rfl
@[simp] theorem setWritten_rounds (m : Memory) (r : Region) : (setWritten m r s).rounds = s.rounds := rfl
@[simp] theorem setWritten_doneIe (m : Memory) (r : Region) : (setWritten m r s).doneIe = s.doneIe := rfl
@[simp] theorem setWritten_outLen (m : Memory) (r : Region) : (setWritten m r s).outLen = s.outLen := rfl
@[simp] theorem setWritten_faultAddr (m : Memory) (r : Region) : (setWritten m r s).faultAddr = s.faultAddr := rfl
@[simp] theorem setWritten_hdrAddr (m : Memory) (r : Region) : (setWritten m r s).hdrAddr = s.hdrAddr := rfl
@[simp] theorem setWritten_hdrLen (m : Memory) (r : Region) : (setWritten m r s).hdrLen = s.hdrLen := rfl
@[simp] theorem setWritten_inAddr (m : Memory) (r : Region) : (setWritten m r s).inAddr = s.inAddr := rfl
@[simp] theorem setWritten_inLen (m : Memory) (r : Region) : (setWritten m r s).inLen = s.inLen := rfl
@[simp] theorem setWritten_trlAddr (m : Memory) (r : Region) : (setWritten m r s).trlAddr = s.trlAddr := rfl
@[simp] theorem setWritten_trlLen (m : Memory) (r : Region) : (setWritten m r s).trlLen = s.trlLen := rfl
@[simp] theorem setWritten_outAddr (m : Memory) (r : Region) : (setWritten m r s).outAddr = s.outAddr := rfl
@[simp] theorem setWritten_mem (m : Memory) (r : Region) : (setWritten m r s).mem = m := rfl
@[simp] theorem setWritten_platform (m : Memory) (r : Region) : (setWritten m r s).platform = s.platform := rfl
@[simp] theorem setWritten_running (m : Memory) (r : Region) : (setWritten m r s).running = s.running := rfl
@[simp] theorem setWritten_inbox (m : Memory) (r : Region) : (setWritten m r s).inbox = s.inbox := rfl
@[simp] theorem setWritten_responses (m : Memory) (r : Region) : (setWritten m r s).responses = s.responses := rfl
@[simp] theorem setWritten_trace (m : Memory) (r : Region) : (setWritten m r s).trace = s.trace := rfl
@[simp] theorem setWritten_draws (m : Memory) (r : Region) : (setWritten m r s).draws = s.draws + 1 := rfl
@[simp] theorem setWritten_raced (m : Memory) (r : Region) : (setWritten m r s).raced = s.raced := rfl
@[simp] theorem setWritten_fresh (m : Memory) (r : Region) : (setWritten m r s).fresh = r :: s.fresh := rfl
@[simp] theorem setWritten_stale (m : Memory) (r : Region) : (setWritten m r s).stale = s.stale := rfl
@[simp] theorem setWritten_toEngine (m : Memory) (r : Region) : (setWritten m r s).toEngine = s.toEngine := rfl

/-! ## loadTagBuf -/

@[simp] theorem loadTagBuf_S (b : List Byte) : (loadTagBuf b s).S = s.S := rfl
@[simp] theorem loadTagBuf_key (b : List Byte) : (loadTagBuf b s).key = s.key := rfl
@[simp] theorem loadTagBuf_keyMask (b : List Byte) : (loadTagBuf b s).keyMask = s.keyMask := rfl
@[simp] theorem loadTagBuf_nonce (b : List Byte) : (loadTagBuf b s).nonce = s.nonce := rfl
@[simp] theorem loadTagBuf_nonceMask (b : List Byte) : (loadTagBuf b s).nonceMask = s.nonceMask := rfl
@[simp] theorem loadTagBuf_tagBuf (b : List Byte) : (loadTagBuf b s).tagBuf = toBuffer 32 b := rfl
@[simp] theorem loadTagBuf_tag (b : List Byte) : (loadTagBuf b s).tag = s.tag := rfl
@[simp] theorem loadTagBuf_blk (b : List Byte) : (loadTagBuf b s).blk = s.blk := rfl
@[simp] theorem loadTagBuf_diff (b : List Byte) : (loadTagBuf b s).diff = s.diff := rfl
@[simp] theorem loadTagBuf_phase (b : List Byte) : (loadTagBuf b s).phase = s.phase := rfl
@[simp] theorem loadTagBuf_k (b : List Byte) : (loadTagBuf b s).k = s.k := rfl
@[simp] theorem loadTagBuf_busy (b : List Byte) : (loadTagBuf b s).busy = s.busy := rfl
@[simp] theorem loadTagBuf_done (b : List Byte) : (loadTagBuf b s).done = s.done := rfl
@[simp] theorem loadTagBuf_authOk (b : List Byte) : (loadTagBuf b s).authOk = s.authOk := rfl
@[simp] theorem loadTagBuf_authFail (b : List Byte) : (loadTagBuf b s).authFail = s.authFail := rfl
@[simp] theorem loadTagBuf_wrBusy (b : List Byte) : (loadTagBuf b s).wrBusy = s.wrBusy := rfl
@[simp] theorem loadTagBuf_err (b : List Byte) : (loadTagBuf b s).err = s.err := rfl
@[simp] theorem loadTagBuf_lastOpc (b : List Byte) : (loadTagBuf b s).lastOpc = s.lastOpc := rfl
@[simp] theorem loadTagBuf_rounds (b : List Byte) : (loadTagBuf b s).rounds = s.rounds := rfl
@[simp] theorem loadTagBuf_doneIe (b : List Byte) : (loadTagBuf b s).doneIe = s.doneIe := rfl
@[simp] theorem loadTagBuf_outLen (b : List Byte) : (loadTagBuf b s).outLen = s.outLen := rfl
@[simp] theorem loadTagBuf_faultAddr (b : List Byte) : (loadTagBuf b s).faultAddr = s.faultAddr := rfl
@[simp] theorem loadTagBuf_hdrAddr (b : List Byte) : (loadTagBuf b s).hdrAddr = s.hdrAddr := rfl
@[simp] theorem loadTagBuf_hdrLen (b : List Byte) : (loadTagBuf b s).hdrLen = s.hdrLen := rfl
@[simp] theorem loadTagBuf_inAddr (b : List Byte) : (loadTagBuf b s).inAddr = s.inAddr := rfl
@[simp] theorem loadTagBuf_inLen (b : List Byte) : (loadTagBuf b s).inLen = s.inLen := rfl
@[simp] theorem loadTagBuf_trlAddr (b : List Byte) : (loadTagBuf b s).trlAddr = s.trlAddr := rfl
@[simp] theorem loadTagBuf_trlLen (b : List Byte) : (loadTagBuf b s).trlLen = s.trlLen := rfl
@[simp] theorem loadTagBuf_outAddr (b : List Byte) : (loadTagBuf b s).outAddr = s.outAddr := rfl
@[simp] theorem loadTagBuf_mem (b : List Byte) : (loadTagBuf b s).mem = s.mem := rfl
@[simp] theorem loadTagBuf_platform (b : List Byte) : (loadTagBuf b s).platform = s.platform := rfl
@[simp] theorem loadTagBuf_running (b : List Byte) : (loadTagBuf b s).running = s.running := rfl
@[simp] theorem loadTagBuf_inbox (b : List Byte) : (loadTagBuf b s).inbox = s.inbox := rfl
@[simp] theorem loadTagBuf_responses (b : List Byte) : (loadTagBuf b s).responses = s.responses := rfl
@[simp] theorem loadTagBuf_trace (b : List Byte) : (loadTagBuf b s).trace = s.trace := rfl
@[simp] theorem loadTagBuf_draws (b : List Byte) : (loadTagBuf b s).draws = s.draws := rfl
@[simp] theorem loadTagBuf_raced (b : List Byte) : (loadTagBuf b s).raced = s.raced := rfl
@[simp] theorem loadTagBuf_fresh (b : List Byte) : (loadTagBuf b s).fresh = s.fresh := rfl
@[simp] theorem loadTagBuf_stale (b : List Byte) : (loadTagBuf b s).stale = s.stale := rfl

/-! ## compareTags -/

@[simp] theorem compareTags_S : (compareTags s).S = s.S := rfl
@[simp] theorem compareTags_key : (compareTags s).key = s.key := rfl
@[simp] theorem compareTags_keyMask : (compareTags s).keyMask = s.keyMask := rfl
@[simp] theorem compareTags_nonce : (compareTags s).nonce = s.nonce := rfl
@[simp] theorem compareTags_nonceMask : (compareTags s).nonceMask = s.nonceMask := rfl
@[simp] theorem compareTags_tagBuf : (compareTags s).tagBuf = s.tagBuf := rfl
@[simp] theorem compareTags_tag : (compareTags s).tag = s.tag := rfl
@[simp] theorem compareTags_blk : (compareTags s).blk = s.blk := rfl
@[simp] theorem compareTags_diff : (compareTags s).diff = tagDiff s.tag.toList s.tagBuf.toList := rfl
@[simp] theorem compareTags_phase : (compareTags s).phase = s.phase := rfl
@[simp] theorem compareTags_k : (compareTags s).k = s.k := rfl
@[simp] theorem compareTags_busy : (compareTags s).busy = s.busy := rfl
@[simp] theorem compareTags_done : (compareTags s).done = s.done := rfl
@[simp] theorem compareTags_authOk : (compareTags s).authOk = s.authOk := rfl
@[simp] theorem compareTags_authFail : (compareTags s).authFail = s.authFail := rfl
@[simp] theorem compareTags_wrBusy : (compareTags s).wrBusy = s.wrBusy := rfl
@[simp] theorem compareTags_err : (compareTags s).err = s.err := rfl
@[simp] theorem compareTags_lastOpc : (compareTags s).lastOpc = s.lastOpc := rfl
@[simp] theorem compareTags_rounds : (compareTags s).rounds = s.rounds := rfl
@[simp] theorem compareTags_doneIe : (compareTags s).doneIe = s.doneIe := rfl
@[simp] theorem compareTags_outLen : (compareTags s).outLen = s.outLen := rfl
@[simp] theorem compareTags_faultAddr : (compareTags s).faultAddr = s.faultAddr := rfl
@[simp] theorem compareTags_hdrAddr : (compareTags s).hdrAddr = s.hdrAddr := rfl
@[simp] theorem compareTags_hdrLen : (compareTags s).hdrLen = s.hdrLen := rfl
@[simp] theorem compareTags_inAddr : (compareTags s).inAddr = s.inAddr := rfl
@[simp] theorem compareTags_inLen : (compareTags s).inLen = s.inLen := rfl
@[simp] theorem compareTags_trlAddr : (compareTags s).trlAddr = s.trlAddr := rfl
@[simp] theorem compareTags_trlLen : (compareTags s).trlLen = s.trlLen := rfl
@[simp] theorem compareTags_outAddr : (compareTags s).outAddr = s.outAddr := rfl
@[simp] theorem compareTags_mem : (compareTags s).mem = s.mem := rfl
@[simp] theorem compareTags_platform : (compareTags s).platform = s.platform := rfl
@[simp] theorem compareTags_running : (compareTags s).running = s.running := rfl
@[simp] theorem compareTags_inbox : (compareTags s).inbox = s.inbox := rfl
@[simp] theorem compareTags_responses : (compareTags s).responses = s.responses := rfl
@[simp] theorem compareTags_trace : (compareTags s).trace = s.trace := rfl
@[simp] theorem compareTags_draws : (compareTags s).draws = s.draws := rfl
@[simp] theorem compareTags_raced : (compareTags s).raced = s.raced := rfl
@[simp] theorem compareTags_fresh : (compareTags s).fresh = s.fresh := rfl
@[simp] theorem compareTags_stale : (compareTags s).stale = s.stale := rfl

/-! ## Engine.reset, State.resetOn -/

@[simp] theorem Engine.reset_S : Engine.reset.S = Vector.replicate 16 0 := rfl
@[simp] theorem Engine.reset_key : Engine.reset.key = Vector.replicate 4 0 := rfl
@[simp] theorem Engine.reset_keyMask : Engine.reset.keyMask = 0 := rfl
@[simp] theorem Engine.reset_nonce : Engine.reset.nonce = Vector.replicate 4 0 := rfl
@[simp] theorem Engine.reset_nonceMask : Engine.reset.nonceMask = 0 := rfl
@[simp] theorem Engine.reset_tagBuf : Engine.reset.tagBuf = Vector.replicate 32 0 := rfl
@[simp] theorem Engine.reset_tag : Engine.reset.tag = Vector.replicate 32 0 := rfl
@[simp] theorem Engine.reset_blk : Engine.reset.blk = Vector.replicate 96 0 := rfl
@[simp] theorem Engine.reset_diff : Engine.reset.diff = 0 := rfl
@[simp] theorem Engine.reset_phase : Engine.reset.phase = .idle := rfl
@[simp] theorem Engine.reset_k : Engine.reset.k = 0 := rfl
@[simp] theorem Engine.reset_busy : Engine.reset.busy = false := rfl
@[simp] theorem Engine.reset_done : Engine.reset.done = false := rfl
@[simp] theorem Engine.reset_authOk : Engine.reset.authOk = false := rfl
@[simp] theorem Engine.reset_authFail : Engine.reset.authFail = false := rfl
@[simp] theorem Engine.reset_wrBusy : Engine.reset.wrBusy = false := rfl
@[simp] theorem Engine.reset_err : Engine.reset.err = .noError := rfl
@[simp] theorem Engine.reset_lastOpc : Engine.reset.lastOpc = 0 := rfl
@[simp] theorem Engine.reset_rounds : Engine.reset.rounds = 0 := rfl
@[simp] theorem Engine.reset_doneIe : Engine.reset.doneIe = false := rfl
@[simp] theorem Engine.reset_outLen : Engine.reset.outLen = 0 := rfl
@[simp] theorem Engine.reset_faultAddr : Engine.reset.faultAddr = 0 := rfl
@[simp] theorem Engine.reset_hdrAddr : Engine.reset.hdrAddr = 0 := rfl
@[simp] theorem Engine.reset_hdrLen : Engine.reset.hdrLen = 0 := rfl
@[simp] theorem Engine.reset_inAddr : Engine.reset.inAddr = 0 := rfl
@[simp] theorem Engine.reset_inLen : Engine.reset.inLen = 0 := rfl
@[simp] theorem Engine.reset_trlAddr : Engine.reset.trlAddr = 0 := rfl
@[simp] theorem Engine.reset_trlLen : Engine.reset.trlLen = 0 := rfl
@[simp] theorem Engine.reset_outAddr : Engine.reset.outAddr = 0 := rfl
@[simp] theorem State.resetOn_toEngine (p : Platform) (m : Memory) : (State.resetOn p m).toEngine = Engine.reset := rfl
@[simp] theorem State.resetOn_mem (p : Platform) (m : Memory) : (State.resetOn p m).mem = m := rfl
@[simp] theorem State.resetOn_platform (p : Platform) (m : Memory) : (State.resetOn p m).platform = p := rfl
@[simp] theorem State.resetOn_running (p : Platform) (m : Memory) : (State.resetOn p m).running = none := rfl
@[simp] theorem State.resetOn_inbox (p : Platform) (m : Memory) : (State.resetOn p m).inbox = [] := rfl
@[simp] theorem State.resetOn_responses (p : Platform) (m : Memory) : (State.resetOn p m).responses = [] := rfl
@[simp] theorem State.resetOn_trace (p : Platform) (m : Memory) : (State.resetOn p m).trace = [] := rfl
@[simp] theorem State.resetOn_draws (p : Platform) (m : Memory) : (State.resetOn p m).draws = 0 := rfl
@[simp] theorem State.resetOn_raced (p : Platform) (m : Memory) : (State.resetOn p m).raced = [] := rfl
@[simp] theorem State.resetOn_fresh (p : Platform) (m : Memory) : (State.resetOn p m).fresh = [] := rfl
@[simp] theorem State.resetOn_stale (p : Platform) (m : Memory) : (State.resetOn p m).stale = [] := rfl

/-! ## resetEngine -/

@[simp] theorem resetEngine_S : (resetEngine s).S = Engine.reset.S := rfl
@[simp] theorem resetEngine_key : (resetEngine s).key = Engine.reset.key := rfl
@[simp] theorem resetEngine_keyMask : (resetEngine s).keyMask = Engine.reset.keyMask := rfl
@[simp] theorem resetEngine_nonce : (resetEngine s).nonce = Engine.reset.nonce := rfl
@[simp] theorem resetEngine_nonceMask : (resetEngine s).nonceMask = Engine.reset.nonceMask := rfl
@[simp] theorem resetEngine_tagBuf : (resetEngine s).tagBuf = Engine.reset.tagBuf := rfl
@[simp] theorem resetEngine_tag : (resetEngine s).tag = Engine.reset.tag := rfl
@[simp] theorem resetEngine_blk : (resetEngine s).blk = Engine.reset.blk := rfl
@[simp] theorem resetEngine_diff : (resetEngine s).diff = Engine.reset.diff := rfl
@[simp] theorem resetEngine_phase : (resetEngine s).phase = Engine.reset.phase := rfl
@[simp] theorem resetEngine_k : (resetEngine s).k = Engine.reset.k := rfl
@[simp] theorem resetEngine_busy : (resetEngine s).busy = Engine.reset.busy := rfl
@[simp] theorem resetEngine_done : (resetEngine s).done = Engine.reset.done := rfl
@[simp] theorem resetEngine_authOk : (resetEngine s).authOk = Engine.reset.authOk := rfl
@[simp] theorem resetEngine_authFail : (resetEngine s).authFail = Engine.reset.authFail := rfl
@[simp] theorem resetEngine_wrBusy : (resetEngine s).wrBusy = Engine.reset.wrBusy := rfl
@[simp] theorem resetEngine_err : (resetEngine s).err = Engine.reset.err := rfl
@[simp] theorem resetEngine_lastOpc : (resetEngine s).lastOpc = Engine.reset.lastOpc := rfl
@[simp] theorem resetEngine_rounds : (resetEngine s).rounds = Engine.reset.rounds := rfl
@[simp] theorem resetEngine_doneIe : (resetEngine s).doneIe = Engine.reset.doneIe := rfl
@[simp] theorem resetEngine_outLen : (resetEngine s).outLen = Engine.reset.outLen := rfl
@[simp] theorem resetEngine_faultAddr : (resetEngine s).faultAddr = Engine.reset.faultAddr := rfl
@[simp] theorem resetEngine_hdrAddr : (resetEngine s).hdrAddr = Engine.reset.hdrAddr := rfl
@[simp] theorem resetEngine_hdrLen : (resetEngine s).hdrLen = Engine.reset.hdrLen := rfl
@[simp] theorem resetEngine_inAddr : (resetEngine s).inAddr = Engine.reset.inAddr := rfl
@[simp] theorem resetEngine_inLen : (resetEngine s).inLen = Engine.reset.inLen := rfl
@[simp] theorem resetEngine_trlAddr : (resetEngine s).trlAddr = Engine.reset.trlAddr := rfl
@[simp] theorem resetEngine_trlLen : (resetEngine s).trlLen = Engine.reset.trlLen := rfl
@[simp] theorem resetEngine_outAddr : (resetEngine s).outAddr = Engine.reset.outAddr := rfl
@[simp] theorem resetEngine_mem : (resetEngine s).mem = s.mem := rfl
@[simp] theorem resetEngine_platform : (resetEngine s).platform = s.platform := rfl
@[simp] theorem resetEngine_running : (resetEngine s).running = none := rfl
@[simp] theorem resetEngine_inbox : (resetEngine s).inbox = s.inbox := rfl
@[simp] theorem resetEngine_responses : (resetEngine s).responses = s.responses := rfl
@[simp] theorem resetEngine_trace : (resetEngine s).trace = s.trace ++ [.reset] := rfl
@[simp] theorem resetEngine_draws : (resetEngine s).draws = s.draws := rfl
@[simp] theorem resetEngine_raced : (resetEngine s).raced = [] := rfl
@[simp] theorem resetEngine_fresh : (resetEngine s).fresh = [] := rfl
@[simp] theorem resetEngine_stale : (resetEngine s).stale = s.fresh ++ s.stale := rfl
@[simp] theorem resetEngine_toEngine : (resetEngine s).toEngine = Engine.reset := rfl

end Sys2Proof.Machine
end

