-- ==== Sys2Proof/Laws/Ops.lean ====
section
/-! SUPPORT. One lemma for each shared operation that says all it can do: first where nothing lands in the command
(`quiet`), then where outside events may land (`OutsideOnly`, and a reset). -/

namespace Sys2Proof.Machine

/-! ## Runs -/

@[simp] theorem Run.bind_ok {α β : Type} (a : α) (s : State) (f : α → State → Run β) :
    (Run.ok a s).bind f = f a s := rfl

@[simp] theorem Run.bind_ended {α β : Type} (s : State) (f : α → State → Run β) :
    (Run.ended s : Run α).bind f = .ended s := rfl

@[simp] theorem Run.state_ok {α : Type} (a : α) (s : State) : (Run.ok a s).state = s := rfl

@[simp] theorem Run.state_ended {α : Type} (s : State) : (Run.ended s : Run α).state = s := rfl

theorem Run.bind_assoc {α β γ : Type} (r : Run α) (f : α → State → Run β) (g : β → State → Run γ) :
    (r.bind f).bind g = r.bind fun a s => (f a s).bind g := by
  cases r <;> rfl

/-- A run that went on came through its first part. -/
theorem Run.of_bind_ok {α β : Type} {r : Run α} {f : α → State → Run β} {b : β} {t : State}
    (h : r.bind f = .ok b t) : ∃ a s, r = .ok a s ∧ f a s = .ok b t := by
  cases r with
  | ok a s => exact ⟨a, s, rfl, h⟩
  | ended s => exact nomatch h

/-- A run that ended did so in its first part or after it. -/
theorem Run.of_bind_ended {α β : Type} {r : Run α} {f : α → State → Run β} {t : State}
    (h : r.bind f = .ended t) : r = .ended t ∨ ∃ a s, r = .ok a s ∧ f a s = .ended t := by
  cases r with
  | ok a s => exact .inr ⟨a, s, rfl, h⟩
  | ended s => exact .inl (by simpa using h)

/-! ## Quiet slots -/

theorem quiet_congr {s t : State} (h : t.inbox = s.inbox) : quiet t = quiet s := by
  simp only [quiet, h]

/-- Nothing lands at a slot of a quiet state. -/
theorem land_quiet {s : State} (h : quiet s = true) (begun : Option (State → State)) :
    land begun s.inbox s = .ok () s := by
  unfold quiet at h
  split at h
  · rename_i hi
    rw [hi]; simp only [land]; rw [← hi]
  · rename_i x rest hi
    have hx : x.time = .whenIdle := by simpa using h
    rw [hi]; simp only [land, hx]; rw [← hi]

theorem slot_quiet {s : State} (h : quiet s = true) : slot s = .ok () s := land_quiet h none

theorem enter_quiet {s : State} (h : quiet s = true) (p : Phase) :
    enter p s = .ok () (logEvent (.enter p) (setPhase p s)) := slot_quiet h

/-! ## What the platform answers -/

theorem firstRefused_eq_none {p : Platform} {d : Dir} {a n : Nat} :
    firstRefused p d a n = none ↔ ∀ j, j < n → memOk p d (a + j) = true := by
  induction n generalizing a with
  | zero => simp [firstRefused]
  | succ n ih =>
    simp only [firstRefused]
    split
    · rename_i hok
      rw [ih]
      refine ⟨fun h j hj => ?_, fun h j hj => ?_⟩
      · cases j with
        | zero => simpa using hok
        | succ j => have := h j (by omega); rwa [show a + (j + 1) = a + 1 + j by omega]
      · have := h (j + 1) (by omega); rwa [show a + 1 + j = a + (j + 1) by omega]
    · rename_i hno
      refine ⟨fun h => absurd h (by simp), fun h => ?_⟩
      exact absurd (by simpa using h 0 (by omega)) hno

theorem firstRefused_eq_some {p : Platform} {d : Dir} {a n x : Nat} :
    firstRefused p d a n = some x ↔
      ∃ j, j < n ∧ x = a + j ∧ memOk p d (a + j) = false ∧ ∀ i, i < j → memOk p d (a + i) = true := by
  induction n generalizing a with
  | zero => simp [firstRefused]
  | succ n ih =>
    simp only [firstRefused]
    split
    · rename_i hok
      rw [ih]
      constructor
      · rintro ⟨j, hj, rfl, hf, hb⟩
        refine ⟨j + 1, by omega, by omega, by rwa [show a + (j + 1) = a + 1 + j by omega], fun i hi => ?_⟩
        cases i with
        | zero => simpa using hok
        | succ i => have := hb i (by omega); rwa [show a + (i + 1) = a + 1 + i by omega]
      · rintro ⟨j, hj, rfl, hf, hb⟩
        cases j with
        | zero => simp [hok] at hf
        | succ j =>
          refine ⟨j, by omega, by omega, by rwa [show a + 1 + j = a + (j + 1) by omega], fun i hi => ?_⟩
          have := hb (i + 1) (by omega); rwa [show a + 1 + i = a + (i + 1) by omega]
    · rename_i hno
      constructor
      · intro h
        simp only [Option.some.injEq] at h
        exact ⟨0, by omega, by omega, by simpa using hno, by omega⟩
      · rintro ⟨j, hj, rfl, hf, hb⟩
        cases j with
        | zero => rfl
        | succ j => exact absurd (hb 0 (by omega)) (by simpa using hno)

/-- The part of a write that can have landed: the bytes before the first refused one, or all of them. -/
theorem answeredPart_eq {p : Platform} {a k : Nat} {v : List Byte} (hk : k ≤ v.length)
    (h : ∀ j, j < k → memOk p .write (a + j) = true) (hf : k < v.length → memOk p .write (a + k) = false) :
    answeredPart p a v = v.take k := by
  unfold answeredPart
  rcases Nat.lt_or_ge k v.length with hl | hl
  · rw [firstRefused_eq_some.2 ⟨k, hl, rfl, hf hl, h⟩]; simp
  · obtain rfl : k = v.length := by omega
    rw [firstRefused_eq_none.2 h]; simp

/-- An answered region refuses no byte. -/
theorem firstRefused_answered {p : Platform} {d : Dir} {r : Region} (h : answered p d r) :
    firstRefused p d r.addr r.len = none := by
  rw [firstRefused_eq_none]
  intro j hj
  exact h _ (by simp [Region.contains]; omega)

/-- A region of which no byte is refused is answered: the computable form of `answered`. -/
theorem answered_of_firstRefused {p : Platform} {d : Dir} {r : Region} (h : firstRefused p d r.addr r.len = none) :
    answered p d r := by
  intro a ha
  have hb : r.addr ≤ a ∧ a < r.addr + r.len := by simpa [Region.contains] using ha
  have := firstRefused_eq_none.mp h (a - r.addr) (by omega)
  rwa [show r.addr + (a - r.addr) = a by omega] at this

/-- Regions one of which ends before the other begins share no byte. -/
theorem apart_of_le {r q : Region} (h : r.addr + r.len ≤ q.addr ∨ q.addr + q.len ≤ r.addr) : apart r q := by
  intro a ha
  simp only [Region.contains, Bool.and_eq_true, decide_eq_true_eq] at ha
  omega

/-! ## DMA in a quiet state -/

@[simp] theorem dmaBytes_length (s : State) (a n : Nat) : (dmaBytes s a n).length = n := by
  induction n generalizing a with
  | zero => rfl
  | succ n ih => simp [dmaBytes, ih]

@[simp] theorem dmaStoredBytes_length (s : State) (a : Nat) (v : List Byte) :
    (dmaStoredBytes s a v).length = v.length := by
  induction v generalizing a with
  | nil => rfl
  | cons x v ih => simp [dmaStoredBytes, ih]

/-- Without a race a DMA write leaves the bytes it was given. -/
theorem dmaStoredBytes_unraced {s : State} (h : s.raced = []) (a : Nat) (v : List Byte) :
    dmaStoredBytes s a v = v := by
  induction v generalizing a with
  | nil => rfl
  | cons x v ih => simp [dmaStoredBytes, dmaStored, h, ih]

/-- Without a race a DMA read of written bytes returns them. -/
theorem dmaBytes_load {s : State} (h : s.raced = []) {a n : Nat} {v : List Byte}
    (hl : Memory.load s.mem a n = some v) : dmaBytes s a n = v := by
  induction n generalizing a v with
  | zero => simpa [Memory.load, dmaBytes] using hl
  | succ n ih =>
    simp only [Memory.load] at hl
    split at hl
    · rename_i x xs hx hxs
      simp only [Option.some.injEq] at hl
      simp [dmaBytes, dmaByte, h, hx, ih hxs, hl]
    · exact absurd hl (by simp)

theorem dmaRead_zero (a : Nat) (s : State) : dmaRead a 0 s = .ok [] s := rfl

theorem dmaRead_quiet {s : State} (h : quiet s = true) (a n : Nat) :
    dmaRead a n s =
      if n = 0 then .ok [] s
      else match firstRefused s.platform .read a n with
        | some x => .ended (busFault x (logEvent (.read a n) s))
        | none => .ok (dmaBytes (logEvent (.read a n) s) a n) (nextDraw (logEvent (.read a n) s)) := by
  simp only [dmaRead]
  split
  · rfl
  · rw [land_quiet h]; rfl

theorem dmaWrite_nil (a : Nat) (s : State) : dmaWrite a [] s = .ok () s := rfl

theorem dmaWrite_quiet {s : State} (h : quiet s = true) (a : Nat) (v : List Byte) :
    dmaWrite a v s =
      if v.isEmpty then .ok () s
      else match firstRefused s.platform .write a v.length with
        | some x => .ended (busFault x (storeTorn a v (logEvent (.write a v.length) s)))
        | none => .ok () (storeAll a v (logEvent (.write a v.length) s)) := by
  simp only [dmaWrite]
  split
  · rfl
  · rw [land_quiet h]; rfl

/-! ## Acceptance -/

theorem issue_busy {s : State} (h : s.busy = true) (opc : Byte) (cmd : Option Instr) (body : State → Run Unit) :
    issue opc cmd body s = turnAway s := by
  simp [issue, h]

theorem issue_idle {s : State} (h : s.busy = false) (opc : Byte) (cmd : Option Instr) (body : State → Run Unit) :
    issue opc cmd body s = ((slot (accept opc cmd s)).bind fun _ t => body t).state := by
  simp [issue, h]

/-- A command accepted in a quiet state runs its body at once. -/
theorem issue_quiet {s : State} (h : idleQuiet s) (opc : Byte) (cmd : Option Instr) (body : State → Run Unit) :
    issue opc cmd body s = (body (accept opc cmd s)).state := by
  rw [issue_idle h.1, slot_quiet (by rw [quiet_congr (s := s) (accept_inbox s opc cmd)]; exact h.2)]; rfl

/-! ## Where outside events land -/

/-- The part of the state that no outside event but a reset touches while a command runs: all but answers, memory and
what is kept of it, the inbox, IRQ_EN and the write-one-to-clear bits of STATUS. -/
def engineOf (s : State) : State :=
  { s with inbox := [], responses := [], mem := [], draws := 0, raced := [], stale := [],
           doneIe := false, wrBusy := false, done := false }

/-- `t` comes from `s` by outside events that reset nothing. -/
structure OutsideOnly (s t : State) : Prop where
  same : engineOf t = engineOf s
  done : t.done = true → s.done = true
  wf : Memory.wf s.mem = true → Memory.wf t.mem = true

theorem OutsideOnly.refl (s : State) : OutsideOnly s s := ⟨rfl, id, id⟩

theorem OutsideOnly.trans {s t u : State} (h : OutsideOnly s t) (h' : OutsideOnly t u) : OutsideOnly s u := by
  exact ⟨h'.same.trans h.same, h.done ∘ h'.done, h'.wf ∘ h.wf⟩

/-- Putting a list into the inbox is an outside change. -/
theorem OutsideOnly.inbox (s : State) (l : List Arrival) : OutsideOnly s { s with inbox := l } := ⟨rfl, id, id⟩

theorem OutsideOnly.respond (s : State) (r : Response) : OutsideOnly s (respond r s) := ⟨rfl, id, id⟩

theorem OutsideOnly.nextDraw (s : State) : OutsideOnly s (nextDraw s) := ⟨rfl, id, id⟩

/-- A register write to a running engine changes WR_BUSY, IRQ_EN or the write-one-to-clear bits, or resets. -/
theorem writeReg_busy {s : State} (h : s.busy = true) (r : Reg) (v : Word) :
    OutsideOnly s (writeReg r v s) ∨ (r = .ctrl ∧ v.getLsbD 0 = true ∧ writeReg r v s = resetEngine s) := by
  unfold writeReg
  split
  · exact .inl ⟨rfl, id, id⟩
  · rename_i hp
    have hp : r.isProtected = false := by simpa [h] using hp
    cases r <;> simp only [Reg.isProtected, Bool.true_eq_false] at hp
    case ctrl =>
      by_cases hv : v.getLsbD 0 = true
      · exact .inr ⟨rfl, hv, if_pos hv⟩
      · have hs : storeReg .ctrl v s = s := if_neg hv
        rw [hs]; exact .inl (.refl s)
    case status => exact .inl ⟨rfl, fun hd => by simp [storeReg] at hd; exact hd.1, id⟩
    all_goals exact .inl ⟨rfl, id, id⟩

/-- Another agent's write leaves the engine alone. -/
theorem OutsideOnly.agentWrite (s : State) (a : Nat) (v : Byte) : OutsideOnly s (agentWrite a v s) := by
  unfold Machine.agentWrite
  split
  · exact ⟨rfl, id, fun h => Memory.wf_write h _ _⟩
  · exact ⟨rfl, id, fun h => Memory.wf_write h _ _⟩

/-- A discard touches nothing but what the host's caches may hold. -/
theorem OutsideOnly.cacheDiscard (s : State) (q : Region) : OutsideOnly s (hostEvent (.cacheDiscard q) s) := ⟨rfl, id, id⟩

/-- An outside event to a running engine leaves the engine alone or resets it. -/
theorem hostEvent_busy {s : State} (h : s.busy = true) (e : HostEvent) :
    OutsideOnly s (hostEvent e s) ∨ ∃ u, OutsideOnly s u ∧ hostEvent e s = resetEngine u := by
  cases e with
  | regRead addr width =>
    left; simp only [hostEvent]
    split <;> exact .respond s _
  | regWrite addr width data =>
    simp only [hostEvent]
    split
    · rename_i r _
      have hb : (respond .writeDone s).busy = true := h
      rcases writeReg_busy hb r data with h' | ⟨_, _, h'⟩
      · exact .inl ((OutsideOnly.respond s _).trans h')
      · exact .inr ⟨_, .respond s .writeDone, h'⟩
    · exact .inl (.respond s _)
    · exact .inl (.respond s _)
  | memRead who addr => exact .inl ((OutsideOnly.respond s _).trans (.nextDraw _))
  | memWrite addr v => exact .inl (.agentWrite s _ v)
  | cacheDiscard q => exact .inl (.cacheDiscard s q)
  | hardReset => exact .inr ⟨s, .refl s, rfl⟩
  | dmaStall => exact .inl (.refl s)

theorem OutsideOnly.busy_eq {s t : State} (h : OutsideOnly s t) : t.busy = s.busy := by
  have := congrArg (fun u : State => u.busy) h.same
  exact this

/-- What a slot leaves: the command goes on past outside events, or a reset has cut it off, or its access stalls. -/
theorem land_cases {s : State} (h : s.busy = true) (begun : Option (State → State)) (l : List Arrival) :
    (∃ t, land begun l s = .ok () t ∧ OutsideOnly s t) ∨
    (∃ u t x, OutsideOnly s u ∧ land begun l s = .ended t ∧
      ((t = hostEvent x u ∧ t.busy = false) ∨
        ∃ f, begun = some f ∧ ((t = hostEvent x (f u) ∧ (hostEvent x u).busy = false) ∨ t = f u))) := by
  induction l generalizing s with
  | nil => exact .inl ⟨_, rfl, .inbox s []⟩
  | cons x rest ih =>
    simp only [land]
    split
    · exact .inl ⟨_, rfl, .inbox s _⟩
    · exact .inl ⟨_, rfl, .inbox s _⟩
    · rename_i inside _
      have hu : OutsideOnly s { s with inbox := rest } := .inbox s rest
      have hb : ({ s with inbox := rest } : State).busy = true := h
      split
      · rename_i hst
        simp only [Bool.and_eq_true] at hst
        obtain ⟨f, hf⟩ := Option.isSome_iff_exists.mp hst.1
        exact .inr ⟨_, _, x.event, hu, rfl, .inr ⟨f, hf, .inr (by simp [hf])⟩⟩
      · split
        · rename_i hbusy
          rcases hostEvent_busy hb x.event with ho | ⟨u, hu', he⟩
          · rcases ih hbusy with ⟨t, ht, hot⟩ | ⟨u, t, y, ho', ht, hc⟩
            · exact .inl ⟨t, ht, (hu.trans ho).trans hot⟩
            · exact .inr ⟨u, t, y, (hu.trans ho).trans ho', ht, hc⟩
          · rw [he] at hbusy; simp at hbusy
        · rename_i hbusy
          have hbusy : (hostEvent x.event { s with inbox := rest }).busy = false := by simpa using hbusy
          refine .inr ⟨_, _, x.event, hu, rfl, ?_⟩
          cases inside with
          | false => exact .inl ⟨rfl, hbusy⟩
          | true =>
            cases begun with
            | none => exact .inl ⟨rfl, hbusy⟩
            | some f => exact .inr ⟨f, rfl, .inl ⟨rfl, hbusy⟩⟩

/-! ## The register window -/

/-- The list of the protected registers is the test that a write makes (10_state.md R43). -/
theorem mem_protectedRegs (r : Reg) : r ∈ protectedRegs ↔ r.isProtected = true := by
  cases r with
  | key i => revert i; decide
  | nonce i => revert i; decide
  | reserved n => revert n; decide
  | _ => decide

/-- Each register is found at its own offset. -/
theorem regAt_offset (r : Reg) : regAt r.offset = some r := by
  cases r with
  | key i => revert i; decide
  | nonce i => revert i; decide
  | reserved n => revert n; decide
  | _ => decide

theorem Reg.offset_lt (r : Reg) : r.offset < 256 := by
  cases r <;> simp only [Reg.offset] <;> omega

/-- In an aligned window no register's address wraps. -/
theorem busAddr_toNat {p : Platform} (h : windowAligned p) (r : Reg) :
    (busAddr p r).toNat = p.regBase.toNat + r.offset := by
  have := r.offset_lt
  have := p.regBase.isLt
  unfold windowAligned at h
  simp only [busAddr, BitVec.toNat_add, BitVec.toNat_ofNat]
  omega

/-- A 64-bit access at a register's address selects that register. -/
theorem select_busAddr {p : Platform} (h : windowAligned p) (r : Reg) : select p (busAddr p r) 64 = .reg r := by
  have := r.offset_lt
  simp only [select, busAddr_toNat h, Nat.add_sub_cancel_left, regAt_offset]
  rw [if_neg (by omega), if_neg (by simp)]

/-- An event that lands and leaves the command running: the command goes on from what it left. -/
theorem land_event {s : State} {e : HostEvent} {rest : List Arrival} (begun : Option (State → State)) (inside : Bool)
    (hs : e.isStall = false) (hb : (hostEvent e { s with inbox := rest }).busy = true) :
    land begun (⟨.slot 0 inside, e⟩ :: rest) s = land begun rest (hostEvent e { s with inbox := rest }) := by
  simp only [land, hs, Bool.and_false, Bool.false_eq_true, if_false, hb, if_true]

/-- An event that lands and ends the command, which only a reset does: an access it cuts short has left its part. -/
theorem land_ended {s : State} {e : HostEvent} {rest : List Arrival} (begun : Option (State → State)) (inside : Bool)
    (hs : e.isStall = false) (hb : (hostEvent e { s with inbox := rest }).busy = false) :
    land begun (⟨.slot 0 inside, e⟩ :: rest) s =
      .ended (hostEvent e (if inside then begun.getD id { s with inbox := rest } else { s with inbox := rest })) := by
  simp only [land, hs, Bool.and_false, Bool.false_eq_true, if_false, hb]

/-- An event that is no CMD write and no stall, and that leaves a running command running, acts as `hostEvent` says, at a step
and at a slot. -/
theorem takesTo_hostEvent {s : State} {e : HostEvent} {rest : List Arrival} (hc : cmdWord? s.platform e = none)
    (hs : e.isStall = false) (hb : s.busy = true → (hostEvent e { s with inbox := rest }).busy = true) :
    takesTo s e rest (hostEvent e { s with inbox := rest }) := by
  refine ⟨?_, fun h begun inside => land_event begun inside hs (hb h)⟩
  rintro ⟨w, hi⟩
  simp only [step, hi, hc]

/-! ## Another agent's accesses -/

/-- What a write conflicts with: a running command that reads or writes its byte. -/
theorem conflicts_eq_true {s : State} {a : Nat} :
    conflicts s a = true ↔ s.busy = true ∧ ∃ r ∈ readRegions s ++ writeRegions s, r.contains a = true := by
  simp only [conflicts, Bool.and_eq_true, List.any_eq_true]

/-- The regions of the running command are those that its registers name. -/
theorem runningRegions_any {s : State} {i : Instr} (h : s.running = some i) (a : Nat) :
    (readRegions s ++ writeRegions s).any (fun r => r.contains a) = (touchedRegions i s).any fun r => r.contains a := by
  have he : (s.out 0).contains a = false := Bool.eq_false_iff.mpr fun hc => by
    unfold Region.contains State.out at hc
    simp only [Bool.and_eq_true, decide_eq_true_eq] at hc
    omega
  cases i <;> simp [readRegions, writeRegions, touchedRegions, inputRegions, outputRegion, h, he]

theorem agentWrite_free {s : State} {a : Nat} (h : conflicts s a = false) (v : Byte) :
    agentWrite a v s = { s with mem := Memory.write s.mem a v } := by
  simp only [agentWrite, h, Bool.false_eq_true, if_false]

theorem agentWrite_conflict {s : State} {a : Nat} (h : conflicts s a = true) (v : Byte) :
    agentWrite a v s =
      nextDraw { s with mem := Memory.write s.mem a (Config.racedByte s.draws a), raced := a :: s.raced } := by
  simp only [agentWrite, h, if_true]

/-- What is left of a region holds the bytes that the other region does not. -/
theorem Region.any_minus (r q : Region) (a : Nat) :
    ((r.minus q).any fun x => x.contains a) = (r.contains a && !q.contains a) := by
  rw [Bool.eq_iff_iff]
  simp only [Region.minus, List.any_eq_true, List.mem_filter, List.mem_cons, List.not_mem_nil, or_false, bne_iff_ne, ne_eq,
    Region.contains, Bool.and_eq_true, decide_eq_true_eq, Bool.not_eq_true', Bool.and_eq_false_iff, decide_eq_false_iff_not]
  constructor
  · rintro ⟨x, ⟨rfl | rfl, -⟩, h⟩ <;> simp only at h <;> omega
  · rintro ⟨h, hq⟩
    by_cases hl : a < q.addr
    · exact ⟨_, ⟨.inl rfl, by simp only; omega⟩, by simp only; omega⟩
    · exact ⟨_, ⟨.inr rfl, by simp only; omega⟩, by simp only; omega⟩

/-- A discard takes its bytes, and no others, off the stale ranges. -/
theorem any_flatMap_minus (l : List Region) (q : Region) (a : Nat) :
    ((l.flatMap fun r => r.minus q).any fun x => x.contains a) = ((l.any fun r => r.contains a) && !q.contains a) := by
  induction l with
  | nil => rfl
  | cons r l ih => rw [List.flatMap_cons, List.any_append, ih, Region.any_minus, List.any_cons, Bool.and_or_distrib_right]

/-- Where nothing frees it, another agent's read of a written byte answers the byte. -/
theorem hostByteAt_written {who : Reader} {s : State} {a : Nat} {v : Byte} (h : hostReadOpen who s a = false)
    (hv : Memory.read s.mem a = some v) : hostByteAt who s a = v := by
  simp only [hostByteAt, h, Bool.false_eq_true, if_false, hv]

/-! ## Slots and accesses of a running command, whatever lands in them -/

/-- The outside events that reset the engine (70_reset_and_hazards.md R240, R241). -/
def isReset (p : Platform) (e : HostEvent) : Prop :=
  match e with
  | .hardReset => True
  | .regWrite addr width data => select p addr width = .reg .ctrl ∧ data.getLsbD 0 = true
  | _ => False

theorem hostEvent_of_reset {s : State} {e : HostEvent} (hr : isReset s.platform e) :
    ∃ u, OutsideOnly s u ∧ hostEvent e s = resetEngine u := by
  cases e with
  | hardReset => exact ⟨s, .refl s, rfl⟩
  | regWrite addr width data =>
    obtain ⟨hs, hd⟩ := hr
    refine ⟨respond .writeDone s, .respond s _, ?_⟩
    simp only [hostEvent, hs, writeReg, Reg.isProtected, Bool.false_and, Bool.false_eq_true, if_false, storeReg, if_pos hd]
  | _ => exact absurd hr id

theorem hostEvent_no_reset {s : State} {e : HostEvent} (h : s.busy = true) (hr : ¬ isReset s.platform e) :
    OutsideOnly s (hostEvent e s) := by
  cases e with
  | regRead addr width => simp only [hostEvent]; split <;> exact .respond s _
  | regWrite addr width data =>
    simp only [hostEvent]
    split
    · rename_i r hs
      rcases writeReg_busy (s := respond .writeDone s) h r data with h' | ⟨rfl, hd, _⟩
      · exact (OutsideOnly.respond s _).trans h'
      · exact absurd ⟨hs, hd⟩ hr
    · exact .respond s _
    · exact .respond s _
  | memRead who addr => exact (OutsideOnly.respond s _).trans (.nextDraw _)
  | memWrite addr v => exact .agentWrite s _ v
  | cacheDiscard q => exact .cacheDiscard s q
  | hardReset => exact absurd trivial hr
  | dmaStall => exact .refl s

/-- An event clears BUSY exactly where it resets the engine. -/
theorem isReset_of_not_busy {s : State} {e : HostEvent} (h : s.busy = true) (hb : (hostEvent e s).busy = false) :
    isReset s.platform e := by
  by_contra hr
  rw [(hostEvent_no_reset h hr).busy_eq, h] at hb
  exact absurd hb (by simp)

theorem OutsideOnly.platform_eq {s t : State} (h : OutsideOnly s t) : t.platform = s.platform := by
  have := congrArg State.platform h.same
  exact this

/-- A slot at which no access begins: the command goes on, or a reset has cut it off. -/
theorem slot_cases {s : State} (h : s.busy = true) :
    (∃ t, slot s = .ok () t ∧ OutsideOnly s t) ∨ ∃ u, OutsideOnly s u ∧ slot s = .ended (resetEngine u) := by
  rcases land_cases h none s.inbox with ht | ⟨u, t, x, hu, ht, ⟨rfl, hb⟩ | ⟨f, hf, -⟩⟩
  · exact .inl ht
  · have hub : u.busy = true := by rw [hu.busy_eq, h]
    obtain ⟨w, hw, he⟩ := hostEvent_of_reset (isReset_of_not_busy hub hb)
    exact .inr ⟨w, hu.trans hw, by rw [slot, ht, he]⟩
  · exact nomatch hf

theorem enter_cases {s : State} (h : s.busy = true) (p : Phase) :
    (∃ t, enter p s = .ok () t ∧ OutsideOnly (logEvent (.enter p) (setPhase p s)) t) ∨
    ∃ u, OutsideOnly (logEvent (.enter p) (setPhase p s)) u ∧ enter p s = .ended (resetEngine u) := slot_cases h

/-- The slot of an access whose cut-short form is `f`: the access goes on, or a reset lands before it or in it, or it
stalls. -/
theorem access_cases {s : State} (h : s.busy = true) (f : State → State)
    (hf : ∀ u, (f u).platform = u.platform) :
    ∃ u, OutsideOnly s u ∧
      (land (some f) s.inbox s = .ok () u ∨ land (some f) s.inbox s = .ended (resetEngine u) ∨
        (∃ w, OutsideOnly (f u) w ∧ land (some f) s.inbox s = .ended (resetEngine w)) ∨
        land (some f) s.inbox s = .ended (f u)) := by
  rcases land_cases h (some f) s.inbox with ⟨t, ht, ho⟩ | ⟨u, t, x, hu, ht, hc⟩
  · exact ⟨t, ho, .inl ht⟩
  · have hub : u.busy = true := by rw [hu.busy_eq, h]
    rcases hc with ⟨rfl, hb⟩ | ⟨g, hg, ⟨rfl, hb⟩ | rfl⟩
    · obtain ⟨w, hw, he⟩ := hostEvent_of_reset (isReset_of_not_busy hub hb)
      exact ⟨w, hu.trans hw, .inr (.inl (by rw [ht, he]))⟩
    · obtain rfl : f = g := by simpa using hg
      obtain ⟨w, hw, he⟩ := hostEvent_of_reset (s := f u) (e := x)
        (by rw [hf u]; exact isReset_of_not_busy hub hb)
      exact ⟨u, hu, .inr (.inr (.inl ⟨w, hw, by rw [ht, he]⟩))⟩
    · obtain rfl : f = g := by simpa using hg
      exact ⟨u, hu, .inr (.inr (.inr ht))⟩

/-- All that a DMA read of a running command can do: answer, fault, be cut off by a reset before or after it begins, stall. -/
theorem dmaRead_cases {s : State} (h : s.busy = true) (a : Nat) {n : Nat} (hn : n ≠ 0) :
    ∃ u, OutsideOnly s u ∧
      ((firstRefused s.platform .read a n = none ∧
          dmaRead a n s = .ok (dmaBytes (logEvent (.read a n) u) a n) (nextDraw (logEvent (.read a n) u))) ∨
        (∃ x, firstRefused s.platform .read a n = some x ∧ dmaRead a n s = .ended (busFault x (logEvent (.read a n) u))) ∨
        dmaRead a n s = .ended (resetEngine u) ∨
        (∃ w, OutsideOnly (logEvent (.read a n) u) w ∧ dmaRead a n s = .ended (resetEngine w)) ∨
        dmaRead a n s = .ended (logEvent (.read a n) u)) := by
  obtain ⟨u, hu, hl | hl | ⟨w, hw, hl⟩ | hl⟩ := access_cases h (logEvent (.read a n)) (fun _ => rfl)
  · refine ⟨u, hu, ?_⟩
    have hp : (logEvent (.read a n) u).platform = s.platform := hu.platform_eq
    cases hr : firstRefused s.platform .read a n with
    | none => exact .inl ⟨rfl, by simp only [dmaRead, if_neg hn, hl, Run.bind_ok, hp, hr]⟩
    | some x => exact .inr (.inl ⟨x, rfl, by simp only [dmaRead, if_neg hn, hl, Run.bind_ok, hp, hr]⟩)
  · exact ⟨u, hu, .inr (.inr (.inl (by simp only [dmaRead, if_neg hn, hl, Run.bind_ended])))⟩
  · exact ⟨u, hu, .inr (.inr (.inr (.inl ⟨w, hw, by simp only [dmaRead, if_neg hn, hl, Run.bind_ended]⟩)))⟩
  · exact ⟨u, hu, .inr (.inr (.inr (.inr (by simp only [dmaRead, if_neg hn, hl, Run.bind_ended]))))⟩

/-- All that a DMA write of a running command can do: land whole, tear and fault, be cut off by a reset before it begins or
torn by one in it, stall torn. -/
theorem dmaWrite_cases {s : State} (h : s.busy = true) (a : Nat) {v : List Byte} (hv : v.isEmpty = false) :
    ∃ u, OutsideOnly s u ∧
      ((firstRefused s.platform .write a v.length = none ∧
          dmaWrite a v s = .ok () (storeAll a v (logEvent (.write a v.length) u))) ∨
        (∃ x, firstRefused s.platform .write a v.length = some x ∧
          dmaWrite a v s = .ended (busFault x (storeTorn a v (logEvent (.write a v.length) u)))) ∨
        dmaWrite a v s = .ended (resetEngine u) ∨
        (∃ w, OutsideOnly (storeTorn a v (logEvent (.write a v.length) u)) w ∧ dmaWrite a v s = .ended (resetEngine w)) ∨
        dmaWrite a v s = .ended (storeTorn a v (logEvent (.write a v.length) u))) := by
  have hv' : ¬ v.isEmpty = true := by simp [hv]
  obtain ⟨u, hu, hl | hl | ⟨w, hw, hl⟩ | hl⟩ :=
    access_cases h (fun s => storeTorn a v (logEvent (.write a v.length) s)) (fun _ => rfl)
  · refine ⟨u, hu, ?_⟩
    have hp : (logEvent (.write a v.length) u).platform = s.platform := hu.platform_eq
    cases hr : firstRefused s.platform .write a v.length with
    | none => exact .inl ⟨rfl, by simp only [dmaWrite, if_neg hv', hl, Run.bind_ok, hp, hr]⟩
    | some x => exact .inr (.inl ⟨x, rfl, by simp only [dmaWrite, if_neg hv', hl, Run.bind_ok, hp, hr]⟩)
  · exact ⟨u, hu, .inr (.inr (.inl (by simp only [dmaWrite, if_neg hv', hl, Run.bind_ended])))⟩
  · exact ⟨u, hu, .inr (.inr (.inr (.inl ⟨w, hw, by simp only [dmaWrite, if_neg hv', hl, Run.bind_ended]⟩)))⟩
  · exact ⟨u, hu, .inr (.inr (.inr (.inr (by simp only [dmaWrite, if_neg hv', hl, Run.bind_ended]))))⟩

end Sys2Proof.Machine
end

