-- ==== Sys2Proof/Laws/PerInstr.lean ====
section
/-! SUPPORT. Statements made of every command one by one: its word against its row of spec/opcode_table.json. -/

namespace Sys2Proof.Laws.OpcodeTable

open Sys2Proof

/-- The row's "match" (30_encoding.md R105). -/
def rowMatch : Instr → Word
  | .nop => 0x0000000000000000
  | .sealMsg => 0x0000000000000001
  | .openMsg => 0x0000000000000002
  | .permute _ => 0x0000000000000003
  | .erase => 0x0000000000000004

/-- The row's "mask" (30_encoding.md R105). -/
def rowMask : Instr → Word
  | .nop => 0xFFFFFFFFFFFFFFFF
  | .sealMsg => 0xFFFFFFFFFFFFFFFF
  | .openMsg => 0xFFFFFFFFFFFFFFFF
  | .permute _ => 0xFFFFFFFFFFFF00FF
  | .erase => 0xFFFFFFFFFFFFFFFF

/-- The word of a command that can be written matches its row, and its three fields are the command's
(30_encoding.md R100, R105). -/
def Statement (i : Instr) : Prop :=
  i.wf = true →
    encode i &&& rowMask i = rowMatch i ∧ opcField (encode i) = i.opcode ∧ argField (encode i) = i.arg ∧
      rsvField (encode i) = 0

theorem nop : Statement .nop := by unfold Statement; decide

theorem sealMsg : Statement .sealMsg := by unfold Statement; decide

theorem openMsg : Statement .openMsg := by unfold Statement; decide

/-- The fields of PERMUTE's word, for any ARG byte. -/
theorem permute_fields (a : Byte) :
    let w : Word := (0 : BitVec 48) ++ a ++ (0x03 : Byte)
    w &&& 0xFFFFFFFFFFFF00FF = 0x0000000000000003 ∧ w.extractLsb' 0 8 = 0x03#8 ∧ w.extractLsb' 8 8 = a ∧
      w.extractLsb' 16 48 = 0 := by
  revert a
  decide +kernel

theorem permute (rounds : Nat) : Statement (.permute rounds) :=
  fun _ => permute_fields (BitVec.ofNat 8 rounds)

theorem erase : Statement .erase := by unfold Statement; decide

end Sys2Proof.Laws.OpcodeTable
end

