-- ==== Sys2Proof/Tests/Slice0.lean ====
section
/-! SUPPORT. Small tests: ill-formed terms, words written out from the spec, the spec's vectors and end states
(95_test_vectors.md), accesses that arrive during a command, and for each statement that has hypotheses a witness that meets
them. -/

namespace Sys2Proof.Tests

open Sys2Proof Sys2Proof.Machine

/- One theorem at a time: side by side, their threads' stacks take most of the memory a check allows. -/
set_option Elab.async false

/-! ## Helpers -/

/-- The test key, bytes 0x00 to 0x1F (95_test_vectors.md, Conventions). -/
def testKey : Quad := #v[0x0706050403020100, 0x0F0E0D0C0B0A0908, 0x1716151413121110, 0x1F1E1D1C1B1A1918]

/-- The test nonce, bytes 0x20 to 0x3F (95_test_vectors.md, Conventions). -/
def testNonce : Quad := #v[0x2726252423222120, 0x2F2E2D2C2B2A2928, 0x3736353433323130, 0x3F3E3D3C3B3A3938]

/-- The words 0, 1, .., 15. -/
def iota16 : Sponge := #v[0, 1, 2, 3, 4, 5, 6, 7, 8, 9, 10, 11, 12, 13, 14, 15]

/-- The `n` bytes of a byte string written as one number, first byte first, as 95_test_vectors.md writes them. -/
def hex (n x : Nat) : List Byte := (List.range n).map fun i => BitVec.ofNat 8 (x / 256 ^ (n - 1 - i))

/-- The bytes 0, 1, .., n-1. -/
def upTo (n : Nat) : List Byte := (List.range n).map (BitVec.ofNat 8)

/-- Memory that holds `b` at `a` and nothing else. -/
def cells (a : Nat) (b : List Byte) : Memory := (List.range b.length).map fun i => (a + i, b.getD i 0)

/-- After reset, with the test key and nonce loaded and CONFIG = R. -/
def loaded (R : BitVec 4) : State :=
  { State.reset with rounds := R, key := testKey, keyMask := 0xF, nonce := testNonce, nonceMask := 0xF }

/-- The state `exec` answers. -/
def run (i : Instr) (s : State) : State :=
  match exec i s with
  | .next t => t
  | _ => s

/-- The state `step` answers. -/
def stepped (s : State) : State :=
  match step s with
  | .next t => t
  | _ => s

/-- The step stopped because its command is stuck. -/
def isStalled : Host.Outcome State Fault Refusal → Bool
  | .fault .dmaStalled => true
  | _ => false

/-- `s` with one access about to arrive. -/
def offer (e : HostEvent) (s : State) : State := { s with inbox := [⟨.whenIdle, e⟩] }

/-- A write of register `r`. -/
def write (r : Reg) (v : Word) : HostEvent := .regWrite (busAddr resetPlatform r) 64 v

/-- A read of register `r`. -/
def read (r : Reg) : HostEvent := .regRead (busAddr resetPlatform r) 64

/-- The platform that refuses one range. -/
def refusing (r : RefusedRange) : Platform := { resetPlatform with refused := [r] }

/-! ## Ill-formed commands are refused -/

theorem test_wf_refuses_256_rounds : (Instr.permute 256).wf = false := by decide

theorem test_wf_accepts_255_rounds : (Instr.permute 255).wf = true := by decide

theorem test_assembler_refuses_256_rounds :
    assemble resetPlatform [.permute 256] = none ∧ (assemble resetPlatform [.permute 255]).isSome = true := by decide

/-! ## Decoding: 95_test_vectors.md L2.12, words from the format of 30_encoding.md R100 -/

theorem test_decode_nop : decode 0x0000000000000000 = .command .nop := by decide

theorem test_decode_seal : decode 0x0000000000000001 = .command .sealMsg := by decide

theorem test_decode_open : decode 0x0000000000000002 = .command .openMsg := by decide

theorem test_decode_permute :
    decode 0x0000000000000003 = .command (.permute 0) ∧ decode 0x000000000000FF03 = .command (.permute 255) := by decide

theorem test_decode_erase : decode 0x0000000000000004 = .command .erase := by decide

theorem test_decode_illegal :
    decode 0x00000000000000FF = .illegal .unknownOpcode ∧ decode 0x0000000000000100 = .illegal .argNotZero ∧
    decode 0x0000000000010000 = .illegal .reservedNotZero := by decide

theorem test_decode_bytes :
    decodeBytes [0x03, 0x02, 0, 0, 0, 0, 0, 0] = .command (.permute 2) ∧
    decodeBytes [0x03, 0x02] = .illegal .notEightBytes := by decide

theorem test_decode_table_word :
    decodeTableWord 64 0x203 = some (.permute 2) ∧ decodeTableWord 8 0x04 = some .erase ∧
    decodeTableWord 64 0x105 = none := by decide

/-- 30_encoding.md R108, R109: `permute 2` is a write of CMD, then the poll of STATUS; `ack` writes 0x12. -/
theorem test_assemble :
    assemble resetPlatform [.permute 2, .ack] =
      some [⟨.whenIdle, .regWrite 0x10 64 0x203⟩, ⟨.whenIdle, .regRead 0x18 64⟩, ⟨.whenIdle, .regWrite 0x18 64 0x12⟩] := by
  decide

/-! ## The permutation and the codec: 95_test_vectors.md L2 -/

/-- L2.1. -/
theorem test_H :
    H 1 1 = 2 ∧ H 0xFFFFFFFFFFFFFFFF 1 = 0xFFFFFFFFFFFFFFFC ∧
    H 0x0123456789ABCDEF 0xFEDCBA9876543210 = 0xFFFFFFFFFFFFFFFF := by decide

/-- L2.2. -/
theorem test_rotr : rotr 0x8000000000000000 19 = 0x0000100000000000 := by decide

/-- L2.3. -/
theorem test_G :
    (G 0 4 8 12 iota16)[0] = 0x0001810000000004 ∧ (G 0 4 8 12 iota16)[4] = 0x1003020008100312 ∧
    (G 0 4 8 12 iota16)[8] = 0x0800000004080189 ∧ (G 0 4 8 12 iota16)[12] = 0x0000000004080181 := by decide +kernel

/-- L2.3, F(1) and F(4): first and last words, and one that only the diagonals of its round reach late. -/
theorem test_F :
    (F 1 iota16)[0] = 0x1173B5EEAC5E7899 ∧ (F 1 iota16)[15] = 0x6D6C50639B8805B5 ∧
    (F 4 iota16)[0] = 0xF4350DFAF9A8E660 ∧ (F 4 iota16)[15] = 0x0DFE7DBF8CC878D3 := by decide +kernel

/-- 41_block_codec.md R142: the constants are the words 8..15 of F(2) on (0, 1, .., 15). -/
theorem test_init_constants : ∀ i : Fin 8, initConstants[i] = (F 2 iota16)[i.val + 8] := by decide +kernel

/-- L2.4. -/
theorem test_initialize_r4 :
    initSponge testKey testNonce 4 =
      #v[0xED1C05E4E034B18B, 0xA98C191C6015FA6D, 0x288C3313ACF5E185, 0x94E37DCA8C2B520F,
         0x841D5FBE319581DE, 0x6BA9AE4E997C10DF, 0x9ACC31C63498AAB8, 0xBC4F4AA085B8FAD9,
         0x24A958D377B4FBBF, 0x8DDB5DC488A3A710, 0x7F776980AAA321EF, 0x4D4C321A44EE66D9,
         0xC6439632673FBDC2, 0x950244CDFEAEA45E, 0xEB8B0AFF16BEDBE0, 0x68A7A80B2838111F] := by decide +kernel

/-- L2.10. -/
theorem test_pad :
    pad [] = 0x01 :: zeros 94 ++ [0x80] ∧ pad (zeros 94) = zeros 94 ++ [0x01, 0x80] ∧
    pad (zeros 95) = zeros 95 ++ [0x81] := by decide +kernel

/-- The state of L2.4. -/
def initialized : Sponge := initSponge testKey testNonce 4

/-- L2.9's round trip for a one-byte tail. The ciphertext byte 0x20 is that of L2.7 (SKIP_EMPTY_PHASE = true), where the payload
follows `initialize` directly; L2.9's own byte 0x7A disagrees with L2.7 and with the rules (log 21). -/
theorem test_tail_round_trip :
    (encryptLast 4 [0x00] initialized).1 = [0x20] ∧ (decryptLast 4 [0x20] initialized).1 = [0x00] ∧
    (decryptLast 4 [0x20] initialized).2 = (encryptLast 4 [0x00] initialized).2 := by decide +kernel

/-! ## One step of each command: 95_test_vectors.md L3 -/

/-- P11. -/
theorem test_nop : statusWord (run .nop State.reset) = 0x0000000000000002 ∧ (run .nop State.reset).outLen = 0 := by decide

/-- P10. -/
theorem test_erase :
    statusWord (loaded 4) = 0x0000000000FF0000 ∧ statusWord (run .erase (loaded 4)) = 0x0000000400000002 ∧
    readReg (.nonce 0) (run .erase (loaded 4)) = 0 ∧ (run .erase (loaded 4)).key = #v[0, 0, 0, 0] := by decide

/-- P1, with OUT below IN. -/
def p1 : State :=
  { State.reset with mem := cells 0x1000 (spongeBytes iota16), inAddr := 0x1000, outAddr := 0x800 }

theorem test_permute :
    statusWord (run (.permute 2) p1) = 0x0000000300000002 ∧ (run (.permute 2) p1).outLen = 128 ∧
    Memory.load (run (.permute 2) p1).mem 0x800 8 = some (hex 8 0x79df912b7724d3e4) ∧
    Memory.load (run (.permute 2) p1).mem 0x878 8 = some (hex 8 0x01156f53e86a0286) := by decide +kernel

/-- P9. -/
def p9 : State :=
  { State.reset with
    mem := cells 0x1000 (zeros 128), inAddr := 0x1000, outAddr := 0x2000, key := testKey, keyMask := 0xF,
    platform := refusing ⟨0x2040, 2 ^ 64, false, true⟩ }

theorem test_permute_refused_write :
    statusWord (run (.permute 4) p9) = 0x00000003000F0602 ∧ (run (.permute 4) p9).faultAddr = 0x2040 ∧
    (run (.permute 4) p9).key = testKey := by decide +kernel

/-- L2.7, the one-byte plaintext under SKIP_EMPTY_PHASE = true, with P7-like addresses. -/
def oneByte : State :=
  { loaded 4 with
    mem := cells 0x200 [0x00], inAddr := 0x200, inLen := 1, outAddr := 0x100,
    platform := { resetPlatform with skipEmptyPhase := true } }

theorem test_seal :
    statusWord (run .sealMsg oneByte) = 0x0000000100000002 ∧ (run .sealMsg oneByte).outLen = 33 ∧
    Memory.load (run .sealMsg oneByte).mem 0x100 33 =
      some (hex 33 0x2070b96aaf4c8ec8e3a4ed285ce11352256eff002780f3cc6fa4e0be066acb8ba1) ∧
    (permutesOf (run .sealMsg oneByte).trace).length = 4 := by decide +kernel

/-- P7. -/
def p7 : State :=
  { loaded 4 with
    mem := cells 0x200 (zeros 96), inAddr := 0x200, inLen := 100, outAddr := 0x400,
    platform := refusing ⟨0x260, 0xA0, true, true⟩ }

theorem test_seal_refused_read :
    statusWord (run .sealMsg p7) = 0x0000000100000602 ∧ (run .sealMsg p7).faultAddr = 0x260 ∧
    dmaOf (run .sealMsg p7).trace = [.read 0x200 96, .write 0x400 96, .read 0x260 4] := by decide +kernel

/-- P12 with SKIP_EMPTY_PHASE = true and the tag of L2.7 row 3. -/
def tagOnly : State :=
  { loaded 4 with
    mem := cells 0x3000 (hex 32 0x7ca991ffaa25f7e2dfd5edb3b2b5d315160c4102769bdab3758b5fe003ed35d4),
    inAddr := 0x3000, inLen := 32, outAddr := 0x3100, platform := { resetPlatform with skipEmptyPhase := true } }

theorem test_open :
    statusWord (run .openMsg tagOnly) = 0x0000000200000006 ∧ (run .openMsg tagOnly).outLen = 0 := by decide +kernel

/-- A forged message: OUT is zeroed (42_orchestrator.md R177), key and nonce are gone. -/
def forged : State :=
  { loaded 4 with
    mem := cells 0x400 (zeros 35), inAddr := 0x400, inLen := 35, outAddr := 0x200,
    platform := { resetPlatform with skipEmptyPhase := true } }

theorem test_open_forged :
    statusWord (run .openMsg forged) = 0x000000020000000A ∧ (run .openMsg forged).outLen = 0 ∧
    Memory.load (run .openMsg forged).mem 0x200 4 = none ∧
    Memory.load (run .openMsg forged).mem 0x200 3 = some [0, 0, 0] ∧
    (run .openMsg forged).keyMask = 0 := by decide +kernel

/-- P8 on a loaded key: a SEAL word with ARG 1 keeps it (60_exceptions.md R216). -/
theorem test_illegal_word :
    statusWord (stepped (offer (write .cmd 0x105) State.reset)) = 0x0000000500000102 ∧
    statusWord (stepped (offer (write .cmd 0x101) (loaded 4))) = 0x0000000100FF0102 := by decide

/-- A word placed by `withFetchWord` runs as the first command after reset. -/
theorem test_first_command :
    statusWord (stepped (State.reset.withFetchWord 64 0x1)) = 0x0000000100000202 ∧
    statusWord (stepped (State.reset.withFetchWord 64 0x4)) = 0x0000000400000002 := by decide

/-! ## Accesses that arrive during a command -/

/-- A SEAL whose PAYLOAD phase a host read of STATUS meets: the last row of 95_test_vectors.md L2.13. -/
theorem test_status_while_sealing :
    (run .sealMsg { loaded 4 with inbox := [⟨.slot 3 false, read .status⟩] }).responses =
      [.readData 0x0000000103FF0001] := by decide +kernel

/-- A CONFIG write that meets a running command is dropped and sets WR_BUSY (10_state.md R43). -/
theorem test_write_while_busy :
    statusWord (run .erase { loaded 4 with inbox := [⟨.slot 1 false, write .config 6⟩] }) = 0x0000000400000012 ∧
    (run .erase { loaded 4 with inbox := [⟨.slot 1 false, write .config 6⟩] }).rounds = 4 := by decide

/-- A soft reset at the slot before PERMUTE's write, the access not begun: nothing is written and nothing completes
(70_reset_and_hazards.md R241). -/
def resetBeforeWrite : State := { p1 with inbox := [⟨.slot 3 false, write .ctrl 1⟩] }

theorem test_soft_reset_in_a_command :
    statusWord (run (.permute 2) resetBeforeWrite) = 0 ∧ (run (.permute 2) resetBeforeWrite).inAddr = 0 ∧
    Memory.load (run (.permute 2) resetBeforeWrite).mem 0x800 1 = none ∧
    completionsOf (run (.permute 2) resetBeforeWrite).trace = 0 := by decide +kernel

/-- PERMUTE whose read is never answered (60_exceptions.md R224). -/
def stalls : State := { p1 with inbox := [⟨.slot 2 true, .dmaStall⟩] }

/-- The engine stuck in it. -/
def stuck : State := run (.permute 2) stalls

theorem test_stall :
    statusWord stuck = 0x0000000307000001 ∧ isStalled (step stuck) = true ∧
    statusWord (stepped (offer (write .ctrl 1) stuck)) = 0 := by decide +kernel

/-- A PERMUTE is running. -/
def reading : State := { State.reset with busy := true, running := some (.permute 2), inAddr := 0x1000 }

/-- A write of another agent to a byte the running command reads is a race: the byte is worth anything
(20_memory.md R85). -/
theorem test_race : (hostEvent (.memWrite 0x1000 7) reading).raced = [0x1000] ∧
    Memory.read (hostEvent (.memWrite 0x1000 7) reading).mem 0x1000 = some (Config.racedByte 0 0x1000) :=
  ⟨by decide, rfl⟩

/-- 20_memory.md R89: a discard takes its region off what ended commands have written, idle or busy, and leaves what the running
command has written (log 6). -/
theorem test_cache_discard :
    let s : State := { reading with stale := [⟨0x800, 8⟩, ⟨0x900, 4⟩], fresh := [⟨0x800, 2⟩] }
    (hostEvent (.cacheDiscard ⟨0x802, 3⟩) s).stale = [⟨0x800, 2⟩, ⟨0x805, 3⟩, ⟨0x900, 4⟩] ∧
    (hostEvent (.cacheDiscard ⟨0, 2 ^ 64⟩) s).stale = [] ∧ (hostEvent (.cacheDiscard ⟨0, 2 ^ 64⟩) s).fresh = [⟨0x800, 2⟩] ∧
    (complete .noError (hostEvent (.cacheDiscard ⟨0, 2 ^ 64⟩) s)).stale = [⟨0x800, 2⟩] := by decide

/-- 20_memory.md R81, R89: another agent reads what an ended command wrote; the host does once it has discarded the region. -/
theorem test_stale_read :
    let s : State := { State.reset with mem := [(0x800, 7)], stale := [⟨0x800, 8⟩] }
    hostByteAt .other s 0x800 = 7 ∧ hostByteAt .host s 0x800 = Config.hostByte 0 0x800 ∧
    hostByteAt .host (hostEvent (.cacheDiscard ⟨0x800, 8⟩) s) 0x800 = 7 := ⟨rfl, rfl, rfl⟩

/-- A tail block stands padded in BLK while it is encrypted, rebuilt while it is decrypted (10_state.md R28, 41_block_codec.md
R144, R153). -/
theorem test_tail_block :
    cryptTailBlock .enc 4 [0x00] initialized = pad [0x00] ∧
    rateBytes (xorRate (cryptTailBlock .dec 4 [0x20] initialized) (F 4 (injectTag .payload initialized))) = pad [0x00] := by
  decide +kernel

/-- Only the bytes before the first refused one of a write can have landed (20_memory.md R77). -/
theorem test_answered_part : answeredPart (refusing ⟨0x11, 1, false, true⟩) 0x10 [1, 2, 3] = [1] := by decide

/-- A byte that nothing has written is a free value (93_implementation_defined.md). -/
theorem test_cold_byte : dmaByte State.reset 9 = Config.coldByte 0 9 := rfl

/-- 20_memory.md R74, 10_state.md R41: width, alignment, and the end of the window. -/
theorem test_misformed_access :
    (stepped (offer (.regRead 0x18 32) State.reset)).responses = [.busError 0] ∧
    (stepped (offer (.regWrite 0x44 64 5) State.reset)).keyMask = 0 ∧
    (stepped (offer (.regRead 0xF8 64) State.reset)).responses = [.readData 0] ∧
    (stepped (offer (.regRead 0x100 64) State.reset)).responses = [.notDecoded] := by decide

/-- 10_state.md R25, R31: a nonce word reads back, and STATUS clears DONE alone. -/
theorem test_register_writes :
    (stepped (offer (write (.nonce 3) 0) State.reset)).nonceMask = 0b1000 ∧
    statusWord (stepped (offer (write .status 0x2) { State.reset with done := true, wrBusy := true })) = 0x10 := by decide

/-! ## Witnesses: states and operands that meet the hypotheses of each statement that has some, at the ends of their ranges -/

/-- The window at the last place it fits. -/
def topWindow : Platform := { resetPlatform with regBase := 0xFFFFFFFFFFFFFF00 }

theorem witness_StepRunsTheDecodedCommand :
    let s : State :=
      { State.reset with platform := topWindow, inbox := [⟨.whenIdle, .regWrite 0xFFFFFFFFFFFFFF10 64 0xFF03⟩] }
    windowAligned s.platform ∧ arrives s (.regWrite (busAddr s.platform .cmd) 64 0xFF03) [] ∧
      decode 0xFF03 = .command (.permute 255) := by
  refine ⟨?_, ⟨_, rfl⟩, by decide⟩
  unfold windowAligned; decide

/-- The other clause: an illegal word. -/
theorem witness_StepRunsTheDecodedCommand_illegal :
    windowAligned reading.platform ∧
      arrives (offer (write .cmd 0x05) reading) (.regWrite (busAddr reading.platform .cmd) 64 0x05) [] ∧
      decode 0x05 = .illegal .unknownOpcode := ⟨rfl, ⟨_, rfl⟩, by decide⟩

theorem witness_IllegalWordEndsWithIllegalCmd :
    idleQuiet (loaded 4) ∧ decode 0x101 = .illegal .argNotZero ∧ decode 0x05 = .illegal .unknownOpcode ∧
      decode 0x10003 = .illegal .reservedNotZero := ⟨⟨rfl, rfl⟩, by decide⟩

theorem witness_RotationIsToTheRight : 63 ∈ [8, 19, 40, 63] ∧ 63 < 64 := by decide

theorem witness_QuarterRoundsAreLanes :
    [(0 : Fin 16), 4, 8, 12, 3, 7, 11, 15].Nodup ∧ [(0 : Fin 16), 4, 8, 12].Nodup ∧
      (15 : Fin 16) ∉ [(0 : Fin 16), 4, 8, 12] ∧
      ∀ j ∈ [(0 : Fin 16), 4, 8, 12], iota16[j] = (iota16.set 15 0)[j] := by decide

theorem witness_LittleEndianWords : 7 < 8 ∧ (upTo 8)[0 + 7]? = some 7 := by decide

theorem witness_PaddedTailBytes : (zeros 95).length ≤ 95 ∧ 95 < 96 := by decide

/-- The last rate word, the first capacity word, the longest tail. -/
theorem witness_BlockOperationEquations :
    (11 : Fin 16).val < 12 ∧ 12 ≤ (12 : Fin 16).val ∧ (zeros 95).length ≤ 95 := by decide

theorem witness_CapacityTakesNoDataBytes : 12 ≤ (12 : Fin 16).val ∧ 12 ≤ (15 : Fin 16).val := by decide

/-- A message with no rounds, so that its permutations cost nothing. -/
def cheap : MessageParams :=
  { skip := false, rounds := 0, key := testKey, nonce := testNonce, header := [], trailer := [] }

theorem witness_SealLengthLaw :
    (zeros 31).length < 32 ∧ openBytes cheap (sealBytes cheap [7]) = some [7] := by decide +kernel

/-- Empty data that is not skipped, data under SKIP_EMPTY_PHASE, and both outcomes of the comparison. -/
theorem witness_PhaseAndMessageEquations :
    (false = false ∨ ([] : List Byte) ≠ []) ∧ (true = false ∨ ([7] : List Byte) ≠ []) ∧
      (finalTag testKey 0 zeroSponge).length = 32 ∧ (zeros 32).length = 32 ∧ finalTag testKey 0 iota16 ≠ zeros 32 := by
  decide +kernel

/-- A platform that refuses address 0x11 only. -/
def holed : State := { State.reset with mem := cells 0x10 [1], platform := refusing ⟨0x11, 1, true, true⟩ }

theorem witness_DmaReadAnswersOrFaults :
    quiet holed = true ∧ holed.raced = [] ∧
      (0 < 1 ∧ ∀ j, j < 1 → memOk holed.platform .read (0x10 + j) = true) ∧
      (0 < 2 ∧ memOk holed.platform .read (0x11 + 0) = false ∧ ∀ i, i < 0 → memOk holed.platform .read (0x11 + i) = true) ∧
      (1 < 2 ∧ memOk holed.platform .read (0x10 + 1) = false ∧ ∀ i, i < 1 → memOk holed.platform .read (0x10 + i) = true) := by
  decide

theorem witness_DmaWriteLandsOrTears :
    quiet holed = true ∧ holed.raced = [] ∧ Memory.wf holed.mem = true ∧
      ([5] : List Byte) ≠ [] ∧ (∀ j, j < ([5] : List Byte).length → memOk holed.platform .write (0x10 + j) = true) ∧
      memOk holed.platform .write (0x11 + 0) = false ∧
      (1 < ([5, 6] : List Byte).length ∧ memOk holed.platform .write (0x10 + 1) = false ∧
        ∀ i, i < 1 → memOk holed.platform .write (0x10 + i) = true) := by
  decide

/-- A running write whose second byte is refused (k = 1), met by each event that cuts it short, and one begun at it (k = 0). -/
theorem witness_DmaWriteLandsOrTears_cut :
    let s : State := { holed with busy := true, running := some (.permute 2) }
    s.busy = true ∧ s.raced = [] ∧ Memory.wf s.mem = true ∧ ([5, 6] : List Byte) ≠ [] ∧ windowAligned s.platform ∧
      1 < ([5, 6] : List Byte).length ∧ (∀ j, j < 1 → memOk s.platform .write (0x10 + j) = true) ∧
      memOk s.platform .write (0x10 + 1) = false ∧ memOk s.platform .write (0x11 + 0) = false ∧ (1 : Word).getLsbD 0 = true ∧
      ({ s with inbox := [⟨.slot 0 false, .dmaStall⟩] } : State).inbox = [⟨.slot 0 false, .dmaStall⟩] ∧
      ({ s with inbox := [⟨.slot 0 true, write .ctrl 1⟩] } : State).inbox =
        [⟨.slot 0 true, .regWrite (busAddr s.platform .ctrl) 64 1⟩] := by
  refine ⟨rfl, rfl, by decide, by decide, rfl, by decide, by decide, by decide, by decide, by decide, rfl, rfl⟩

theorem witness_NopOnlyCompletes : idleQuiet (loaded 4) := ⟨rfl, rfl⟩

theorem witness_EraseWipesEverything : idleQuiet { loaded 4 with inbox := [⟨.whenIdle, read .status⟩] } := ⟨rfl, rfl⟩

/-- IN at the bottom and OUT at the very top of the space. -/
def spread : State :=
  { State.reset with mem := cells 0 (upTo 128), inAddr := 0, outAddr := 0xFFFFFFFFFFFFFF80 }

theorem witness_PermuteAppliesF :
    idleQuiet spread ∧ Memory.wf spread.mem = true ∧ answered spread.platform .read ⟨spread.inAddr.toNat, 128⟩ ∧
      answered spread.platform .write (spread.out 128) ∧ holds spread ⟨spread.inAddr.toNat, 128⟩ (upTo 128) :=
  ⟨⟨rfl, rfl⟩, by decide +kernel, answered_of_firstRefused (by decide +kernel),
    answered_of_firstRefused (by decide +kernel), show Memory.load _ _ _ = _ by decide +kernel⟩

theorem witness_PermuteErrors_range :
    let s : State := { spread with outAddr := 0xFFFFFFFFFFFFFF81 }
    idleQuiet s ∧ Memory.wf s.mem = true ∧ validRegion (s.out 128) = false :=
  ⟨⟨rfl, rfl⟩, by decide +kernel, by decide⟩

theorem witness_PermuteErrors_read :
    let s : State := { spread with platform := refusing ⟨127, 1, true, false⟩ }
    idleQuiet s ∧ Memory.wf s.mem = true ∧ validRegion ⟨s.inAddr.toNat, 128⟩ = true ∧ validRegion (s.out 128) = true ∧
      memOk s.platform .read (s.inAddr.toNat + 127) = false ∧
      ∀ i, i < 127 → memOk s.platform .read (s.inAddr.toNat + i) = true :=
  ⟨⟨rfl, rfl⟩, by decide +kernel⟩

theorem witness_PermuteErrors_write :
    let s : State := { spread with platform := refusing ⟨0xFFFFFFFFFFFFFF80, 1, false, true⟩ }
    idleQuiet s ∧ Memory.wf s.mem = true ∧ answered s.platform .read ⟨s.inAddr.toNat, 128⟩ ∧
      validRegion (s.out 128) = true ∧ memOk s.platform .write (s.outAddr.toNat + 0) = false ∧
      ∀ i, i < 0 → memOk s.platform .write (s.outAddr.toNat + i) = true :=
  ⟨⟨rfl, rfl⟩, by decide +kernel, answered_of_firstRefused (by decide +kernel), by decide +kernel⟩

/-- A header, a body in place, and a trailer. -/
def message : State :=
  { loaded 4 with
    mem := cells 0x10 (upTo 5) ++ cells 0x100 (upTo 97) ++ cells 0x200 (upTo 96),
    hdrAddr := 0x10, hdrLen := 5, inAddr := 0x100, inLen := 97, trlAddr := 0x200, trlLen := 96, outAddr := 0x100 }

theorem message_inputs_good : inputsGood message := by unfold inputsGood; decide

theorem message_reads_answered :
    answered message.platform .read message.hdr ∧ answered message.platform .read message.inp ∧
      answered message.platform .read message.trl :=
  ⟨answered_of_firstRefused (by decide +kernel), answered_of_firstRefused (by decide +kernel),
    answered_of_firstRefused (by decide +kernel)⟩

theorem witness_SealWritesCiphertextAndTag :
    idleQuiet message ∧ Memory.wf message.mem = true ∧ inputsGood message ∧ message.inLen.toNat + 32 ≤ 2 ^ 64 - 1 ∧
      validRegion (message.out (message.inLen.toNat + 32)) = true ∧
      (answered message.platform .read message.hdr ∧ answered message.platform .read message.inp ∧
        answered message.platform .read message.trl) ∧
      answered message.platform .write (message.out (message.inLen.toNat + 32)) ∧
      holds message message.hdr (upTo 5) ∧ holds message message.inp (upTo 97) ∧ holds message message.trl (upTo 96) ∧
      goodOverlap message message.inLen.toNat :=
  ⟨⟨rfl, rfl⟩, by decide +kernel, message_inputs_good, by decide, by decide, message_reads_answered,
    answered_of_firstRefused (by decide +kernel), show Memory.load _ _ _ = _ by decide +kernel,
    show Memory.load _ _ _ = _ by decide +kernel, show Memory.load _ _ _ = _ by decide +kernel,
    .inl rfl, apart_of_le (by decide)⟩

theorem witness_OpenWritesPlaintextOrZeros :
    idleQuiet message ∧ Memory.wf message.mem = true ∧ inputsGood message ∧ 32 ≤ message.inLen.toNat ∧
      validRegion (message.out (message.inLen.toNat - 32)) = true ∧
      (answered message.platform .read message.hdr ∧ answered message.platform .read message.inp ∧
        answered message.platform .read message.trl) ∧
      answered message.platform .write (message.out (message.inLen.toNat - 32)) ∧
      holds message message.hdr (upTo 5) ∧ holds message message.inp (upTo 97) ∧ holds message message.trl (upTo 96) ∧
      goodOverlap message (message.inLen.toNat - 32) :=
  ⟨⟨rfl, rfl⟩, by decide +kernel, message_inputs_good, by decide, by decide, message_reads_answered,
    answered_of_firstRefused (by decide +kernel), show Memory.load _ _ _ = _ by decide +kernel,
    show Memory.load _ _ _ = _ by decide +kernel, show Memory.load _ _ _ = _ by decide +kernel,
    .inl rfl, apart_of_le (by decide)⟩

theorem tagOnly_inputs_good : inputsGood tagOnly := by unfold inputsGood; decide

/-- Both outcomes of the shortest legal OPEN: L2.7's tag opens, the zero tag does not. -/
theorem witness_OpenWritesPlaintextOrZeros_outcomes :
    inputsGood tagOnly ∧ 32 ≤ tagOnly.inLen.toNat ∧
      openBytes (messageParams tagOnly [] [])
        (hex 32 0x7ca991ffaa25f7e2dfd5edb3b2b5d315160c4102769bdab3758b5fe003ed35d4) = some [] ∧
      openBytes (messageParams tagOnly [] []) (zeros 32) = none :=
  ⟨tagOnly_inputs_good, by decide, by decide +kernel, by decide +kernel⟩

theorem witness_ReleasedPlaintextIsAuthentic :
    ∃ t, idleQuiet tagOnly ∧ Memory.wf tagOnly.mem = true ∧ holds tagOnly tagOnly.hdr [] ∧
      holds tagOnly tagOnly.inp (hex 32 0x7ca991ffaa25f7e2dfd5edb3b2b5d315160c4102769bdab3758b5fe003ed35d4) ∧
      holds tagOnly tagOnly.trl [] ∧ goodOverlap tagOnly (tagOnly.inLen.toNat - 32) ∧
      exec .openMsg tagOnly = .next t ∧ mayReleaseOut t = true :=
  ⟨run .openMsg tagOnly, ⟨rfl, rfl⟩, by decide +kernel, rfl, show Memory.load _ _ _ = _ by decide +kernel, rfl,
    ⟨.inr (apart_of_le (by decide)), apart_of_le (by decide)⟩, rfl, by decide +kernel⟩

theorem witness_ShortOpenFailsWithoutAccess :
    idleQuiet { loaded 6 with inLen := 31 } ∧ inputsGood { loaded 6 with inLen := 31 } ∧
      ({ loaded 6 with inLen := 31 } : State).inLen.toNat < 32 :=
  ⟨⟨rfl, rfl⟩, by unfold inputsGood; decide, by decide⟩

/-- One state for each clause: a bad round count, a missing key word, a missing nonce word, a region that wraps. -/
theorem witness_ContractChecksInOrder_inputs :
    (idleQuiet (loaded 5) ∧ ¬ ((loaded 5).rounds = 4 ∨ (loaded 5).rounds = 6)) ∧
      (idleQuiet { loaded 6 with keyMask := 0x7 } ∧ ({ loaded 6 with keyMask := 0x7 } : State).keyMask ≠ 0b1111) ∧
      (idleQuiet { loaded 6 with nonceMask := 0xE } ∧
        ({ loaded 6 with nonceMask := 0xE } : State).keyMask = 0b1111 ∧
        ({ loaded 6 with nonceMask := 0xE } : State).nonceMask ≠ 0b1111) ∧
      (idleQuiet { loaded 4 with trlAddr := 0xFFFFFFFFFFFFFFFF, trlLen := 2 } ∧
        ¬ validRegion ({ loaded 4 with trlAddr := 0xFFFFFFFFFFFFFFFF, trlLen := 2 } : State).trl = true) :=
  ⟨⟨⟨rfl, rfl⟩, by decide⟩, ⟨⟨rfl, rfl⟩, by decide⟩, ⟨⟨rfl, rfl⟩, by decide⟩, ⟨rfl, rfl⟩, by decide⟩

/-- The longest IN that a region allows and SEAL refuses, an output that wraps by one byte, and OPEN's. -/
theorem witness_ContractChecksInOrder_outputs :
    (inputsGood { loaded 4 with inLen := 0xFFFFFFFFFFFFFFE0 } ∧
      ¬ ({ loaded 4 with inLen := 0xFFFFFFFFFFFFFFE0 } : State).inLen.toNat + 32 ≤ 2 ^ 64 - 1) ∧
      (inputsGood { loaded 4 with outAddr := 0xFFFFFFFFFFFFFFE1 } ∧
        validRegion (({ loaded 4 with outAddr := 0xFFFFFFFFFFFFFFE1 } : State).out 32) = false) ∧
      (inputsGood { loaded 4 with inLen := 34, outAddr := 0xFFFFFFFFFFFFFFFF } ∧
        validRegion (({ loaded 4 with inLen := 34, outAddr := 0xFFFFFFFFFFFFFFFF } : State).out 2) = false) := by
  unfold inputsGood; decide

theorem witness_SealAccessOrder :
    idleQuiet message ∧ inputsGood message ∧ message.inLen.toNat + 32 ≤ 2 ^ 64 - 1 ∧
      validRegion (message.out (message.inLen.toNat + 32)) = true ∧
      (answered message.platform .read message.hdr ∧ answered message.platform .read message.inp ∧
        answered message.platform .read message.trl) ∧
      answered message.platform .write (message.out (message.inLen.toNat + 32)) :=
  ⟨⟨rfl, rfl⟩, message_inputs_good, by decide, by decide, message_reads_answered,
    answered_of_firstRefused (by decide +kernel)⟩

theorem witness_OpenAccessOrder :
    idleQuiet message ∧ inputsGood message ∧ 32 ≤ message.inLen.toNat ∧
      validRegion (message.out (message.inLen.toNat - 32)) = true ∧
      (answered message.platform .read message.hdr ∧ answered message.platform .read message.inp ∧
        answered message.platform .read message.trl) ∧
      answered message.platform .write (message.out (message.inLen.toNat - 32)) :=
  ⟨⟨rfl, rfl⟩, message_inputs_good, by decide, by decide, message_reads_answered,
    answered_of_firstRefused (by decide +kernel)⟩

/-- SEAL: P7, whose tail read begins at the first refused byte. OPEN: the last byte of the tag, its first access, is refused. -/
theorem witness_RefusedAccessEndsTheMessage :
    let o : State := { message with platform := refusing ⟨0x160, 1, true, false⟩ }
    (idleQuiet p7 ∧ inputsGood p7 ∧ p7.inLen.toNat + 32 ≤ 2 ^ 64 - 1 ∧
        validRegion (p7.out (p7.inLen.toNat + 32)) = true ∧
        untilFault p7.platform (sealAccesses p7) = some ([.read 0x200 96, .write 0x400 96, .read 0x260 4], 0x260)) ∧
      idleQuiet o ∧ inputsGood o ∧ 32 ≤ o.inLen.toNat ∧ validRegion (o.out (o.inLen.toNat - 32)) = true ∧
        untilFault o.platform (openAccesses o false) = some ([.read 0x141 32], 0x160) :=
  ⟨⟨⟨rfl, rfl⟩, by unfold inputsGood; decide, by decide, by decide, by decide +kernel⟩,
    ⟨rfl, rfl⟩, message_inputs_good, by decide, by decide, by decide +kernel⟩

/-- The empty message, the least case of both clauses (for OPEN a bare tag). -/
theorem witness_MessagePermutationCalls :
    (idleQuiet (loaded 4) ∧ inputsGood (loaded 4) ∧
        (answered (loaded 4).platform .read (loaded 4).hdr ∧ answered (loaded 4).platform .read (loaded 4).inp ∧
          answered (loaded 4).platform .read (loaded 4).trl) ∧
        (loaded 4).inLen.toNat + 32 ≤ 2 ^ 64 - 1 ∧ answered (loaded 4).platform .write ((loaded 4).out 32) ∧
        validRegion ((loaded 4).out 32) = true) ∧
      idleQuiet tagOnly ∧ inputsGood tagOnly ∧
        (answered tagOnly.platform .read tagOnly.hdr ∧ answered tagOnly.platform .read tagOnly.inp ∧
          answered tagOnly.platform .read tagOnly.trl) ∧
        32 ≤ tagOnly.inLen.toNat ∧ answered tagOnly.platform .write (tagOnly.out (tagOnly.inLen.toNat - 32)) ∧
        validRegion (tagOnly.out (tagOnly.inLen.toNat - 32)) = true :=
  ⟨⟨⟨rfl, rfl⟩, by unfold inputsGood; decide,
      ⟨answered_of_firstRefused (by decide), answered_of_firstRefused (by decide), answered_of_firstRefused (by decide)⟩,
      by decide, answered_of_firstRefused (by decide), by decide⟩,
    ⟨rfl, rfl⟩, tagOnly_inputs_good,
    ⟨answered_of_firstRefused (by decide), answered_of_firstRefused (by decide +kernel),
      answered_of_firstRefused (by decide)⟩,
    by decide, answered_of_firstRefused (by decide), by decide⟩

theorem witness_ResetMeetsTheInvariant : Memory.wf p1.mem = true := by decide +kernel

/-- A running engine in the invariant, which steps. -/
theorem witness_EveryStepKeepsTheInvariant :
    (offer (write .config 6) reading).Inv ∧ step (offer (write .config 6) reading) =
      .next { reading with responses := [.writeDone], wrBusy := true } :=
  ⟨⟨rfl, fun h => (nomatch h), fun _ => ⟨rfl, rfl, rfl, rfl⟩, by decide, by decide, by decide⟩, rfl⟩

/-- A SEAL that a refused read ends. -/
theorem witness_MessagesEraseSecretsOnEveryPath :
    ∃ t, p7.busy = false ∧ exec .sealMsg p7 = .next t ∧ t.busy = false ∧ t.err = .busFault :=
  ⟨run .sealMsg p7, rfl, rfl, by decide +kernel⟩

theorem witness_OtherCommandsKeepTheKey :
    ∃ t u, (loaded 4).busy = false ∧ exec (.permute 2) (loaded 4) = .next t ∧
      decode 0x102 = .illegal .argNotZero ∧ runWord 0x102 (loaded 4) = .next u :=
  ⟨_, _, rfl, rfl, by decide, rfl⟩

theorem witness_CommandsWriteOnlyTheirOutput :
    ∃ t, idleQuiet p9 ∧ Memory.wf p9.mem = true ∧ exec (.permute 4) p9 = .next t :=
  ⟨_, ⟨rfl, rfl⟩, by decide +kernel, rfl⟩

/-- A PERMUTE that another agent's write meets beside OUT, and then a reset that tears its write. -/
def tornByReset : State :=
  { p1 with inbox := [⟨.slot 1 false, .memWrite 0x880 7⟩, ⟨.slot 1 true, .hardReset⟩] }

theorem witness_CommandsWriteOnlyTheirOutput_reset :
    ∃ t, tornByReset.busy = false ∧ Memory.wf tornByReset.mem = true ∧ exec (.permute 2) tornByReset = .next t ∧
      resetsOf t.trace = 1 ∧ landed tornByReset t = [.memWrite 0x880 7, .hardReset] ∧
      (outputRegion (.permute 2) tornByReset).contains 0x7FF = false ∧
      (outputRegion (.permute 2) tornByReset).contains 0x881 = false :=
  ⟨run (.permute 2) tornByReset, rfl, by decide +kernel, rfl, by decide +kernel, by decide +kernel, by decide +kernel,
    by decide +kernel⟩

/-- The three ends of a command: completed, abandoned, stuck. -/
theorem witness_EveryCommandEndsAtMostOnce :
    ∃ t u v, exec (.permute 4) p9 = .next t ∧ t.done = true ∧ exec (.permute 2) resetBeforeWrite = .next u ∧
      resetsOf u.trace = 1 ∧ exec (.permute 2) stalls = .next v ∧ v.busy = true ∧ landed stalls v = [.dmaStall] :=
  ⟨run (.permute 4) p9, run (.permute 2) resetBeforeWrite, stuck, rfl, by decide +kernel, rfl, by decide +kernel, rfl,
    by decide +kernel, by decide +kernel⟩

/-- A SEAL that a fault ends, the shortest OPEN that runs to its end, and a quiet state. -/
theorem witness_PhasesOnlyAdvance :
    (∃ t, p7.busy = false ∧ exec .sealMsg p7 = .next t) ∧
      (∃ t, tagOnly.busy = false ∧ exec .openMsg tagOnly = .next t ∧ t.done = true ∧ t.err = .noError ∧
        32 ≤ tagOnly.inLen.toNat) ∧ quiet p7 = true :=
  ⟨⟨_, rfl, rfl⟩, ⟨run .openMsg tagOnly, rfl, rfl, by decide +kernel, by decide +kernel, by decide⟩, rfl⟩

theorem witness_CommandsKeepOperandRegisters : ∃ t, p9.busy = false ∧ exec (.permute 4) p9 = .next t := ⟨_, rfl, rfl⟩

/-- An error, an authentication failure and a success. -/
theorem witness_ErrorsAndAuthFailuresStayApart :
    (∃ t, (loaded 5).busy = false ∧ exec .sealMsg (loaded 5) = .next t ∧ t.err ≠ .noError) ∧
      (∃ t, (loaded 4).busy = false ∧ exec .openMsg (loaded 4) = .next t ∧ t.authFail = true) ∧
      ∃ t, tagOnly.busy = false ∧ exec .openMsg tagOnly = .next t ∧ t.authOk = true :=
  ⟨⟨run .sealMsg (loaded 5), rfl, rfl, by decide +kernel⟩, ⟨run .openMsg (loaded 4), rfl, rfl, by decide +kernel⟩,
    run .openMsg tagOnly, rfl, rfl, by decide +kernel⟩

theorem witness_FaultAddressWasRefused :
    ∃ t, p7.busy = false ∧ exec .sealMsg p7 = .next t ∧ t.err = .busFault :=
  ⟨run .sealMsg p7, rfl, rfl, by decide +kernel⟩

/-- Two states that differ in key and memory; for OPEN, two short inputs, which both fail. -/
theorem witness_ActivityIsDataIndependent :
    (∃ t t', Instr.sealMsg ≠ .openMsg ∧ p7.busy = false ∧ sameControl p7 { p7 with key := testNonce, mem := cells 0x200 (upTo 96) } ∧ exec .sealMsg p7 = .next t ∧
      exec .sealMsg { p7 with key := testNonce, mem := cells 0x200 (upTo 96) } = .next t') ∧
    ∃ u u', idleQuiet (loaded 4) ∧ sameControl (loaded 4) { loaded 4 with key := testNonce } ∧
      exec .openMsg (loaded 4) = .next u ∧ exec .openMsg { loaded 4 with key := testNonce } = .next u' ∧
      u'.authOk = u.authOk :=
  ⟨⟨_, _, nofun, rfl, rfl, rfl, rfl⟩, run .openMsg (loaded 4), run .openMsg { loaded 4 with key := testNonce }, ⟨rfl, rfl⟩, rfl, rfl,
    rfl, by decide +kernel⟩

/-- A STATUS read at the PERM phase, a dropped CMD write before the read, and a foreign byte beside IN. -/
def harmlessList : List Arrival :=
  [⟨.slot 1 false, read .status⟩, ⟨.slot 1 true, write .cmd 1⟩, ⟨.slot 0 true, .memWrite 0x1080 7⟩]

theorem witness_HarmlessAccessesDoNotDisturb :
    ∃ t u, p1.busy = false ∧ Memory.wf p1.mem = true ∧
      (∀ x ∈ harmlessList, harmless (.permute 2) p1 x.event = true) ∧
      (∀ r ∈ inputRegions (.permute 2) p1, answered p1.platform .read r ∧ ∃ b, holds p1 r b) ∧
      answered p1.platform .write (outputRegion (.permute 2) p1) ∧
      exec (.permute 2) { p1 with inbox := [] } = .next u ∧ exec (.permute 2) { p1 with inbox := harmlessList } = .next t := by
  refine ⟨_, _, rfl, by decide +kernel, by decide, ?_, answered_of_firstRefused (by decide +kernel), rfl, rfl⟩
  intro r hr
  obtain rfl : r = ⟨p1.inAddr.toNat, 128⟩ := List.mem_singleton.mp hr
  exact ⟨answered_of_firstRefused (by decide +kernel), spongeBytes iota16, show Memory.load _ _ _ = _ by decide +kernel⟩

theorem witness_RegisterReadsHaveNoSideEffect :
    windowAligned reading.platform ∧
      arrives { reading with inbox := [⟨.whenIdle, read (.reserved 8)⟩] } (.regRead (busAddr reading.platform (.reserved 8)) 64)
        [] := ⟨rfl, _, rfl⟩

/-- A PERMUTE met by a read of STATUS, a protected write, and an access one byte into the window. -/
def met : State :=
  { p1 with
    inbox := [⟨.slot 1 false, read .status⟩, ⟨.slot 0 false, write (.nonce 0) 9⟩, ⟨.slot 1 true, .regRead 1 64⟩] }

/-- At a slot, and over a whole command. -/
theorem witness_accesses_in_a_command :
    reading.busy = true ∧ windowAligned reading.platform ∧
      ∃ t, met.Inv ∧ met.busy = false ∧ windowAligned met.platform ∧ exec (.permute 2) met = .next t ∧
        answersOf met t = [(read .status, .readData 0x0000000307000001), (write (.nonce 0) 9, .writeDone),
          (.regRead 1 64, .busError 0)] ∧
        Reg.nonce 0 ∈ protectedRegs ∧ t.wrBusy = true ∧ resetsOf t.trace = resetsOf met.trace :=
  ⟨rfl, rfl, run (.permute 2) met,
    ⟨by decide +kernel, fun _ => ⟨⟨rfl, rfl, rfl, rfl, rfl⟩, rfl, rfl, rfl, rfl, rfl⟩, fun h => (nomatch h), by decide, by decide,
      by decide⟩, rfl, rfl, rfl, by decide +kernel, by decide, by decide +kernel, by decide +kernel⟩

/-- A narrow read at the window's first byte, a write one byte into it, a read just past its end. -/
theorem witness_MisformedAccessChangesNothing :
    (arrives (offer (.regRead 0 32) State.reset) (.regRead 0 32) [] ∧
      State.reset.platform.regBase.toNat ≤ (0 : Word).toNat ∧ (0 : Word).toNat < State.reset.platform.regBase.toNat + 256) ∧
      (arrives (offer (.regWrite 0xFF 64 1) State.reset) (.regWrite 0xFF 64 1) [] ∧
        (0xFF : Word).toNat < State.reset.platform.regBase.toNat + 256 ∧
        ((0xFF : Word).toNat - State.reset.platform.regBase.toNat) % 8 ≠ 0) ∧
      (arrives (offer (.regRead 0x100 64) State.reset) (.regRead 0x100 64) [] ∧
        State.reset.platform.regBase.toNat + 256 ≤ (0x100 : Word).toNat) :=
  ⟨⟨⟨_, rfl⟩, by decide⟩, ⟨⟨_, rfl⟩, by decide⟩, ⟨_, rfl⟩, by decide⟩

/-- A protected register, a read-only and a reserved one, and each of the three others. -/
theorem witness_WritesWhileBusy :
    reading.busy = true ∧ windowAligned reading.platform ∧ Reg.outAddr ∈ protectedRegs ∧
      arrives (offer (write .outLen 1) reading) (.regWrite (busAddr reading.platform .outLen) 64 1) [] ∧
      arrives (offer (write (.reserved 8) 1) reading) (.regWrite (busAddr reading.platform (.reserved 8)) 64 1) [] ∧
      arrives (offer (write .outAddr 1) reading) (.regWrite (busAddr reading.platform .outAddr) 64 1) [] ∧
      arrives (offer (write .irqEn 1) reading) (.regWrite (busAddr reading.platform .irqEn) 64 1) [] ∧
      arrives (offer (write .status 0x12) reading) (.regWrite (busAddr reading.platform .status) 64 0x12) [] ∧
      arrives (offer (write .ctrl 1) reading) (.regWrite (busAddr reading.platform .ctrl) 64 1) [] ∧
      arrives (offer (write .ctrl 2) reading) (.regWrite (busAddr reading.platform .ctrl) 64 2) [] ∧
      (2 : Word).getLsbD 0 = false :=
  ⟨rfl, rfl, by decide, ⟨_, rfl⟩, ⟨_, rfl⟩, ⟨_, rfl⟩, ⟨_, rfl⟩, ⟨_, rfl⟩, ⟨_, rfl⟩, ⟨_, rfl⟩, by decide⟩

/-- STATUS and IRQ_EN on an idle engine. -/
theorem witness_WritesWhileBusy_idle :
    (loaded 4).busy = false ∧ windowAligned (loaded 4).platform ∧
      arrives (offer (write .irqEn 1) (loaded 4)) (.regWrite (busAddr (loaded 4).platform .irqEn) 64 1) [] ∧
      arrives (offer (write .status 0x12) (loaded 4)) (.regWrite (busAddr (loaded 4).platform .status) 64 0x12) [] :=
  ⟨rfl, rfl, ⟨_, rfl⟩, _, rfl⟩

theorem witness_KeyAndNonceWrites :
    State.reset.busy = false ∧ windowAligned State.reset.platform ∧
      arrives (offer (write (.key 3) 0) State.reset) (.regWrite (busAddr State.reset.platform (.key 3)) 64 0) [] ∧
      arrives (offer (write (.nonce 0) 9) State.reset) (.regWrite (busAddr State.reset.platform (.nonce 0)) 64 9) [] :=
  ⟨rfl, rfl, ⟨_, rfl⟩, _, rfl⟩

theorem witness_OtherRegistersReadBack :
    State.reset.busy = false ∧ windowAligned State.reset.platform ∧
      (∀ r ∈ [Reg.hdrAddr, .hdrLen, .inAddr, .inLen, .trlAddr, .trlLen, .outAddr, .id, .outLen, .faultAddr],
        arrives (offer (write r 7) State.reset) (.regWrite (busAddr State.reset.platform r) 64 7) []) ∧
      arrives (offer (write .outAddr 7) State.reset) (.regWrite (busAddr State.reset.platform .outAddr) 64 7) [] ∧
      arrives (offer (write .config 0x1F) State.reset) (.regWrite (busAddr State.reset.platform .config) 64 0x1F) [] ∧
      arrives (offer (write .irqEn 3) State.reset) (.regWrite (busAddr State.reset.platform .irqEn) 64 3) [] ∧
      arrives (offer (write (.reserved 0) 3) State.reset) (.regWrite (busAddr State.reset.platform (.reserved 0)) 64 3) [] :=
  ⟨rfl, rfl, fun _ _ => ⟨_, rfl⟩, ⟨_, rfl⟩, ⟨_, rfl⟩, ⟨_, rfl⟩, _, rfl⟩

theorem witness_InterruptIsDoneAndEnabled :
    (∃ t u, idleQuiet (loaded 4) ∧ exec .nop (loaded 4) = .next t ∧ runWord 0x05 (loaded 4) = .next u) ∧
      windowAligned State.reset.platform ∧
      arrives (offer (write .status 2) State.reset) (.regWrite (busAddr State.reset.platform .status) 64 2) [] :=
  ⟨⟨_, _, ⟨rfl, rfl⟩, rfl, rfl⟩, rfl, _, rfl⟩

theorem witness_RegisterAccessesAreAlwaysAnswered :
    arrives (offer (write .cmd 3) reading) (.regWrite 0x10 64 3) [] ∧
      arrives (offer (.regRead 0xFFFFFFFFFFFFFFFF 8) reading) (.regRead 0xFFFFFFFFFFFFFFFF 8) [] ∧
      ∃ t, step (offer (write .cmd 3) reading) = .next t := ⟨⟨_, rfl⟩, ⟨_, rfl⟩, _, rfl⟩

theorem witness_OnlyCommandsAndAgentsWriteMemory :
    (∃ t, arrives (offer .hardReset p1) .hardReset [] ∧ step (offer .hardReset p1) = .next t ∧
        cmdWord? p1.platform .hardReset = none) ∧
      ∃ t, arrives (offer (write .cmd 3) reading) (write .cmd 3) [] ∧ step (offer (write .cmd 3) reading) = .next t ∧
        reading.busy = true := ⟨⟨_, ⟨_, rfl⟩, rfl, rfl⟩, _, ⟨_, rfl⟩, rfl, rfl⟩

/-- Writes of another agent to an idle engine, at the last byte of a running command's input, and just past it. -/
theorem witness_OnlyCommandsAndAgentsWriteMemory_writes :
    (Memory.wf p1.mem = true ∧ p1.busy = false ∧ arrives (offer (.memWrite 0xFFFFFFFFFFFFFFFF 7) p1)
        (.memWrite 0xFFFFFFFFFFFFFFFF 7) []) ∧
      Memory.wf reading.mem = true ∧ reading.busy = true ∧
        reading.running = some (.permute 2) ∧ (∃ r ∈ touchedRegions (.permute 2) reading, r.contains 0x107F = true) ∧
        (∀ r ∈ touchedRegions (.permute 2) reading, r.contains 0x1080 = false) ∧
        0x1000 ∈ (hostEvent (.memWrite 0x1000 7) reading).raced :=
  ⟨⟨by decide +kernel, rfl, _, rfl⟩, rfl, rfl, rfl, by decide, by decide, by decide⟩

/-- A written byte that no command holds and no cache, beside one that is stale; and a PERMUTE that a discard of all but that
one meets, which leaves its output stale all the same. -/
theorem witness_OnlyCommandsAndAgentsWriteMemory_reads :
    let s : State := { p1 with stale := [⟨0xF00, 0x100⟩], inbox := [⟨.slot 2 false, .cacheDiscard ⟨0, 0xFFF⟩⟩] }
    (s.busy = false ∧ (∀ r ∈ s.stale, r.contains 0x1000 = false) ∧ Memory.read s.mem 0x1000 = some 0 ∧
        ∃ r ∈ s.stale, r.contains 0xFFF = true) ∧
      ∃ t, Memory.wf s.mem = true ∧ exec (.permute 2) s = .next t ∧ landed s t = [.cacheDiscard ⟨0, 0xFFF⟩] ∧
        Memory.read t.mem 0x800 ≠ Memory.read s.mem 0x800 ∧ t.stale = [⟨0x800, 128⟩, ⟨0xFFF, 1⟩] :=
  ⟨⟨rfl, by decide, by decide +kernel, by decide⟩,
    run (.permute 2) { p1 with stale := [⟨0xF00, 0x100⟩], inbox := [⟨.slot 2 false, .cacheDiscard ⟨0, 0xFFF⟩⟩] },
    by decide +kernel, rfl, by decide +kernel, by decide +kernel, by decide +kernel⟩

theorem witness_SoftResetEqualsHardReset :
    windowAligned stuck.platform ∧
      arrives (offer (write .ctrl 1) stuck) (.regWrite (busAddr resetPlatform .ctrl) 64 1) [] ∧
      arrives (offer .hardReset stuck) .hardReset [] :=
  ⟨by unfold windowAligned; decide +kernel, ⟨_, rfl⟩, _, rfl⟩

theorem witness_ResetAbandonsTheCommand :
    reading.busy = true ∧ windowAligned reading.platform ∧ (1 : Word).getLsbD 0 = true ∧
      (∀ u, (logEvent (.read 0 1) u).platform = u.platform) ∧
      ∃ t, resetBeforeWrite.busy = false ∧ windowAligned resetBeforeWrite.platform ∧
        exec (.permute 2) resetBeforeWrite = .next t ∧ landed resetBeforeWrite t = [write .ctrl 1] ∧
        resetsOf resetBeforeWrite.trace < resetsOf t.trace :=
  ⟨rfl, rfl, by decide, fun _ => rfl, run (.permute 2) resetBeforeWrite, rfl, rfl, rfl, by decide +kernel, by decide +kernel⟩

/-- A stuck engine with nothing to arrive, and one a register read reaches. -/
theorem witness_OnlyAResetEndsAStall :
    reading.busy = true ∧ reading.inbox = [] ∧ ∃ t, step (offer (read .status) reading) = .next t := ⟨rfl, rfl, _, rfl⟩

end Sys2Proof.Tests
end

section
/-! SUPPORT. WR_BUSY over a whole command: which events a command met, in order, and that WR_BUSY is a function of them
(10_state.md R43). First the writes one by one, then a relation between two states of a command, then each operation. -/

namespace Sys2Proof.Machine

/-! ## One register write -/

theorem writeReg_protected_busy {s : State} {r : Reg} (hr : r.isProtected = true) (hb : s.busy = true) (v : Word) :
    writeReg r v s = turnAway s := by
  simp only [writeReg, hr, hb, Bool.and_true, if_true]

theorem writeReg_unprotected {r : Reg} (hr : r.isProtected = false) (v : Word) (s : State) :
    writeReg r v s = storeReg r v s := by
  simp only [writeReg, hr, Bool.false_and, Bool.false_eq_true, if_false]

/-- A write of CTRL with bit 0 set is the soft reset (10_state.md R33). -/
theorem storeReg_ctrl_set {v : Word} (hv : v.getLsbD 0 = true) (s : State) : storeReg .ctrl v s = resetEngine s := if_pos hv

theorem storeReg_ctrl_clear {v : Word} (hv : v.getLsbD 0 = false) (s : State) : storeReg .ctrl v s = s :=
  if_neg (by rw [hv]; exact Bool.false_ne_true)

/-- A running engine turns away every word that reaches CMD, legal or not (10_state.md R34, R43). -/
theorem runWord_busy {s : State} (hb : s.busy = true) (w : Word) : runWord w s = .next (turnAway s) := by
  unfold runWord
  cases decode w with
  | illegal e => exact congrArg Host.Outcome.next (issue_busy hb _ _ _)
  | command i => cases i <;> exact congrArg Host.Outcome.next (issue_busy hb _ _ _)

theorem hostEvent_regWrite {s : State} (hw : windowAligned s.platform) (r : Reg) (v : Word) :
    hostEvent (.regWrite (busAddr s.platform r) 64 v) s = writeReg r v (respond .writeDone s) := by
  simp only [hostEvent, select_busAddr hw]

theorem cmdWord?_regWrite {p : Platform} (hw : windowAligned p) (r : Reg) (v : Word) :
    cmdWord? p (.regWrite (busAddr p r) 64 v) = if r = .cmd then some v else none := by
  simp only [cmdWord?, select_busAddr hw, Selected.reg.injEq]

/-- A write of any register but CMD acts as `writeReg` says, at a step and, unless it resets, at a slot. -/
theorem takesTo_writeReg {s : State} (hw : windowAligned s.platform) {r : Reg} (hr : r ≠ .cmd) (v : Word)
    (rest : List Arrival)
    (hb : s.busy = true → (writeReg r v (respond .writeDone { s with inbox := rest })).busy = true) :
    takesTo s (.regWrite (busAddr s.platform r) 64 v) rest
      (writeReg r v (respond .writeDone { s with inbox := rest })) := by
  have he := hostEvent_regWrite (s := { s with inbox := rest }) hw r v
  rw [← he] at hb ⊢
  exact takesTo_hostEvent (by rw [cmdWord?_regWrite hw, if_neg hr]) rfl hb

/-- A write of CMD to a running engine is turned away, at a step and at a slot. -/
theorem takesTo_cmd_busy {s : State} (hw : windowAligned s.platform) (hb : s.busy = true) (v : Word)
    (rest : List Arrival) :
    takesTo s (.regWrite (busAddr s.platform .cmd) 64 v) rest
      (turnAway (respond .writeDone { s with inbox := rest })) := by
  have he : hostEvent (.regWrite (busAddr s.platform .cmd) 64 v) { s with inbox := rest } = _ :=
    (hostEvent_regWrite (s := { s with inbox := rest }) hw .cmd v).trans
      (writeReg_protected_busy (s := respond .writeDone { s with inbox := rest }) rfl hb v)
  constructor
  · rintro ⟨t, hi⟩
    simp only [step, hi, cmdWord?_regWrite hw, if_true]
    exact runWord_busy (s := respond .writeDone { s with inbox := rest }) hb v
  · intro _ begun inside
    rw [← he]
    exact land_event begun inside rfl (by rw [he]; exact hb)

/-- A write of a protected register to a running engine only sets WR_BUSY (10_state.md R43). -/
theorem takesTo_protected_busy {s : State} (hw : windowAligned s.platform) (hb : s.busy = true) {r : Reg}
    (hr : r.isProtected = true) (v : Word) (rest : List Arrival) :
    takesTo s (.regWrite (busAddr s.platform r) 64 v) rest
      (turnAway (respond .writeDone { s with inbox := rest })) := by
  by_cases hc : r = .cmd
  · subst hc; exact takesTo_cmd_busy hw hb v rest
  · have he := writeReg_protected_busy (s := respond .writeDone { s with inbox := rest }) hr hb v
    rw [← he]
    exact takesTo_writeReg hw hc v rest (by rw [he]; exact fun h => h)

/-- A write of a register that is not protected stores, idle or busy. -/
theorem takesTo_storeReg {s : State} (hw : windowAligned s.platform) {r : Reg} (hr : r.isProtected = false) (v : Word)
    (rest : List Arrival)
    (hb : (storeReg r v (respond .writeDone { s with inbox := rest })).busy = s.busy) :
    takesTo s (.regWrite (busAddr s.platform r) 64 v) rest
      (storeReg r v (respond .writeDone { s with inbox := rest })) := by
  have hc : r ≠ .cmd := by rintro rfl; exact nomatch hr
  rw [← writeReg_unprotected hr] at hb ⊢
  exact takesTo_writeReg hw hc v rest hb.trans

/-- At a step of a running engine a write of CTRL clears BUSY exactly where its bit 0 is set (10_state.md R33). -/
theorem step_ctrl_busy {s : State} (hw : windowAligned s.platform) (hb : s.busy = true) {v : Word} {rest : List Arrival}
    (ha : arrives s (.regWrite (busAddr s.platform .ctrl) 64 v) rest) :
    ∃ t, step s = .next t ∧ t.busy = !v.getLsbD 0 := by
  obtain ⟨w, hi⟩ := ha
  have he : step s = .next (storeReg .ctrl v (respond .writeDone { s with inbox := rest })) := by
    simp only [step, hi, cmdWord?_regWrite hw, reduceCtorEq, if_false]
    exact congrArg _ (hostEvent_regWrite (s := { s with inbox := rest }) hw .ctrl v)
  refine ⟨_, he, ?_⟩
  cases hv : v.getLsbD 0 with
  | true => rw [storeReg_ctrl_set hv]; rfl
  | false => rw [storeReg_ctrl_clear hv]; exact hb

/-! ## Which accesses are well-formed writes -/

theorem regAt_eq_some {off : Nat} {r : Reg} (h : regAt off = some r) : r.offset = off := by
  simpa using List.find?_some h

/-- In an aligned window only a 64-bit access at a register's address selects it: the converse of `select_busAddr`. -/
theorem eq_busAddr_of_select {p : Platform} (hw : windowAligned p) {addr : Word} {width : Nat} {r : Reg}
    (h : select p addr width = .reg r) : addr = busAddr p r ∧ width = 64 := by
  unfold select at h
  split at h
  · exact nomatch h
  · rename_i hin
    split at h
    · exact nomatch h
    · rename_i hwidth
      split at h
      · rename_i q hq
        obtain rfl : q = r := by simpa using h
        have := regAt_eq_some hq
        refine ⟨BitVec.eq_of_toNat_eq ?_, by simpa using hwidth⟩
        rw [busAddr_toNat hw]
        omega
      · exact nomatch h

/-- WR_BUSY after an outside event that leaves a running command running (10_state.md R31, R43). -/
def wrBusyAfter (p : Platform) (b : Bool) (e : HostEvent) : Bool :=
  match e with
  | .regWrite addr width data =>
    match select p addr width with
    | .reg r => if r = .status then b && !data.getLsbD 4 else r.isProtected || b
    | .misformed => b
    | .outside => b
  | _ => b

theorem wrBusyAfter_regWrite {p : Platform} (hw : windowAligned p) (b : Bool) (r : Reg) (v : Word) :
    wrBusyAfter p b (.regWrite (busAddr p r) 64 v) =
      if r = .status then b && !v.getLsbD 4 else r.isProtected || b := by
  simp only [wrBusyAfter, select_busAddr hw]

/-- An event that changes WR_BUSY is a write of STATUS or of a protected register. -/
theorem wrBusyAfter_cases {p : Platform} (hw : windowAligned p) (b : Bool) (e : HostEvent) :
    wrBusyAfter p b e = b ∨ (∃ v, e = .regWrite (busAddr p .status) 64 v) ∨
      ∃ r ∈ protectedRegs, ∃ v, e = .regWrite (busAddr p r) 64 v := by
  cases e with
  | regWrite addr width data =>
    cases hs : select p addr width with
    | reg r =>
      obtain ⟨rfl, rfl⟩ := eq_busAddr_of_select hw hs
      by_cases hst : r = .status
      · subst hst; exact .inr (.inl ⟨data, rfl⟩)
      · cases hr : r.isProtected with
        | true => exact .inr (.inr ⟨r, (mem_protectedRegs r).mpr hr, data, rfl⟩)
        | false => left; rw [wrBusyAfter_regWrite hw, if_neg hst, hr, Bool.false_or]
    | _ => left; simp only [wrBusyAfter, hs]
  | _ => exact .inl rfl

theorem wrBusyAfter_protected {p : Platform} (hw : windowAligned p) {r : Reg} (hr : r ∈ protectedRegs) (b : Bool)
    (v : Word) : wrBusyAfter p b (.regWrite (busAddr p r) 64 v) = true := by
  rw [mem_protectedRegs] at hr
  have hst : r ≠ .status := by rintro rfl; exact nomatch hr
  rw [wrBusyAfter_regWrite hw, if_neg hst, hr, Bool.true_or]

/-- Without a write of STATUS nothing clears WR_BUSY, and a protected write sets it. -/
theorem foldl_wrBusyAfter_set {p : Platform} (hw : windowAligned p) {es : List HostEvent} {b : Bool}
    (hst : ∀ v, .regWrite (busAddr p .status) 64 v ∉ es)
    (h : b = true ∨ ∃ r ∈ protectedRegs, ∃ v, .regWrite (busAddr p r) 64 v ∈ es) :
    es.foldl (wrBusyAfter p) b = true := by
  induction es generalizing b with
  | nil =>
    rcases h with h | ⟨r, _, v, hm⟩
    · exact h
    · exact nomatch hm
  | cons e es ih =>
    refine ih (fun v hm => hst v (List.mem_cons_of_mem e hm)) ?_
    have hset : (∃ r ∈ protectedRegs, ∃ v, e = .regWrite (busAddr p r) 64 v) → wrBusyAfter p b e = true := by
      rintro ⟨r, hr, v, rfl⟩
      exact wrBusyAfter_protected hw hr b v
    rcases h with rfl | ⟨r, hr, v, hm⟩
    · left
      rcases wrBusyAfter_cases hw true e with h | ⟨v, rfl⟩ | h
      · exact h
      · exact absurd List.mem_cons_self (hst v)
      · exact hset h
    · rcases List.mem_cons.mp hm with rfl | hm
      · exact .inl (hset ⟨r, hr, v, rfl⟩)
      · exact .inr ⟨r, hr, v, hm⟩

/-- Only a protected write sets WR_BUSY. -/
theorem of_foldl_wrBusyAfter {p : Platform} (hw : windowAligned p) {es : List HostEvent} {b : Bool}
    (h : es.foldl (wrBusyAfter p) b = true) :
    b = true ∨ ∃ r ∈ protectedRegs, ∃ v, .regWrite (busAddr p r) 64 v ∈ es := by
  induction es generalizing b with
  | nil => exact .inl h
  | cons e es ih =>
    rcases ih h with hb | ⟨r, hr, v, hm⟩
    · rcases wrBusyAfter_cases hw b e with he | ⟨v, rfl⟩ | ⟨r, hr, v, rfl⟩
      · exact .inl (he ▸ hb)
      · rw [wrBusyAfter_regWrite hw, if_pos rfl, Bool.and_eq_true] at hb
        exact .inl hb.1
      · exact .inr ⟨r, hr, v, List.mem_cons_self⟩
    · exact .inr ⟨r, hr, v, List.mem_cons_of_mem e hm⟩

/-! ## One outside event of a running command -/

@[simp] theorem hostEvent_inbox (e : HostEvent) (s : State) : (hostEvent e s).inbox = s.inbox := by
  cases e with
  | regRead addr width => simp only [hostEvent]; split <;> rfl
  | regWrite addr width data =>
    simp only [hostEvent]
    split
    · rename_i r _
      simp only [writeReg]
      split
      · rfl
      · cases r with
        | ctrl => simp only [storeReg]; split <;> rfl
        | _ => rfl
    · rfl
    · rfl
  | memWrite addr v => simp only [hostEvent, agentWrite]; split <;> rfl
  | _ => rfl

theorem OutsideOnly.trace_eq {s t : State} (h : OutsideOnly s t) : t.trace = s.trace := by
  have := congrArg State.trace h.same
  exact this

/-- An event after which the command still runs is no reset. -/
theorem outsideOnly_of_busy {s : State} {e : HostEvent} (hb : s.busy = true) (hb' : (hostEvent e s).busy = true) :
    OutsideOnly s (hostEvent e s) := by
  rcases hostEvent_busy hb e with h | ⟨u, _, he⟩
  · exact h
  · rw [he] at hb'; exact nomatch hb'

theorem writeReg_wrBusy {s : State} {r : Reg} {v : Word} (hb : s.busy = true) (hb' : (writeReg r v s).busy = true) :
    (writeReg r v s).wrBusy = if r = .status then s.wrBusy && !v.getLsbD 4 else r.isProtected || s.wrBusy := by
  cases hr : r.isProtected with
  | true =>
    have hst : r ≠ .status := by rintro rfl; exact nomatch hr
    rw [writeReg_protected_busy hr hb, if_neg hst]; rfl
  | false =>
    rw [writeReg_unprotected hr] at hb' ⊢
    cases r with
    | ctrl =>
      cases hv : v.getLsbD 0 with
      | true => rw [storeReg_ctrl_set hv] at hb'; exact nomatch hb'
      | false => rw [storeReg_ctrl_clear hv]; rfl
    | status => rfl
    | cmd | config | key | nonce | hdrAddr | hdrLen | inAddr | inLen | trlAddr | trlLen | outAddr => exact nomatch hr
    | _ => simp [storeReg]

theorem hostEvent_wrBusy {s : State} {e : HostEvent} (hb : s.busy = true) (hb' : (hostEvent e s).busy = true) :
    (hostEvent e s).wrBusy = wrBusyAfter s.platform s.wrBusy e := by
  cases e with
  | regRead addr width => simp only [hostEvent]; split <;> rfl
  | regWrite addr width data =>
    cases hs : select s.platform addr width with
    | reg r =>
      simp only [hostEvent, wrBusyAfter, hs] at hb' ⊢
      exact writeReg_wrBusy (s := respond .writeDone s) hb hb'
    | _ => simp only [hostEvent, wrBusyAfter, hs, respond_wrBusy]
  | memWrite addr v => simp only [hostEvent, agentWrite]; split <;> rfl
  | hardReset => exact nomatch hb'
  | _ => rfl

/-! ## What a command has met between two of its states -/

/-- Between `s` and `t` the events `es` took effect, in this order, and none of them was a reset. -/
structure Met (es : List HostEvent) (s t : State) : Prop where
  inbox : s.inbox.map (·.event) = es ++ t.inbox.map (·.event)
  platform : t.platform = s.platform
  wrBusy : t.wrBusy = es.foldl (wrBusyAfter s.platform) s.wrBusy
  resets : resetsOf t.trace = resetsOf s.trace

/-- Between `s` and `t` the events `es` took effect, and the last of them was a reset. -/
structure CutOff (es : List HostEvent) (s t : State) : Prop where
  inbox : s.inbox.map (·.event) = es ++ t.inbox.map (·.event)
  wrBusy : t.wrBusy = false
  resets : resetsOf s.trace < resetsOf t.trace

/-- A command that was in the state `s` has left `t`: it ended of itself, or is stuck, or a reset has cut it off. -/
def Over (s t : State) : Prop := ∃ es, Met es s t ∨ CutOff es s t

/-- What a part of a command, started in the running state `s`, has come to. -/
def Run.Tracks {α : Type} (s : State) (r : Run α) : Prop :=
  match r with
  | .ok _ t => t.busy = true ∧ ∃ es, Met es s t
  | .ended t => Over s t

/-- A change of the engine's own, which takes nothing from the inbox, meets no event. -/
theorem Met.own {s t : State} (hi : t.inbox = s.inbox) (hp : t.platform = s.platform) (hw : t.wrBusy = s.wrBusy)
    (hr : resetsOf t.trace = resetsOf s.trace) : Met [] s t :=
  ⟨by rw [hi]; rfl, hp, hw, hr⟩

theorem Met.refl (s : State) : Met [] s s := .own rfl rfl rfl rfl

theorem Met.trans {es fs : List HostEvent} {s t u : State} (h : Met es s t) (h' : Met fs t u) : Met (es ++ fs) s u where
  inbox := by rw [h.inbox, h'.inbox, List.append_assoc]
  platform := h'.platform.trans h.platform
  wrBusy := by rw [h'.wrBusy, h.wrBusy, h.platform, List.foldl_append]
  resets := h'.resets.trans h.resets

/-- Two changes of the engine's own in a row. -/
theorem Met.own_trans {s t u : State} (h : Met [] s t) (h' : Met [] t u) : Met [] s u := h.trans h'

theorem Met.cutOff {es fs : List HostEvent} {s t u : State} (h : Met es s t) (h' : CutOff fs t u) :
    CutOff (es ++ fs) s u where
  inbox := by rw [h.inbox, h'.inbox, List.append_assoc]
  wrBusy := h'.wrBusy
  resets := h.resets ▸ h'.resets

theorem Met.over {es : List HostEvent} {s t : State} (h : Met es s t) : Over s t := ⟨es, .inl h⟩

theorem Over.after {es : List HostEvent} {s t u : State} (h : Met es s t) : Over t u → Over s u := by
  rintro ⟨fs, h' | h'⟩
  · exact (h.trans h').over
  · exact ⟨es ++ fs, .inr (h.cutOff h')⟩

theorem Run.Tracks.after {α : Type} {es : List HostEvent} {s t : State} {r : Run α} (h : Met es s t)
    (hr : r.Tracks t) : r.Tracks s := by
  cases r with
  | ok a u =>
    obtain ⟨hb, fs, hf⟩ := hr
    exact ⟨hb, es ++ fs, h.trans hf⟩
  | ended u => exact Over.after h hr

theorem Run.Tracks.bind {α β : Type} {s : State} {r : Run α} {f : α → State → Run β} (h : r.Tracks s)
    (hf : ∀ a t, t.busy = true → (f a t).Tracks t) : (r.bind f).Tracks s := by
  cases r with
  | ok a t =>
    obtain ⟨hb, es, he⟩ := h
    exact (hf a t hb).after he
  | ended t => exact h

/-- A part of a command and then the rest of it, to the command's end. -/
theorem Run.Tracks.finish {α β : Type} {s : State} {r : Run α} {f : α → State → Run β} (h : r.Tracks s)
    (hf : ∀ a t, t.busy = true → Over t (f a t).state) : Over s (r.bind f).state := by
  cases r with
  | ok a t =>
    obtain ⟨hb, es, he⟩ := h
    exact Over.after he (hf a t hb)
  | ended t => exact h

/-- A part of a command that meets nothing. -/
theorem Run.Tracks.ok {α : Type} {s t : State} (a : α) (hb : t.busy = true) (h : Met [] s t) :
    (Run.ok a t).Tracks s := ⟨hb, [], h⟩

/-- The events that landed in a command are those it met. -/
theorem landed_eq {es : List HostEvent} {s t : State} (h : s.inbox.map (·.event) = es ++ t.inbox.map (·.event)) :
    landed s t = es := by
  have hl : s.inbox.length = es.length + t.inbox.length := by simpa using congrArg List.length h
  rw [landed, List.map_take, h, hl, Nat.add_sub_cancel, List.take_left]

/-! ## The engine's own changes -/

theorem resetsOf_append {tr : List EngineEvent} {e : EngineEvent} (h : e ≠ .reset) :
    resetsOf (tr ++ [e]) = resetsOf tr := by
  simp [resetsOf, List.count_append, h]

theorem Met.logEvent {e : EngineEvent} (h : e ≠ .reset) (s : State) : Met [] s (logEvent e s) :=
  .own rfl rfl rfl (resetsOf_append h)

theorem Met.complete (c : ErrCode) (s : State) : Met [] s (complete c s) :=
  .own rfl rfl rfl (resetsOf_append (by simp))

theorem Met.accept (opc : Byte) (cmd : Option Instr) (s : State) : Met [] s (accept opc cmd s) :=
  .own rfl rfl rfl (resetsOf_append (by simp))

theorem Met.raiseError (c : ErrCode) (s : State) : Met [] s (raiseError c s) := by
  unfold Machine.raiseError
  dsimp only
  split <;> exact .own rfl rfl rfl (resetsOf_append (by simp))

theorem Met.storeTorn (a : Nat) (v : List Byte) (s : State) : Met [] s (storeTorn a v s) := .own rfl rfl rfl rfl

theorem Met.storeAll (a : Nat) (v : List Byte) (s : State) : Met [] s (storeAll a v s) := .own rfl rfl rfl rfl

theorem Met.nextDraw (s : State) : Met [] s (nextDraw s) := .own rfl rfl rfl rfl

theorem Met.setPhase (p : Phase) (s : State) : Met [] s (setPhase p s) := .own rfl rfl rfl rfl

theorem Met.setSponge (S : Sponge) (s : State) : Met [] s (setSponge S s) := .own rfl rfl rfl rfl

theorem Met.countBlock (s : State) : Met [] s (countBlock s) := .own rfl rfl rfl rfl

theorem Met.eraseBlk (s : State) : Met [] s (eraseBlk s) := .own rfl rfl rfl rfl

theorem Met.wipe (s : State) : Met [] s (wipe s) := .own rfl rfl rfl rfl

theorem Met.loadTagBuf (b : List Byte) (s : State) : Met [] s (loadTagBuf b s) := .own rfl rfl rfl rfl

theorem Met.compareTags (s : State) : Met [] s (compareTags s) := .own rfl rfl rfl rfl

theorem Met.setAuth (ok fail : Bool) (s : State) : Met [] s (setAuth ok fail s) := .own rfl rfl rfl rfl

theorem Met.setOutLen (v : Word) (s : State) : Met [] s (setOutLen v s) := .own rfl rfl rfl rfl

/-- The end of every command that reports its output length. -/
theorem Met.completeWith (v : Word) (s : State) : Met [] s (Machine.complete .noError (Machine.setOutLen v s)) :=
  (Met.setOutLen v s).own_trans (.complete .noError _)

theorem Met.busFault (a : Nat) (s : State) : Met [] s (busFault a s) :=
  Met.own_trans (t := { s with faultAddr := BitVec.ofNat 64 a }) (.own rfl rfl rfl rfl) (.raiseError _ _)

theorem Met.codecStep (t : Tag) (R : Nat) (blk : List Byte) (S : Sponge) (s : State) :
    Met [] s (codecStep t R blk S s) :=
  .own rfl rfl rfl (resetsOf_append (by simp))

theorem Met.initStep (R : Nat) (s : State) : Met [] s (initStep R s) :=
  .own rfl rfl rfl (resetsOf_append (by simp))

theorem Met.finalStep (R : Nat) (s : State) : Met [] s (finalStep R s) :=
  .own rfl rfl rfl ((resetsOf_append (by simp)).trans (resetsOf_append (by simp)))

/-! ## Slots -/

theorem Met.hostEvent {s : State} {x : Arrival} {rest : List Arrival} (hi : s.inbox = x :: rest) (hb : s.busy = true)
    (hb' : (hostEvent x.event { s with inbox := rest }).busy = true) :
    Met [x.event] s (hostEvent x.event { s with inbox := rest }) where
  inbox := by rw [hi, hostEvent_inbox]; rfl
  platform := (outsideOnly_of_busy (s := { s with inbox := rest }) hb hb').platform_eq
  wrBusy := hostEvent_wrBusy (s := { s with inbox := rest }) hb hb'
  resets := congrArg resetsOf (outsideOnly_of_busy (s := { s with inbox := rest }) hb hb').trace_eq

/-- A reset that lands cuts the command off. -/
theorem CutOff.hostEvent {s u : State} {x : Arrival} {rest : List Arrival} (hi : s.inbox = x :: rest)
    (hu : Met [] { s with inbox := rest } u) (hr : isReset u.platform x.event) :
    CutOff [x.event] s (hostEvent x.event u) := by
  obtain ⟨w, hw, he⟩ := hostEvent_of_reset hr
  refine ⟨?_, by rw [he]; rfl, ?_⟩
  · have hrest : rest.map (·.event) = u.inbox.map (·.event) := hu.inbox
    rw [hi, hostEvent_inbox, List.map_cons, List.singleton_append, hrest]
  · have hc : resetsOf (resetEngine w).trace = resetsOf u.trace + 1 := by
      simp [resetsOf, List.count_append, hw.trace_eq]
    have hs : resetsOf u.trace = resetsOf s.trace := hu.resets
    rw [he, hc, hs]
    exact Nat.lt_succ_self _

/-- A slot, where an access that begins changes nothing of what is tracked. -/
theorem land_tracks {s : State} {l : List Arrival} (hb : s.busy = true) (hi : s.inbox = l)
    {begun : Option (State → State)} (hf : ∀ u, Met [] u (begun.getD id u)) : (land begun l s).Tracks s := by
  induction l generalizing s with
  | nil => exact .ok () hb (.own hi.symm rfl rfl rfl)
  | cons x rest ih =>
    obtain ⟨time, e⟩ := x
    match time with
    | .whenIdle => exact .ok () hb (.own hi.symm rfl rfl rfl)
    | .slot (n + 1) inside => exact .ok () hb ⟨by rw [hi]; rfl, rfl, rfl, rfl⟩
    | .slot 0 inside =>
      simp only [land]
      split
      · rename_i hst
        obtain rfl : e = .dmaStall := by cases e <;> simp [HostEvent.isStall] at hst ⊢
        have hm : Met [HostEvent.dmaStall] s { s with inbox := rest } := Met.hostEvent hi hb hb
        exact (hm.trans (hf _)).over
      · split
        · rename_i hgo
          exact (ih hgo (hostEvent_inbox _ _)).after (Met.hostEvent hi hb hgo)
        · rename_i hcut
          have hcut : (Machine.hostEvent e { s with inbox := rest }).busy = false := by simpa using hcut
          have hr := isReset_of_not_busy (s := { s with inbox := rest }) hb hcut
          have hu : Met [] { s with inbox := rest }
              (if inside = true then begun.getD id { s with inbox := rest } else { s with inbox := rest }) := by
            split
            · exact hf _
            · exact .refl _
          exact ⟨[e], .inr (CutOff.hostEvent hi hu (by rw [hu.platform]; exact hr))⟩

theorem slot_tracks {s : State} (hb : s.busy = true) : (slot s).Tracks s := land_tracks hb rfl Met.refl

theorem enter_tracks {s : State} (hb : s.busy = true) (p : Phase) : (enter p s).Tracks s :=
  Run.Tracks.after ((Met.setPhase p s).own_trans (.logEvent (by simp) _)) (slot_tracks hb)

theorem wipePhase_tracks {s : State} (hb : s.busy = true) : (wipePhase s).Tracks s :=
  (enter_tracks hb .wipe).bind fun _ t ht => Run.Tracks.after (.wipe t) (slot_tracks (s := wipe t) ht)

/-! ## DMA accesses -/

theorem dmaRead_tracks {s : State} (hb : s.busy = true) (a n : Nat) : (dmaRead a n s).Tracks s := by
  unfold dmaRead
  split
  · exact .ok [] hb (.refl s)
  · refine Run.Tracks.bind (land_tracks hb rfl fun u => .logEvent (by simp) u) fun _ t ht => ?_
    have hl : Met [] t (logEvent (.read a n) t) := .logEvent (by simp) t
    simp only
    split
    · exact (hl.own_trans (.busFault _ _)).over
    · exact .ok _ ht (hl.own_trans (.nextDraw _))

theorem dmaWrite_tracks {s : State} (hb : s.busy = true) (a : Nat) (v : List Byte) : (dmaWrite a v s).Tracks s := by
  have hl : ∀ u, Met [] u (logEvent (.write a v.length) u) := fun u => .logEvent (by simp) u
  unfold dmaWrite
  split
  · exact .ok () hb (.refl s)
  · refine Run.Tracks.bind (land_tracks hb rfl fun u => (hl u).own_trans (.storeTorn _ _ _)) fun _ t ht => ?_
    simp only
    split
    · exact ((hl t).own_trans ((Met.storeTorn _ _ _).own_trans (.busFault _ _))).over
    · exact .ok () ht ((hl t).own_trans (.storeAll _ _ _))

/-! ## The parts of a message -/

theorem absorbBlocks_tracks (a : Nat) (t : Tag) (R left : Nat) {s : State} (hb : s.busy = true) :
    (absorbBlocks a t R left s).Tracks s := by
  induction left generalizing s with
  | zero => exact .ok () hb (.refl s)
  | succ left ih =>
    exact (dmaRead_tracks hb _ _).bind fun b u hu =>
      Run.Tracks.after ((Met.codecStep t R b (absorbBlock t R b u.S) u).own_trans (.countBlock _)) (ih hu)

theorem absorbRegion_tracks (r : Region) (t : Tag) (R : Nat) {s : State} (hb : s.busy = true) :
    (absorbRegion r t R s).Tracks s := by
  unfold absorbRegion
  split
  · exact .ok () hb (.refl s)
  · exact (absorbBlocks_tracks r.addr t R _ hb).bind fun _ u hu =>
      (dmaRead_tracks hu _ _).bind fun tail w hw =>
        .ok () hw ((Met.codecStep t R (pad tail) (absorbLast t R tail w.S) w).own_trans (.eraseBlk _))

theorem cryptBlocks_tracks (ia oa : Nat) (d : CryptDir) (R left : Nat) {s : State} (hb : s.busy = true) :
    (cryptBlocks ia oa d R left s).Tracks s := by
  induction left generalizing s with
  | zero => exact .ok () hb (.refl s)
  | succ left ih =>
    exact (dmaRead_tracks hb _ _).bind fun b u hu =>
      Run.Tracks.after (.codecStep .payload R b _ u)
        ((dmaWrite_tracks (s := codecStep .payload R b _ u) hu _ _).bind fun _ w hw =>
          Run.Tracks.after (.countBlock w) (ih hw))

theorem cryptRegion_tracks (ia oa n : Nat) (d : CryptDir) (R : Nat) {s : State} (hb : s.busy = true) :
    (cryptRegion ia oa n d R s).Tracks s := by
  unfold cryptRegion
  split
  · exact .ok () hb (.refl s)
  · refine (cryptBlocks_tracks ia oa d R _ hb).bind fun _ u hu => (dmaRead_tracks hu _ _).bind fun tail w hw => ?_
    refine Run.Tracks.after
      ((Met.codecStep .payload R (cryptTailBlock d R tail w.S) (cryptLast d R tail w.S).2 w).own_trans (.eraseBlk _))
      (Run.Tracks.bind (dmaWrite_tracks ?_ _ _) fun _ x hx => ?_)
    · exact hw
    · exact .ok () hx (.eraseBlk x)

theorem messagePhases_tracks (d : CryptDir) (n R : Nat) {s : State} (hb : s.busy = true) :
    (messagePhases d n R s).Tracks s :=
  Run.Tracks.after (.initStep R s) <|
    (enter_tracks (s := initStep R s) hb .header).bind fun _ _ h₁ =>
    (absorbRegion_tracks _ .header R h₁).bind fun _ _ h₂ =>
    (enter_tracks h₂ .payload).bind fun _ _ h₃ =>
    (cryptRegion_tracks _ _ n d R h₃).bind fun _ _ h₄ =>
    (enter_tracks h₄ .trailer).bind fun _ _ h₅ =>
    (absorbRegion_tracks _ .trailer R h₅).bind fun _ _ h₆ =>
    (enter_tracks h₆ .final).bind fun _ u h₇ => .ok () h₇ (.finalStep R u)

/-! ## Whole commands -/

theorem sealRun_over {s : State} (hb : s.busy = true) : Over s (sealRun s).state :=
  (messagePhases_tracks _ _ _ hb).finish fun _ _ h₁ =>
    (dmaWrite_tracks h₁ _ _).finish fun _ _ h₂ =>
    (wipePhase_tracks h₂).finish fun _ u _ => (Met.completeWith _ u).over

theorem sealBody_over {s : State} (hb : s.busy = true) : Over s (sealBody s).state := by
  refine (enter_tracks hb .init).finish fun _ t ht => ?_
  split
  · exact (Met.raiseError _ t).over
  · split
    · exact (Met.raiseError _ t).over
    · exact sealRun_over ht

theorem openRun_over {s : State} (hb : s.busy = true) : Over s (openRun s).state := by
  refine (dmaRead_tracks hb _ _).finish fun b t ht => ?_
  refine Over.after (.loadTagBuf b t)
    ((messagePhases_tracks (s := loadTagBuf b t) _ _ _ ht).finish fun _ u hu => ?_)
  refine Over.after (.compareTags u) (Run.Tracks.finish ?_ fun _ w hw => (wipePhase_tracks hw).finish fun _ x _ => ?_)
  · split
    · exact .ok () hu (.refl _)
    · exact dmaWrite_tracks (s := compareTags u) hu _ _
  · exact ((Met.setAuth _ _ x).own_trans (.completeWith _ _)).over

theorem openBody_over {s : State} (hb : s.busy = true) : Over s (openBody s).state := by
  refine (enter_tracks hb .init).finish fun _ t ht => ?_
  split
  · exact (Met.raiseError _ t).over
  · split
    · exact ((Met.wipe t).own_trans ((Met.setAuth false true _).own_trans (.completeWith 0 _))).over
    · split
      · exact (Met.raiseError _ t).over
      · exact openRun_over ht

theorem permuteBody_over (rounds : Nat) {s : State} (hb : s.busy = true) : Over s (permuteBody rounds s).state := by
  refine (enter_tracks hb .perm).finish fun _ t ht => ?_
  split
  · exact (Met.raiseError _ t).over
  · refine (dmaRead_tracks ht _ _).finish fun b u hu => ?_
    have hp : Met [] u (logEvent (.permute none rounds) (setSponge (F rounds (loadSponge b)) u)) :=
      (Met.setSponge _ u).own_trans (.logEvent (by simp) _)
    refine Over.after hp (Run.Tracks.finish (dmaWrite_tracks ?_ _ _) fun _ w _ => ?_)
    · exact hu
    · exact ((Met.setSponge zeroSponge w).own_trans (.completeWith 128 _)).over

theorem eraseBody_over {s : State} (hb : s.busy = true) :
    Over s ((wipePhase s).bind fun _ s => .ok () (complete .noError (setOutLen 0 s))).state :=
  (wipePhase_tracks hb).finish fun _ t _ => (Met.completeWith 0 t).over

/-- Acceptance, its slot, and the body (42_orchestrator.md R170). -/
theorem issue_over {s : State} (hb : s.busy = false) (opc : Byte) (cmd : Option Instr) {body : State → Run Unit}
    (h : ∀ t, t.busy = true → Over t (body t).state) : Over s (issue opc cmd body s) := by
  rw [issue_idle hb]
  exact Over.after (.accept opc cmd s) ((slot_tracks (s := accept opc cmd s) rfl).finish fun _ t ht => h t ht)

/-- Every command of an idle engine, whatever lands in it. -/
theorem exec_over {s t : State} {i : Instr} (hb : s.busy = false) (h : exec i s = .next t) : Over s t := by
  cases i <;> obtain rfl := Host.Outcome.next.inj h
  case nop => exact issue_over hb _ _ fun u _ => (Met.complete _ u).over
  case sealMsg => exact issue_over hb _ _ fun _ => sealBody_over
  case openMsg => exact issue_over hb _ _ fun _ => openBody_over
  case permute rounds => exact issue_over hb _ _ fun _ => permuteBody_over rounds
  case erase => exact issue_over hb _ _ fun _ => eraseBody_over

/-- WR_BUSY after a command: what the events that landed in it make of it, or 0 where a reset cut it off. -/
theorem exec_wrBusy {s t : State} {i : Instr} (hb : s.busy = false) (h : exec i s = .next t) :
    (t.wrBusy = (landed s t).foldl (wrBusyAfter s.platform) s.wrBusy ∧ resetsOf t.trace = resetsOf s.trace) ∨
      (t.wrBusy = false ∧ resetsOf s.trace < resetsOf t.trace) := by
  obtain ⟨es, hm | hc⟩ := exec_over hb h
  · rw [landed_eq hm.inbox]; exact .inl ⟨hm.wrBusy, hm.resets⟩
  · exact .inr ⟨hc.wrBusy, hc.resets⟩

/-! ## The statement -/

/-- Settles O51: each write at a step and at a slot by `takesTo_protected_busy` and `takesTo_storeReg`, and over a whole
command by `exec_wrBusy`. -/
theorem writesWhileBusy : Obligations.WritesWhileBusy := by
  unfold Obligations.WritesWhileBusy
  constructor
  · intro s r v rest hw
    refine ⟨fun hb hr => ?_, ?_, ?_, ?_, ?_, ?_⟩
    · exact takesTo_protected_busy hw hb ((mem_protectedRegs r).mp hr) v rest
    · rintro rfl
      exact takesTo_storeReg hw rfl v rest rfl
    · rintro rfl
      exact takesTo_storeReg hw rfl v rest rfl
    · rintro rfl hv
      have hs := storeReg_ctrl_clear hv (respond .writeDone { s with inbox := rest })
      have ht := takesTo_storeReg (r := .ctrl) hw rfl v rest (by rw [hs]; rfl)
      rwa [hs] at ht
    · rintro hb rfl ha
      exact step_ctrl_busy hw hb ha
    · intro hr
      rcases hr with hr | ⟨n, rfl⟩
      · simp only [List.mem_cons, List.not_mem_nil, or_false] at hr
        rcases hr with rfl | rfl | rfl <;> exact takesTo_storeReg hw rfl v rest rfl
      · exact takesTo_storeReg hw rfl v rest rfl
  · intro s t i hb hw h
    rcases exec_wrBusy hb h with ⟨hwr, _⟩ | ⟨hwr, hlt⟩
    · rw [hwr]
      exact ⟨fun hset hst _ => foldl_wrBusyAfter_set hw hst (.inr hset), of_foldl_wrBusyAfter hw⟩
    · rw [hwr]
      exact ⟨fun _ _ heq => absurd heq (by omega), fun hf => nomatch hf⟩

end Sys2Proof.Machine
end

section
/-! SUPPORT. The permutation (40_permutation.md R122, R123, R126, R129): the bits of H and of the rotation, from which each of
the two mixing steps is injective and fixes the zero state, and the lift of both facts through G, the round and F. -/

namespace Sys2Proof.Machine

/-! ## The combining operator -/

@[simp] theorem H_zero (x : Word) : H x 0#64 = x := by simp [H]

theorem H_comm (x y : Word) : H x y = H y x := by
  rw [H, H, BitVec.xor_comm x y, BitVec.and_comm x y]

theorem getLsbD_H_zero (x y : Word) : (H x y).getLsbD 0 = (x.getLsbD 0 ^^ y.getLsbD 0) := by
  simp [H, -BitVec.getLsbD_eq_getElem]

/-- The carry into a bit of H comes from the bit below it only. -/
theorem getLsbD_H_succ (x y : Word) {i : Nat} (hi : i + 1 < 64) :
    (H x y).getLsbD (i + 1) =
      ((x.getLsbD (i + 1) ^^ y.getLsbD (i + 1)) ^^ (x.getLsbD i && y.getLsbD i)) := by
  simp [H, -BitVec.getLsbD_eq_getElem, hi]

/-- For a fixed second operand H loses nothing of its first: bit i of H gives bit i of `x` once bit i - 1 is known. -/
theorem H_injective (y : Word) : Function.Injective (H · y) := by
  intro x x' h
  refine BitVec.eq_of_getLsbD_eq fun i hi => ?_
  induction i with
  | zero =>
    have hbit := congrArg (BitVec.getLsbD · 0) h
    simpa only [getLsbD_H_zero, Bool.xor_left_inj] using hbit
  | succ i ih =>
    have hbit := congrArg (BitVec.getLsbD · (i + 1)) h
    simpa only [getLsbD_H_succ _ _ hi, ih (by omega), Bool.xor_left_inj] using hbit

/-- Settles O6: the formula is H's definition, and the corner cases are `H_zero` and `H_comm`. -/
theorem combiningOperator : Obligations.CombiningOperator := by
  unfold Obligations.CombiningOperator
  exact ⟨fun _ _ => rfl, H_zero, H_zero 0, H_comm, by decide, by decide, by decide⟩

/-! ## The rotation -/

theorem rotr_eq_rotateRight (x : Word) {n : Nat} (hn : n < 64) : rotr x n = x.rotateRight n := by
  rw [BitVec.rotateRight_def, Nat.mod_eq_of_lt hn, rotr]

theorem getLsbD_rotr (x : Word) {n i : Nat} (hn : n < 64) (hi : i < 64) :
    (rotr x n).getLsbD i = x.getLsbD ((i + n) % 64) := by
  rw [rotr_eq_rotateRight x hn, BitVec.getLsbD_rotateRight, Nat.mod_eq_of_lt hn]
  by_cases hlow : i < 64 - n
  · have hidx : (i + n) % 64 = n + i := by omega
    simp [hlow, hidx]
  · have hidx : (i + n) % 64 = i - (64 - n) := by omega
    simp [hlow, hidx, hi]

@[simp] theorem rotr_zero (n : Nat) : rotr 0#64 n = 0#64 := by simp [rotr]

/-- Bit j of `x` is bit (j + 64 - n) mod 64 of its rotation. -/
theorem rotr_injective {n : Nat} (hn : n < 64) : Function.Injective (rotr · n) := by
  intro x x' h
  refine BitVec.eq_of_getLsbD_eq fun j hj => ?_
  have hbit := congrArg (BitVec.getLsbD · ((j + 64 - n) % 64)) h
  have hidx : ((j + 64 - n) % 64 + n) % 64 = j := by omega
  simpa only [getLsbD_rotr _ hn (Nat.mod_lt _ (by decide : 64 > 0)), hidx] using hbit

/-- Settles O7: the four amounts are below 64, where `getLsbD_rotr` gives the bits. -/
theorem rotationIsToTheRight : Obligations.RotationIsToTheRight := by
  unfold Obligations.RotationIsToTheRight
  refine ⟨fun x n hmem => ⟨rfl, fun i hi => getLsbD_rotr x ?_ hi⟩, by decide, by decide, by decide⟩
  simp only [List.mem_cons, List.not_mem_nil, or_false] at hmem
  omega

/-! ## The zero state -/

@[simp] theorem zeroSponge_getElem {i : Nat} (hi : i < 16) : zeroSponge[i] = 0#64 := Vector.getElem_replicate hi

@[simp] theorem zeroSponge_set {i : Nat} (hi : i < 16) : zeroSponge.set i 0#64 = zeroSponge := by
  rw [← zeroSponge_getElem hi, Vector.set_getElem_self]

@[simp] theorem combine_zeroSponge (x y : Fin 16) : combine x y zeroSponge = zeroSponge := by simp [combine]

@[simp] theorem mixRotate_zeroSponge (x y : Fin 16) (n : Nat) : mixRotate x y n zeroSponge = zeroSponge := by
  simp [mixRotate]

@[simp] theorem G_zeroSponge (a b c d : Fin 16) : G a b c d zeroSponge = zeroSponge := by simp [G, halfG]

theorem roundOnce_zeroSponge : roundOnce zeroSponge = zeroSponge := by simp [roundOnce, columns, diagonals]

/-! ## Injectivity, from one mixing step to the round -/

/-- A step that replaces word x by a function of words x and y is injective where that function is injective in word x:
every other word, y among them, stands unchanged in the result. -/
theorem set_injective {x y : Fin 16} (hxy : x ≠ y) {f : Word → Word → Word} (hf : ∀ v, Function.Injective (f · v)) :
    Function.Injective fun S : Sponge => S.set x (f S[x] S[y]) := by
  intro S T h
  have hother : ∀ j : Fin 16, x ≠ j → S[j] = T[j] := fun j hj => by
    have hj' : x.val ≠ j.val := fun he => hj (Fin.ext he)
    simpa [Vector.getElem_set_ne _ _ hj'] using congrArg (fun U : Sponge => U[j]) h
  have hx : S[x] = T[x] := by
    refine hf T[y] ?_
    simpa [hother y hxy] using congrArg (fun U : Sponge => U[x]) h
  refine Vector.ext fun j hj => ?_
  by_cases hjx : x = ⟨j, hj⟩
  · subst hjx; exact hx
  · exact hother ⟨j, hj⟩ hjx

theorem combine_injective {x y : Fin 16} (hxy : x ≠ y) : Function.Injective (combine x y) :=
  set_injective hxy H_injective

theorem mixRotate_injective {x y : Fin 16} (hxy : x ≠ y) {n : Nat} (hn : n < 64) :
    Function.Injective (mixRotate x y n) :=
  set_injective hxy (f := fun u v => rotr (u ^^^ v) n) fun v _ _ h =>
    (BitVec.xor_left_inj v).mp (rotr_injective hn h)

theorem halfG_injective {a b c d : Fin 16} (h : [a, b, c, d].Nodup) {m n : Nat} (hm : m < 64) (hn : n < 64) :
    Function.Injective (halfG a b c d m n) := by
  obtain ⟨⟨hab, -, had⟩, ⟨hbc, -⟩, hcd⟩ :
      (a ≠ b ∧ a ≠ c ∧ a ≠ d) ∧ (b ≠ c ∧ b ≠ d) ∧ c ≠ d := by simpa using h
  exact (mixRotate_injective hbc hn).comp <| (combine_injective hcd).comp <|
    (mixRotate_injective had.symm hm).comp (combine_injective hab)

theorem G_injective {a b c d : Fin 16} (h : [a, b, c, d].Nodup) : Function.Injective (G a b c d) :=
  (halfG_injective h (by decide) (by decide)).comp (halfG_injective h (by decide) (by decide))

theorem columns_injective : Function.Injective columns :=
  (G_injective (by decide)).comp <| (G_injective (by decide)).comp <|
    (G_injective (by decide)).comp (G_injective (by decide))

theorem diagonals_injective : Function.Injective diagonals :=
  (G_injective (by decide)).comp <| (G_injective (by decide)).comp <|
    (G_injective (by decide)).comp (G_injective (by decide))

theorem finite_sponge : Finite Sponge :=
  Finite.of_injective (fun (S : Sponge) (i : Fin 16) => S[i]) fun _ _ h =>
    Vector.ext fun i hi => congrFun h ⟨i, hi⟩

/-- The states are finitely many, so that an injective round is a bijective one. -/
theorem roundOnce_bijective : Function.Bijective roundOnce :=
  have := finite_sponge
  Finite.injective_iff_bijective.mp (diagonals_injective.comp columns_injective)

/-! ## The permutation -/

theorem F_eq_iterate (R : Nat) : F R = roundOnce^[R] := by
  induction R with
  | zero => rfl
  | succ R ih => rw [Function.iterate_succ, ← ih]; rfl

/-- Settles O9: `F_eq_iterate`, and two rounds evaluated for the table. -/
theorem permutationIsTheIteratedRound : Obligations.PermutationIsTheIteratedRound := by
  unfold Obligations.PermutationIsTheIteratedRound
  exact ⟨fun R S => congrFun (F_eq_iterate R) S, by decide +kernel⟩

/-- Settles O10: F(R) is an iterate of the round, which fixes the zero state and is a bijection. -/
theorem permutationIsBijective : Obligations.PermutationIsBijective := by
  unfold Obligations.PermutationIsBijective
  refine ⟨fun R => ?_, fun _ => rfl, fun R => ?_⟩
  · rw [F_eq_iterate]; exact Function.iterate_fixed roundOnce_zeroSponge R
  · rw [F_eq_iterate]; exact roundOnce_bijective.iterate R

end Sys2Proof.Machine
end

section
/-! SUPPORT. The block codec undone (41_block_codec.md R160). A block is read byte by byte: what LE64 and LE64inv do to a byte
(20_memory.md R71), hence that XOR into the rate is XOR of every byte and that the rate loaded from its own bytes is itself. So
full blocks are undone, a decrypted tail is reconstructed as the whole padded block of its encryption, and the rest is an
induction on blocks. -/

namespace Sys2Proof.Machine

/-! ## Little-endian words -/

/-- Bits of the sum do not overlap, so that no term of it carries into the next. -/
theorem getLsbD_le64Sum (b : List Byte) (off : Nat) {n : Nat} (hn : n ≤ 8) (q : Nat) :
    (le64Sum b off n).getLsbD q = (decide (q < 8 * n) && (b.getD (off + q / 8) 0).getLsbD (q % 8)) := by
  induction n generalizing q with
  | zero => simp [le64Sum]
  | succ n ih =>
    have hterm (q : Nat) : ((b.getD (off + n) 0).setWidth 64 <<< (8 * n)).getLsbD q =
        (decide (8 * n ≤ q ∧ q < 64) && (b.getD (off + n) 0).getLsbD (q - 8 * n)) := by
      rw [BitVec.getLsbD_shiftLeft, BitVec.getLsbD_setWidth]
      grind
    have hdisj : le64Sum b off n &&& (b.getD (off + n) 0).setWidth 64 <<< (8 * n) = 0#64 := by
      refine BitVec.eq_of_getLsbD_eq fun q _ => ?_
      rw [BitVec.getLsbD_and, ih (by omega), hterm]
      grind
    rw [le64Sum, BitVec.add_eq_or_of_and_eq_zero _ _ hdisj, BitVec.getLsbD_or, ih (by omega), hterm]
    rcases Nat.lt_trichotomy (q / 8) n with hlt | rfl | hgt
    · have hlow : q < 8 * n := by omega
      simp [hlow, Nat.not_le.mpr hlow, Nat.lt_of_lt_of_le hlow]
    · have hq : 8 * (q / 8) ≤ q ∧ q < 64 ∧ ¬ q < 8 * (q / 8) ∧ q < 8 * (q / 8 + 1) ∧ q - 8 * (q / 8) = q % 8 := by omega
      simp [hq]
    · have hq : 8 ≤ q - 8 * n ∧ ¬ q < 8 * n ∧ ¬ q < 8 * (n + 1) := by omega
      simp [hq, -BitVec.getLsbD_eq_getElem]

theorem getLsbD_le64 (b : List Byte) (off : Nat) {q : Nat} (hq : q < 64) :
    (le64 b off).getLsbD q = (b.getD (off + q / 8) 0).getLsbD (q % 8) := by
  rw [le64, getLsbD_le64Sum b off (Nat.le_refl 8), decide_eq_true hq, Bool.true_and]

/-- Byte `j` of a little-endian word (20_memory.md R71). -/
theorem extractLsb'_le64 (b : List Byte) (off : Nat) {j : Nat} (hj : j < 8) :
    (le64 b off).extractLsb' (8 * j) 8 = b.getD (off + j) 0 := by
  refine BitVec.eq_of_getLsbD_eq fun q hq => ?_
  have hdiv : (8 * j + q) / 8 = j := by omega
  have hmod : (8 * j + q) % 8 = q := by omega
  rw [BitVec.getLsbD_extractLsb', decide_eq_true hq, Bool.true_and, getLsbD_le64 _ _ (by omega), hdiv, hmod]

@[simp] theorem length_le64inv (w : Word) : (le64inv w).length = 8 := rfl

theorem getElem?_le64inv (w : Word) {j : Nat} (hj : j < 8) :
    (le64inv w)[j]? = some (w.extractLsb' (8 * j) 8) := by
  interval_cases j <;> rfl

theorem wordBytes_cons (w : Word) (ws : List Word) : wordBytes (w :: ws) = le64inv w ++ wordBytes ws := rfl

/-- Byte `k` of a run of words is in word `k / 8`. -/
theorem getElem?_wordBytes (ws : List Word) (k : Nat) :
    (wordBytes ws)[k]? = ws[k / 8]?.map (·.extractLsb' (8 * (k % 8)) 8) := by
  induction ws generalizing k with
  | nil => simp [wordBytes]
  | cons w ws ih =>
    rw [wordBytes_cons]
    by_cases hk : k < 8
    · rw [List.getElem?_append_left hk, getElem?_le64inv w hk, Nat.div_eq_of_lt hk, Nat.mod_eq_of_lt hk]
      rfl
    · obtain ⟨k, rfl⟩ := Nat.exists_eq_add_of_le' (Nat.le_of_not_lt hk)
      rw [List.getElem?_append_right (Nat.le_add_left 8 k), length_le64inv, Nat.add_sub_cancel, ih]
      simp

/-! ## The rate, word by word and byte by byte -/

theorem rateBytes_eq (S : Sponge) : rateBytes S = wordBytes (List.ofFn fun i : Fin 12 => S[i.val]) := rfl

@[simp] theorem length_rateBytes (S : Sponge) : (rateBytes S).length = 96 := rfl

theorem getD_rateBytes (S : Sponge) {k : Nat} (hk : k < 96) :
    (rateBytes S).getD k 0 = (S[k / 8]'(by omega)).extractLsb' (8 * (k % 8)) 8 := by
  have hword : k / 8 < 12 := by omega
  rw [rateBytes_eq, List.getD_eq_getElem?_getD, getElem?_wordBytes, List.getElem?_ofFn, dif_pos hword]
  rfl

theorem xorRate_getElem (b : List Byte) (S : Sponge) {i : Nat} (hi : i < 16) :
    (xorRate b S)[i] = if i < 12 then S[i] ^^^ le64 b (8 * i) else S[i] := by
  interval_cases i <;> rfl

theorem setRate_getElem (b : List Byte) (S : Sponge) {i : Nat} (hi : i < 16) :
    (setRate b S)[i] = if i < 12 then le64 b (8 * i) else S[i] := by
  interval_cases i <;> rfl

/-- XOR of a block into the rate words is XOR of every byte. -/
theorem getD_rateBytes_xorRate (b : List Byte) (S : Sponge) {k : Nat} (hk : k < 96) :
    (rateBytes (xorRate b S)).getD k 0 = (rateBytes S).getD k 0 ^^^ b.getD k 0 := by
  have hword : k / 8 < 12 := by omega
  rw [getD_rateBytes _ hk, getD_rateBytes _ hk, xorRate_getElem, if_pos hword, BitVec.extractLsb'_xor,
    extractLsb'_le64 _ _ (Nat.mod_lt k (by decide)), Nat.div_add_mod]

theorem le64_rateBytes (S : Sponge) {i : Nat} (hi : i < 12) : le64 (rateBytes S) (8 * i) = S[i] := by
  refine BitVec.eq_of_getLsbD_eq fun q hq => ?_
  have hword : (8 * i + q / 8) / 8 = i := by omega
  have hbit : 8 * ((8 * i + q / 8) % 8) + q % 8 = q := by omega
  rw [getLsbD_le64 _ _ hq, getD_rateBytes _ (by omega), BitVec.getLsbD_extractLsb', hbit]
  simp [hword, Nat.mod_lt]

/-- Blocks of the rate's length are equal where their bytes are. -/
theorem block_ext {a b : List Byte} (ha : a.length = 96) (hb : b.length = 96)
    (h : ∀ k < 96, a.getD k 0 = b.getD k 0) : a = b :=
  List.ext_getElem (ha.trans hb.symm) fun k hka hkb => by
    simpa only [List.getD_eq_getElem _ _ hka, List.getD_eq_getElem _ _ hkb] using h k (ha ▸ hka)

/-- XOR of the keystream undoes itself. -/
theorem rateBytes_xorRate_xorRate {b : List Byte} (hb : b.length = 96) (S : Sponge) :
    rateBytes (xorRate (rateBytes (xorRate b S)) S) = b :=
  block_ext (length_rateBytes _) hb fun k hk => by
    rw [getD_rateBytes_xorRate _ _ hk, getD_rateBytes_xorRate _ _ hk, ← BitVec.xor_assoc, BitVec.xor_self,
      BitVec.zero_xor]

/-- Loading the ciphertext gives the state that made it. -/
theorem setRate_rateBytes_xorRate (b : List Byte) (S : Sponge) :
    setRate (rateBytes (xorRate b S)) S = xorRate b S := by
  refine Vector.ext fun i hi => ?_
  rw [setRate_getElem]
  split
  case isTrue hrate => rw [le64_rateBytes _ hrate]
  case isFalse hcap => rw [xorRate_getElem, if_neg hcap]

/-! ## One block -/

/-- R160 for a full block. -/
theorem decryptBlock_encryptBlock (R : Nat) {b : List Byte} (hb : b.length = 96) (S : Sponge) :
    decryptBlock R (encryptBlock R b S).1 S = (b, (encryptBlock R b S).2) :=
  Prod.ext (rateBytes_xorRate_xorRate hb _) (setRate_rateBytes_xorRate b _)

/-- A buffer of one byte changed where it stands. -/
theorem getD_set_apply (f : Byte → Byte) {b : List Byte} {i : Nat} (hi : i < b.length) (k : Nat) :
    (b.set i (f (b.getD i 0))).getD k 0 = if k = i then f (b.getD k 0) else b.getD k 0 := by
  rw [List.getD_eq_getElem?_getD, List.getElem?_set]
  by_cases hk : k = i
  · subst hk; simp [hi]
  · simp [hk, Ne.symm hk]

theorem length_pad {t : List Byte} (ht : t.length ≤ 95) : (pad t).length = 96 := by
  simp [pad, zeros]; omega

theorem getD_append_zeros (t : List Byte) (n k : Nat) : (t ++ zeros n).getD k 0 = t.getD k 0 := by
  rcases Nat.lt_or_ge k t.length with hlt | hge
  · exact List.getD_append _ _ _ _ hlt
  · rw [List.getD_append_right _ _ _ _ hge, List.getD_eq_default _ _ hge, zeros, List.getD_eq_getElem?_getD,
      List.getElem?_replicate]
    split <;> rfl

/-- The bytes of a padded tail (41_block_codec.md R144). -/
theorem getD_pad {t : List Byte} (ht : t.length ≤ 95) (k : Nat) :
    (pad t).getD k 0 = if k < t.length then t.getD k 0 else
      (if k = t.length then 0x01 else 0x00) ||| (if k = 95 then 0x80 else 0x00) := by
  have hlen : (t ++ zeros (96 - t.length)).length = 96 := by simp [zeros]; omega
  rw [pad, getD_set_apply (· ||| 0x80) (by rw [List.length_set, hlen]; decide),
    getD_set_apply (fun _ => 0x01) (by omega), getD_append_zeros]
  rcases Nat.lt_trichotomy k t.length with hlt | rfl | hgt
  · have hk : k ≠ 95 ∧ k ≠ t.length := by omega
    simp [hlt, hk]
  · split <;> simp
  · have hk : ¬ k < t.length ∧ k ≠ t.length := by omega
    split <;> simp [hk]

theorem take_pad {t : List Byte} (ht : t.length ≤ 95) : (pad t).take t.length = t := by
  rw [pad, List.take_set_of_le ht, List.take_set_of_le (Nat.le_refl _), List.take_left]

/-- The bytes of a reconstructed tail (41_block_codec.md R153). -/
theorem getD_decryptTailBlock {c ks : List Byte} (hc : c.length ≤ 95) (hks : ks.length = 96) (k : Nat) :
    (decryptTailBlock c ks).getD k 0 = if k < c.length then c.getD k 0 else
      ks.getD k 0 ^^^ ((if k = c.length then 0x01 else 0x00) ^^^ (if k = 95 then 0x80 else 0x00)) := by
  have hlen : (c ++ ks.drop c.length).length = 96 := by simp [hks]; omega
  rw [decryptTailBlock, getD_set_apply (· ^^^ 0x80) (by rw [List.length_set, hlen]; decide),
    getD_set_apply (· ^^^ 0x01) (by omega)]
  by_cases hlt : k < c.length
  · have hk : k ≠ 95 ∧ k ≠ c.length := by omega
    rw [if_neg hk.1, if_neg hk.2, if_pos hlt, List.getD_append _ _ _ _ hlt]
  · have hkey : (c ++ ks.drop c.length).getD k 0 = ks.getD k 0 := by
      simp only [List.getD_eq_getElem?_getD, List.getElem?_append_right (Nat.le_of_not_lt hlt), List.getElem?_drop,
        Nat.add_sub_cancel' (Nat.le_of_not_lt hlt)]
    rw [if_neg hlt, hkey]
    split_ifs <;> simp [BitVec.xor_assoc]

theorem length_decryptTailBlock {c ks : List Byte} (hc : c.length ≤ 95) (hks : ks.length = 96) :
    (decryptTailBlock c ks).length = 96 := by
  simp [decryptTailBlock, hks]; omega

/-- The two markers are different bits, so that toggling them in the keystream is XOR of the padding: a decrypted tail's
block is all 96 bytes of the encrypted one (41_block_codec.md R153). -/
theorem decryptTailBlock_take_xorRate {t : List Byte} (ht : t.length ≤ 95) (S : Sponge) :
    decryptTailBlock ((rateBytes (xorRate (pad t) S)).take t.length) (rateBytes S) = rateBytes (xorRate (pad t) S) := by
  have hlen : ((rateBytes (xorRate (pad t) S)).take t.length).length = t.length := by simp; omega
  have hc : ((rateBytes (xorRate (pad t) S)).take t.length).length ≤ 95 := by omega
  refine block_ext (length_decryptTailBlock hc rfl) rfl fun k hk => ?_
  rw [getD_decryptTailBlock hc rfl, hlen]
  split
  case isTrue hlt => simp only [List.getD_eq_getElem?_getD, List.getElem?_take_of_lt hlt]
  case isFalse hge =>
    rw [getD_rateBytes_xorRate _ _ hk, getD_pad ht, if_neg hge]
    congr 1
    split_ifs <;> rfl

theorem length_encryptLast (R : Nat) {t : List Byte} (ht : t.length ≤ 95) (S : Sponge) :
    (encryptLast R t S).1.length = t.length := by
  have hout : (encryptBlock R (pad t) S).1.length = 96 := rfl
  rw [encryptLast, List.length_take, hout, Nat.min_eq_left (by omega)]

/-- R160 for a tail. -/
theorem decryptLast_encryptLast (R : Nat) {t : List Byte} (ht : t.length ≤ 95) (S : Sponge) :
    decryptLast R (encryptLast R t S).1 S = (t, (encryptLast R t S).2) := by
  have hblock : decryptTailBlock (encryptLast R t S).1 (rateBytes (F R (injectTag .payload S))) =
      rateBytes (xorRate (pad t) (F R (injectTag .payload S))) := decryptTailBlock_take_xorRate ht _
  rw [decryptLast, hblock, length_encryptLast R ht, rateBytes_xorRate_xorRate (length_pad ht), take_pad ht,
    setRate_rateBytes_xorRate]
  rfl

/-! ## All blocks, by induction on their number -/

theorem length_cryptFrom_enc (R m : Nat) (D : List Byte) (S : Sponge) (hm : D.length / 96 = m) :
    (cryptFrom .enc R m D S).1.length = D.length := by
  induction m generalizing D S with
  | zero => exact length_encryptLast R (by omega) S
  | succ m ih =>
    have hrest : (D.drop 96).length / 96 = m := by rw [List.length_drop]; omega
    have hout : (encryptBlock R (D.take 96) S).1.length = 96 := rfl
    rw [cryptFrom, List.length_append, ih _ _ hrest, List.length_drop, cryptBlock, hout]
    omega

theorem cryptFrom_dec_enc (R m : Nat) (D : List Byte) (S : Sponge) (hm : D.length / 96 = m) :
    cryptFrom .dec R m (cryptFrom .enc R m D S).1 S = (D, (cryptFrom .enc R m D S).2) := by
  induction m generalizing D S with
  | zero => exact decryptLast_encryptLast R (by omega) S
  | succ m ih =>
    have hblock : (D.take 96).length = 96 := by rw [List.length_take]; omega
    have hrest : (D.drop 96).length / 96 = m := by rw [List.length_drop]; omega
    have hout : (encryptBlock R (D.take 96) S).1.length = 96 := rfl
    simp only [cryptFrom, cryptBlock, List.take_left' hout, List.drop_left' hout, decryptBlock_encryptBlock R hblock,
      ih _ _ hrest, List.take_append_drop]

/-! ## Whole payloads and messages -/

theorem length_cryptData_enc (skip : Bool) (R : Nat) (D : List Byte) (S : Sponge) :
    (cryptData skip .enc R D S).1.length = D.length := by
  rw [cryptData]
  split
  case isTrue h => rw [List.isEmpty_iff.mp (Bool.and_eq_true_iff.mp h).2, List.length_nil]
  case isFalse => exact length_cryptFrom_enc R _ D S rfl

theorem cryptData_dec_enc (skip : Bool) (R : Nat) (D : List Byte) (S : Sponge) :
    cryptData skip .dec R (cryptData skip .enc R D S).1 S = (D, (cryptData skip .enc R D S).2) := by
  have hlen := length_cryptData_enc skip R D S
  have hempty : (cryptData skip .enc R D S).1.isEmpty = D.isEmpty := by
    rw [Bool.eq_iff_iff, List.isEmpty_iff_length_eq_zero, List.isEmpty_iff_length_eq_zero, hlen]
  rw [cryptData.eq_def skip .dec, hempty, hlen]
  by_cases h : (skip && D.isEmpty) = true
  · rw [cryptData, if_pos h, if_pos h, List.isEmpty_iff.mp (Bool.and_eq_true_iff.mp h).2]
  · rw [if_neg h, cryptData, if_neg h, cryptFrom_dec_enc R _ D S rfl]

theorem processMessage_dec_enc (p : MessageParams) (body : List Byte) :
    processMessage p .dec (processMessage p .enc body).1 = (body, (processMessage p .enc body).2) := by
  simp only [processMessage, cryptData_dec_enc]

theorem openBytes_sealBytes (p : MessageParams) (body : List Byte) : openBytes p (sealBytes p body) = some body := by
  have htag : (processMessage p .enc body).2.length = 32 := rfl
  have hlen : (sealBytes p body).length - 32 = (processMessage p .enc body).1.length := by
    rw [sealBytes, List.length_append, htag, Nat.add_sub_cancel]
  have hlong : ¬ (sealBytes p body).length < 32 := by rw [sealBytes, List.length_append, htag]; omega
  rw [openBytes, if_neg hlong]
  simp only [hlen]
  simp only [sealBytes, List.take_left, List.drop_left, processMessage_dec_enc, if_true]

/-- Settles O14: R160 for one block and for a tail, then an induction on the number of blocks; equal states give Open the
tag of Seal. -/
theorem openUndoesSeal : Obligations.OpenUndoesSeal := by
  unfold Obligations.OpenUndoesSeal
  exact ⟨cryptData_dec_enc, openBytes_sealBytes⟩

end Sys2Proof.Machine
end

section
/-! SUPPORT. The block right after reset (70_reset_and_hazards.md R240), and the input checks of a message that fail: they end the
command with their code (42_orchestrator.md R180). -/

namespace Sys2Proof.Machine

/-! ## A message whose input checks fail -/

@[simp] theorem raiseError_err (e : ErrCode) (s : State) : (raiseError e s).err = e := rfl

@[simp] theorem inputCheck_accept (opc : Byte) (cmd : Option Instr) (s : State) :
    inputCheck (accept opc cmd s) = inputCheck s := rfl

@[simp] theorem inputCheck_entered (p : Phase) (s : State) :
    inputCheck (logEvent (.enter p) (setPhase p s)) = inputCheck s := rfl

theorem inputCheck_of_badRounds {s : State} (h : roundsValid s.rounds = false) : inputCheck s = some .badRounds := by
  simp [inputCheck, h]

theorem sealBody_of_inputCheck {s : State} {e : ErrCode} (hq : quiet s = true) (he : inputCheck s = some e) :
    sealBody s = .ended (raiseError e (logEvent (.enter .init) (setPhase .init s))) := by
  simp only [sealBody, enter_quiet hq, Run.bind_ok, inputCheck_entered, he]

theorem openBody_of_inputCheck {s : State} {e : ErrCode} (hq : quiet s = true) (he : inputCheck s = some e) :
    openBody s = .ended (raiseError e (logEvent (.enter .init) (setPhase .init s))) := by
  simp only [openBody, enter_quiet hq, Run.bind_ok, inputCheck_entered, he]

/-- A command whose body raises the code of a failed input check ends with that code. -/
theorem issue_err_of_inputCheck {s : State} {e : ErrCode} (h : idleQuiet s) (he : inputCheck s = some e) (opc : Byte)
    (cmd : Option Instr) {body : State → Run Unit}
    (hbody : ∀ {t : State}, quiet t = true → inputCheck t = some e →
      body t = .ended (raiseError e (logEvent (.enter .init) (setPhase .init t)))) :
    (issue opc cmd body s).err = e := by
  have hq : quiet (accept opc cmd s) = true := (quiet_congr (accept_inbox s opc cmd)).trans h.2
  rw [issue_quiet h, hbody hq he, Run.state_ended, raiseError_err]

theorem exec_sealMsg_of_inputCheck {s : State} {e : ErrCode} (h : idleQuiet s) (he : inputCheck s = some e) :
    ∃ t, exec .sealMsg s = .next t ∧ t.err = e :=
  ⟨_, rfl, issue_err_of_inputCheck h he _ _ fun hq => sealBody_of_inputCheck hq⟩

theorem exec_openMsg_of_inputCheck {s : State} {e : ErrCode} (h : idleQuiet s) (he : inputCheck s = some e) :
    ∃ t, exec .openMsg s = .next t ∧ t.err = e :=
  ⟨_, rfl, issue_err_of_inputCheck h he _ _ fun hq => openBody_of_inputCheck hq⟩

/-! ## Right after reset -/

theorem transientsErased_resetOn (p : Platform) (m : Memory) : transientsErased (State.resetOn p m) :=
  ⟨rfl, rfl, rfl, rfl, rfl⟩

theorem secretsErased_resetOn (p : Platform) (m : Memory) : secretsErased (State.resetOn p m) := ⟨rfl, rfl, rfl, rfl⟩

theorem idleQuiet_resetOn (p : Platform) (m : Memory) : idleQuiet (State.resetOn p m) := ⟨rfl, rfl⟩

theorem statusWord_resetOn (p : Platform) (m : Memory) : statusWord (State.resetOn p m) = 0 := by
  simp only [statusWord, State.resetOn_toEngine, Engine.reset]
  decide

/-- ROUNDS is 0 after reset, which is no variant of the permutation (10_state.md R35). -/
theorem inputCheck_resetOn (p : Platform) (m : Memory) : inputCheck (State.resetOn p m) = some .badRounds :=
  inputCheck_of_badRounds (by rw [State.resetOn_toEngine, Engine.reset_rounds]; decide)

/-- Settles O57: the table is read off `Engine.reset`, and `inputCheck_resetOn` ends a SEAL or an OPEN. -/
theorem resetTable : Obligations.ResetTable := by
  unfold Obligations.ResetTable
  intro p m
  refine ⟨transientsErased_resetOn p m, secretsErased_resetOn p m, rfl, rfl, statusWord_resetOn p m, rfl, ?config, ?irqEn,
    rfl, rfl, rfl, rfl, rfl, rfl, rfl, rfl, rfl, rfl, rfl, ?sealEnds, ?openEnds⟩
  case config => simp [readReg]
  case irqEn => simp [readReg]
  case sealEnds => exact exec_sealMsg_of_inputCheck (idleQuiet_resetOn p m) (inputCheck_resetOn p m)
  case openEnds => exact exec_openMsg_of_inputCheck (idleQuiet_resetOn p m) (inputCheck_resetOn p m)

end Sys2Proof.Machine
end

section
/-! SUPPORT. All that a command can do, whatever lands in it: the states it reaches while it runs (`Reaches`), the ways in which it
ends (`Ends`), and that every command of an idle engine ends so (`exec_ends`). A rule about commands is then an induction on
`Reaches` and a case split on `Ends`, and no proof walks through the orchestrator again. -/

namespace Sys2Proof.Machine

/-! ## Regions -/

/-- The region ends at or below 2^64, and each of its bytes lies in a region of the list. -/
def Region.coveredBy (r : Region) (l : List Region) : Prop :=
  r.addr + r.len ≤ 2 ^ 64 ∧ ∀ a, r.contains a = true → ∃ q ∈ l, q.contains a = true

theorem Region.contains_iff {r : Region} {a : Nat} : r.contains a = true ↔ r.addr ≤ a ∧ a < r.addr + r.len := by
  simp [Region.contains]

theorem Region.coveredBy.sub {r : Region} {l : List Region} (h : r.coveredBy l) {a n : Nat} (ha : r.addr ≤ a)
    (hn : a + n ≤ r.addr + r.len) : Region.coveredBy ⟨a, n⟩ l := by
  obtain ⟨hend, hin⟩ := h
  refine ⟨by simp only; omega, fun b hb => hin b ?_⟩
  rw [Region.contains_iff] at hb ⊢
  simp only at hb
  omega

theorem Region.coveredBy.of_valid {r : Region} {l : List Region} (hr : r ∈ l) (ha : r.addr < 2 ^ 64)
    (hv : validRegion r = true) : r.coveredBy l := by
  refine ⟨?_, fun a h => ⟨r, hr, h⟩⟩
  simp only [validRegion, Bool.or_eq_true, decide_eq_true_eq] at hv
  omega

/-! ## The states a running command reaches -/

/-- An access of the command begins in `u`: the state it leaves when it is cut short at once. -/
inductive Begins (i : Instr) (s : State) : Dir → Region → State → State → Prop where
  | read {u : State} {a n : Nat} (hc : Region.coveredBy ⟨a, n⟩ (inputRegions i s)) :
      Begins i s .read ⟨a, n⟩ u (logEvent (.read a n) u)
  | write {u : State} {a : Nat} {v : List Byte} (hc : Region.coveredBy ⟨a, v.length⟩ [outputRegion i s]) :
      Begins i s .write ⟨a, v.length⟩ u (storeTorn a v (logEvent (.write a v.length) u))

/-- What is left of `u` where a command is cut off there: `u` itself, or an access that has just begun. -/
def Cut (i : Instr) (s u w : State) : Prop := w = u ∨ ∃ d r, Begins i s d r u w

/-- A SEAL or an OPEN. -/
def IsMessage (i : Instr) : Prop := i = .sealMsg ∨ i = .openMsg

/-- The engine computes: S, the buffers, diff and k change, PERMUTE's own only S, and calls of F are recorded. -/
structure Computes (i : Instr) (u w : State) : Prop where
  same : w = { u with
    S := w.S, blk := w.blk, tagBuf := w.tagBuf, tag := w.tag, diff := w.diff, k := w.k, trace := w.trace }
  calls : ∃ l, w.trace = u.trace ++ l ∧ ∀ e ∈ l, ∃ g R, e = .permute g R
  buffers : IsMessage i ∨
    (∃ r, i = .permute r) ∧ w.blk = u.blk ∧ w.tagBuf = u.tagBuf ∧ w.tag = u.tag ∧ w.diff = u.diff

/-- The states of command `i`, accepted in `s`: the phases entered and the outside events met so far, and the state. -/
inductive Reaches (i : Instr) (s : State) : List Phase → List HostEvent → State → Prop where
  | accepted : Reaches i s [] [] (accept i.opcode (some i) s)
  | meets {ps es u} {inside : Bool} {e : HostEvent} {rest : List Arrival} (h : Reaches i s ps es u)
      (hi : u.inbox = ⟨.slot 0 inside, e⟩ :: rest) (hb : (hostEvent e { u with inbox := rest }).busy = true) :
      Reaches i s ps (es ++ [e]) (hostEvent e { u with inbox := rest })
  | waits {ps es u} {n : Nat} {inside : Bool} {e : HostEvent} {rest : List Arrival} (h : Reaches i s ps es u)
      (hi : u.inbox = ⟨.slot (n + 1) inside, e⟩ :: rest) :
      Reaches i s ps es { u with inbox := ⟨.slot n inside, e⟩ :: rest }
  | enters {ps es u} {p : Phase} (h : Reaches i s ps es u) (hp : ps ++ [p] <+: phaseSequence i) :
      Reaches i s (ps ++ [p]) es (logEvent (.enter p) (setPhase p u))
  | reads {ps es u} {a n : Nat} (h : Reaches i s ps es u) (hp : ps ≠ [])
      (hc : Region.coveredBy ⟨a, n⟩ (inputRegions i s)) :
      Reaches i s ps es (nextDraw (logEvent (.read a n) u))
  | writes {ps es u} {a : Nat} {v : List Byte} (h : Reaches i s ps es u) (hp : ps ≠ [])
      (hc : Region.coveredBy ⟨a, v.length⟩ [outputRegion i s]) :
      Reaches i s ps es (storeAll a v (logEvent (.write a v.length) u))
  | computes {ps es u w} (h : Reaches i s ps es u) (hc : Computes i u w) : Reaches i s ps es w
  | wipes {ps es u} (h : Reaches i s ps es u) (hi : IsMessage i ∨ i = .erase) : Reaches i s ps es (wipe u)

/-! ## The ways in which a command ends -/

/-- All data of the engine is zero, as after `wipe` (42_orchestrator.md R178). -/
def Wiped (u : State) : Prop := secretsErased u ∧ transientsErased u

/-- The completion of a command that ends without error: the phases it has entered, its last state and the completed one. -/
inductive Finishes (s : State) : Instr → List Phase → State → State → Prop where
  | nop {u} : Finishes s .nop [] u (complete .noError u)
  | sealed {u} (hw : Wiped u) : Finishes s .sealMsg (phaseSequence .sealMsg) u
      (complete .noError (setOutLen (BitVec.ofNat 64 (s.inLen.toNat + 32)) u))
  | opened {u} (ok : Bool) (hw : Wiped u) : Finishes s .openMsg (phaseSequence .openMsg) u
      (complete .noError (setOutLen (if ok then BitVec.ofNat 64 (s.inLen.toNat - 32) else 0) (setAuth ok (!ok) u)))
  | short {ps u} (hn : s.inLen.toNat < 32) : Finishes s .openMsg ps u (openShort u)
  | permuted {u} (r : Nat) : Finishes s (.permute r) (phaseSequence (.permute r)) u
      (complete .noError (setOutLen 128 (setSponge zeroSponge u)))
  | erased {u} (hw : Wiped u) : Finishes s .erase (phaseSequence .erase) u (complete .noError (setOutLen 0 u))

/-- The ends of command `i`, accepted in `s`: the phases entered, the outside events met, and the state it leaves. -/
inductive Ends (i : Instr) (s : State) : List Phase → List HostEvent → State → Prop where
  | finishes {ps es u t} (h : Reaches i s ps es u) (hf : Finishes s i ps u t) : Ends i s ps es t
  | raises {ps es u} (e : ErrCode) (h : Reaches i s ps es u) (hn : e ≠ .noError) (hb : e ≠ .busFault) :
      Ends i s ps es (raiseError e u)
  | faults {ps es u d r w x} (h : Reaches i s ps es u) (hg : Begins i s d r u w)
      (hx : firstRefused s.platform d r.addr r.len = some x) : Ends i s ps es (busFault x w)
  | resets {ps es u w} {inside : Bool} {e : HostEvent} {rest : List Arrival} (h : Reaches i s ps es u)
      (hi : u.inbox = ⟨.slot 0 inside, e⟩ :: rest) (hr : isReset s.platform e)
      (hg : Cut i s { u with inbox := rest } w) :
      Ends i s ps (es ++ [e]) (hostEvent e w)
  | stalls {ps es u d r w} {inside : Bool} {rest : List Arrival} (h : Reaches i s ps es u) (hp : ps ≠ [])
      (hi : u.inbox = ⟨.slot 0 inside, .dmaStall⟩ :: rest) (hg : Begins i s d r { u with inbox := rest } w) :
      Ends i s ps (es ++ [.dmaStall]) w

/-! ## What a running command has set and not touched -/

/-- The registers of a running command: what its acceptance set, and the operands and OUT_LEN as they were. -/
structure Runs (i : Instr) (s u : State) : Prop where
  busy : u.busy = true
  done : u.done = false
  authOk : u.authOk = false
  authFail : u.authFail = false
  err : u.err = .noError
  lastOpc : u.lastOpc = i.opcode
  running : u.running = some i
  outLen : u.outLen = s.outLen
  faultAddr : u.faultAddr = 0
  operands : sameOperands s u

theorem Runs.outside {i : Instr} {s u v : State} (h : Runs i s u) (ho : OutsideOnly u v) : Runs i s v where
  busy := ho.busy_eq.trans h.busy
  done := Bool.eq_false_iff.mpr fun hd => Bool.false_ne_true (h.done.symm.trans (ho.done hd))
  authOk := (congrArg (fun x : State => x.authOk) ho.same).trans h.authOk
  authFail := (congrArg (fun x : State => x.authFail) ho.same).trans h.authFail
  err := (congrArg (fun x : State => x.err) ho.same).trans h.err
  lastOpc := (congrArg (fun x : State => x.lastOpc) ho.same).trans h.lastOpc
  running := (congrArg State.running ho.same).trans h.running
  outLen := (congrArg (fun x : State => x.outLen) ho.same).trans h.outLen
  faultAddr := (congrArg (fun x : State => x.faultAddr) ho.same).trans h.faultAddr
  operands := by
    have := congrArg (sameOperands s) ho.same
    exact this.mpr h.operands

theorem OutsideOnly.k_eq {s t : State} (h : OutsideOnly s t) : t.k = s.k := by
  have := congrArg (fun u : State => u.k) h.same
  exact this

/-- An update that leaves these registers alone. -/
theorem Runs.own {i : Instr} {s u v : State} (h : Runs i s u)
    (he : (v.busy, v.done, v.authOk, v.authFail, v.err, v.lastOpc, v.running, v.outLen, v.faultAddr, v.platform) =
      (u.busy, u.done, u.authOk, u.authFail, u.err, u.lastOpc, u.running, u.outLen, u.faultAddr, u.platform))
    (ho : (v.rounds, v.hdrAddr, v.hdrLen, v.inAddr, v.inLen, v.trlAddr, v.trlLen, v.outAddr) =
      (u.rounds, u.hdrAddr, u.hdrLen, u.inAddr, u.inLen, u.trlAddr, u.trlLen, u.outAddr)) : Runs i s v := by
  simp only [Prod.mk.injEq] at he ho
  obtain ⟨h1, h2, h3, h4, h5, h6, h7, h8, h9, h10⟩ := he
  obtain ⟨o1, o2, o3, o4, o5, o6, o7, o8⟩ := ho
  refine ⟨h1.trans h.busy, h2.trans h.done, h3.trans h.authOk, h4.trans h.authFail, h5.trans h.err, h6.trans h.lastOpc,
    h7.trans h.running, h8.trans h.outLen, h9.trans h.faultAddr, ?_⟩
  have hop := h.operands
  unfold sameOperands at hop ⊢
  rwa [o1, o2, o3, o4, o5, o6, o7, o8, h10]

theorem Runs.computes {i j : Instr} {s u w : State} (h : Runs i s u) (hc : Computes j u w) : Runs i s w := by
  rw [hc.same]
  exact h.own rfl rfl

theorem Reaches.runs {i : Instr} {s u : State} {ps : List Phase} {es : List HostEvent} (h : Reaches i s ps es u) :
    Runs i s u := by
  induction h with
  | accepted => exact ⟨rfl, rfl, rfl, rfl, rfl, rfl, rfl, rfl, rfl, rfl, rfl, rfl, rfl, rfl, rfl, rfl, rfl, rfl⟩
  | @meets _ _ u _ _ rest _ _ hb ih =>
    have hu : Runs i s { u with inbox := rest } := ih.own rfl rfl
    exact hu.outside (outsideOnly_of_busy hu.busy hb)
  | waits _ _ ih => exact ih.own rfl rfl
  | enters _ _ ih => exact ih.own rfl rfl
  | reads _ _ _ ih => exact ih.own rfl rfl
  | writes _ _ _ ih => exact ih.own rfl rfl
  | computes _ hc ih => exact ih.computes hc
  | wipes _ _ ih => exact ih.own rfl rfl

theorem Runs.hdr_eq {i : Instr} {s u : State} (h : Runs i s u) : u.hdr = s.hdr := by
  obtain ⟨-, ha, hn, -⟩ := h.operands
  simp only [State.hdr, ha, hn]

theorem Runs.inp_eq {i : Instr} {s u : State} (h : Runs i s u) : u.inp = s.inp := by
  obtain ⟨-, -, -, ha, hn, -⟩ := h.operands
  simp only [State.inp, ha, hn]

theorem Runs.trl_eq {i : Instr} {s u : State} (h : Runs i s u) : u.trl = s.trl := by
  obtain ⟨-, -, -, -, -, ha, hn, -⟩ := h.operands
  simp only [State.trl, ha, hn]

theorem Runs.out_eq {i : Instr} {s u : State} (h : Runs i s u) (n : Nat) : u.out n = s.out n := by
  obtain ⟨-, -, -, -, -, -, -, ha, -⟩ := h.operands
  simp only [State.out, ha]

theorem Runs.inAddr_eq {i : Instr} {s u : State} (h : Runs i s u) : u.inAddr = s.inAddr := by
  obtain ⟨-, -, -, ha, -⟩ := h.operands
  exact ha

theorem Runs.inLen_eq {i : Instr} {s u : State} (h : Runs i s u) : u.inLen = s.inLen := by
  obtain ⟨-, -, -, -, ha, -⟩ := h.operands
  exact ha

theorem Runs.outAddr_eq {i : Instr} {s u : State} (h : Runs i s u) : u.outAddr = s.outAddr := by
  obtain ⟨-, -, -, -, -, -, -, ha, -⟩ := h.operands
  exact ha

theorem Runs.platform_eq {i : Instr} {s u : State} (h : Runs i s u) : u.platform = s.platform := by
  obtain ⟨-, -, -, -, -, -, -, -, ha⟩ := h.operands
  exact ha

/-! ## Parts of a command -/

/-- A part of the command: it goes on, with `ps` entered and `Q` of its value and state, or the command has ended. -/
def Run.Along {α : Type} (i : Instr) (s : State) (ps : List Phase) (Q : α → State → Prop) (r : Run α) : Prop :=
  match r with
  | .ok a t => (∃ es, Reaches i s ps es t) ∧ Q a t
  | .ended t => ∃ qs es, Ends i s qs es t

section Parts
variable {α β : Type} {i : Instr} {s u : State} {ps qs : List Phase} {es : List HostEvent}

theorem Run.Along.mono {P Q : α → State → Prop} {r : Run α} (h : r.Along i s ps P) (hq : ∀ a t, P a t → Q a t) :
    r.Along i s ps Q := by
  cases r with
  | ok a t => exact ⟨h.1, hq a t h.2⟩
  | ended t => exact h

theorem Run.Along.bind {P : α → State → Prop} {Q : β → State → Prop} {r : Run α} {f : α → State → Run β}
    (h : r.Along i s ps P) (hf : ∀ a t es, Reaches i s ps es t → P a t → (f a t).Along i s qs Q) :
    (r.bind f).Along i s qs Q := by
  cases r with
  | ok a t =>
    obtain ⟨⟨es, hr⟩, hp⟩ := h
    exact hf a t es hr hp
  | ended t => exact h

/-- The last part of a command. -/
theorem Run.Along.finish {P : α → State → Prop} {r : Run α} {f : α → State → Run β} (h : r.Along i s ps P)
    (hf : ∀ a t es, Reaches i s ps es t → P a t → ∃ qs fs, Ends i s qs fs (f a t).state) :
    ∃ qs fs, Ends i s qs fs (r.bind f).state := by
  cases r with
  | ok a t =>
    obtain ⟨⟨es, hr⟩, hp⟩ := h
    exact hf a t es hr hp
  | ended t => exact h

theorem Run.Along.ok {Q : α → State → Prop} {a : α} (h : Reaches i s ps es u) (hq : Q a u) :
    (Run.ok a u).Along i s ps Q := ⟨⟨es, h⟩, hq⟩

/-! ## Slots and accesses -/

/-- A slot; where an access begins there, `begun` is what it leaves when it is cut short. -/
theorem land_along (h : Reaches i s ps es u) {l : List Arrival} (hl : u.inbox = l) {begun : Option (State → State)}
    (hf : ∀ f, begun = some f → ps ≠ [] ∧ ∀ w, ∃ d r, Begins i s d r w (f w)) :
    (land begun l u).Along i s ps fun _ t => OutsideOnly u t := by
  induction l generalizing u es with
  | nil =>
    have hu : { u with inbox := [] } = u := by rw [← hl]
    simp only [land, hu]
    exact .ok h (.refl u)
  | cons x rest ih =>
    obtain ⟨time, e⟩ := x
    match time with
    | .whenIdle =>
      have hu : { u with inbox := ⟨.whenIdle, e⟩ :: rest } = u := by rw [← hl]
      simp only [land, hu]
      exact .ok h (.refl u)
    | .slot (n + 1) inside => exact .ok (h.waits hl) (.inbox u _)
    | .slot 0 inside =>
      have hb : ({ u with inbox := rest } : State).busy = true := h.runs.busy
      simp only [land]
      split
      · rename_i hst
        simp only [Bool.and_eq_true] at hst
        obtain ⟨f, rfl⟩ := Option.isSome_iff_exists.mp hst.1
        obtain rfl : e = .dmaStall := by cases e <;> simp [HostEvent.isStall] at hst ⊢
        obtain ⟨hp, hbeg⟩ := hf f rfl
        obtain ⟨d, r, hg⟩ := hbeg { u with inbox := rest }
        exact ⟨_, _, .stalls h hp hl hg⟩
      · split
        · rename_i hgo
          refine (ih (h.meets hl hgo) (hostEvent_inbox _ _)).mono fun _ t ht => ?_
          exact (OutsideOnly.inbox u rest).trans ((outsideOnly_of_busy hb hgo).trans ht)
        · rename_i hcut
          have hr := isReset_of_not_busy hb (by simpa using hcut)
          have hp : u.platform = s.platform := h.runs.platform_eq
          refine ⟨_, _, .resets h hl (hp ▸ hr) ?_⟩
          cases begun with
          | none => left; simp
          | some f =>
            cases inside with
            | false => exact .inl rfl
            | true => exact .inr ((hf f rfl).2 _)

theorem slot_along (h : Reaches i s ps es u) : (slot u).Along i s ps fun _ t => OutsideOnly u t :=
  land_along h rfl fun _ hf => nomatch hf

theorem enter_along (h : Reaches i s ps es u) {p : Phase} (hp : ps ++ [p] <+: phaseSequence i) :
    (enter p u).Along i s (ps ++ [p]) fun _ t => t.k = 0 :=
  (slot_along (h.enters hp)).mono fun _ _ ho => ho.k_eq

/-- A read: its bytes, and the block index as it was. -/
theorem dmaRead_along (h : Reaches i s ps es u) (hp : ps ≠ []) {a n : Nat}
    (hc : Region.coveredBy ⟨a, n⟩ (inputRegions i s)) :
    (dmaRead a n u).Along i s ps fun b t => b.length = n ∧ t.k = u.k := by
  unfold dmaRead
  split
  · rename_i hn
    exact .ok h ⟨hn.symm, rfl⟩
  · refine Run.Along.bind (land_along h rfl ?_) fun _ t fs ht ho => ?_
    · rintro f hf
      obtain rfl := Option.some.inj hf
      exact ⟨hp, fun w => ⟨_, _, .read hc⟩⟩
    · have hplat : t.platform = s.platform := ht.runs.platform_eq
      simp only [logEvent_platform, hplat]
      split
      · rename_i x hx
        exact ⟨_, _, .faults ht (.read hc) hx⟩
      · exact .ok (ht.reads hp hc) ⟨dmaBytes_length _ _ _, ho.k_eq⟩

theorem dmaWrite_along (h : Reaches i s ps es u) (hp : ps ≠ []) {a : Nat} {v : List Byte}
    (hc : Region.coveredBy ⟨a, v.length⟩ [outputRegion i s]) :
    (dmaWrite a v u).Along i s ps fun _ t => t.k = u.k := by
  unfold dmaWrite
  split
  · exact .ok h rfl
  · refine Run.Along.bind (land_along h rfl ?_) fun _ t fs ht ho => ?_
    · rintro f hf
      obtain rfl := Option.some.inj hf
      exact ⟨hp, fun w => ⟨_, _, .write hc⟩⟩
    · have hplat : t.platform = s.platform := ht.runs.platform_eq
      simp only [logEvent_platform, hplat]
      split
      · rename_i x hx
        exact ⟨_, _, .faults ht (.write hc) hx⟩
      · exact .ok (ht.writes hp hc) ho.k_eq

theorem wipePhase_along (h : Reaches i s ps es u) (hp : ps ++ [.wipe] <+: phaseSequence i)
    (hi : IsMessage i ∨ i = .erase) : (wipePhase u).Along i s (ps ++ [.wipe]) fun _ t => Wiped t :=
  (enter_along h hp).bind fun _ _ _ hw _ => (slot_along (hw.wipes hi)).mono fun _ _ ho =>
    (congrArg Wiped ho.same).mpr ⟨⟨rfl, rfl, rfl, rfl⟩, rfl, rfl, rfl, rfl, rfl⟩

/-! ## The computing steps of a message -/

theorem Reaches.message (h : Reaches i s ps es u) (hi : IsMessage i)
    {w : State} (hs : w = { u with
      S := w.S, blk := w.blk, tagBuf := w.tagBuf, tag := w.tag, diff := w.diff, k := w.k, trace := w.trace })
    (l : List EngineEvent) (ht : w.trace = u.trace ++ l) (hl : ∀ e ∈ l, ∃ g R, e = .permute g R) :
    Reaches i s ps es w :=
  h.computes ⟨hs, ⟨l, ht, hl⟩, .inl hi⟩

theorem Reaches.codecStep (h : Reaches i s ps es u) (hi : IsMessage i) (t : Tag) (R : Nat) (b : List Byte) (S : Sponge) :
    Reaches i s ps es (codecStep t R b S u) :=
  h.message hi rfl [.permute (some t) R] rfl (by simp)

theorem Reaches.countBlock (h : Reaches i s ps es u) (hi : IsMessage i) : Reaches i s ps es (countBlock u) :=
  h.message hi rfl [] (by simp) (by simp)

theorem Reaches.eraseBlk (h : Reaches i s ps es u) (hi : IsMessage i) : Reaches i s ps es (eraseBlk u) :=
  h.message hi rfl [] (by simp) (by simp)

theorem Reaches.initStep (h : Reaches i s ps es u) (hi : IsMessage i) (R : Nat) : Reaches i s ps es (initStep R u) :=
  h.message hi rfl [.permute none R] rfl (by simp)

theorem Reaches.finalStep (h : Reaches i s ps es u) (hi : IsMessage i) (R : Nat) : Reaches i s ps es (finalStep R u) :=
  h.message hi rfl [.permute (some .final) R, .permute none R] (by simp [Machine.finalStep]) (by simp)

theorem Reaches.loadTagBuf (h : Reaches i s ps es u) (hi : IsMessage i) (b : List Byte) :
    Reaches i s ps es (loadTagBuf b u) :=
  h.message hi rfl [] (by simp) (by simp)

theorem Reaches.compareTags (h : Reaches i s ps es u) (hi : IsMessage i) : Reaches i s ps es (compareTags u) :=
  h.message hi rfl [] (by simp) (by simp)

/-! ## The regions of a message -/

theorem absorbBlocks_along (h : Reaches i s ps es u) (hi : IsMessage i) (hp : ps ≠ []) (t : Tag) (R : Nat) {r : Region}
    (hc : r.coveredBy (inputRegions i s)) {left : Nat} (hk : 96 * (u.k + left) ≤ r.len) :
    (absorbBlocks r.addr t R left u).Along i s ps fun _ _ => True := by
  induction left generalizing u es with
  | zero => exact .ok h trivial
  | succ left ih =>
    refine (dmaRead_along h hp (hc.sub (by omega) (by omega))).bind fun b w _ hw hbk => ?_
    refine ih ((hw.codecStep hi t R b _).countBlock hi) ?_
    simp only [countBlock_k, Machine.codecStep, setSponge_k, logEvent_k, setBlk_k, hbk.2]
    omega

theorem absorbRegion_along (h : Reaches i s ps es u) (hi : IsMessage i) (hp : ps ≠ []) (t : Tag) (R : Nat) {r : Region}
    (hc : r.coveredBy (inputRegions i s)) (hk : u.k = 0) :
    (absorbRegion r t R u).Along i s ps fun _ _ => True := by
  unfold absorbRegion
  split
  · exact .ok h trivial
  · refine (absorbBlocks_along h hi hp t R hc (by omega)).bind fun _ w _ hw _ => ?_
    refine (dmaRead_along hw hp (hc.sub (by omega) (by omega))).bind fun tail x _ hx _ => ?_
    exact .ok ((hx.codecStep hi t R _ _).eraseBlk hi) trivial

theorem length_cryptBlock (d : CryptDir) (R : Nat) (b : List Byte) (S : Sponge) : (cryptBlock d R b S).1.length = 96 := by
  cases d <;> rfl

theorem length_cryptLast (d : CryptDir) (R : Nat) {b : List Byte} (hb : b.length ≤ 95) (S : Sponge) :
    (cryptLast d R b S).1.length = b.length := by
  cases d
  · exact length_encryptLast R hb S
  · simp only [cryptLast, decryptLast, List.length_take, length_rateBytes]
    omega

theorem cryptBlocks_along (h : Reaches i s ps es u) (hi : IsMessage i) (hp : ps ≠ []) (d : CryptDir) (R : Nat)
    {ia oa n : Nat} (hin : Region.coveredBy ⟨ia, n⟩ (inputRegions i s)) (hout : Region.coveredBy ⟨oa, n⟩ [outputRegion i s])
    {left : Nat} (hk : 96 * (u.k + left) ≤ n) : (cryptBlocks ia oa d R left u).Along i s ps fun _ _ => True := by
  induction left generalizing u es with
  | zero => exact .ok h trivial
  | succ left ih =>
    refine (dmaRead_along h hp (hin.sub (by simp only; omega) (by simp only; omega))).bind fun b w _ hw hbk => ?_
    refine (dmaWrite_along (hw.codecStep hi .payload R b _) hp (hout.sub ?_ ?_)).bind fun _ x _ hx hxk => ?_
    · simp only; omega
    · simp only [length_cryptBlock, hbk.2]; omega
    · refine ih (hx.countBlock hi) ?_
      simp only [countBlock_k, hxk, Machine.codecStep, setSponge_k, logEvent_k, setBlk_k, hbk.2]
      omega

theorem cryptRegion_along (h : Reaches i s ps es u) (hi : IsMessage i) (hp : ps ≠ []) (d : CryptDir) (R : Nat)
    {ia oa n : Nat} (hin : Region.coveredBy ⟨ia, n⟩ (inputRegions i s)) (hout : Region.coveredBy ⟨oa, n⟩ [outputRegion i s])
    (hk : u.k = 0) : (cryptRegion ia oa n d R u).Along i s ps fun _ _ => True := by
  unfold cryptRegion
  split
  · exact .ok h trivial
  · refine (cryptBlocks_along h hi hp d R hin hout (by omega)).bind fun _ w _ hw _ => ?_
    refine (dmaRead_along hw hp (hin.sub (by simp only; omega) (by simp only; omega))).bind fun tail x _ hx htail => ?_
    refine (dmaWrite_along ((hx.codecStep hi .payload R _ _).eraseBlk hi) hp (hout.sub ?_ ?_)).bind fun _ y _ hy _ => ?_
    · simp only; omega
    · rw [length_cryptLast d R (by omega)]; simp only; omega
    · exact .ok (hy.eraseBlk hi) trivial

theorem IsMessage.phases (hi : IsMessage i) : phaseSequence i = [.init, .header, .payload, .trailer, .final, .wipe] := by
  obtain rfl | rfl := hi <;> rfl

theorem IsMessage.inputs (hi : IsMessage i) : inputRegions i s = [s.hdr, s.inp, s.trl] := by
  obtain rfl | rfl := hi <;> rfl

theorem messagePhases_along (h : Reaches i s [.init] es u) (hi : IsMessage i) (d : CryptDir) (R : Nat) {n : Nat}
    (hh : validRegion s.hdr = true) (ht : validRegion s.trl = true)
    (hin : Region.coveredBy ⟨s.inAddr.toNat, n⟩ (inputRegions i s))
    (hout : Region.coveredBy ⟨s.outAddr.toNat, n⟩ [outputRegion i s]) :
    (messagePhases d n R u).Along i s [.init, .header, .payload, .trailer, .final] fun _ _ => True := by
  have hhdr : s.hdr.coveredBy (inputRegions i s) :=
    .of_valid (by simp [hi.inputs]) s.hdrAddr.isLt hh
  have htrl : s.trl.coveredBy (inputRegions i s) :=
    .of_valid (by simp [hi.inputs]) s.trlAddr.isLt ht
  refine (enter_along (h.initStep hi R) (by rw [hi.phases]; decide)).bind fun _ w _ hw hk => ?_
  refine (absorbRegion_along hw hi (by simp) .header R (hw.runs.hdr_eq ▸ hhdr) hk).bind fun _ w _ hw _ => ?_
  refine (enter_along hw (by rw [hi.phases]; decide)).bind fun _ w _ hw hk => ?_
  rw [hw.runs.inAddr_eq, hw.runs.outAddr_eq]
  refine (cryptRegion_along hw hi (by simp) d R hin hout hk).bind fun _ w _ hw _ => ?_
  refine (enter_along hw (by rw [hi.phases]; decide)).bind fun _ w _ hw hk => ?_
  refine (absorbRegion_along hw hi (by simp) .trailer R (hw.runs.trl_eq ▸ htrl) hk).bind fun _ w _ hw _ => ?_
  refine (enter_along hw (by rw [hi.phases]; decide)).bind fun _ w _ hw _ => ?_
  exact .ok (hw.finalStep hi R) trivial

end Parts

/-! ## Whole commands -/

theorem inputCheck_eq_none {u : State} (h : inputCheck u = none) :
    roundsValid u.rounds = true ∧ allLoaded u.keyMask = true ∧ allLoaded u.nonceMask = true ∧
      validRegion u.hdr = true ∧ validRegion u.inp = true ∧ validRegion u.trl = true := by
  unfold inputCheck at h
  split at h
  · exact nomatch h
  · split at h
    · exact nomatch h
    · split at h
      · exact nomatch h
      · split at h
        · exact nomatch h
        · simp_all

/-- The codes of the input checks. -/
theorem inputCheck_eq_some {u : State} {e : ErrCode} (h : inputCheck u = some e) : e ≠ .noError ∧ e ≠ .busFault := by
  unfold inputCheck at h
  split at h
  · cases h; decide
  · split at h
    · cases h; decide
    · split at h
      · cases h; decide
      · split at h
        · cases h; decide
        · exact nomatch h

section Bodies
variable {s u : State} {es : List HostEvent}

theorem sealRun_ends (h : Reaches .sealMsg s [.init] es u) (hc : inputCheck u = none) (ho : sealOutputOk u = true) :
    ∃ qs fs, Ends .sealMsg s qs fs (sealRun u).state := by
  obtain ⟨-, -, -, hh, hin, ht⟩ := inputCheck_eq_none hc
  rw [h.runs.hdr_eq] at hh; rw [h.runs.inp_eq] at hin; rw [h.runs.trl_eq] at ht
  simp only [sealOutputOk, h.runs.out_eq, h.runs.inLen_eq, Bool.and_eq_true] at ho
  have hinput : s.inp.coveredBy (inputRegions .sealMsg s) :=
    .of_valid (by simp [inputRegions]) s.inAddr.isLt hin
  have hout : (outputRegion .sealMsg s).coveredBy [outputRegion .sealMsg s] :=
    .of_valid (by simp) s.outAddr.isLt ho.2
  have hi : IsMessage .sealMsg := .inl rfl
  unfold sealRun
  simp only [h.runs.inLen_eq]
  refine (messagePhases_along h hi .enc _ hh ht hinput (hout.sub (Nat.le_refl _) ?_)).finish fun _ w _ hw _ => ?_
  · simp only [outputRegion, State.out]; omega
  rw [hw.runs.outAddr_eq]
  refine (dmaWrite_along hw (by simp) (hout.sub ?_ ?_)).finish fun _ w _ hw _ => ?_
  · simp only [outputRegion, State.out]; omega
  · simp only [outputRegion, State.out, Vector.length_toList]; omega
  exact (wipePhase_along hw (by decide) (.inl hi)).finish fun _ w _ hw hz => ⟨_, _, .finishes hw (.sealed hz)⟩

theorem sealBody_ends (h : Reaches .sealMsg s [] es u) : ∃ qs fs, Ends .sealMsg s qs fs (sealBody u).state := by
  refine (enter_along h (by decide)).finish fun _ w _ hw _ => ?_
  split
  · rename_i e he
    exact ⟨_, _, .raises e hw (inputCheck_eq_some he).1 (inputCheck_eq_some he).2⟩
  · rename_i hc
    split
    · exact ⟨_, _, .raises .badRange hw (by decide) (by decide)⟩
    · exact sealRun_ends hw hc (by simp_all)

theorem openRun_ends (h : Reaches .openMsg s [.init] es u) (hc : inputCheck u = none) (ho : openOutputOk u = true)
    (hn : 32 ≤ s.inLen.toNat) : ∃ qs fs, Ends .openMsg s qs fs (openRun u).state := by
  obtain ⟨-, -, -, hh, hin, ht⟩ := inputCheck_eq_none hc
  rw [h.runs.hdr_eq] at hh; rw [h.runs.inp_eq] at hin; rw [h.runs.trl_eq] at ht
  rw [openOutputOk, h.runs.out_eq, h.runs.inLen_eq] at ho
  have hinput : s.inp.coveredBy (inputRegions .openMsg s) :=
    .of_valid (by simp [inputRegions]) s.inAddr.isLt hin
  have hout : (outputRegion .openMsg s).coveredBy [outputRegion .openMsg s] :=
    .of_valid (by simp) s.outAddr.isLt ho
  have hi : IsMessage .openMsg := .inr rfl
  have hinp : s.inp = ⟨s.inAddr.toNat, s.inLen.toNat⟩ := rfl
  unfold openRun
  simp only [h.runs.inLen_eq, h.runs.inAddr_eq]
  refine (dmaRead_along h (by simp) (hinput.sub ?_ ?_)).finish fun b w _ hw _ => ?_
  · simp only [hinp]; omega
  · simp only [hinp]; omega
  refine (messagePhases_along (hw.loadTagBuf hi b) hi .dec _ hh ht (hinput.sub (Nat.le_refl _) ?_) hout).finish
    fun _ w _ hw _ => ?_
  · simp only [hinp]; omega
  refine Run.Along.finish (ps := [.init, .header, .payload, .trailer, .final]) (P := fun _ _ => True) ?_
    fun _ w _ hw _ => ?_
  · split
    · exact .ok (hw.compareTags hi) trivial
    · rw [compareTags_outAddr, hw.runs.outAddr_eq]
      refine (dmaWrite_along (hw.compareTags hi) (by simp) (hout.sub (Nat.le_refl _) ?_)).mono fun _ _ _ => trivial
      simp [zeros, outputRegion, State.out]
  · exact (wipePhase_along hw (by decide) (.inl hi)).finish fun _ w _ hw hz => ⟨_, _, .finishes hw (.opened _ hz)⟩

theorem openBody_ends (h : Reaches .openMsg s [] es u) : ∃ qs fs, Ends .openMsg s qs fs (openBody u).state := by
  refine (enter_along h (by decide)).finish fun _ w _ hw _ => ?_
  split
  · rename_i e he
    exact ⟨_, _, .raises e hw (inputCheck_eq_some he).1 (inputCheck_eq_some he).2⟩
  · rename_i hc
    rw [hw.runs.inLen_eq]
    split
    · rename_i hn
      exact ⟨_, _, .finishes hw (.short hn)⟩
    · split
      · exact ⟨_, _, .raises .badRange hw (by decide) (by decide)⟩
      · exact openRun_ends hw hc (by simp_all) (by omega)

theorem permuteBody_ends {r : Nat} (h : Reaches (.permute r) s [] es u) :
    ∃ qs fs, Ends (.permute r) s qs fs (permuteBody r u).state := by
  refine (enter_along h (List.prefix_rfl)).finish fun _ w _ hw _ => ?_
  rw [hw.runs.out_eq, hw.runs.inAddr_eq]
  split
  · exact ⟨_, _, .raises .badRange hw (by decide) (by decide)⟩
  · rename_i hv
    simp only [Bool.or_eq_true, Bool.not_eq_true', not_or, Bool.not_eq_false] at hv
    have hin : Region.coveredBy ⟨s.inAddr.toNat, 128⟩ (inputRegions (.permute r) s) :=
      .of_valid (by simp [inputRegions]) s.inAddr.isLt hv.1
    have hout : (outputRegion (.permute r) s).coveredBy [outputRegion (.permute r) s] :=
      .of_valid (by simp) s.outAddr.isLt hv.2
    refine (dmaRead_along hw (by simp) hin).finish fun b w _ hw _ => ?_
    have hstep : Reaches (.permute r) s [.perm] _ (logEvent (.permute none r) (setSponge (F r (loadSponge b)) w)) :=
      hw.computes ⟨rfl, ⟨[.permute none r], rfl, by simp⟩, .inr ⟨⟨r, rfl⟩, rfl, rfl, rfl, rfl⟩⟩
    simp only [logEvent_outAddr, setSponge_outAddr, hw.runs.outAddr_eq]
    exact (dmaWrite_along hstep (by simp) hout).finish fun _ w _ hw _ => ⟨_, _, .finishes hw (.permuted r)⟩

theorem eraseBody_ends (h : Reaches .erase s [] es u) :
    ∃ qs fs, Ends .erase s qs fs ((wipePhase u).bind fun _ w => .ok () (complete .noError (setOutLen 0 w))).state :=
  (wipePhase_along h List.prefix_rfl (.inr rfl)).finish fun _ _ _ hw hz => ⟨_, _, .finishes hw (.erased hz)⟩

/-- Acceptance, its slot, and the body (42_orchestrator.md R170). -/
theorem issue_ends (hb : s.busy = false) (i : Instr) {body : State → Run Unit}
    (h : ∀ t fs, Reaches i s [] fs t → ∃ qs fs, Ends i s qs fs (body t).state) :
    ∃ qs fs, Ends i s qs fs (issue i.opcode (some i) body s) := by
  rw [issue_idle hb]
  exact (slot_along .accepted).finish fun _ t fs ht _ => h t fs ht

/-- Every command of an idle engine ends in one of the ways of `Ends`, whatever lands in it. -/
theorem exec_ends {t : State} {i : Instr} (hb : s.busy = false) (h : exec i s = .next t) : ∃ ps es, Ends i s ps es t := by
  cases i <;> obtain rfl := Host.Outcome.next.inj h
  case nop => exact issue_ends hb .nop fun _ _ ht => ⟨_, _, .finishes ht .nop⟩
  case sealMsg => exact issue_ends hb .sealMsg fun _ _ => sealBody_ends
  case openMsg => exact issue_ends hb .openMsg fun _ _ => openBody_ends
  case permute r => exact issue_ends hb (.permute r) fun _ _ => permuteBody_ends
  case erase => exact issue_ends hb .erase fun _ _ => eraseBody_ends

end Bodies

end Sys2Proof.Machine
end

section
/-! SUPPORT. What holds along every command, by induction on the states it reaches: the inbox, the record, memory. -/

namespace Sys2Proof.Machine

/-! ## The ends of a command, by what they leave -/

/-- What a completion may change before it is recorded: the data of the engine and the registers that report. -/
def Reports (w v : State) : Prop :=
  v = { w with
    S := v.S, blk := v.blk, tagBuf := v.tagBuf, tag := v.tag, diff := v.diff, key := v.key, keyMask := v.keyMask,
    nonce := v.nonce, nonceMask := v.nonceMask, outLen := v.outLen, authOk := v.authOk, authFail := v.authFail,
    faultAddr := v.faultAddr }

/-- The ends of a command by their last event: a completion, a reset, or none. -/
inductive Outcome (i : Instr) (s : State) : List Phase → List HostEvent → State → Prop where
  | completed {ps es u w v} (c : ErrCode) (h : Reaches i s ps es u) (hg : Cut i s u w) (hv : Reports w v) :
      Outcome i s ps es (complete c v)
  | reset {ps es u w x} {inside : Bool} {e : HostEvent} {rest : List Arrival} (h : Reaches i s ps es u)
      (hi : u.inbox = ⟨.slot 0 inside, e⟩ :: rest) (hr : isReset s.platform e) (hg : Cut i s { u with inbox := rest } w)
      (ho : OutsideOnly w x) (he : hostEvent e w = resetEngine x) : Outcome i s ps (es ++ [e]) (hostEvent e w)
  | stuck {ps es u w} {inside : Bool} {rest : List Arrival} (h : Reaches i s ps es u) (hp : ps ≠ [])
      (hi : u.inbox = ⟨.slot 0 inside, .dmaStall⟩ :: rest) (hg : ∃ d r, Begins i s d r { u with inbox := rest } w) :
      Outcome i s ps (es ++ [.dmaStall]) w

section Along
variable {i : Instr} {s u w t x : State} {ps : List Phase} {es : List HostEvent}

theorem Begins.platform_eq {d : Dir} {r : Region} (h : Begins i s d r u w) : w.platform = u.platform := by
  cases h <;> rfl

theorem Cut.platform_eq (h : Cut i s u w) : w.platform = u.platform := by
  obtain rfl | ⟨d, r, hg⟩ := h
  · rfl
  · exact hg.platform_eq

theorem raiseError_reports (c : ErrCode) (u : State) : ∃ v, Reports u v ∧ raiseError c u = complete c v := by
  refine ⟨_, ?_, rfl⟩
  simp only [Reports]
  split <;> rfl

theorem Finishes.reports (h : Finishes s i ps u t) : ∃ v, Reports u v ∧ t = complete .noError v := by
  cases h <;> refine ⟨_, ?_, rfl⟩ <;> exact rfl

theorem Ends.outcome (h : Ends i s ps es t) : Outcome i s ps es t := by
  cases h with
  | finishes h hf =>
    obtain ⟨v, hv, rfl⟩ := hf.reports
    exact .completed _ h (.inl rfl) hv
  | raises e h _ _ =>
    obtain ⟨v, hv, he⟩ := raiseError_reports e _
    rw [he]
    exact .completed _ h (.inl rfl) hv
  | @faults _ u d r w x h hg _ =>
    obtain ⟨v, hv, he⟩ := raiseError_reports .busFault { w with faultAddr := BitVec.ofNat 64 x }
    rw [busFault, he]
    refine .completed _ h (.inr ⟨d, r, hg⟩) ?_
    rw [hv]; exact rfl
  | @resets _ u w _ e rest h hi hr hg =>
    have hp : w.platform = s.platform := hg.platform_eq.trans h.runs.platform_eq
    obtain ⟨x, ho, he⟩ := hostEvent_of_reset (s := w) (hp ▸ hr)
    exact .reset h hi hr hg ho he
  | stalls h hp hi hg => exact .stuck h hp hi ⟨_, _, hg⟩

/-! ## The inbox -/

theorem Computes.inbox_eq (h : Computes i u w) : w.inbox = u.inbox := by rw [h.same]

theorem Begins.inbox_eq {d : Dir} {r : Region} (h : Begins i s d r u w) : w.inbox = u.inbox := by
  cases h <;> rfl

theorem Cut.inbox_eq (h : Cut i s u w) : w.inbox = u.inbox := by
  obtain rfl | ⟨d, r, hg⟩ := h
  · rfl
  · exact hg.inbox_eq

theorem Reports.inbox_eq (h : Reports u w) : w.inbox = u.inbox := by rw [h]

/-- The events met are those that the inbox has lost, in order. -/
theorem Reaches.inbox (h : Reaches i s ps es u) : s.inbox.map (·.event) = es ++ u.inbox.map (·.event) := by
  induction h with
  | accepted => rfl
  | meets _ hi _ ih => rw [ih, hi, hostEvent_inbox]; simp
  | waits _ hi ih => rw [ih, hi]; simp
  | enters _ _ ih => exact ih
  | reads _ _ _ ih => exact ih
  | writes _ _ _ ih => exact ih
  | computes _ hc ih => rw [ih, hc.inbox_eq]
  | wipes _ _ ih => exact ih

theorem Ends.inbox (h : Ends i s ps es t) : s.inbox.map (·.event) = es ++ t.inbox.map (·.event) := by
  cases h.outcome with
  | completed c hu hg hv => rw [complete_inbox, hv.inbox_eq, hg.inbox_eq]; exact hu.inbox
  | reset hu hi hr hg ho he => rw [hu.inbox, hostEvent_inbox, hg.inbox_eq, hi]; simp
  | stuck hu hp hi hg =>
    obtain ⟨d, r, hg⟩ := hg
    rw [hu.inbox, hg.inbox_eq, hi]; simp

theorem Ends.landed (h : Ends i s ps es t) : landed s t = es := landed_eq h.inbox

/-! ## The record -/

@[simp] theorem phasesOf_append (l m : List EngineEvent) : phasesOf (l ++ m) = phasesOf l ++ phasesOf m := by
  simp [phasesOf]

@[simp] theorem completionsOf_append (l m : List EngineEvent) :
    completionsOf (l ++ m) = completionsOf l + completionsOf m := by simp [completionsOf]

@[simp] theorem resetsOf_append' (l m : List EngineEvent) : resetsOf (l ++ m) = resetsOf l + resetsOf m := by
  simp [resetsOf]

/-- The part `d` of a record after a command's acceptance, where it has entered `ps` and not ended. -/
structure Records (ps : List Phase) (d : List EngineEvent) : Prop where
  phases : phasesOf d = ps
  completions : completionsOf d = 0
  resets : resetsOf d = 0

theorem Records.snoc {d : List EngineEvent} (h : Records ps d) {qs : List Phase} {l : List EngineEvent} (hp : Records qs l) :
    Records (ps ++ qs) (d ++ l) :=
  ⟨by rw [phasesOf_append, h.phases, hp.phases], by rw [completionsOf_append, h.completions, hp.completions],
    by rw [resetsOf_append', h.resets, hp.resets]⟩

/-- Events that are no phase entries, completions or resets. -/
theorem Records.silent {d l : List EngineEvent} (h : Records ps d) (hl : Records [] l) : Records ps (d ++ l) := by
  simpa using h.snoc hl

theorem records_calls {l : List EngineEvent} (h : ∀ e ∈ l, ∃ g R, e = .permute g R) : Records [] l := by
  induction l with
  | nil => exact ⟨rfl, rfl, rfl⟩
  | cons e l ih =>
    obtain ⟨g, R, rfl⟩ := h e List.mem_cons_self
    have := ih fun e he => h e (List.mem_cons_of_mem _ he)
    exact Records.snoc (ps := []) (d := [.permute g R]) ⟨rfl, rfl, rfl⟩ this

/-- The trace of `u` is the record `d` of a command accepted in `s`. -/
def TraceIs (i : Instr) (s u : State) (d : List EngineEvent) : Prop := u.trace = s.trace ++ .accepted i.opcode :: d

theorem TraceIs.snoc {d l : List EngineEvent} (h : TraceIs i s u d) (hl : w.trace = u.trace ++ l) : TraceIs i s w (d ++ l) := by
  rw [TraceIs, hl, h]; simp

theorem Reaches.trace (h : Reaches i s ps es u) : ∃ d, TraceIs i s u d ∧ Records ps d := by
  induction h with
  | accepted => exact ⟨[], rfl, rfl, rfl, rfl⟩
  | @meets _ _ u _ _ rest h _ hb ih =>
    obtain ⟨d, ht, hd⟩ := ih
    have ho := outsideOnly_of_busy (s := { u with inbox := rest }) h.runs.busy hb
    exact ⟨d, ho.trace_eq.trans ht, hd⟩
  | waits _ _ ih => exact ih
  | @enters _ _ _ p _ _ ih =>
    obtain ⟨d, ht, hd⟩ := ih
    exact ⟨_, ht.snoc (l := [.enter p]) rfl, hd.snoc ⟨rfl, rfl, rfl⟩⟩
  | @reads _ _ _ a n _ _ _ ih =>
    obtain ⟨d, ht, hd⟩ := ih
    exact ⟨_, ht.snoc (l := [.read a n]) rfl, hd.silent ⟨rfl, rfl, rfl⟩⟩
  | @writes _ _ _ a v _ _ _ ih =>
    obtain ⟨d, ht, hd⟩ := ih
    exact ⟨_, ht.snoc (l := [.write a v.length]) rfl, hd.silent ⟨rfl, rfl, rfl⟩⟩
  | computes _ hc ih =>
    obtain ⟨d, ht, hd⟩ := ih
    obtain ⟨l, hl, hcalls⟩ := hc.calls
    exact ⟨_, ht.snoc hl, hd.silent (records_calls hcalls)⟩
  | wipes _ _ ih => exact ih

theorem OutsideOnly.phase_eq (h : OutsideOnly s t) : t.phase = s.phase := by
  have := congrArg (fun u : State => u.phase) h.same
  exact this

theorem Computes.phase_eq (h : Computes i u w) : w.phase = u.phase := by rw [h.same]

/-- STATUS.PHASE is the phase entered last, and before the first the one from before the command. -/
theorem Reaches.phase (h : Reaches i s ps es u) : u.phase = ps.getLast?.getD s.phase := by
  induction h with
  | accepted => rfl
  | @meets _ _ u _ _ rest h _ hb ih =>
    rw [(outsideOnly_of_busy (s := { u with inbox := rest }) h.runs.busy hb).phase_eq]
    exact ih
  | enters _ _ _ => simp
  | computes _ hc ih => rw [hc.phase_eq, ih]
  | waits _ _ ih => exact ih
  | reads _ _ _ ih => exact ih
  | writes _ _ _ ih => exact ih
  | wipes _ _ ih => exact ih

theorem Reaches.phases (h : Reaches i s ps es u) : ps <+: phaseSequence i := by
  induction h with
  | accepted => exact List.nil_prefix
  | enters _ hp _ => exact hp
  | meets _ _ _ ih => exact ih
  | waits _ _ ih => exact ih
  | reads _ _ _ ih => exact ih
  | writes _ _ _ ih => exact ih
  | computes _ _ ih => exact ih
  | wipes _ _ ih => exact ih

theorem Begins.trace {d : Dir} {r : Region} (h : Begins i s d r u w) : ∃ l, w.trace = u.trace ++ l ∧ Records [] l := by
  cases h with
  | @read _ a n hc => exact ⟨[.read a n], rfl, rfl, rfl, rfl⟩
  | @write _ a v hc => exact ⟨[.write a v.length], rfl, rfl, rfl, rfl⟩

theorem Cut.trace (h : Cut i s u w) : ∃ l, w.trace = u.trace ++ l ∧ Records [] l := by
  obtain rfl | ⟨d, r, hg⟩ := h
  · exact ⟨[], by simp, rfl, rfl, rfl⟩
  · exact hg.trace

theorem Reports.trace_eq (h : Reports u w) : w.trace = u.trace := by rw [h]

/-- The record of a command to its end. -/
theorem Outcome.trace (h : Outcome i s ps es t) : ∃ d e, Records ps d ∧ (TraceIs i s t (d ++ e)) ∧
    ((t.busy = false ∧ t.done = true ∧ e = [.completed t.err] ∧ t.running = none ∧ t.phase = .idle) ∨
      (t.toEngine = Engine.reset ∧ e = [.reset] ∧ t.running = none) ∨
      (Runs i s t ∧ e = [] ∧ ps.getLast? = some t.phase ∧ .dmaStall ∈ es)) := by
  cases h with
  | @completed _ u w v c h hg hv =>
    obtain ⟨d, ht, hd⟩ := h.trace
    obtain ⟨l, hl, hs⟩ := hg.trace
    refine ⟨d ++ l, [.completed c], hd.silent hs, ?_, .inl ⟨rfl, rfl, rfl, rfl, rfl⟩⟩
    exact (ht.snoc hl).snoc (by rw [complete_trace, hv.trace_eq])
  | @reset _ u w x _ e rest h hi hr hg ho he =>
    obtain ⟨d, ht, hd⟩ := h.trace
    obtain ⟨l, hl, hs⟩ := hg.trace
    rw [he]
    refine ⟨d ++ l, [.reset], hd.silent hs, ?_, .inr (.inl ⟨rfl, rfl, rfl⟩)⟩
    exact TraceIs.snoc (u := w) (TraceIs.snoc (u := { u with inbox := rest }) ht hl) (by rw [resetEngine_trace, ho.trace_eq])
  | @stuck _ u w _ rest h hp hi hg =>
    obtain ⟨d, ht, hd⟩ := h.trace
    obtain ⟨dir, r, hg⟩ := hg
    obtain ⟨l, hl, hs⟩ := hg.trace
    refine ⟨d ++ l, [], hd.silent hs, ?_, .inr (.inr ⟨?_, rfl, ?_, by simp⟩)⟩
    · rw [List.append_nil]; exact TraceIs.snoc (u := { u with inbox := rest }) ht hl
    · have hu : Runs i s { u with inbox := rest } := h.runs.own rfl rfl
      cases hg <;> exact hu.own rfl rfl
    · have hlast : t.phase = u.phase := by cases hg <;> rfl
      obtain ⟨p, hlp⟩ := Option.isSome_iff_exists.mp (List.getLast?_isSome.mpr hp)
      rw [hlast, h.phase, hlp]; rfl

end Along

end Sys2Proof.Machine
end

section
/-! SUPPORT. How commands end: at most once, with their phases in order, with the operands kept; and what a reset leaves. -/

namespace Sys2Proof.Machine

section Along
variable {i : Instr} {s u w t x : State} {ps : List Phase} {es : List HostEvent}

theorem Begins.runs {d : Dir} {r : Region} {v : State} (h : Begins i s d r u w) (hu : Runs i v u) : Runs i v w := by
  cases h <;> exact hu.own rfl rfl

theorem Cut.runs {v : State} (h : Cut i s u w) (hu : Runs i v u) : Runs i v w := by
  obtain rfl | ⟨d, r, hg⟩ := h
  · exact hu
  · exact hg.runs hu

theorem Runs.pop (h : Runs i s u) (rest : List Arrival) : Runs i s { u with inbox := rest } := h.own rfl rfl

/-! ## Resets -/

theorem hostEvent_reset_not_busy {e : HostEvent} (hr : isReset s.platform e) : (hostEvent e s).busy = false := by
  obtain ⟨u, _, he⟩ := hostEvent_of_reset hr
  rw [he]; rfl

/-- No event that a running command has met was a reset. -/
theorem Reaches.no_reset (h : Reaches i s ps es u) : ∀ e ∈ es, ¬ isReset s.platform e := by
  induction h with
  | accepted => exact fun _ he => nomatch he
  | @meets _ _ u _ e rest h _ hb ih =>
    intro e' he'
    rcases List.mem_append.mp he' with he' | he'
    · exact ih e' he'
    · obtain rfl := List.mem_singleton.mp he'
      intro hr
      have hp : ({ u with inbox := rest } : State).platform = s.platform := h.runs.platform_eq
      rw [hostEvent_reset_not_busy (hp ▸ hr)] at hb
      exact nomatch hb
  | waits _ _ ih => exact ih
  | enters _ _ ih => exact ih
  | reads _ _ _ ih => exact ih
  | writes _ _ _ ih => exact ih
  | computes _ _ ih => exact ih
  | wipes _ _ ih => exact ih

/-- In an aligned window the resets are the hard one and the writes of CTRL with bit 0 set. -/
theorem isReset_iff {p : Platform} (hw : windowAligned p) (e : HostEvent) :
    isReset p e ↔ e = .hardReset ∨ ∃ v : Word, v.getLsbD 0 = true ∧ e = .regWrite (busAddr p .ctrl) 64 v := by
  constructor
  · intro h
    cases e with
    | hardReset => exact .inl rfl
    | regWrite addr width data =>
      obtain ⟨rfl, rfl⟩ := eq_busAddr_of_select hw h.1
      exact .inr ⟨data, h.2, rfl⟩
    | _ => exact absurd h id
  · rintro (rfl | ⟨v, hv, rfl⟩)
    · trivial
    · exact ⟨select_busAddr hw .ctrl, hv⟩

theorem TraceIs.resets {d : List EngineEvent} (h : TraceIs i s t d) : resetsOf t.trace = resetsOf s.trace + resetsOf d := by
  rw [h, resetsOf_append']; rfl

theorem TraceIs.phases {d : List EngineEvent} (h : TraceIs i s t d) : phasesOf t.trace = phasesOf s.trace ++ phasesOf d := by
  rw [h, phasesOf_append]; rfl

/-- A command ends by a reset exactly where one was among the events it met. -/
theorem Ends.resets_iff (h : Ends i s ps es t) : (∃ e ∈ es, isReset s.platform e) ↔ resetsOf s.trace < resetsOf t.trace := by
  cases h.outcome with
  | completed c hu hg hv =>
    obtain ⟨d, ht, hd⟩ := hu.trace
    obtain ⟨l, hl, hs⟩ := hg.trace
    have := ((ht.snoc hl).snoc (w := complete c _) (by rw [complete_trace, hv.trace_eq])).resets
    simp only [resetsOf_append', hd.resets, hs.resets] at this
    refine ⟨fun ⟨e, he, hr⟩ => absurd hr (hu.no_reset e he), fun hlt => ?_⟩
    have h0 : resetsOf [EngineEvent.completed c] = 0 := rfl
    omega
  | @reset _ u w x _ e rest hu hi hr hg ho he =>
    refine ⟨fun _ => ?_, fun _ => ⟨e, by simp, hr⟩⟩
    obtain ⟨d, ht, hd⟩ := hu.trace
    obtain ⟨l, hl, hs⟩ := hg.trace
    have := (TraceIs.snoc (u := w) (TraceIs.snoc (u := { u with inbox := rest }) ht hl) (w := resetEngine x)
      (by rw [resetEngine_trace, ho.trace_eq])).resets
    simp only [resetsOf_append'] at this
    have h1 : resetsOf [EngineEvent.reset] = 1 := rfl
    rw [he]
    omega
  | @stuck _ u _ _ rest hu hp hi hg =>
    obtain ⟨d, ht, hd⟩ := hu.trace
    obtain ⟨_, _, hg⟩ := hg
    obtain ⟨l, hl, hs⟩ := hg.trace
    have := (TraceIs.snoc (u := { u with inbox := rest }) ht hl).resets
    simp only [resetsOf_append', hd.resets, hs.resets] at this
    refine ⟨fun ⟨e, he, hr⟩ => ?_, fun hlt => by omega⟩
    rcases List.mem_append.mp he with he | he
    · exact absurd hr (hu.no_reset e he)
    · obtain rfl := List.mem_singleton.mp he
      exact absurd hr id

theorem OutsideOnly.operands_iff {v : State} (h : OutsideOnly s t) : sameOperands v t ↔ sameOperands v s :=
  (congrArg (sameOperands v) h.same).to_iff

/-- The operands at a command's end, where no reset has cut it off (92_eei_decisions.md D34). -/
theorem Outcome.operands (h : Outcome i s ps es t) :
    t.platform = s.platform ∧ (sameOperands s t ∨ t.toEngine = Engine.reset) := by
  cases h with
  | @completed _ u w v c hu hg hv =>
    have ho : sameOperands s (complete c v) := by
      rw [hv]; exact (hg.runs hu.runs).operands
    exact ⟨by rw [complete_platform, hv]; exact (hg.runs hu.runs).platform_eq, .inl ho⟩
  | @reset _ u w x _ e rest hu hi hr hg ho he =>
    rw [he]
    exact ⟨ho.platform_eq.trans (hg.runs (hu.runs.pop rest)).platform_eq, .inr rfl⟩
  | @stuck _ u _ _ rest hu hp hi hg =>
    obtain ⟨_, _, hg⟩ := hg
    have hr := hg.runs (hu.runs.pop rest)
    exact ⟨hr.platform_eq, .inl hr.operands⟩

end Along

/-! ## The statements -/

/-- At the slot of an access the platform's silence ends the command, at another it is dropped (60_exceptions.md R224). -/
theorem land_dmaStall {s : State} (hb : s.busy = true) (rest : List Arrival) (f : State → State) (inside : Bool) :
    land (some f) (⟨.slot 0 inside, .dmaStall⟩ :: rest) s = .ended (f { s with inbox := rest }) ∧
    land none (⟨.slot 0 inside, .dmaStall⟩ :: rest) s = land none rest { s with inbox := rest } := by
  constructor
  · simp only [land, HostEvent.isStall, Option.isSome_some, Bool.and_self, if_true, Option.getD_some]
  · simp only [land, HostEvent.isStall, Option.isSome_none, Bool.false_and, Bool.false_eq_true, if_false, hostEvent, hb,
      if_true]

/-- Settles O39: `exec_ends` and the record of each kind of end, `Outcome.trace`. -/
theorem everyCommandEndsAtMostOnce : Obligations.EveryCommandEndsAtMostOnce := by
  unfold Obligations.EveryCommandEndsAtMostOnce
  refine ⟨fun s t i hb h => ?_, fun s rest f inside hb => land_dmaStall hb rest f inside⟩
  obtain ⟨ps, es, he⟩ := exec_ends hb h
  obtain ⟨d, e, ⟨hp, hc, hr⟩, ht, hend⟩ := he.outcome.trace
  refine ⟨d ++ e, ht, ?_⟩
  simp only [completionsOf_append, resetsOf_append', phasesOf_append, hp, hc, hr, he.landed]
  rcases hend with ⟨hbusy, hdone, rfl, hrun, hphase⟩ | ⟨heng, rfl, hrun⟩ | ⟨hruns, rfl, hphase, hst⟩
  · exact .inl ⟨hbusy, hdone, rfl, rfl, hrun, hphase, d, rfl⟩
  · refine .inr (.inl ?_)
    rw [heng]
    exact ⟨rfl, rfl, rfl, rfl, hrun, rfl, d, rfl⟩
  · refine .inr (.inr ⟨hruns.busy, hruns.done, rfl, rfl, hruns.running, ?_, hst⟩)
    rw [← hphase]; exact congrArg _ (List.append_nil ps)

/-- A command that completes without error, and is no short OPEN, has entered its whole sequence. -/
theorem Ends.phases_complete {i : Instr} {s t : State} {ps : List Phase} {es : List HostEvent} (h : Ends i s ps es t)
    (hd : t.done = true) (he : t.err = .noError) (hn : i = .openMsg → 32 ≤ s.inLen.toNat) : ps = phaseSequence i := by
  cases h with
  | finishes hu hf =>
    cases hf with
    | short hlt => have := hn rfl; omega
    | _ => rfl
  | raises e hu hne _ => exact absurd he hne
  | faults hu hg hx => exact nomatch he
  | @resets _ u w _ e rest hu hi hr hg =>
    obtain ⟨x, _, hx⟩ := hostEvent_of_reset (s := w) (e := e) (by rw [(hg.runs (hu.runs.pop rest)).platform_eq]; exact hr)
    rw [hx] at hd; exact nomatch hd
  | @stalls _ u d r _ _ rest hu hp hi hg =>
    rw [(hg.runs (hu.runs.pop rest)).done] at hd; exact nomatch hd

theorem Ends.phases {i : Instr} {s t : State} {ps : List Phase} {es : List HostEvent} (h : Ends i s ps es t) :
    ps <+: phaseSequence i := by
  cases h with
  | finishes hu _ => exact hu.phases
  | raises _ hu _ _ => exact hu.phases
  | faults hu _ _ => exact hu.phases
  | resets hu _ _ _ => exact hu.phases
  | stalls hu _ _ _ => exact hu.phases

/-- Settles O40: the phases are counted along the command by `Reaches`, and `Ends.phases_complete` has them all. -/
theorem phasesOnlyAdvance : Obligations.PhasesOnlyAdvance := by
  unfold Obligations.PhasesOnlyAdvance
  refine ⟨fun s t i hb h => ?_, fun s p hq => enter_quiet hq p⟩
  obtain ⟨ps, es, he⟩ := exec_ends hb h
  obtain ⟨d, e, hd, ht, hend⟩ := he.outcome.trace
  have hnone : phasesOf e = [] := by
    rcases hend with ⟨_, _, rfl, _⟩ | ⟨_, rfl, _⟩ | ⟨_, rfl, _⟩ <;> rfl
  refine ⟨ps, ?_, he.phases, he.phases_complete⟩
  rw [ht.phases, phasesOf_append, hd.phases, hnone, List.append_nil]

theorem resets_of_engine_reset {i : Instr} {s t : State} {ps : List Phase} {es : List HostEvent} (h : Ends i s ps es t) :
    t.toEngine = Engine.reset → resetsOf s.trace < resetsOf t.trace := by
  intro heng
  obtain ⟨d, e, hd, ht, hend⟩ := h.outcome.trace
  rcases hend with ⟨_, hdone, _⟩ | ⟨_, rfl, _⟩ | ⟨hr, _⟩
  · rw [heng] at hdone; exact nomatch hdone
  · have h1 : resetsOf [EngineEvent.reset] = 1 := rfl
    rw [ht.resets, resetsOf_append', h1]
    omega
  · have := hr.busy
    rw [heng] at this; exact nomatch this

/-- Settles O41: the operands along a command are `Runs.operands`, and at its end `Outcome.operands`. -/
theorem commandsKeepOperandRegisters : Obligations.CommandsKeepOperandRegisters := by
  unfold Obligations.CommandsKeepOperandRegisters
  intro s t i hb h
  obtain ⟨ps, es, he⟩ := exec_ends hb h
  obtain ⟨hp, ho⟩ := he.outcome.operands
  exact ⟨hp, ho.imp_right (resets_of_engine_reset he)⟩

/-- What a reset recorded during a command leaves. -/
theorem Ends.after_reset {i : Instr} {s t : State} {ps : List Phase} {es : List HostEvent} (h : Ends i s ps es t)
    (hlt : resetsOf s.trace < resetsOf t.trace) :
    (∃ d, t.trace = s.trace ++ d ++ [.reset] ∧ completionsOf d = 0) ∧ t.toEngine = Engine.reset ∧ t.running = none := by
  obtain ⟨d, e, hd, ht, hend⟩ := h.outcome.trace
  have hcount := ht.resets
  rw [resetsOf_append', hd.resets] at hcount
  rcases hend with ⟨_, _, rfl, _⟩ | ⟨heng, rfl, hrun⟩ | ⟨_, rfl, _⟩
  · have h0 : resetsOf [EngineEvent.completed t.err] = 0 := rfl
    omega
  · refine ⟨⟨.accepted i.opcode :: d, ?_, hd.completions⟩, heng, hrun⟩
    rw [ht, List.append_assoc, List.cons_append]
  · have h0 : resetsOf [] = 0 := rfl
    omega

theorem statusWord_of_engine_reset {t : State} (h : t.toEngine = Engine.reset) : statusWord t = 0 := by
  simp only [statusWord, h, Engine.reset]
  decide

/-- A hard reset at a slot ends the command, after what a begun access has left (70_reset_and_hazards.md R241). -/
theorem land_hardReset {s : State} (rest : List Arrival) (begun : Option (State → State)) (inside : Bool) :
    land begun (⟨.slot 0 inside, .hardReset⟩ :: rest) s =
      .ended (resetEngine (if inside then begun.getD id { s with inbox := rest } else { s with inbox := rest })) :=
  land_ended begun inside rfl rfl

/-- So does a write of 1 to CTRL.SRST, answered writeDone. -/
theorem land_softReset {s : State} (hw : windowAligned s.platform) {v : Word} (hv : v.getLsbD 0 = true) (rest : List Arrival)
    (begun : Option (State → State)) (hp : ∀ u, (begun.getD id u).platform = u.platform) (inside : Bool) :
    land begun (⟨.slot 0 inside, .regWrite (busAddr s.platform .ctrl) 64 v⟩ :: rest) s =
      .ended (resetEngine (respond .writeDone
        (if inside then begun.getD id { s with inbox := rest } else { s with inbox := rest }))) := by
  have heff : ∀ u : State, u.platform = s.platform →
      hostEvent (.regWrite (busAddr s.platform .ctrl) 64 v) u = resetEngine (respond .writeDone u) := by
    intro u hu
    rw [← hu, hostEvent_regWrite (by rw [hu]; exact hw), writeReg_unprotected rfl, storeReg_ctrl_set hv]
  rw [land_ended begun inside rfl (by rw [heff { s with inbox := rest } rfl]; rfl), heff]
  split
  · exact hp _
  · rfl

/-- Settles O59: the resets a command has met by `Ends.resets_iff`, what they leave by `Ends.after_reset`, and each slot by
`land_hardReset` and `land_softReset`. -/
theorem resetAbandonsTheCommand : Obligations.ResetAbandonsTheCommand := by
  unfold Obligations.ResetAbandonsTheCommand
  refine ⟨fun s t i hb hw h => ?_, fun s t i hb h hlt => ?_, fun s rest f begun hb => ?_⟩
  · obtain ⟨ps, es, he⟩ := exec_ends hb h
    rw [← he.resets_iff, he.landed]
    constructor
    · rintro (hm | ⟨v, hv, hm⟩)
      · exact ⟨_, hm, (isReset_iff hw _).mpr (.inl rfl)⟩
      · exact ⟨_, hm, (isReset_iff hw _).mpr (.inr ⟨v, hv, rfl⟩)⟩
    · rintro ⟨e, hm, hr⟩
      rcases (isReset_iff hw e).mp hr with rfl | ⟨v, hv, rfl⟩
      · exact .inl hm
      · exact .inr ⟨v, hv, hm⟩
  · obtain ⟨ps, es, he⟩ := exec_ends hb h
    obtain ⟨htr, heng, hrun⟩ := he.after_reset hlt
    exact ⟨htr, heng, statusWord_of_engine_reset heng, hrun, he.outcome.operands.1⟩
  · refine ⟨land_hardReset rest begun false, land_hardReset rest none true, land_hardReset rest (some f) true,
      fun v hw hv => ⟨?_, land_softReset hw hv rest none (fun _ => rfl) true,
        fun hf => land_softReset hw hv rest (some f) hf true⟩⟩
    have heff : hostEvent (.regWrite (busAddr s.platform .ctrl) 64 v) { s with inbox := rest } = _ :=
      (hostEvent_regWrite (s := { s with inbox := rest }) hw .ctrl v).trans
        ((writeReg_unprotected rfl v _).trans (storeReg_ctrl_set hv _))
    exact (land_ended begun false rfl (by rw [heff]; rfl)).trans (congrArg Run.ended heff)

end Sys2Proof.Machine
end

section
/-! SUPPORT. What commands leave in memory, in the data of the engine and in the registers that report: induction on `Reaches`
for a running command, a case split on `Ends` for its end. -/

namespace Sys2Proof.Machine

/-! ## Memory outside a write -/

theorem Memory.read_write_ne {m : Memory} (h : Memory.wf m = true) {a b : Nat} (v : Byte) (hb : b ≠ a) :
    Memory.read (Memory.write m a v) b = Memory.read m b := by
  by_cases ha : a < 2 ^ 64
  · rw [Memory.read_write h ha, if_neg hb]
  · rw [Memory.write, if_neg ha]

/-- Outside its bytes a write leaves memory as it was, wherever it lies. -/
theorem Memory.read_store_outside {m : Memory} (h : Memory.wf m = true) {a b : Nat} {v : List Byte}
    (hb : Region.contains ⟨a, v.length⟩ b = false) : Memory.read (Memory.store m a v) b = Memory.read m b := by
  induction v generalizing m a with
  | nil => rfl
  | cons x v ih =>
    simp only [← Bool.not_eq_true, Region.contains_iff, List.length_cons] at hb ih
    rw [Memory.store, ih (Memory.wf_write h a x) (by omega), Memory.read_write_ne h x (by omega)]

theorem read_tornStore_beyond {m : Memory} (h : Memory.wf m = true) (d : Nat) {a b : Nat} {v : List Byte}
    (hb : Region.contains ⟨a, v.length⟩ b = false) : Memory.read (tornStore d m a v) b = Memory.read m b := by
  induction v generalizing m a with
  | nil => rfl
  | cons x v ih =>
    simp only [← Bool.not_eq_true, Region.contains_iff, List.length_cons] at hb ih
    simp only [tornStore]
    split
    · rw [ih (Memory.wf_write h a x) (by omega), Memory.read_write_ne h x (by omega)]
    · exact ih h (by omega)

theorem length_answeredPart_le (p : Platform) (a : Nat) (v : List Byte) : (answeredPart p a v).length ≤ v.length := by
  unfold answeredPart
  split
  · simp
  · exact Nat.le_refl _

theorem Region.contains_mono {a n m b : Nat} (hb : Region.contains ⟨a, n⟩ b = false) (h : m ≤ n) :
    Region.contains ⟨a, m⟩ b = false := by
  simp only [← Bool.not_eq_true, Region.contains_iff] at hb ⊢
  omega

/-- A byte that no write of the command can have changed. -/
theorem storeAll_read {s : State} (h : Memory.wf s.mem = true) {a b : Nat} {v : List Byte}
    (hb : Region.contains ⟨a, v.length⟩ b = false) : Memory.read (storeAll a v s).mem b = Memory.read s.mem b :=
  Memory.read_store_outside h (by rwa [dmaStoredBytes_length])

theorem storeTorn_read {s : State} (h : Memory.wf s.mem = true) {a b : Nat} {v : List Byte}
    (hb : Region.contains ⟨a, v.length⟩ b = false) : Memory.read (storeTorn a v s).mem b = Memory.read s.mem b :=
  read_tornStore_beyond h _ (Region.contains_mono hb (by rw [dmaStoredBytes_length]; exact length_answeredPart_le _ _ _))

/-! ## What an outside event changes in memory -/

theorem writeReg_mem (r : Reg) (v : Word) (s : State) : (writeReg r v s).mem = s.mem := by
  simp only [writeReg]
  split
  · rfl
  · cases r with
    | ctrl => simp only [storeReg]; split <;> rfl
    | _ => rfl

theorem hostEvent_mem {e : HostEvent} (h : ∀ a v, e ≠ .memWrite a v) (s : State) : (hostEvent e s).mem = s.mem := by
  cases e with
  | regRead addr width => simp only [hostEvent]; split <;> rfl
  | regWrite addr width data =>
    simp only [hostEvent]
    split
    · exact writeReg_mem _ _ _
    · rfl
    · rfl
  | memWrite a v => exact absurd rfl (h a v)
  | _ => rfl

theorem agentWrite_wf {s : State} (h : Memory.wf s.mem = true) (a : Nat) (v : Byte) :
    Memory.wf (agentWrite a v s).mem = true := (OutsideOnly.agentWrite s a v).wf h

theorem agentWrite_read {s : State} (h : Memory.wf s.mem = true) {a b : Nat} (v : Byte) (hb : b ≠ a) :
    Memory.read (agentWrite a v s).mem b = Memory.read s.mem b := by
  simp only [agentWrite]
  split <;> exact Memory.read_write_ne h _ hb

theorem hostEvent_wf {s : State} (h : Memory.wf s.mem = true) (e : HostEvent) : Memory.wf (hostEvent e s).mem = true := by
  cases e with
  | memWrite a v => exact agentWrite_wf h _ v
  | _ => rw [hostEvent_mem (by simp)]; exact h

/-- An event leaves every byte but the one that it names. -/
theorem hostEvent_read {s : State} (h : Memory.wf s.mem = true) {e : HostEvent} {b : Nat}
    (hb : ∀ a v, e = .memWrite a v → a.toNat ≠ b) : Memory.read (hostEvent e s).mem b = Memory.read s.mem b := by
  cases e with
  | memWrite a v => exact agentWrite_read h v (Ne.symm (hb a v rfl))
  | _ => rw [hostEvent_mem (by simp)]

section Along
variable {i : Instr} {s u w t x : State} {ps : List Phase} {es : List HostEvent}

theorem Computes.mem_eq (h : Computes i u w) : w.mem = u.mem := by rw [h.same]

theorem Reports.mem_eq (h : Reports u w) : w.mem = u.mem := by rw [h]

theorem Reaches.wf (h : Reaches i s ps es u) (hm : Memory.wf s.mem = true) : Memory.wf u.mem = true := by
  induction h with
  | accepted => exact hm
  | @meets _ _ u _ e rest _ _ _ ih => exact hostEvent_wf (s := { u with inbox := rest }) ih e
  | writes _ _ _ ih => exact Memory.wf_store ih _ _
  | computes _ hc ih => rw [hc.mem_eq]; exact ih
  | waits _ _ ih => exact ih
  | enters _ _ ih => exact ih
  | reads _ _ _ ih => exact ih
  | wipes _ _ ih => exact ih

theorem Begins.wf {d : Dir} {r : Region} (h : Begins i s d r u w) (hm : Memory.wf u.mem = true) : Memory.wf w.mem = true := by
  cases h with
  | read _ => exact hm
  | write _ => exact wf_tornStore hm _ _ _

theorem Cut.wf (h : Cut i s u w) (hm : Memory.wf u.mem = true) : Memory.wf w.mem = true := by
  obtain rfl | ⟨d, r, hg⟩ := h
  · exact hm
  · exact hg.wf hm

theorem Outcome.wf (h : Outcome i s ps es t) (hm : Memory.wf s.mem = true) : Memory.wf t.mem = true := by
  cases h with
  | completed c hu hg hv => rw [complete_mem, hv.mem_eq]; exact hg.wf (hu.wf hm)
  | reset hu hi hr hg ho he => rw [he]; exact ho.wf (hg.wf (hu.wf hm))
  | stuck hu hp hi hg => obtain ⟨_, _, hg⟩ := hg; exact hg.wf (hu.wf hm)

/-! ## Memory outside the output region -/

/-- No event of the list is another agent's write of the byte. -/
def Unnamed (es : List HostEvent) (a : Nat) : Prop := ∀ b v, HostEvent.memWrite b v ∈ es → b.toNat ≠ a

theorem Unnamed.left {fs : List HostEvent} {a : Nat} (h : Unnamed (es ++ fs) a) : Unnamed es a :=
  fun b v hm => h b v (List.mem_append_left _ hm)

theorem Unnamed.last {e : HostEvent} {a : Nat} (h : Unnamed (es ++ [e]) a) (b : Word) (v : Byte) (he : e = .memWrite b v) :
    b.toNat ≠ a := h b v (by simp [he])

theorem Region.not_contains_of_coveredBy {r q : Region} {a : Nat} (h : r.coveredBy [q]) (ha : q.contains a = false) :
    r.contains a = false := by
  refine Bool.eq_false_iff.mpr fun hr => ?_
  obtain ⟨q', hq, hc⟩ := h.2 a hr
  obtain rfl := List.mem_singleton.mp hq
  rw [ha] at hc; exact nomatch hc

theorem Reaches.memory (h : Reaches i s ps es u) (hm : Memory.wf s.mem = true) {a : Nat}
    (ha : (outputRegion i s).contains a = false) (hn : Unnamed es a) : Memory.read u.mem a = Memory.read s.mem a := by
  induction h with
  | accepted => rfl
  | @meets _ _ u _ e rest h _ _ ih =>
    exact (hostEvent_read (s := { u with inbox := rest }) (h.wf hm) fun b v he => hn.last b v he).trans (ih hn.left)
  | @writes _ _ u b v h _ hc ih =>
    rw [storeAll_read (by exact h.wf hm) (Region.not_contains_of_coveredBy hc ha)]
    exact ih hn
  | computes _ hc ih => rw [hc.mem_eq]; exact ih hn
  | waits _ _ ih => exact ih hn
  | enters _ _ ih => exact ih hn
  | reads _ _ _ ih => exact ih hn
  | wipes _ _ ih => exact ih hn

theorem Begins.memory {d : Dir} {r : Region} (h : Begins i s d r u w) (hm : Memory.wf u.mem = true) {a : Nat}
    (ha : (outputRegion i s).contains a = false) : Memory.read w.mem a = Memory.read u.mem a := by
  cases h with
  | read _ => rfl
  | write hc => exact storeTorn_read (by exact hm) (Region.not_contains_of_coveredBy hc ha)

theorem Cut.memory (h : Cut i s u w) (hm : Memory.wf u.mem = true) {a : Nat}
    (ha : (outputRegion i s).contains a = false) : Memory.read w.mem a = Memory.read u.mem a := by
  obtain rfl | ⟨d, r, hg⟩ := h
  · rfl
  · exact hg.memory hm ha

theorem isReset.not_memWrite {p : Platform} {e : HostEvent} (h : isReset p e) (a : Word) (v : Byte) : e ≠ .memWrite a v := by
  rintro rfl; exact h

theorem Outcome.memory (h : Outcome i s ps es t) (hm : Memory.wf s.mem = true) {a : Nat}
    (ha : (outputRegion i s).contains a = false) (hn : Unnamed es a) : Memory.read t.mem a = Memory.read s.mem a := by
  cases h with
  | completed c hu hg hv =>
    rw [complete_mem, hv.mem_eq, hg.memory (hu.wf hm) ha]
    exact hu.memory hm ha hn
  | reset hu hi hr hg ho he =>
    rw [hostEvent_mem hr.not_memWrite, hg.memory (by exact hu.wf hm) ha]
    exact hu.memory hm ha hn.left
  | stuck hu hp hi hg =>
    obtain ⟨_, _, hg⟩ := hg
    rw [hg.memory (by exact hu.wf hm) ha]
    exact hu.memory hm ha hn.left

/-! ## Commands in which nothing lands -/

/-- Nothing is met where the inbox waits for an idle engine. -/
theorem Reaches.quiet (h : Reaches i s ps es u) (hq : Machine.quiet s = true) :
    es = [] ∧ u.inbox = s.inbox ∧ u.responses = s.responses ∧ u.doneIe = s.doneIe ∧ u.wrBusy = s.wrBusy ∧ u.raced = [] := by
  have hslot : ∀ {v : State} {n : Nat} {inside : Bool} {e : HostEvent} {rest : List Arrival},
      v.inbox = s.inbox → v.inbox ≠ ⟨.slot n inside, e⟩ :: rest := by
    intro v n inside e rest hv hi
    rw [Machine.quiet, ← hv, hi] at hq
    exact nomatch hq
  induction h with
  | accepted => exact ⟨rfl, rfl, rfl, rfl, rfl, rfl⟩
  | meets _ hi _ ih => exact absurd hi (hslot ih.2.1)
  | waits _ hi ih => exact absurd hi (hslot ih.2.1)
  | computes _ hc ih => rw [hc.same]; exact ih
  | enters _ _ ih => exact ih
  | reads _ _ _ ih => exact ih
  | writes _ _ _ ih => exact ih
  | wipes _ _ ih => exact ih

/-- In a quiet state a command completes, and leaves all around it as it was. -/
theorem Outcome.quiet (h : Outcome i s ps es t) (hq : Machine.quiet s = true) :
    es = [] ∧ t.busy = false ∧ t.done = true ∧ t.phase = .idle ∧ t.k = 0 ∧ t.running = none ∧ t.lastOpc = i.opcode ∧
      sameAround s t := by
  cases h with
  | @completed _ u w v c hu hg hv =>
    obtain ⟨hes, hin, hre, hie, hwr, -⟩ := hu.quiet hq
    have hcut : w.inbox = u.inbox ∧ w.responses = u.responses ∧ w.doneIe = u.doneIe ∧ w.wrBusy = u.wrBusy := by
      obtain rfl | ⟨_, _, hg⟩ := hg
      · exact ⟨rfl, rfl, rfl, rfl⟩
      · cases hg <;> exact ⟨rfl, rfl, rfl, rfl⟩
    obtain ⟨ci, cr, cie, cwr⟩ := hcut
    have hruns := hg.runs hu.runs
    rw [hv]
    exact ⟨hes, rfl, rfl, rfl, rfl, rfl, hruns.lastOpc, hruns.operands, cie.trans hie, cwr.trans hwr, ci.trans hin,
      cr.trans hre⟩
  | reset hu hi hr hg ho he =>
    obtain ⟨-, hin, -⟩ := hu.quiet hq
    rw [Machine.quiet, ← hin, hi] at hq; exact nomatch hq
  | stuck hu hp hi hg =>
    obtain ⟨-, hin, -⟩ := hu.quiet hq
    rw [Machine.quiet, ← hin, hi] at hq; exact nomatch hq

/-! ## Key, nonce and masks -/

/-- NOP and PERMUTE leave key and nonce alone while they run. -/
theorem Reaches.secrets (h : Reaches i s ps es u) (hi : ¬ (IsMessage i ∨ i = .erase)) : sameSecrets s u := by
  induction h with
  | accepted => exact ⟨rfl, rfl, rfl, rfl⟩
  | @meets _ _ u _ _ rest h _ hb ih =>
    have ho := outsideOnly_of_busy (s := { u with inbox := rest }) h.runs.busy hb
    exact (congrArg (sameSecrets s) ho.same).mpr ih
  | computes _ hc ih => rw [hc.same]; exact ih
  | wipes _ hw _ => exact absurd hw hi
  | waits _ _ ih => exact ih
  | enters _ _ ih => exact ih
  | reads _ _ _ ih => exact ih
  | writes _ _ _ ih => exact ih

theorem Begins.secrets {d : Dir} {r : Region} (h : Begins i s d r u w) (hu : sameSecrets s u) : sameSecrets s w := by
  cases h <;> exact hu

/-- An error of a message erases everything, the key too (60_exceptions.md R212). -/
theorem raiseError_message {c : ErrCode} (h : u.running = some i) (hi : IsMessage i) :
    raiseError c u = complete c (setAuth false false (setOutLen 0 (wipe u))) := by
  have hr : runsMessage (eraseTransients u) = true := by
    obtain rfl | rfl := hi <;> simp only [runsMessage, eraseTransients_running, h]
  simp only [raiseError, hr, if_true, wipe]

theorem raiseError_other {c : ErrCode} (h : u.running = some i) (hi : ¬ IsMessage i) :
    raiseError c u = complete c (setAuth false false (setOutLen 0 (eraseTransients u))) := by
  have hr : runsMessage (eraseTransients u) = false := by
    cases i <;> simp [runsMessage, h, IsMessage] at hi ⊢
  simp only [raiseError, hr, Bool.false_eq_true, if_false]

theorem busFault_message (h : u.running = some i) (hi : IsMessage i) (a : Nat) :
    busFault a u = complete .busFault (setAuth false false (setOutLen 0 (wipe { u with faultAddr := BitVec.ofNat 64 a }))) :=
  raiseError_message (u := { u with faultAddr := BitVec.ofNat 64 a }) h hi

theorem busFault_other (h : u.running = some i) (hi : ¬ IsMessage i) (a : Nat) :
    busFault a u =
      complete .busFault (setAuth false false (setOutLen 0 (eraseTransients { u with faultAddr := BitVec.ofNat 64 a }))) :=
  raiseError_other (u := { u with faultAddr := BitVec.ofNat 64 a }) h hi

theorem Ends.secrets (h : Ends i s ps es t) (hi : ¬ (IsMessage i ∨ i = .erase)) :
    sameSecrets s t ∨ resetsOf s.trace < resetsOf t.trace := by
  have hm : ¬ IsMessage i := fun hm => hi (.inl hm)
  cases h with
  | finishes hu hf =>
    have hs := hu.secrets hi
    cases hf with
    | nop => exact .inl hs
    | permuted r => exact .inl hs
    | sealed _ => exact absurd (.inl rfl) hm
    | opened _ _ => exact absurd (.inr rfl) hm
    | short _ => exact absurd (.inr rfl) hm
    | erased _ => exact absurd (.inr rfl) hi
  | raises e hu _ _ => rw [raiseError_other hu.runs.running hm]; exact .inl (hu.secrets hi)
  | faults hu hg _ => rw [busFault_other (hg.runs hu.runs).running hm]; exact .inl (hg.secrets (hu.secrets hi))
  | resets hu hi' hr hg => exact .inr ((Ends.resets hu hi' hr hg).resets_iff.mp ⟨_, by simp, hr⟩)
  | stalls hu hp hi' hg => exact .inl (hg.secrets (hu.secrets hi))

theorem wiped_wipe (u : State) : Wiped (wipe u) := ⟨⟨rfl, rfl, rfl, rfl⟩, rfl, rfl, rfl, rfl, rfl⟩

theorem Wiped.reported (h : Wiped u) {c : ErrCode} {ok fail : Bool} {n : Word} :
    Wiped (complete c (setAuth ok fail (setOutLen n u))) := h

theorem wiped_openShort (u : State) : Wiped (openShort u) := wiped_wipe u

theorem wiped_engine_reset (h : t.toEngine = Engine.reset) : Wiped t := by
  simp only [Wiped, secretsErased, transientsErased, h]
  exact ⟨⟨rfl, rfl, rfl, rfl⟩, rfl, rfl, rfl, rfl, rfl⟩

theorem Reaches.reset_engine {e : HostEvent} {rest : List Arrival} (hu : Reaches i s ps es u)
    (hr : isReset s.platform e) (hg : Cut i s { u with inbox := rest } w) :
    (hostEvent e w).toEngine = Engine.reset ∧ (hostEvent e w).running = none ∧ (hostEvent e w).raced = [] ∧
      (hostEvent e w).fresh = [] := by
  obtain ⟨x, _, hx⟩ := hostEvent_of_reset (s := w) (e := e) (by rw [(hg.runs (hu.runs.pop rest)).platform_eq]; exact hr)
  rw [hx]; exact ⟨rfl, rfl, rfl, rfl⟩

/-- A message that has ended has erased everything, however it ended (42_orchestrator.md R178, 60_exceptions.md R212). -/
theorem Ends.message_wiped (h : Ends i s ps es t) (hi : IsMessage i) (hb : t.busy = false) : Wiped t := by
  cases h with
  | finishes hu hf =>
    cases hf with
    | sealed hw => exact hw
    | opened ok hw => exact hw
    | short _ => exact wiped_openShort _
    | _ => exact absurd hi (by simp [IsMessage])
  | raises e hu _ _ => rw [raiseError_message hu.runs.running hi]; exact (wiped_wipe _).reported
  | faults hu hg _ => rw [busFault_message (hg.runs hu.runs).running hi]; exact (wiped_wipe _).reported
  | resets hu hi' hr hg => exact wiped_engine_reset (hu.reset_engine hr hg).1
  | stalls hu hp hi' hg => rw [(hg.runs (hu.runs.pop _)).busy] at hb; exact nomatch hb

/-! ## The registers that report -/

/-- An error reports no length and no authentication result, an authentication result is OPEN's and no error. -/
structure ReportsApart (i : Instr) (t : State) : Prop where
  error : t.err ≠ .noError → authIs false false t ∧ t.outLen = 0
  fail : t.authFail = true → t.err = .noError ∧ t.authOk = false ∧ t.outLen = 0 ∧ i = .openMsg
  ok : t.authOk = true → t.err = .noError ∧ t.authFail = false ∧ i = .openMsg

theorem ReportsApart.of_none (hok : t.authOk = false) (hf : t.authFail = false) (he : t.err ≠ .noError → t.outLen = 0) :
    ReportsApart i t :=
  ⟨fun h => ⟨⟨hok, hf⟩, he h⟩, fun h => absurd h (by simp [hf]), fun h => absurd h (by simp [hok])⟩

theorem Ends.reports (h : Ends i s ps es t) : ReportsApart i t := by
  cases h with
  | finishes hu hf =>
    have hr := hu.runs
    cases hf with
    | opened ok _ =>
      cases ok
      · exact .mk (fun h => absurd rfl h) (fun _ => ⟨rfl, rfl, rfl, rfl⟩) fun h => nomatch h
      · exact .mk (fun h => absurd rfl h) (fun h => nomatch h) fun _ => ⟨rfl, rfl, rfl⟩
    | short _ => exact .mk (fun h => absurd rfl h) (fun _ => ⟨rfl, rfl, rfl, rfl⟩) fun h => nomatch h
    | _ => exact .of_none hr.authOk hr.authFail fun h => absurd rfl h
  | raises e hu _ _ =>
    unfold raiseError
    exact .of_none rfl rfl fun _ => rfl
  | faults hu hg _ =>
    unfold busFault raiseError
    exact .of_none rfl rfl fun _ => rfl
  | resets hu hi hr hg =>
    obtain ⟨he, -⟩ := hu.reset_engine hr hg
    exact .of_none (by rw [he]; rfl) (by rw [he]; rfl) fun _ => by rw [he]; rfl
  | stalls hu hp hi hg =>
    have hr := hg.runs (hu.runs.pop _)
    exact .of_none hr.authOk hr.authFail fun h => absurd hr.err h

/-- A command that ends with BUS_FAULT reports a byte of its regions that the platform refuses. -/
theorem Ends.fault (h : Ends i s ps es t) (he : t.err = .busFault) :
    ∃ (d : Dir) (r : Region), (r.coveredBy (inputRegions i s) ∨ r.coveredBy [outputRegion i s]) ∧ r.contains t.faultAddr.toNat = true ∧
      memOk s.platform d t.faultAddr.toNat = false := by
  cases h with
  | finishes hu hf => cases hf <;> exact nomatch he
  | raises e hu _ hb => exact absurd he hb
  | @faults _ u d r w x hu hg hx =>
    obtain ⟨j, hj, rfl, hf, -⟩ := firstRefused_eq_some.mp hx
    have hcov : r.coveredBy (inputRegions i s) ∨ r.coveredBy [outputRegion i s] := by
      cases hg with
      | read hc => exact .inl hc
      | write hc => exact .inr hc
    have hend : r.addr + r.len ≤ 2 ^ 64 := by
      rcases hcov with hc | hc <;> exact hc.1
    have hfa : (busFault (r.addr + j) w).faultAddr.toNat = r.addr + j := by
      have : (busFault (r.addr + j) w).faultAddr = BitVec.ofNat 64 (r.addr + j) := by
        unfold busFault raiseError; dsimp only; split <;> rfl
      rw [this, BitVec.toNat_ofNat, Nat.mod_eq_of_lt (by omega)]
    refine ⟨d, r, hcov, ?_, by rw [hfa]; exact hf⟩
    rw [hfa, Region.contains_iff]
    omega
  | resets hu hi hr hg =>
    obtain ⟨heng, -⟩ := hu.reset_engine hr hg
    rw [heng] at he; exact nomatch he
  | stalls hu hp hi hg =>
    rw [(hg.runs (hu.runs.pop _)).err] at he; exact nomatch he

end Along

/-! ## Illegal words -/

/-- What an illegal word can do in an idle engine: a reset cuts it off, or it ends with ILLEGAL_CMD. -/
theorem illegalCommand_cases {s : State} (hb : s.busy = false) (w : Word) :
    (∃ t, OutsideOnly (accept (w.extractLsb' 0 8) none s) t ∧ illegalCommand w s =
      complete .illegalCmd (setAuth false false (setOutLen 0 (eraseTransients t)))) ∨
    ∃ t, OutsideOnly (accept (w.extractLsb' 0 8) none s) t ∧ illegalCommand w s = resetEngine t := by
  rw [illegalCommand, issue_idle hb]
  rcases slot_cases (s := accept (w.extractLsb' 0 8) none s) rfl with ⟨t, ht, ho⟩ | ⟨t, ho, ht⟩
  · refine .inl ⟨t, ho, ?_⟩
    have hr : t.running = none := congrArg State.running ho.same
    have hm : runsMessage (eraseTransients t) = false := by simp only [runsMessage, eraseTransients_running, hr]
    rw [ht, Run.bind_ok, Run.state_ended]
    simp only [raiseError, hm, Bool.false_eq_true, if_false]
  · exact .inr ⟨t, ho, by rw [ht]; rfl⟩

theorem runWord_illegal {w : Word} {e : DecodeError} (h : decode w = .illegal e) (s : State) :
    runWord w s = .next (illegalCommand w s) := by
  simp only [runWord, h]

/-! ## The statements -/

/-- Settles O36: `Ends.message_wiped`. -/
theorem messagesEraseSecretsOnEveryPath : Obligations.MessagesEraseSecretsOnEveryPath := by
  unfold Obligations.MessagesEraseSecretsOnEveryPath
  intro s t i hi hb h hidle
  obtain ⟨ps, es, he⟩ := exec_ends hb h
  exact he.message_wiped hi hidle

/-- Settles O37: `Ends.secrets` for NOP and PERMUTE, `illegalCommand_cases` for an illegal word. -/
theorem otherCommandsKeepTheKey : Obligations.OtherCommandsKeepTheKey := by
  unfold Obligations.OtherCommandsKeepTheKey
  refine ⟨fun s t i hi hb h => ?_, fun s t w e hw hb h => ?_⟩
  · obtain ⟨ps, es, he⟩ := exec_ends hb h
    refine he.secrets ?_
    obtain rfl | ⟨r, rfl⟩ := hi <;> simp [IsMessage]
  · rw [runWord_illegal hw] at h
    obtain rfl := Host.Outcome.next.inj h
    rcases illegalCommand_cases hb w with ⟨u, ho, he⟩ | ⟨u, ho, he⟩
    · left
      rw [he]
      exact (congrArg (sameSecrets s) ho.same).mpr ⟨rfl, rfl, rfl, rfl⟩
    · right
      have htr : u.trace = s.trace ++ [.accepted (w.extractLsb' 0 8)] := ho.trace_eq
      rw [he, resetEngine_trace, htr, resetsOf_append', resetsOf_append']
      exact Nat.lt_succ_self _

/-- Settles O38: `Outcome.memory`; in a quiet state nothing lands. -/
theorem commandsWriteOnlyTheirOutput : Obligations.CommandsWriteOnlyTheirOutput := by
  unfold Obligations.CommandsWriteOnlyTheirOutput
  refine ⟨fun s t i hq hm h a ha => ?_, fun s t i a hb hm h ha hn => ?_⟩
  · obtain ⟨ps, es, he⟩ := exec_ends hq.1 h
    obtain ⟨rfl, -⟩ := he.outcome.quiet hq.2
    exact he.outcome.memory hm ha fun _ _ hmem => nomatch hmem
  · obtain ⟨ps, es, he⟩ := exec_ends hb h
    exact he.outcome.memory hm ha (he.landed ▸ hn)

/-- Settles O42: `Ends.reports`. -/
theorem errorsAndAuthFailuresStayApart : Obligations.ErrorsAndAuthFailuresStayApart := by
  unfold Obligations.ErrorsAndAuthFailuresStayApart
  intro s t i hb h
  obtain ⟨ps, es, he⟩ := exec_ends hb h
  obtain ⟨herr, hfail, hok⟩ := he.reports
  exact ⟨herr, hfail, hok⟩

/-- Settles O43: `Ends.fault`. -/
theorem faultAddressWasRefused : Obligations.FaultAddressWasRefused := by
  unfold Obligations.FaultAddressWasRefused
  intro s t i hb h hf
  obtain ⟨ps, es, he⟩ := exec_ends hb h
  obtain ⟨d, r, hcov, hc, hm⟩ := he.fault hf
  refine ⟨⟨d, hm⟩, List.any_eq_true.mpr ?_⟩
  rcases hcov with hcov | hcov
  · obtain ⟨q, hq, hqc⟩ := hcov.2 _ hc
    exact ⟨q, List.mem_append_left _ hq, hqc⟩
  · obtain ⟨q, hq, hqc⟩ := hcov.2 _ hc
    exact ⟨q, List.mem_append_right _ hq, hqc⟩

end Sys2Proof.Machine
end

section
/-! SUPPORT. The invariant of the machine: it holds right after reset, and every step keeps it (10_state.md R20, R28, R31, R45). -/

namespace Sys2Proof.Machine

section Along
variable {i : Instr} {s u w t x : State} {ps : List Phase} {es : List HostEvent}

/-! ## The buffers of the commands that do not wipe -/

/-- What the registers of the buffers hold in an idle engine: all but S is zero, and S too. -/
def BuffersErased (u : State) : Prop :=
  u.blk = Vector.replicate 96 0 ∧ u.tagBuf = Vector.replicate 32 0 ∧ u.tag = Vector.replicate 32 0 ∧ u.diff = 0

/-- PERMUTE leaves the buffers other than S alone while it runs. -/
theorem Reaches.buffers (h : Reaches i s ps es u) (hi : ¬ IsMessage i) (hs : BuffersErased s) : BuffersErased u := by
  induction h with
  | accepted => exact hs
  | @meets _ _ u _ _ rest h _ hb ih =>
    have ho := outsideOnly_of_busy (s := { u with inbox := rest }) h.runs.busy hb
    exact (congrArg BuffersErased ho.same).mpr ih
  | computes _ hc ih =>
    rcases hc.buffers with hm | ⟨-, hb, htb, ht, hd⟩
    · exact absurd hm hi
    · unfold BuffersErased at ih ⊢
      rwa [hb, htb, ht, hd]
  | wipes _ _ _ => exact ⟨rfl, rfl, rfl, rfl⟩
  | waits _ _ ih => exact ih
  | enters _ _ ih => exact ih
  | reads _ _ _ ih => exact ih
  | writes _ _ _ ih => exact ih

/-- NOP computes nothing. -/
theorem Reaches.nop_transients (h : Reaches .nop s ps es u) (hs : transientsErased s) : transientsErased u := by
  induction h with
  | accepted => exact hs
  | @meets _ _ u _ _ rest h _ hb ih =>
    have ho := outsideOnly_of_busy (s := { u with inbox := rest }) h.runs.busy hb
    exact (congrArg transientsErased ho.same).mpr ih
  | computes _ hc _ =>
    rcases hc.buffers with hm | ⟨⟨r, hr⟩, -⟩
    · exact absurd hm (by simp [IsMessage])
    · exact nomatch hr
  | wipes _ _ _ => exact ⟨rfl, rfl, rfl, rfl, rfl⟩
  | waits _ _ ih => exact ih
  | enters _ _ ih => exact ih
  | reads _ _ _ ih => exact ih
  | writes _ _ _ ih => exact ih

/-! ## The ends of a command -/

/-- What `complete` sets meets the invariant, where the data is erased and the reports agree. -/
theorem inv_complete {c : ErrCode} (hm : Memory.wf u.mem = true) (he : transientsErased u)
    (ha : ¬ (u.authOk = true ∧ u.authFail = true))
    (ho : u.authOk = true ∨ u.authFail = true → u.lastOpc = 0x02 ∧ c = .noError)
    (hf : c ≠ .noError ∨ u.authFail = true → u.outLen = 0) : (complete c u).Inv where
  memory := hm
  idle _ := ⟨he, rfl, rfl, rfl, rfl, rfl⟩
  running h := nomatch h
  auth := ha
  open_ := ho
  failed := hf

/-- A completion without authentication result. -/
theorem inv_complete_plain {c : ErrCode} (hm : Memory.wf u.mem = true) (he : transientsErased u) (hok : u.authOk = false)
    (hfail : u.authFail = false) (hf : c ≠ .noError → u.outLen = 0) : (complete c u).Inv :=
  inv_complete hm he (by simp [hok]) (by simp [hok, hfail]) (by simpa [hfail] using hf)

theorem inv_raiseError {c : ErrCode} (hm : Memory.wf u.mem = true) : (raiseError c u).Inv := by
  unfold raiseError
  dsimp only
  split <;> exact inv_complete_plain (by exact hm) ⟨rfl, rfl, rfl, rfl, rfl⟩ rfl rfl fun _ => rfl

theorem inv_resetEngine (hm : Memory.wf u.mem = true) : (resetEngine u).Inv where
  memory := hm
  idle _ := ⟨⟨rfl, rfl, rfl, rfl, rfl⟩, rfl, rfl, rfl, rfl, rfl⟩
  running h := nomatch h
  auth h := nomatch h.1
  open_ h := by rcases h with h | h <;> exact nomatch h
  failed _ := rfl

theorem Runs.inv (h : Runs i s u) (hm : Memory.wf u.mem = true) : u.Inv where
  memory := hm
  idle hb := absurd (h.busy.symm.trans hb) (by simp)
  running _ := ⟨h.done, h.authOk, h.authFail, h.err⟩
  auth := by simp [h.authOk]
  open_ := by simp [h.authOk, h.authFail]
  failed := by simp [h.err, h.authFail]

theorem Finishes.inv (hf : Finishes s i ps u t) (hu : Reaches i s ps es u) (hs : transientsErased s)
    (hm : Memory.wf u.mem = true) : t.Inv := by
  have hr := hu.runs
  cases hf with
  | nop => exact inv_complete_plain hm (hu.nop_transients hs) hr.authOk hr.authFail fun h => absurd rfl h
  | sealed hw => exact inv_complete_plain hm hw.2 hr.authOk hr.authFail fun h => absurd rfl h
  | erased hw => exact inv_complete_plain hm hw.2 hr.authOk hr.authFail fun h => absurd rfl h
  | permuted r =>
    obtain ⟨hb, htb, ht, hd⟩ := hu.buffers (by simp [IsMessage]) hs.2
    exact inv_complete_plain hm ⟨rfl, hb, htb, ht, hd⟩ hr.authOk hr.authFail fun h => absurd rfl h
  | opened ok hw =>
    refine inv_complete hm hw.2 ?_ (fun _ => ⟨hr.lastOpc, rfl⟩) ?_ <;> cases ok <;> simp
  | short _ =>
    exact inv_complete hm ⟨rfl, rfl, rfl, rfl, rfl⟩ (fun h => nomatch h.1) (fun _ => ⟨hr.lastOpc, rfl⟩) fun _ => rfl

/-- A command that ends leaves a state of the invariant. -/
theorem Ends.inv (h : Ends i s ps es t) (hs : transientsErased s) (hm : Memory.wf s.mem = true) : t.Inv := by
  have hwf := h.outcome.wf hm
  cases h with
  | finishes hu hf => exact hf.inv hu hs (hu.wf hm)
  | raises e hu _ _ => exact inv_raiseError (hu.wf hm)
  | faults hu hg _ => exact inv_raiseError (hg.wf (hu.wf hm))
  | @resets _ u w _ e rest hu hi hr hg =>
    obtain ⟨x, ho, hx⟩ := hostEvent_of_reset (s := w) (e := e) (by rw [(hg.runs (hu.runs.pop rest)).platform_eq]; exact hr)
    rw [hx] at hwf ⊢
    exact inv_resetEngine hwf
  | stalls hu hp hi hg => exact (hg.runs (hu.runs.pop _)).inv hwf

end Along

/-! ## Steps that run no command -/

theorem inv_outside {s t : State} (h : s.Inv) (hb : s.busy = true) (ho : OutsideOnly s t) : t.Inv where
  memory := ho.wf h.memory
  idle hb' := absurd (hb.symm.trans (ho.busy_eq.symm.trans hb')) (by simp)
  running _ := by
    obtain ⟨hd, hrest⟩ := h.running hb
    have hdone : t.done = false := Bool.eq_false_iff.mpr fun h' => Bool.false_ne_true (hd.symm.trans (ho.done h'))
    exact ⟨hdone, (congrArg (fun x : State => x.authOk = false ∧ x.authFail = false ∧ x.err = .noError) ho.same).mpr hrest⟩
  auth := (congrArg (fun x : State => ¬ (x.authOk = true ∧ x.authFail = true)) ho.same).mpr h.auth
  open_ := (congrArg (fun x : State => x.authOk = true ∨ x.authFail = true → x.lastOpc = 0x02 ∧ x.err = .noError)
    ho.same).mpr h.open_
  failed := (congrArg (fun x : State => x.err ≠ .noError ∨ x.authFail = true → x.outLen = 0) ho.same).mpr h.failed

/-- An update of fields that the invariant does not speak of. -/
theorem State.Inv.own {s t : State} (h : s.Inv)
    (hsame : (t.mem, t.busy, t.done, t.authOk, t.authFail, t.err, t.lastOpc, t.outLen) =
      (s.mem, s.busy, s.done, s.authOk, s.authFail, s.err, s.lastOpc, s.outLen))
    (hidle : (t.S, t.blk, t.tagBuf, t.tag, t.diff, t.phase, t.k, t.running, t.raced, t.fresh) =
      (s.S, s.blk, s.tagBuf, s.tag, s.diff, s.phase, s.k, s.running, s.raced, s.fresh)) : t.Inv := by
  simp only [Prod.mk.injEq] at hsame hidle
  obtain ⟨m1, m2, m3, m4, m5, m6, m7, m8⟩ := hsame
  obtain ⟨i1, i2, i3, i4, i5, i6, i7, i8, i9, i10⟩ := hidle
  refine ⟨m1 ▸ h.memory, fun hb => ?_, ?_, ?_, ?_, ?_⟩
  · have hid := h.idle (m2 ▸ hb)
    unfold transientsErased at hid ⊢
    rwa [i1, i2, i3, i4, i5, i6, i7, i8, i9, i10]
  · rw [m2, m3, m4, m5, m6]; exact h.running
  · rw [m4, m5]; exact h.auth
  · rw [m4, m5, m6, m7]; exact h.open_
  · rw [m5, m6, m8]; exact h.failed

theorem inv_writeReg_idle {s : State} (h : s.Inv) (hb : s.busy = false) (r : Reg) (v : Word) : (writeReg r v s).Inv := by
  simp only [writeReg, hb, Bool.and_false, Bool.false_eq_true, if_false]
  cases r with
  | ctrl =>
    simp only [storeReg]
    split
    · exact inv_resetEngine h.memory
    · exact h
  | status =>
    have hi := h.idle hb
    exact ⟨h.memory, fun _ => hi, fun hb' => absurd (hb.symm.trans hb') (by simp), h.auth, h.open_, h.failed⟩
  | _ => exact h.own rfl rfl

theorem inv_agentWrite_idle {s : State} (h : s.Inv) (hb : s.busy = false) (a : Nat) (v : Byte) : (agentWrite a v s).Inv := by
  rw [agentWrite_free (by simp [conflicts, hb])]
  have hi := h.idle hb
  exact ⟨Memory.wf_write h.memory a v, fun _ => hi, fun hb' => absurd (hb.symm.trans hb') (by simp), h.auth, h.open_, h.failed⟩

theorem inv_hostEvent_idle {s : State} (h : s.Inv) (hb : s.busy = false) (e : HostEvent) : (hostEvent e s).Inv := by
  cases e with
  | regRead addr width => simp only [hostEvent]; split <;> exact h.own rfl rfl
  | regWrite addr width data =>
    simp only [hostEvent]
    split
    · exact inv_writeReg_idle (s := respond .writeDone s) (h.own rfl rfl) hb _ _
    · exact h.own rfl rfl
    · exact h.own rfl rfl
  | memWrite a v => exact inv_agentWrite_idle h hb _ v
  | hardReset => exact inv_resetEngine h.memory
  | memRead who a => exact h.own rfl rfl
  | cacheDiscard q => exact h.own rfl rfl
  | dmaStall => exact h

theorem inv_hostEvent {s : State} (h : s.Inv) (e : HostEvent) : (hostEvent e s).Inv := by
  cases hb : s.busy with
  | false => exact inv_hostEvent_idle h hb e
  | true =>
    rcases hostEvent_busy hb e with ho | ⟨u, ho, he⟩
    · exact inv_outside h hb ho
    · rw [he]; exact inv_resetEngine (ho.wf h.memory)

theorem inv_illegalCommand {s : State} (h : s.Inv) (hb : s.busy = false) (w : Word) : (illegalCommand w s).Inv := by
  rcases illegalCommand_cases hb w with ⟨t, ho, he⟩ | ⟨t, ho, he⟩
  · rw [he]
    exact inv_complete_plain (by exact ho.wf h.memory) ⟨rfl, rfl, rfl, rfl, rfl⟩ rfl rfl fun _ => rfl
  · rw [he]
    exact inv_resetEngine (ho.wf h.memory)

theorem inv_runWord {s t : State} {w : Word} (h : s.Inv) (ht : runWord w s = .next t) : t.Inv := by
  cases hb : s.busy with
  | true =>
    rw [runWord_busy hb] at ht
    obtain rfl := Host.Outcome.next.inj ht
    exact h.own rfl rfl
  | false =>
    cases hw : decode w with
    | illegal e =>
      rw [runWord_illegal hw] at ht
      obtain rfl := Host.Outcome.next.inj ht
      exact inv_illegalCommand h hb w
    | command i =>
      rw [runWord, hw] at ht
      obtain ⟨ps, es, he⟩ := exec_ends hb ht
      exact he.inv (h.idle hb).1 h.memory

/-! ## The statements -/

/-- Settles O34. -/
theorem resetMeetsTheInvariant : Obligations.ResetMeetsTheInvariant := by
  unfold Obligations.ResetMeetsTheInvariant
  have hinv : ∀ (p : Platform) (m : Memory), Memory.wf m = true → (State.resetOn p m).Inv := fun p m hm =>
    (inv_resetEngine (u := State.resetOn p m) hm).own rfl rfl
  exact ⟨rfl, hinv _ _ rfl, hinv⟩

/-- Settles O35: a step is an outside event, an illegal word or a command; the invariant of a command's end is `Ends.inv`. -/
theorem everyStepKeepsTheInvariant : Obligations.EveryStepKeepsTheInvariant := by
  unfold Obligations.EveryStepKeepsTheInvariant
  intro s t h ht
  unfold step at ht
  split at ht
  · split at ht
    · exact nomatch ht
    · obtain rfl := Host.Outcome.next.inj ht
      exact h
  · rename_i x rest hi
    have hpop : ({ s with inbox := rest } : State).Inv := h.own rfl rfl
    simp only at ht
    split at ht
    · exact inv_runWord (s := respond .writeDone { s with inbox := rest }) (hpop.own rfl rfl) ht
    · obtain rfl := Host.Outcome.next.inj ht
      exact inv_hostEvent hpop x.event

end Sys2Proof.Machine
end

section
/-! SUPPORT. The answers of the register port and of memory, one by one and over a whole command (20_memory.md R74, 10_state.md
R44, 70_reset_and_hazards.md R252). -/

namespace Sys2Proof.Machine

/-! ## What an access selects -/

theorem Reg.offset_mod (r : Reg) : r.offset % 8 = 0 := by
  cases r <;> simp only [Reg.offset] <;> omega

/-- Inside the window a narrow or misaligned access selects no register (20_memory.md R74). -/
theorem select_misformed {p : Platform} {addr : Word} {width : Nat}
    (hin : p.regBase.toNat ≤ addr.toNat ∧ addr.toNat < p.regBase.toNat + 256)
    (hbad : width ≠ 64 ∨ (addr.toNat - p.regBase.toNat) % 8 ≠ 0) : select p addr width = .misformed := by
  unfold select
  rw [if_neg (by omega)]
  split
  · rfl
  · rename_i hw
    split
    · rename_i r hr
      have h8 := r.offset_mod
      rw [regAt_eq_some hr] at h8
      omega
    · rfl

theorem select_outside {p : Platform} {addr : Word} (width : Nat)
    (hout : addr.toNat < p.regBase.toNat ∨ p.regBase.toNat + 256 ≤ addr.toNat) : select p addr width = .outside := by
  unfold select
  rw [if_pos hout]

/-! ## The answer to one access -/

/-- The answer to an access that gets one (10_state.md R44, 20_memory.md R74, R81). -/
def answerTo (e : HostEvent) (s : State) : Response :=
  match e with
  | .regRead addr width =>
    match select s.platform addr width with
    | .reg r => .readData (readReg r s)
    | .misformed => .busError 0
    | .outside => .notDecoded
  | .regWrite addr width _ =>
    match select s.platform addr width with
    | .reg _ => .writeDone
    | .misformed => .busError 0
    | .outside => .notDecoded
  | .memRead who addr => .memData (hostByteAt who s addr.toNat)
  | _ => .notDecoded

theorem writeReg_responses (r : Reg) (v : Word) (s : State) : (writeReg r v s).responses = s.responses := by
  simp only [writeReg]
  split
  · rfl
  · cases r with
    | ctrl => simp only [storeReg]; split <;> rfl
    | _ => rfl

theorem hostEvent_responses {e : HostEvent} (h : e.isAnswered = true) (s : State) :
    (hostEvent e s).responses = answerTo e s :: s.responses := by
  cases e with
  | regRead addr width => cases hs : select s.platform addr width <;> simp only [hostEvent, answerTo, hs] <;> rfl
  | regWrite addr width data =>
    cases hs : select s.platform addr width with
    | reg r => simp only [hostEvent, answerTo, hs]; exact writeReg_responses _ _ _
    | misformed => simp only [hostEvent, answerTo, hs]; rfl
    | outside => simp only [hostEvent, answerTo, hs]; rfl
  | memRead who a => rfl
  | _ => exact nomatch h

theorem hostEvent_unanswered {e : HostEvent} (h : e.isAnswered = false) (s : State) :
    (hostEvent e s).responses = s.responses := by
  cases e with
  | memWrite a v => simp only [hostEvent, agentWrite]; split <;> rfl
  | cacheDiscard q => rfl
  | hardReset => rfl
  | dmaStall => rfl
  | _ => exact nomatch h

theorem hostEvent_keeps_responses (e : HostEvent) (s : State) : ∃ later, (hostEvent e s).responses = later ++ s.responses := by
  cases h : e.isAnswered with
  | true => exact ⟨[answerTo e s], hostEvent_responses h s⟩
  | false => exact ⟨[], hostEvent_unanswered h s⟩

section Along
variable {i : Instr} {s u w t x : State} {ps : List Phase} {es : List HostEvent}

/-! ## The answers that a command meets -/

/-- `x` answers `e` in a state of the command: for a register read, one in which the command runs. -/
def AnsweredIn (i : Instr) (s : State) (e : HostEvent) (x : Response) : Prop :=
  ∃ w : State, x = answerTo e w ∧ w.platform = s.platform ∧
    ((∃ addr width, e = .regRead addr width) → Runs i s w ∧ w.phase ∈ s.phase :: phaseSequence i)

/-- From `s` to `t` each event of `es` that gets an answer got one, in order. -/
def AnsweredAll (i : Instr) (s : State) (es : List HostEvent) (t : State) : Prop :=
  ∃ rs, t.responses = rs.reverse ++ s.responses ∧ List.Forall₂ (AnsweredIn i s) (es.filter (·.isAnswered)) rs

theorem AnsweredAll.congr (h : AnsweredAll i s es u) (hr : t.responses = u.responses) : AnsweredAll i s es t := by
  obtain ⟨rs, hu, ha⟩ := h
  exact ⟨rs, hr.trans hu, ha⟩

/-- One more event lands, in the state `w`. -/
theorem AnsweredAll.snoc {e : HostEvent} (h : AnsweredAll i s es w) (hp : w.platform = s.platform)
    (hw : (∃ addr width, e = .regRead addr width) → Runs i s w ∧ w.phase ∈ s.phase :: phaseSequence i) :
    AnsweredAll i s (es ++ [e]) (hostEvent e w) := by
  obtain ⟨rs, hr, ha⟩ := h
  cases he : e.isAnswered with
  | true =>
    refine ⟨rs ++ [answerTo e w], ?_, ?_⟩
    · rw [hostEvent_responses he, hr]; simp
    · rw [List.filter_append, List.filter_singleton, he]
      exact List.rel_append ha (.cons ⟨w, rfl, hp, hw⟩ .nil)
  | false =>
    refine ⟨rs, by rw [hostEvent_unanswered he, hr], ?_⟩
    rw [List.filter_append, List.filter_singleton, he]
    simpa using ha

theorem Reaches.phase_mem (h : Reaches i s ps es u) : u.phase ∈ s.phase :: phaseSequence i := by
  rw [h.phase]
  cases hl : ps.getLast? with
  | none => exact List.mem_cons_self
  | some p => exact List.mem_cons_of_mem _ (h.phases.subset (List.mem_of_getLast? hl))

theorem Reaches.answers (h : Reaches i s ps es u) : AnsweredAll i s es u := by
  induction h with
  | accepted => exact ⟨[], rfl, .nil⟩
  | @meets _ _ u _ e rest h _ _ ih =>
    exact (ih.congr (t := { u with inbox := rest }) rfl).snoc h.runs.platform_eq
      fun _ => ⟨h.runs.pop rest, h.phase_mem⟩
  | computes _ hc ih => exact ih.congr (by rw [hc.same])
  | waits _ _ ih => exact ih
  | enters _ _ ih => exact ih
  | reads _ _ _ ih => exact ih
  | writes _ _ _ ih => exact ih
  | wipes _ _ ih => exact ih

theorem Begins.responses_eq {d : Dir} {r : Region} (h : Begins i s d r u w) : w.responses = u.responses := by
  cases h <;> rfl

theorem Cut.responses_eq (h : Cut i s u w) : w.responses = u.responses := by
  obtain rfl | ⟨d, r, hg⟩ := h
  · rfl
  · exact hg.responses_eq

theorem Outcome.answers (h : Outcome i s ps es t) : AnsweredAll i s es t := by
  cases h with
  | completed c hu hg hv =>
    refine hu.answers.congr ?_
    rw [complete_responses, hv, hg.responses_eq]
  | @reset _ u w x _ e rest hu hi hr hg ho he =>
    refine (hu.answers.congr hg.responses_eq).snoc (hg.runs (hu.runs.pop rest)).platform_eq ?_
    rintro ⟨addr, width, rfl⟩
    exact absurd hr id
  | @stuck _ u _ _ rest hu hp hi hg =>
    obtain ⟨_, _, hg⟩ := hg
    obtain ⟨rs, hr, ha⟩ := hu.answers
    refine ⟨rs, hg.responses_eq.trans hr, ?_⟩
    rw [List.filter_append]
    simpa [HostEvent.isAnswered] using ha

/-- The list of answers of a command, and what is in it. -/
theorem Ends.answersOf (h : Ends i s ps es t) :
    (∃ later, t.responses = later ++ s.responses ∧ later.length = (es.filter (·.isAnswered)).length) ∧
      ∀ e x, (e, x) ∈ answersOf s t → AnsweredIn i s e x := by
  obtain ⟨rs, hr, ha⟩ := h.outcome.answers
  refine ⟨⟨rs.reverse, hr, by rw [List.length_reverse]; exact ha.length_eq.symm⟩, fun e x hx => ?_⟩
  have htake : (t.responses.take (t.responses.length - s.responses.length)).reverse = rs := by
    rw [hr, List.length_append, Nat.add_sub_cancel, List.take_left, List.reverse_reverse]
  rw [Machine.answersOf, h.landed, htake] at hx
  exact (List.forall₂_iff_zip.mp ha).2 hx

end Along

/-! ## Steps -/

theorem hostEvent_platform (e : HostEvent) (s : State) : (hostEvent e s).platform = s.platform := by
  cases e with
  | regRead addr width => simp only [hostEvent]; split <;> rfl
  | regWrite addr width data =>
    simp only [hostEvent]
    split
    · rename_i r _
      simp only [writeReg]
      split
      · rfl
      · cases r with
        | ctrl => simp only [storeReg]; split <;> rfl
        | _ => rfl
    · rfl
    · rfl
  | memWrite a v => simp only [hostEvent, agentWrite]; split <;> rfl
  | _ => rfl

/-- A slot without an access keeps the answers given before. -/
theorem land_none_responses (l : List Arrival) (s : State) :
    ∃ later, (land none l s).state.responses = later ++ s.responses := by
  induction l generalizing s with
  | nil => exact ⟨[], rfl⟩
  | cons x rest ih =>
    simp only [land]
    split
    · exact ⟨[], rfl⟩
    · exact ⟨[], rfl⟩
    · obtain ⟨l, hl⟩ := hostEvent_keeps_responses x.event { s with inbox := rest }
      simp only [Option.isSome_none, Bool.false_and, Bool.false_eq_true, if_false, Option.getD_none, id, ite_self]
      split
      · obtain ⟨m, hm⟩ := ih (hostEvent x.event { s with inbox := rest })
        exact ⟨m ++ l, by rw [hm, hl, List.append_assoc]⟩
      · exact ⟨l, hl⟩

theorem illegalCommand_responses {s : State} (hb : s.busy = false) (w : Word) :
    ∃ later, (illegalCommand w s).responses = later ++ s.responses := by
  obtain ⟨l, hl⟩ := land_none_responses s.inbox (accept (w.extractLsb' 0 8) none s)
  refine ⟨l, ?_⟩
  rw [illegalCommand, issue_idle hb]
  rw [show land none s.inbox _ = slot (accept (w.extractLsb' 0 8) none s) from rfl] at hl
  cases hs : slot (accept (w.extractLsb' 0 8) none s) with
  | ok a t =>
    rw [hs] at hl
    rw [Run.bind_ok, Run.state_ended, ← accept_responses s (w.extractLsb' 0 8) none, ← hl, Run.state_ok]
    unfold raiseError
    dsimp only
    split <;> rfl
  | ended t =>
    rw [hs] at hl
    exact hl

/-- The answers before a CMD write stay, and so does the platform. -/
theorem runWord_keeps {s t : State} {w : Word} (h : runWord w s = .next t) :
    (∃ later, t.responses = later ++ s.responses) ∧ t.platform = s.platform := by
  cases hb : s.busy with
  | true =>
    rw [runWord_busy hb] at h
    obtain rfl := Host.Outcome.next.inj h
    exact ⟨⟨[], rfl⟩, rfl⟩
  | false =>
    cases hw : decode w with
    | illegal e =>
      rw [runWord_illegal hw] at h
      obtain rfl := Host.Outcome.next.inj h
      refine ⟨illegalCommand_responses hb w, ?_⟩
      rcases illegalCommand_cases hb w with ⟨u, ho, he⟩ | ⟨u, ho, he⟩ <;> rw [he] <;> exact ho.platform_eq
    | command i =>
      rw [runWord, hw] at h
      obtain ⟨ps, es, he⟩ := exec_ends hb h
      obtain ⟨⟨later, hl, -⟩, -⟩ := he.answersOf
      exact ⟨⟨later, hl⟩, he.outcome.operands.1⟩

theorem exec_next (i : Instr) (s : State) : ∃ t, exec i s = .next t := by
  cases i <;> exact ⟨_, rfl⟩

theorem runWord_next (w : Word) (s : State) : ∃ t, runWord w s = .next t := by
  unfold runWord
  split
  · exact exec_next _ s
  · exact ⟨_, rfl⟩

/-- A step that takes an access which is no CMD write. -/
theorem step_event {s : State} {e : HostEvent} {rest : List Arrival} (h : arrives s e rest)
    (hc : cmdWord? s.platform e = none) : step s = .next (hostEvent e { s with inbox := rest }) := by
  obtain ⟨w, hi⟩ := h
  simp only [step, hi, hc]

/-- A step that takes a CMD write runs its word. -/
theorem step_word {s : State} {e : HostEvent} {rest : List Arrival} {w : Word} (h : arrives s e rest)
    (hc : cmdWord? s.platform e = some w) : step s = runWord w (respond .writeDone { s with inbox := rest }) := by
  obtain ⟨_, hi⟩ := h
  simp only [step, hi, hc]

theorem cmdWord?_of_select {p : Platform} {addr : Word} {width : Nat} (h : select p addr width ≠ .reg .cmd) (v : Word) :
    cmdWord? p (.regWrite addr width v) = none := by
  simp only [cmdWord?, if_neg h]

theorem step_regRead {s : State} (hw : windowAligned s.platform) {r : Reg} {rest : List Arrival}
    (h : arrives s (.regRead (busAddr s.platform r) 64) rest) :
    step s = .next { s with inbox := rest, responses := .readData (readReg r s) :: s.responses } := by
  rw [step_event h rfl]
  simp only [hostEvent, select_busAddr hw]
  cases r <;> rfl

theorem step_platform {s t : State} (h : step s = .next t) : t.platform = s.platform := by
  unfold step at h
  split at h
  · split at h
    · exact nomatch h
    · obtain rfl := Host.Outcome.next.inj h; rfl
  · simp only at h
    split at h
    · exact (runWord_keeps h).2
    · obtain rfl := Host.Outcome.next.inj h
      exact hostEvent_platform _ _

/-! ## The statements -/

/-- A register access that selects no register only gets its answer. -/
theorem step_unselected {s : State} {e : HostEvent} {addr data : Word} {width : Nat} {rest : List Arrival} {x : Response}
    (he : e = .regRead addr width ∨ e = .regWrite addr width data) (ha : arrives s e rest)
    (hs : select s.platform addr width = .misformed ∧ x = .busError 0 ∨
      select s.platform addr width = .outside ∧ x = .notDecoded) :
    step s = .next { s with inbox := rest, responses := x :: s.responses } := by
  have hc : cmdWord? s.platform e = none := by
    rcases he with rfl | rfl
    · rfl
    · exact cmdWord?_of_select (by rcases hs with ⟨hs, -⟩ | ⟨hs, -⟩ <;> simp [hs]) data
  rw [step_event ha hc]
  rcases hs with ⟨hs, rfl⟩ | ⟨hs, rfl⟩ <;> rcases he with rfl | rfl <;> simp only [hostEvent, hs] <;> rfl

/-- Settles O50: an access that selects no register. -/
theorem misformedAccessChangesNothing : Obligations.MisformedAccessChangesNothing := by
  unfold Obligations.MisformedAccessChangesNothing
  intro s addr data width rest e he ha
  exact ⟨fun hin hbad => step_unselected he ha (.inl ⟨select_misformed hin hbad, rfl⟩),
    fun hout => step_unselected he ha (.inr ⟨select_outside width hout, rfl⟩)⟩

/-- Settles O55: one answer for each access at a step, and for each that lands in a command by `Ends.answersOf`. -/
theorem registerAccessesAreAlwaysAnswered : Obligations.RegisterAccessesAreAlwaysAnswered := by
  unfold Obligations.RegisterAccessesAreAlwaysAnswered
  refine ⟨fun s e addr data width rest he ha => ?_, fun s t i hb h => ?_, fun s t => step_platform⟩
  · cases hc : cmdWord? s.platform e with
    | some w =>
      obtain ⟨t, ht⟩ := runWord_next w (respond .writeDone { s with inbox := rest })
      obtain ⟨⟨later, hl⟩, -⟩ := runWord_keeps ht
      exact ⟨t, later, .writeDone, (step_word ha hc).trans ht, hl⟩
    | none =>
      have hans : e.isAnswered = true := by rcases he with rfl | rfl <;> rfl
      exact ⟨_, [], _, step_event ha hc, hostEvent_responses hans _⟩
  · obtain ⟨ps, es, he⟩ := exec_ends hb h
    obtain ⟨hlater, hall⟩ := he.answersOf
    refine ⟨he.landed ▸ hlater, he.landed ▸ he.inbox, fun r v x hw hx => ?_, ?_⟩
    · obtain ⟨w, rfl, hp, -⟩ := hall _ _ hx
      simp only [answerTo, hp, select_busAddr hw]
    · intro e addr data width x hacc hx hin hbad
      obtain ⟨w, rfl, hp, -⟩ := hall _ _ hx
      have hs := select_misformed hin hbad
      rcases hacc with rfl | rfl <;> simp only [answerTo, hp, hs]

end Sys2Proof.Machine
end

section
/-! SUPPORT. Who writes memory, and what the host's caches may hold of it (20_memory.md R81, R85, R89, 70_reset_and_hazards.md R242). -/

namespace Sys2Proof.Machine

/-! ## Ranges of bytes -/

/-- Some range of the list holds the byte. -/
def InSome (l : List Region) (a : Nat) : Prop := ∃ r ∈ l, r.contains a = true

@[simp] theorem inSome_append {l m : List Region} {a : Nat} : InSome (l ++ m) a ↔ InSome l a ∨ InSome m a := by
  simp [InSome, or_and_right, exists_or]

theorem inSome_cons {r : Region} {l : List Region} {a : Nat} : InSome (r :: l) a ↔ r.contains a = true ∨ InSome l a := by
  simp [InSome]

theorem inSome_iff_any {l : List Region} {a : Nat} : InSome l a ↔ (l.any fun r => r.contains a) = true := by
  simp [InSome]

/-- A discard takes its bytes, and no others, off the ranges. -/
theorem inSome_minus {l : List Region} {q : Region} {a : Nat} :
    InSome (l.flatMap fun r => r.minus q) a ↔ InSome l a ∧ q.contains a = false := by
  rw [inSome_iff_any, inSome_iff_any, any_flatMap_minus, Bool.and_eq_true, Bool.not_eq_true']

theorem writeReg_stale_of_busy {s : State} {r : Reg} {v : Word} (hb : (writeReg r v s).busy = true) :
    (writeReg r v s).stale = s.stale := by
  simp only [writeReg] at hb ⊢
  split
  · rfl
  · rename_i hp
    rw [if_neg hp] at hb
    cases r with
    | ctrl =>
      simp only [storeReg] at hb ⊢
      split
      · rename_i hv; rw [if_pos hv] at hb; exact nomatch hb
      · rfl
    | _ => rfl

/-- Only a discard changes the stale ranges while a command runs. -/
theorem hostEvent_stale {s : State} {e : HostEvent} (h : ∀ q, e ≠ .cacheDiscard q) (hb : (hostEvent e s).busy = true) :
    (hostEvent e s).stale = s.stale := by
  cases e with
  | regRead addr width => simp only [hostEvent]; split <;> rfl
  | regWrite addr width data =>
    cases hs : select s.platform addr width with
    | reg r =>
      simp only [hostEvent, hs] at hb ⊢
      exact writeReg_stale_of_busy (s := respond .writeDone s) hb
    | _ => simp only [hostEvent, hs]; rfl
  | memWrite a v => simp only [hostEvent, agentWrite]; split <;> rfl
  | cacheDiscard q => exact absurd rfl (h q)
  | hardReset => exact nomatch hb
  | _ => rfl

theorem hostEvent_stale_iff {s : State} {e : HostEvent} (hb : (hostEvent e s).busy = true) {a : Nat} :
    InSome (hostEvent e s).stale a ↔ InSome s.stale a ∧ ∀ q, e = .cacheDiscard q → q.contains a = false := by
  by_cases h : ∃ q, e = .cacheDiscard q
  · obtain ⟨q, rfl⟩ := h
    simp only [HostEvent.cacheDiscard.injEq, forall_eq']
    exact inSome_minus
  · have hne : ∀ q, e ≠ .cacheDiscard q := fun q hq => h ⟨q, hq⟩
    rw [hostEvent_stale hne hb]
    exact ⟨fun hs => ⟨hs, fun q hq => absurd hq (hne q)⟩, fun hs => hs.1⟩

/-- A reset ends a command as a completion does: what it wrote turns stale. -/
theorem hostEvent_reset_stale {s : State} {e : HostEvent} (hr : isReset s.platform e) :
    (hostEvent e s).stale = s.fresh ++ s.stale := by
  cases e with
  | hardReset => rfl
  | regWrite addr width data =>
    obtain ⟨hs, hd⟩ := hr
    simp only [hostEvent, hs, writeReg_unprotected (r := .ctrl) rfl, storeReg_ctrl_set hd]
    rfl
  | _ => exact absurd hr id

section Along
variable {i : Instr} {s u w t x : State} {ps : List Phase} {es : List HostEvent} {a : Nat}

/-! ## What a command has written -/

theorem OutsideOnly.fresh_eq (h : OutsideOnly s t) : t.fresh = s.fresh := by
  have := congrArg State.fresh h.same
  exact this

/-- No discard among the events covers the byte. -/
def Undiscarded (es : List HostEvent) (a : Nat) : Prop := ∀ q, HostEvent.cacheDiscard q ∈ es → q.contains a = false

theorem Undiscarded.left {fs : List HostEvent} (h : Undiscarded (es ++ fs) a) : Undiscarded es a :=
  fun q hq => h q (List.mem_append_left _ hq)

/-- What has become of the byte at `a` with respect to the host's caches. -/
structure CacheRecord (i : Instr) (s : State) (es : List HostEvent) (u : State) (a : Nat) : Prop where
  stale : InSome u.stale a → InSome s.stale a
  keeps : InSome s.stale a → Undiscarded es a → InSome u.stale a
  fresh : InSome u.fresh a → InSome s.fresh a ∨ (outputRegion i s).contains a = true
  changed : Unnamed es a → Memory.read u.mem a ≠ Memory.read s.mem a → InSome u.fresh a

theorem CacheRecord.congr (h : CacheRecord i s es u a) (hs : w.stale = u.stale) (hf : w.fresh = u.fresh)
    (hm : w.mem = u.mem) : CacheRecord i s es w a := by
  obtain ⟨h1, h2, h3, h4⟩ := h
  exact ⟨hs ▸ h1, hs ▸ h2, hf ▸ h3, by rw [hm, hf]; exact h4⟩

theorem contains_of_covered {r q : Region} (h : r.coveredBy [q]) (hr : r.contains a = true) : q.contains a = true := by
  obtain ⟨q', hq, hc⟩ := h.2 a hr
  obtain rfl := List.mem_singleton.mp hq
  exact hc

/-- A write of the command, whole or cut short, is recorded whole. -/
theorem CacheRecord.write (h : CacheRecord i s es u a) {r : Region} (hc : r.coveredBy [outputRegion i s])
    (hs : w.stale = u.stale) (hf : w.fresh = r :: u.fresh)
    (hm : r.contains a = false → Memory.read w.mem a = Memory.read u.mem a) : CacheRecord i s es w a where
  stale := hs ▸ h.stale
  keeps := hs ▸ h.keeps
  fresh hin := by
    rw [hf, inSome_cons] at hin
    exact hin.elim (fun hr => .inr (contains_of_covered hc hr)) h.fresh
  changed hn hne := by
    rw [hf, inSome_cons]
    cases hr : r.contains a with
    | true => exact .inl rfl
    | false => exact .inr (h.changed hn (hm hr ▸ hne))

theorem Reaches.cache (h : Reaches i s ps es u) (hm : Memory.wf s.mem = true) (a : Nat) : CacheRecord i s es u a := by
  induction h with
  | accepted => exact ⟨id, fun h _ => h, .inl, fun _ hne => absurd rfl hne⟩
  | @meets _ es u _ e rest h _ hb ih =>
    have hst := hostEvent_stale_iff (s := { u with inbox := rest }) hb (a := a)
    have hfr := (outsideOnly_of_busy (s := { u with inbox := rest }) h.runs.busy hb).fresh_eq
    refine ⟨fun hin => ih.stale (hst.mp hin).1, fun hin hu => hst.mpr ⟨ih.keeps hin hu.left, ?_⟩,
      fun hin => ih.fresh (hfr ▸ hin), fun hn hne => ?_⟩
    · rintro q rfl
      exact hu q (by simp)
    · rw [hostEvent_read (s := { u with inbox := rest }) (h.wf hm) fun b v he => hn.last b v he] at hne
      rw [hfr]
      exact ih.changed hn.left hne
  | @writes _ _ u b v h _ hc ih =>
    exact ih.write hc rfl rfl fun hr => storeAll_read (s := logEvent (.write b v.length) u) (h.wf hm) hr
  | computes _ hc ih => exact ih.congr (by rw [hc.same]) (by rw [hc.same]) hc.mem_eq
  | waits _ _ ih => exact ih.congr rfl rfl rfl
  | enters _ _ ih => exact ih.congr rfl rfl rfl
  | reads _ _ _ ih => exact ih.congr rfl rfl rfl
  | wipes _ _ ih => exact ih.congr rfl rfl rfl

theorem Begins.cache {d : Dir} {r : Region} (h : Begins i s d r u w) (hu : CacheRecord i s es u a)
    (hm : Memory.wf u.mem = true) : CacheRecord i s es w a := by
  cases h with
  | read _ => exact hu.congr rfl rfl rfl
  | @write _ b v hc => exact hu.write hc rfl rfl fun hr => storeTorn_read (s := logEvent (.write b v.length) u) hm hr

theorem Cut.cache (h : Cut i s u w) (hu : CacheRecord i s es u a) (hm : Memory.wf u.mem = true) :
    CacheRecord i s es w a := by
  obtain rfl | ⟨d, r, hg⟩ := h
  · exact hu
  · exact hg.cache hu hm

/-- An event that no record of the byte speaks of. -/
theorem CacheRecord.snoc (h : CacheRecord i s es u a) (e : HostEvent) : CacheRecord i s (es ++ [e]) u a :=
  ⟨h.stale, fun hin hu => h.keeps hin hu.left, h.fresh, fun hn => h.changed hn.left⟩

/-- A command's end, up to what it has written turning stale. -/
theorem Outcome.cache (h : Outcome i s ps es t) (hm : Memory.wf s.mem = true) (a : Nat) :
    CacheRecord i s es t a ∧ t.busy = true ∨
      ∃ w, CacheRecord i s es w a ∧ t.mem = w.mem ∧ t.fresh = [] ∧ t.stale = w.fresh ++ w.stale := by
  cases h with
  | @completed _ u w v c hu hg hv =>
    exact .inr ⟨w, hg.cache (hu.cache hm a) (hu.wf hm), by rw [complete_mem, hv], rfl, by rw [complete_stale, hv]⟩
  | @reset _ u w x _ e rest hu hi hr hg ho he =>
    have hp : w.platform = s.platform := (hg.runs (hu.runs.pop rest)).platform_eq
    have hw := hg.cache ((hu.cache hm a).congr (w := { u with inbox := rest }) rfl rfl rfl) (hu.wf hm)
    exact .inr ⟨w, hw.snoc e, hostEvent_mem hr.not_memWrite w, by rw [he]; rfl, hostEvent_reset_stale (hp ▸ hr)⟩
  | @stuck _ u _ _ rest hu hp hi hg =>
    obtain ⟨_, _, hg⟩ := hg
    have hw := hg.cache ((hu.cache hm a).congr (w := { u with inbox := rest }) rfl rfl rfl) (hu.wf hm)
    exact .inl ⟨hw.snoc _, (hg.runs (hu.runs.pop rest)).busy⟩

end Along

/-! ## Single events -/

theorem takesTo_memWrite (s : State) (a : Word) (v : Byte) (rest : List Arrival) :
    takesTo s (.memWrite a v) rest (agentWrite a.toNat v { s with inbox := rest }) :=
  takesTo_hostEvent (e := .memWrite a v) rfl rfl fun hb =>
    (OutsideOnly.agentWrite { s with inbox := rest } a.toNat v).busy_eq.trans hb

/-- Which writes race: those to a region of the running command (70_reset_and_hazards.md R246). -/
theorem conflicts_of_running {s : State} {i : Instr} (hb : s.busy = true) (hi : s.running = some i) (a : Nat) :
    conflicts s a = (touchedRegions i s).any fun r => r.contains a := by
  rw [conflicts, hb, Bool.true_and, runningRegions_any hi]

theorem conflicts_eq_false {s : State} {a : Nat}
    (h : ∀ i, s.busy = true → s.running = some i → ∀ r ∈ touchedRegions i s, r.contains a = false) : conflicts s a = false := by
  refine Bool.eq_false_iff.mpr fun hc => ?_
  obtain ⟨hb, r, hr, ha⟩ := conflicts_eq_true.mp hc
  cases hi : s.running with
  | none => simp [readRegions, writeRegions, hi] at hr
  | some i =>
    rw [conflicts_of_running hb hi, List.any_eq_true] at hc
    obtain ⟨q, hq, hqa⟩ := hc
    rw [h i hb hi q hq] at hqa
    exact nomatch hqa

theorem Memory.read_write_word {m : Memory} (h : Memory.wf m = true) (a : Word) (v : Byte) (b : Nat) :
    Memory.read (Memory.write m a.toNat v) b = if b = a.toNat then some v else Memory.read m b :=
  Memory.read_write h a.isLt v b

/-- A read of a byte that nothing frees for the reader. -/
theorem hostReadOpen_eq_false {who : Reader} {s : State} {a : Nat}
    (hout : ∀ i, s.busy = true → s.running = some i → (outputRegion i s).contains a = false)
    (hst : who = .other ∨ s.platform.dmaCoherent = true ∨ ∀ r ∈ s.stale, r.contains a = false) :
    hostReadOpen who s a = false := by
  have hempty : (s.out 0).contains a = false := by
    refine Bool.eq_false_iff.mpr fun hc => ?_
    rw [Region.contains_iff] at hc
    simp only [State.out] at hc
    omega
  have hwr : (s.busy && (writeRegions s).any fun r => r.contains a) = false := by
    cases hb : s.busy with
    | false => rfl
    | true =>
      cases hi : s.running with
      | none => simp [writeRegions, hi]
      | some i =>
        have := hout i hb hi
        cases i <;> simp_all [writeRegions, outputRegion]
  unfold hostReadOpen
  rw [hwr, Bool.false_or]
  cases who with
  | other => rfl
  | host =>
    simp only [staleAt, Bool.and_eq_false_iff, Bool.not_eq_false', List.any_eq_false]
    rcases hst with h | h | h
    · exact nomatch h
    · exact .inl h
    · exact .inr fun r hr => by rw [h r hr]; exact Bool.false_ne_true

/-- Settles O56: each event by `takesTo_hostEvent`, and a whole command by `Outcome.cache`. -/
theorem onlyCommandsAndAgentsWriteMemory : Obligations.OnlyCommandsAndAgentsWriteMemory := by
  unfold Obligations.OnlyCommandsAndAgentsWriteMemory
  refine ⟨fun s t e rest ha ht he hc => ?_, fun s a v rest hm => ⟨fun hfree => ?_, fun i hb hi hrace => ?_⟩,
    fun s a v hr => ?_, fun s who a rest => ?_, fun s q rest => ?_, fun s t i a hb hm h => ?_⟩
  · cases hw : cmdWord? s.platform e with
    | none =>
      rw [step_event ha hw] at ht
      obtain rfl := Host.Outcome.next.inj ht
      exact hostEvent_mem he _
    | some w =>
      have hb : s.busy = true := hc.resolve_left (by simp [hw])
      rw [step_word ha hw, runWord_busy (s := respond .writeDone { s with inbox := rest }) hb] at ht
      obtain rfl := Host.Outcome.next.inj ht
      rfl
  · refine ⟨_, takesTo_memWrite s a v rest, ?_⟩
    rw [agentWrite_free (s := { s with inbox := rest }) (conflicts_eq_false hfree) v]
    exact ⟨rfl, fun b => Memory.read_write_word hm a v b⟩
  · refine ⟨_, takesTo_memWrite s a v rest, ?_⟩
    have hconf : conflicts { s with inbox := rest } a.toNat = true := by
      rw [conflicts_of_running (s := { s with inbox := rest }) hb hi]
      exact List.any_eq_true.mpr hrace
    rw [agentWrite_conflict (s := { s with inbox := rest }) hconf v]
    exact ⟨rfl, fun b => Memory.read_write_word hm a _ b⟩
  · have hc : s.raced.contains a = true := by simpa using hr
    simp only [dmaByte, dmaStored, hc, if_true, and_self]
  · refine ⟨_, takesTo_hostEvent (e := .memRead who a) rfl rfl fun hb => hb, fun v hout hst hv => ?_⟩
    exact hostByteAt_written (s := { s with inbox := rest })
      (hostReadOpen_eq_false (s := { s with inbox := rest }) hout hst) hv
  · exact ⟨_, takesTo_hostEvent (e := .cacheDiscard q) rfl rfl fun hb => hb, fun a => inSome_minus⟩
  · obtain ⟨ps, es, he⟩ := exec_ends hb h
    rw [he.landed]
    rcases he.outcome.cache hm a with ⟨hc, hbusy⟩ | ⟨w, hc, hmem, hfresh, hstale⟩
    · refine ⟨hc.keeps, fun hin => ?_, fun hn hne => ?_, fun hidle => ?_⟩
      · have hin : InSome (t.fresh ++ t.stale) a := hin
        show InSome (s.fresh ++ s.stale) a ∨ _
        rw [inSome_append] at hin ⊢
        exact hin.elim (fun hf => (hc.fresh hf).imp_left .inl) fun hs => .inl (.inr (hc.stale hs))
      · exact inSome_append.mpr (.inl (hc.changed hn hne))
      · rw [hbusy] at hidle; exact nomatch hidle
    · refine ⟨fun hin hu => ?_, fun hin => ?_, fun hn hne => ?_, fun _ => hfresh⟩
      · show InSome t.stale a
        rw [hstale, inSome_append]
        exact .inr (hc.keeps hin hu)
      · have hin : InSome (t.fresh ++ t.stale) a := hin
        show InSome (s.fresh ++ s.stale) a ∨ _
        rw [hfresh, List.nil_append, hstale, inSome_append] at hin
        rw [inSome_append]
        exact hin.elim (fun hf => (hc.fresh hf).imp_left .inl) fun hs => .inl (.inr (hc.stale hs))
      · show InSome (t.fresh ++ t.stale) a
        rw [hfresh, List.nil_append, hstale, inSome_append]
        exact .inl (hc.changed hn (hmem ▸ hne))

end Sys2Proof.Machine
end

section
/-! SUPPORT. The register window (10_state.md R31, R42, R44): the bits of STATUS, reads at a step and in a running command, and the
writes to an idle engine. -/

namespace Sys2Proof.Machine

/-! ## The fields of STATUS -/

/-- A field above the last part of a word. -/
theorem extractLsb'_append_high {v w n start : Nat} {x : BitVec v} {y : BitVec w} {b : BitVec n} (h : w ≤ start)
    (hx : x.extractLsb' (start - w) n = b) : (x ++ y).extractLsb' start n = b := by
  rw [BitVec.extractLsb'_append_eq_of_le h]; exact hx

theorem getLsbD_append_high {v w i : Nat} {x : BitVec v} {y : BitVec w} {b : Bool} (h : w ≤ i)
    (hx : x.getLsbD (i - w) = b) : (x ++ y).getLsbD i = b := by
  rw [BitVec.getLsbD_append, if_neg (by omega)]; exact hx

theorem getLsbD_append_ofBool {v : Nat} {x : BitVec v} (b : Bool) : (x ++ BitVec.ofBool b).getLsbD 0 = b := by
  rw [BitVec.getLsbD_append, if_pos (by omega)]; simp

section Status
variable (s : State)

theorem statusWord_busy : (statusWord s).getLsbD 0 = s.busy := getLsbD_append_ofBool _

theorem statusWord_done : (statusWord s).getLsbD 1 = s.done := by
  unfold statusWord
  exact getLsbD_append_high (by decide) (getLsbD_append_ofBool _)

theorem statusWord_authOk : (statusWord s).getLsbD 2 = s.authOk := by
  unfold statusWord
  iterate 2 refine getLsbD_append_high (by decide) ?_
  exact getLsbD_append_ofBool _

theorem statusWord_authFail : (statusWord s).getLsbD 3 = s.authFail := by
  unfold statusWord
  iterate 3 refine getLsbD_append_high (by decide) ?_
  exact getLsbD_append_ofBool _

theorem statusWord_wrBusy : (statusWord s).getLsbD 4 = s.wrBusy := by
  unfold statusWord
  iterate 4 refine getLsbD_append_high (by decide) ?_
  exact getLsbD_append_ofBool _

theorem statusWord_5_7 : (statusWord s).extractLsb' 5 3 = 0 := by
  unfold statusWord
  iterate 5 refine extractLsb'_append_high (by decide) ?_
  exact BitVec.extractLsb'_append_eq_right

theorem statusWord_err : (statusWord s).extractLsb' 8 4 = s.err.code := by
  unfold statusWord
  iterate 6 refine extractLsb'_append_high (by decide) ?_
  exact BitVec.extractLsb'_append_eq_right

theorem statusWord_12_15 : (statusWord s).extractLsb' 12 4 = 0 := by
  unfold statusWord
  iterate 7 refine extractLsb'_append_high (by decide) ?_
  exact BitVec.extractLsb'_append_eq_right

theorem statusWord_keyMask : (statusWord s).extractLsb' 16 4 = s.keyMask := by
  unfold statusWord
  iterate 8 refine extractLsb'_append_high (by decide) ?_
  exact BitVec.extractLsb'_append_eq_right

theorem statusWord_nonceMask : (statusWord s).extractLsb' 20 4 = s.nonceMask := by
  unfold statusWord
  iterate 9 refine extractLsb'_append_high (by decide) ?_
  exact BitVec.extractLsb'_append_eq_right

theorem statusWord_phase : (statusWord s).extractLsb' 24 3 = s.phase.code := by
  unfold statusWord
  iterate 10 refine extractLsb'_append_high (by decide) ?_
  exact BitVec.extractLsb'_append_eq_right

theorem statusWord_27_31 : (statusWord s).extractLsb' 27 5 = 0 := by
  unfold statusWord
  iterate 11 refine extractLsb'_append_high (by decide) ?_
  exact BitVec.extractLsb'_append_eq_right

theorem statusWord_lastOpc : (statusWord s).extractLsb' 32 8 = s.lastOpc := by
  unfold statusWord
  iterate 12 refine extractLsb'_append_high (by decide) ?_
  exact BitVec.extractLsb'_append_eq_right

theorem statusWord_40_63 : (statusWord s).extractLsb' 40 24 = 0 := by
  unfold statusWord
  iterate 13 refine extractLsb'_append_high (by decide) ?_
  rfl

/-- The four flags of a running command that has reported nothing. -/
theorem statusWord_running (hb : s.busy = true) (hd : s.done = false) (ho : s.authOk = false) (hf : s.authFail = false) :
    (statusWord s).extractLsb' 0 4 = 0b0001 := by
  refine BitVec.eq_of_getLsbD_eq fun i hi => ?_
  rw [BitVec.getLsbD_extractLsb', decide_eq_true hi, Bool.true_and, Nat.zero_add]
  interval_cases i
  · rw [statusWord_busy, hb]; rfl
  · rw [statusWord_done, hd]; rfl
  · rw [statusWord_authOk, ho]; rfl
  · rw [statusWord_authFail, hf]; rfl

end Status

/-! ## Writes to an idle engine -/

/-- A write of any register but CMD to an idle engine stores. -/
theorem step_storeReg {s : State} (hw : windowAligned s.platform) (hb : s.busy = false) {r : Reg} (hr : r ≠ .cmd) {v : Word}
    {rest : List Arrival} (ha : arrives s (.regWrite (busAddr s.platform r) 64 v) rest) :
    step s = .next (storeReg r v { s with inbox := rest, responses := .writeDone :: s.responses }) := by
  rw [step_event ha (by rw [cmdWord?_regWrite hw, if_neg hr])]
  have he := hostEvent_regWrite (s := { s with inbox := rest }) hw r v
  refine congrArg Host.Outcome.next (he.trans ?_)
  have hidle : (respond .writeDone { s with inbox := rest }).busy = false := hb
  simp only [writeReg, hidle, Bool.and_false, Bool.false_eq_true, if_false]
  rfl

/-- The registers that a host writes and reads back. -/
def readBackRegs : List Reg :=
  [.hdrAddr, .hdrLen, .inAddr, .inLen, .trlAddr, .trlLen, .outAddr, .config, .irqEn]

theorem readReg_storeReg_ne {r q : Reg} (hr : r ∈ readBackRegs) (hq : q ≠ r) (v : Word) (s : State) :
    readReg q (storeReg r v s) = readReg q s := by
  simp only [readBackRegs, List.mem_cons, List.not_mem_nil, or_false] at hr
  rcases hr with rfl | rfl | rfl | rfl | rfl | rfl | rfl | rfl | rfl <;>
    cases q <;> simp_all [readReg, storeReg, statusWord]

theorem readReg_pop (r : Reg) (s : State) (l : List Arrival) (m : List Response) :
    readReg r { s with inbox := l, responses := m } = readReg r s := by
  cases r <;> rfl

theorem setWidth_extractLsb'_low (v : Word) : (v.extractLsb' 0 4).setWidth 64 = v &&& 0xF := by
  refine BitVec.eq_of_getLsbD_eq fun i hi => ?_
  rw [BitVec.getLsbD_setWidth, BitVec.getLsbD_extractLsb', BitVec.getLsbD_and, Nat.zero_add, decide_eq_true hi,
    Bool.true_and, Bool.and_comm]
  congr 1
  interval_cases i <;> rfl

theorem setWidth_ofBool_low (v : Word) : (BitVec.ofBool (v.getLsbD 0)).setWidth 64 = v &&& 1 := by
  refine BitVec.eq_of_getLsbD_eq fun i hi => ?_
  rw [BitVec.getLsbD_setWidth, BitVec.getLsbD_and, decide_eq_true hi, Bool.true_and]
  cases i with
  | zero => simp
  | succ i => simp [-BitVec.getLsbD_eq_getElem]

theorem getLsbD_or_bit : ∀ (m : BitVec 4) (i j : Fin 4),
    (m ||| (1#4 <<< i.val)).getLsbD j.val = (decide (j = i) || m.getLsbD j.val) := by decide +kernel

theorem set_quad_ne {q : Quad} {i j : Fin 4} (h : j ≠ i) (v : Word) : (q.set i v)[j] = q[j] :=
  Vector.getElem_set_ne _ _ fun he => h (Fin.ext he.symm)

/-! ## The statements -/

/-- Settles O4. -/
theorem stepRunsTheDecodedCommand : Obligations.StepRunsTheDecodedCommand := by
  unfold Obligations.StepRunsTheDecodedCommand
  intro s w rest hw ha
  have hstep := step_word ha (by rw [cmdWord?_regWrite hw, if_pos rfl])
  refine ⟨hstep, fun i hi => ?_, fun e he => ?_⟩
  · rw [hstep, runWord, hi]
  · rw [hstep, runWord_illegal he]

/-- Settles O47: no register's value is made of these items. -/
theorem secretsAreNotReadable : Obligations.SecretsAreNotReadable := by
  unfold Obligations.SecretsAreNotReadable
  exact fun r s S key tagBuf tag blk diff k => ⟨by cases r <;> rfl, fun _ => rfl⟩

/-- Settles O48: the fields of `statusWord` one by one. -/
theorem statusFields : Obligations.StatusFields := by
  unfold Obligations.StatusFields
  refine ⟨rfl, rfl, fun s => ⟨statusWord_busy s, statusWord_done s, statusWord_authOk s, statusWord_authFail s,
    statusWord_wrBusy s, statusWord_5_7 s, statusWord_err s, statusWord_12_15 s, statusWord_keyMask s,
    statusWord_nonceMask s, statusWord_phase s, statusWord_27_31 s, statusWord_lastOpc s, statusWord_40_63 s,
    rfl, rfl, rfl, rfl, ?irqEn, fun _ => rfl, rfl, rfl, rfl, rfl, rfl, rfl, rfl⟩⟩
  case irqEn => simp only [readReg]; cases s.doneIe <;> rfl

/-- Settles O49: a read at a step and at a slot, and those that a command meets by `Ends.answersOf`, each in a state in which the
command runs. -/
theorem registerReadsHaveNoSideEffect : Obligations.RegisterReadsHaveNoSideEffect := by
  unfold Obligations.RegisterReadsHaveNoSideEffect
  refine ⟨fun s r rest hw ha => ?_, fun begun s r inside rest hb hw => ?_, fun s t i r x hinv hb hw h hx => ?_⟩
  · exact step_regRead hw ha
  · have he : hostEvent (.regRead (busAddr s.platform r) 64) { s with inbox := rest } =
        { s with inbox := rest, responses := .readData (readReg r s) :: s.responses } := by
      simp only [hostEvent, select_busAddr hw]
      cases r <;> rfl
    rw [land_event begun inside rfl (by rw [he]; exact hb), he]
  · obtain ⟨ps, es, hends⟩ := exec_ends hb h
    obtain ⟨-, hall⟩ := hends.answersOf
    obtain ⟨w, rfl, hp, hrun⟩ := hall _ _ hx
    obtain ⟨hruns, hphase⟩ := hrun ⟨_, _, rfl⟩
    refine ⟨readReg r w, by simp only [answerTo, hp, select_busAddr hw], ?_, ?_, ?_, ?_, ?_⟩
    · rintro rfl
      refine ⟨statusWord_running w hruns.busy hruns.done hruns.authOk hruns.authFail, ?_, ?_, w.phase, ?_, ?_⟩
      · exact (statusWord_err w).trans (by rw [hruns.err]; rfl)
      · exact (statusWord_lastOpc w).trans hruns.lastOpc
      · rwa [(hinv.idle hb).2.1] at hphase
      · exact statusWord_phase w
    · rintro rfl; exact hruns.outLen
    · rintro rfl; exact hruns.faultAddr
    · rintro ⟨j, rfl⟩; rfl
    · intro hr
      obtain ⟨h1, h2, h3, h4, h5, h6, h7, h8, -⟩ := hruns.operands
      simp only [List.mem_cons, List.not_mem_nil, or_false] at hr
      rcases hr with rfl | rfl | rfl | rfl | rfl | rfl | rfl | rfl
      · exact congrArg (BitVec.setWidth 64) h1
      · exact h2
      · exact h3
      · exact h4
      · exact h5
      · exact h6
      · exact h7
      · exact h8

/-- Settles O52: `step_storeReg`, and the bits of a mask. -/
theorem keyAndNonceWrites : Obligations.KeyAndNonceWrites := by
  unfold Obligations.KeyAndNonceWrites
  intro s i v rest hb hw
  refine ⟨fun ha => ⟨_, step_storeReg hw hb (by simp) ha, ?_, ?_, fun j hj => ⟨set_quad_ne hj v, ?_⟩, rfl⟩,
    fun ha => ⟨_, step_storeReg hw hb (by simp) ha, ?_, ?_, ?_, fun j hj => ⟨set_quad_ne hj v, ?_⟩, rfl⟩⟩
  · exact Vector.getElem_set_self _
  · exact (getLsbD_or_bit _ i i).trans (by simp)
  · exact (getLsbD_or_bit _ i j).trans (by simp [hj])
  · exact Vector.getElem_set_self _
  · exact Vector.getElem_set_self _
  · exact (getLsbD_or_bit _ i i).trans (by simp)
  · exact (getLsbD_or_bit _ i j).trans (by simp [hj])

/-- Settles O53: the map is `Reg.offset`, and every write is `step_storeReg`. -/
theorem otherRegistersReadBack : Obligations.OtherRegistersReadBack := by
  unfold Obligations.OtherRegistersReadBack
  refine ⟨⟨rfl, rfl, fun _ => ⟨rfl, rfl⟩, fun _ => rfl, fun p r hw => ⟨busAddr_toNat hw r, select_busAddr hw r⟩⟩, ?_⟩
  intro s r v rest hb hw ha
  have hstep : r ≠ .cmd → step s = .next (storeReg r v { s with inbox := rest, responses := .writeDone :: s.responses }) :=
    fun hr => step_storeReg hw hb hr ha
  refine ⟨?_, ?_, ?_, ?_, ?_, ?_, ?_, ?_, ?_, fun hr => ?_, fun hr => ?_, fun hr => ?_, fun hr => ?_, fun hr => ?_, rfl, rfl,
    rfl, fun _ => rfl⟩
  case refine_10 =>
    simp only [List.mem_cons, List.not_mem_nil, or_false] at hr
    rcases hr with rfl | rfl | rfl | rfl | rfl | rfl | rfl <;> exact ⟨_, hstep (by simp), rfl⟩
  case refine_11 => subst hr; exact ⟨_, hstep (by simp), setWidth_extractLsb'_low v⟩
  case refine_12 => subst hr; exact ⟨_, hstep (by simp), setWidth_ofBool_low v⟩
  case refine_13 =>
    refine ⟨_, hstep ?_, fun q hq => (readReg_storeReg_ne hr hq v _).trans (readReg_pop q s _ _)⟩
    rintro rfl
    simp at hr
  case refine_14 =>
    rcases hr with hr | ⟨n, rfl⟩
    · simp only [List.mem_cons, List.not_mem_nil, or_false] at hr
      rcases hr with rfl | rfl | rfl <;> exact hstep (by simp)
    · exact hstep (by simp)
  all_goals
    rintro rfl
    exact hstep (by simp)

/-- Settles O58: both are `resetEngine`. -/
theorem softResetEqualsHardReset : Obligations.SoftResetEqualsHardReset := by
  unfold Obligations.SoftResetEqualsHardReset
  intro s v rest hw
  refine ⟨fun ha => ?_, fun ha => step_event ha rfl⟩
  have hstep : step s = .next (storeReg .ctrl v (respond .writeDone { s with inbox := rest })) := by
    rw [step_event ha (by rw [cmdWord?_regWrite hw, if_neg (by simp)])]
    exact congrArg Host.Outcome.next
      ((hostEvent_regWrite (s := { s with inbox := rest }) hw .ctrl v).trans (writeReg_unprotected rfl v _))
  rw [hstep]
  exact ⟨fun hv => by rw [storeReg_ctrl_set hv]; rfl, fun hv => by rw [storeReg_ctrl_clear hv]; rfl⟩

theorem noProgress_outside {s t : State} (h : OutsideOnly s t) : noProgress s t :=
  (congrArg (noProgress s) h.same).mpr
    ⟨rfl, rfl, rfl, rfl, rfl, rfl, rfl, rfl, rfl, rfl, rfl, rfl, rfl, ⟨rfl, rfl⟩, ⟨rfl, rfl, rfl, rfl⟩,
      rfl, rfl, rfl, rfl, rfl, rfl, rfl, rfl, rfl⟩

/-- Settles O60: an outside event of a stuck engine is `hostEvent_busy`, a CMD write is turned away. -/
theorem onlyAResetEndsAStall : Obligations.OnlyAResetEndsAStall := by
  unfold Obligations.OnlyAResetEndsAStall
  refine fun s hb => ⟨fun hi => by simp only [step, hi, hb, if_true], fun t ht => ?_⟩
  cases hi : s.inbox with
  | nil => simp only [step, hi, hb, if_true] at ht; exact nomatch ht
  | cons x rest =>
    have ha : arrives s x.event rest := ⟨x.time, hi⟩
    have hpop : OutsideOnly s { s with inbox := rest } := .inbox s rest
    cases hc : cmdWord? s.platform x.event with
    | some w =>
      rw [step_word ha hc, runWord_busy (s := respond .writeDone { s with inbox := rest }) hb] at ht
      obtain rfl := Host.Outcome.next.inj ht
      have ho : OutsideOnly s (turnAway (respond .writeDone { s with inbox := rest })) := ⟨rfl, id, id⟩
      exact .inl ⟨hb, noProgress_outside ho⟩
    | none =>
      rw [step_event ha hc] at ht
      obtain rfl := Host.Outcome.next.inj ht
      rcases hostEvent_busy (s := { s with inbox := rest }) hb x.event with ho | ⟨u, ho, he⟩
      · have ho := hpop.trans ho
        exact .inl ⟨ho.busy_eq.trans hb, noProgress_outside ho⟩
      · rw [he]
        exact .inr ⟨rfl, by rw [resetEngine_trace, ho.trace_eq]⟩

/-! ## Illegal words and the interrupt, where nothing lands -/

theorem illegalCommand_quiet {s : State} (h : idleQuiet s) (w : Word) :
    illegalCommand w s = complete .illegalCmd (setAuth false false (setOutLen 0 (eraseTransients
      (accept (w.extractLsb' 0 8) none s)))) := by
  rw [illegalCommand, issue_quiet h, Run.state_ended]
  rfl

/-- Settles O5: `illegalCommand_quiet`. -/
theorem illegalWordEndsWithIllegalCmd : Obligations.IllegalWordEndsWithIllegalCmd := by
  unfold Obligations.IllegalWordEndsWithIllegalCmd
  intro s w e hq hw
  refine ⟨_, runWord_illegal hw s, ?_⟩
  rw [illegalCommand_quiet hq]
  exact ⟨⟨rfl, rfl, rfl, rfl, rfl, rfl⟩, rfl, rfl, ⟨rfl, rfl⟩, rfl, ⟨rfl, rfl, rfl, rfl⟩,
    ⟨⟨rfl, rfl, rfl, rfl, rfl, rfl, rfl, rfl, rfl⟩, rfl, rfl, rfl, rfl⟩, rfl, ⟨rfl, rfl, rfl, rfl, rfl⟩,
    List.append_assoc _ _ _⟩

theorem irq_exec {s t : State} {i : Instr} (hq : idleQuiet s) (h : exec i s = .next t) : irq t = s.doneIe := by
  obtain ⟨ps, es, he⟩ := exec_ends hq.1 h
  obtain ⟨-, -, hd, -, -, -, -, -, hie, -⟩ := he.outcome.quiet hq.2
  rw [irq, hd, hie, Bool.true_and]

/-- Settles O54: DONE after a command by `Outcome.quiet`, after an illegal word by `illegalCommand_quiet`. -/
theorem interruptIsDoneAndEnabled : Obligations.InterruptIsDoneAndEnabled := by
  unfold Obligations.InterruptIsDoneAndEnabled
  refine ⟨fun _ => rfl, fun s t i => irq_exec, fun s t w hq h => ?_, fun s v rest hw ha => ?_⟩
  · cases hw : decode w with
    | command i => rw [runWord, hw] at h; exact irq_exec hq h
    | illegal e =>
      rw [runWord_illegal hw, illegalCommand_quiet hq] at h
      obtain rfl := Host.Outcome.next.inj h
      rfl
  · refine ⟨_, (takesTo_storeReg hw (r := .status) rfl v rest rfl).1 ha, ?_⟩
    exact Bool.and_right_comm _ _ _

end Sys2Proof.Machine
end


section
/-! SUPPORT. Command words (30_encoding.md R100-R105): a word is its three fields put together, and decoding to a command says
exactly what the three fields are. -/

namespace Sys2Proof.Machine

theorem fields_append (w : Word) : rsvField w ++ argField w ++ opcField w = w := by
  refine BitVec.eq_of_getLsbD_eq fun i hi => ?_
  simp only [BitVec.getLsbD_append, rsvField, argField, opcField, BitVec.getLsbD_extractLsb']
  by_cases hopc : i < 8
  · simp [hopc]
  · by_cases harg : i - 8 < 8
    · have hidx : 8 + (i - 8) = i := by omega
      simp [hopc, harg, hidx]
    · have hidx : 16 + (i - 8 - 8) = i := by omega
      have hrsv : i - 8 - 8 < 48 := by omega
      simp [hopc, harg, hidx, hrsv]

theorem withoutArg_eq_command {w : Word} {i j : Instr} : withoutArg w j = .command i ↔ argField w = 0 ∧ j = i := by
  rw [withoutArg]
  by_cases h : argField w = 0
  · simp only [h, if_true, Decoded.command.injEq, true_and]
  · simp only [h, if_false, false_and, reduceCtorEq]

/-- What a word that decodes to `i` looks like, field by field. -/
theorem decode_eq_command_iff {w : Word} {i : Instr} :
    decode w = .command i ↔ i.wf = true ∧ rsvField w = 0 ∧ argField w = i.arg ∧ opcField w = i.opcode := by
  constructor
  · intro h
    simp only [decode, ite_not] at h
    split_ifs at h with hrsv h0 h1 h2 h3 h4
    · obtain ⟨ha, rfl⟩ := withoutArg_eq_command.mp h; exact ⟨rfl, hrsv, ha, h0⟩
    · obtain ⟨ha, rfl⟩ := withoutArg_eq_command.mp h; exact ⟨rfl, hrsv, ha, h1⟩
    · obtain ⟨ha, rfl⟩ := withoutArg_eq_command.mp h; exact ⟨rfl, hrsv, ha, h2⟩
    · obtain rfl := Decoded.command.inj h
      exact ⟨decide_eq_true (Nat.le_of_lt_succ (argField w).isLt), hrsv, (BitVec.ofNat_toNat 8 _).trans (BitVec.setWidth_eq _) |>.symm, h3⟩
    · obtain ⟨ha, rfl⟩ := withoutArg_eq_command.mp h; exact ⟨rfl, hrsv, ha, h4⟩
  · rintro ⟨hwf, hrsv, harg, hopc⟩
    cases i with
    | permute rounds =>
      have hr : (argField w).toNat = rounds := by
        rw [harg]; exact Nat.mod_eq_of_lt (Nat.lt_succ_of_le (of_decide_eq_true hwf))
      simp [decode, hrsv, hopc, Instr.opcode, hr]
    | _ => simp [decode, withoutArg, hrsv, hopc, harg, Instr.opcode, Instr.arg]

theorem encode_fields {i : Instr} (h : i.wf = true) :
    rsvField (encode i) = 0 ∧ argField (encode i) = i.arg ∧ opcField (encode i) = i.opcode := by
  have hrow : Laws.OpcodeTable.Statement i := match i with
    | .nop => Laws.OpcodeTable.nop
    | .sealMsg => Laws.OpcodeTable.sealMsg
    | .openMsg => Laws.OpcodeTable.openMsg
    | .permute rounds => Laws.OpcodeTable.permute rounds
    | .erase => Laws.OpcodeTable.erase
  obtain ⟨-, hopc, harg, hrsv⟩ := hrow h
  exact ⟨hrsv, harg, hopc⟩

/-- Settles O1: the fields of a word determine it, and decoding to a command fixes all three. -/
theorem decodeInvertsEncodeExactly : Obligations.DecodeInvertsEncodeExactly := by
  unfold Obligations.DecodeInvertsEncodeExactly
  intro w i
  rw [decode_eq_command_iff]
  refine and_congr_right fun hwf => ⟨fun ⟨hrsv, harg, hopc⟩ => ?_, ?_⟩
  · rw [encode, ← harg, ← hopc, ← hrsv, fields_append]
  · rintro rfl
    exact encode_fields hwf

/-- A word decodes to a command without operand exactly where it is that command's one word. -/
theorem decode_eq_iff_word {w : Word} {i : Instr} (h : i.wf = true) :
    decode w = .command i ↔ w &&& 0xFFFFFFFFFFFFFFFF = encode i := by
  have hmask : w &&& 0xFFFFFFFFFFFFFFFF = w := BitVec.and_allOnes
  rw [decodeInvertsEncodeExactly w i, hmask, and_iff_right h, eq_comm]

theorem decode_permute_iff {w : Word} :
    (∃ r, decode w = .command (.permute r)) ↔ rsvField w = 0 ∧ opcField w = 0x03 := by
  refine ⟨fun ⟨r, h⟩ => ?_, fun ⟨hrsv, hopc⟩ => ⟨(argField w).toNat, ?_⟩⟩
  · obtain ⟨-, hrsv, -, hopc⟩ := decode_eq_command_iff.mp h
    exact ⟨hrsv, hopc⟩
  · simp [decode, hrsv, hopc]

/-- PERMUTE's mask keeps RSV and OPC and drops ARG. -/
theorem permute_mask_iff {w : Word} :
    w &&& 0xFFFFFFFFFFFF00FF = 0x0000000000000003 ↔ rsvField w = 0 ∧ opcField w = 0x03 := by
  constructor
  · intro h
    have hrsv : rsvField (w &&& 0xFFFFFFFFFFFF00FF) = rsvField w := by
      rw [rsvField, BitVec.extractLsb'_and]; exact BitVec.and_allOnes
    have hopc : opcField (w &&& 0xFFFFFFFFFFFF00FF) = opcField w := by
      rw [opcField, BitVec.extractLsb'_and]; exact BitVec.and_allOnes
    rw [h] at hrsv hopc
    exact ⟨hrsv.symm.trans (by decide), hopc.symm.trans (by decide)⟩
  · rintro ⟨hrsv, hopc⟩
    have hword : w = (0 : BitVec 48) ++ argField w ++ (0x03 : Byte) := by rw [← hrsv, ← hopc, fields_append]
    rw [hword]
    exact (Laws.OpcodeTable.permute_fields (argField w)).1

theorem decodes_iff {w : Word} :
    (∃ i, decode w = .command i) ↔ rsvField w = 0 ∧ opcField w ∈ [0x00#8, 0x01#8, 0x02#8, 0x03#8, 0x04#8] ∧
      (opcField w = 0x03#8 ∨ argField w = 0#8) := by
  constructor
  · rintro ⟨i, h⟩
    obtain ⟨-, hrsv, harg, hopc⟩ := decode_eq_command_iff.mp h
    rw [hrsv, harg, hopc]
    cases i <;> simp [Instr.opcode, Instr.arg]
  · rintro ⟨hrsv, hmem, harg⟩
    simp only [List.mem_cons, List.not_mem_nil, or_false] at hmem
    by_cases h3 : opcField w = 0x03#8
    · obtain ⟨r, h⟩ := decode_permute_iff.mpr ⟨hrsv, h3⟩
      exact ⟨_, h⟩
    · have ha := harg.resolve_left h3
      rcases hmem with h | h | h | h | h
      · exact ⟨.nop, decode_eq_command_iff.mpr ⟨rfl, hrsv, ha, h⟩⟩
      · exact ⟨.sealMsg, decode_eq_command_iff.mpr ⟨rfl, hrsv, ha, h⟩⟩
      · exact ⟨.openMsg, decode_eq_command_iff.mpr ⟨rfl, hrsv, ha, h⟩⟩
      · exact absurd h h3
      · exact ⟨.erase, decode_eq_command_iff.mpr ⟨rfl, hrsv, ha, h⟩⟩

/-- Settles O2: the fields of the words that decode, and the masks, which keep all fields or all but ARG. -/
theorem legalCommandWords : Obligations.LegalCommandWords := by
  unfold Obligations.LegalCommandWords
  exact ⟨fun w => decodes_iff, fun w => decode_eq_iff_word rfl, fun w => decode_eq_iff_word rfl,
    fun w => decode_eq_iff_word rfl, fun w => decode_permute_iff.trans permute_mask_iff.symm, fun w => decode_eq_iff_word rfl⟩

/-- Settles O3: ten words evaluated. -/
theorem writtenOutWordsDecode : Obligations.WrittenOutWordsDecode := by
  unfold Obligations.WrittenOutWordsDecode
  decide

end Sys2Proof.Machine
end


section
/-! SUPPORT. What the permutation's quarter-round and the block codec do word by word and byte by byte: the lanes of G
(40_permutation.md R124, R127), and the equations and lengths of 41_block_codec.md. -/

namespace Sys2Proof.Machine

/-! ## The lanes of the quarter-round -/

/-- `f` writes only words of `l`, and what it writes there depends on those words only. -/
structure OnLane (l : List (Fin 16)) (f : Sponge → Sponge) : Prop where
  frame : ∀ S : Sponge, ∀ i ∉ l, (f S)[i] = S[i]
  reads : ∀ S T : Sponge, (∀ j ∈ l, S[j] = T[j]) → ∀ i ∈ l, (f S)[i] = (f T)[i]

theorem OnLane.comp {l : List (Fin 16)} {f g : Sponge → Sponge} (hf : OnLane l f) (hg : OnLane l g) :
    OnLane l fun S => f (g S) :=
  ⟨fun S i hi => (hf.frame _ i hi).trans (hg.frame S i hi), fun S T h => hf.reads _ _ (hg.reads S T h)⟩

theorem getElem_set_word (S : Sponge) (x i : Fin 16) (v : Word) : (S.set x v)[i] = if x = i then v else S[i] := by
  simp only [Fin.getElem_fin, Vector.getElem_set, Fin.ext_iff]

/-- A step that replaces one word of the lane by a function of two of its words. -/
theorem OnLane.set {l : List (Fin 16)} {x y : Fin 16} (hx : x ∈ l) (hy : y ∈ l) (f : Word → Word → Word) :
    OnLane l fun S => S.set x (f S[x] S[y]) where
  frame S i hi := by
    have hne : x ≠ i := fun h => hi (h ▸ hx)
    rw [getElem_set_word, if_neg hne]
  reads S T h i hi := by rw [getElem_set_word, getElem_set_word, h x hx, h y hy, h i hi]

theorem OnLane.halfG (a b c d : Fin 16) (m n : Nat) : OnLane [a, b, c, d] (halfG a b c d m n) := by
  have ha : a ∈ [a, b, c, d] := by simp
  have hb : b ∈ [a, b, c, d] := by simp
  have hc : c ∈ [a, b, c, d] := by simp
  have hd : d ∈ [a, b, c, d] := by simp
  exact (OnLane.set hb hc fun u v => rotr (u ^^^ v) n).comp <| (OnLane.set hc hd H).comp <|
    (OnLane.set hd ha fun u v => rotr (u ^^^ v) m).comp (OnLane.set ha hb H)

theorem OnLane.G (a b c d : Fin 16) : OnLane [a, b, c, d] (G a b c d) :=
  (OnLane.halfG a b c d 40 63).comp (OnLane.halfG a b c d 8 19)

theorem OnLane.commute {l m : List (Fin 16)} {f g : Sponge → Sponge} (hf : OnLane l f) (hg : OnLane m g)
    (hlm : l.Disjoint m) (S : Sponge) : f (g S) = g (f S) := by
  refine Vector.ext fun i hi => ?_
  change (f (g S))[(⟨i, hi⟩ : Fin 16)] = (g (f S))[(⟨i, hi⟩ : Fin 16)]
  by_cases hl : ⟨i, hi⟩ ∈ l
  · rw [hg.frame _ _ (hlm hl), hf.reads _ S (fun j hj => hg.frame S j (hlm hj)) _ hl]
  · rw [hf.frame _ _ hl]
    by_cases hm : ⟨i, hi⟩ ∈ m
    · exact hg.reads _ _ (fun j hj => (hf.frame S j fun hjl => hlm hjl hj).symm) _ hm
    · rw [hg.frame _ _ hm, hg.frame _ _ hm, hf.frame _ _ hl]

/-- Settles O8: every step of G stays in its lane, and functions of disjoint lanes commute. -/
theorem quarterRoundsAreLanes : Obligations.QuarterRoundsAreLanes := by
  unfold Obligations.QuarterRoundsAreLanes
  refine ⟨fun a b c d i S _ => (OnLane.G a b c d).frame S i,
    fun a b c d i S T _ hi h => (OnLane.G a b c d).reads S T h i hi, fun a b c d e f g h S hnd => ?_⟩
  have hdisj : List.Disjoint [a, b, c, d] [e, f, g, h] :=
    List.disjoint_of_nodup_append (l₁ := [a, b, c, d]) (l₂ := [e, f, g, h]) hnd
  exact (OnLane.G a b c d).commute (OnLane.G e f g h) hdisj S

/-! ## Little-endian words and padding -/

theorem le64_le64inv (w : Word) : le64 (le64inv w) 0 = w := by
  refine BitVec.eq_of_getLsbD_eq fun q hq => ?_
  have hj : q / 8 < 8 := by omega
  have hm : q % 8 < 8 := Nat.mod_lt q (by decide)
  rw [getLsbD_le64 _ _ hq, Nat.zero_add, List.getD_eq_getElem?_getD, getElem?_le64inv w hj, Option.getD_some,
    BitVec.getLsbD_extractLsb', decide_eq_true hm, Bool.true_and, Nat.div_add_mod]

/-- Settles O11: `extractLsb'_le64`, `getElem?_le64inv` and `le64_le64inv`. -/
theorem littleEndianWords : Obligations.LittleEndianWords := by
  unfold Obligations.LittleEndianWords
  refine ⟨fun b off j v hj hv => ?_, fun w j => getElem?_le64inv w, fun w => ⟨length_le64inv w, le64_le64inv w⟩⟩
  rw [extractLsb'_le64 b off hj, List.getD_eq_getElem?_getD, hv, Option.getD_some]

theorem getElem?_of_getD {b : List Byte} {i : Nat} (h : i < b.length) {v : Byte} (hv : b.getD i 0 = v) : b[i]? = some v := by
  rw [List.getElem?_eq_getElem h, ← List.getD_eq_getElem _ 0 h, hv]

/-- Settles O12: `getD_pad`; no tail byte is the last byte of the block. -/
theorem paddedTailBytes : Obligations.PaddedTailBytes := by
  unfold Obligations.PaddedTailBytes
  intro t ht
  refine ⟨length_pad ht, fun i hi => getElem?_of_getD (by rwa [length_pad ht]) ?_⟩
  rw [getD_pad ht]
  by_cases hlt : i < t.length
  · have hne : i ≠ 95 := by omega
    simp [hlt, hne]
  · simp [hlt]

/-! ## Words of a block operation -/

/-- Settles O13: `xorRate` and `setRate` keep words 12 to 15. -/
theorem capacityTakesNoDataBytes : Obligations.CapacityTakesNoDataBytes := by
  unfold Obligations.CapacityTakesNoDataBytes
  intro R g d b b' S i hi
  have hxor (c : List Byte) (T : Sponge) : (xorRate c T)[i] = T[i] := by
    rw [Fin.getElem_fin, xorRate_getElem _ _ i.isLt, if_neg (by omega)]; rfl
  have hset (c : List Byte) (T : Sponge) : (setRate c T)[i] = T[i] := by
    rw [Fin.getElem_fin, setRate_getElem _ _ i.isLt, if_neg (by omega)]; rfl
  refine ⟨(hxor _ _).trans (hxor _ _).symm, (hxor _ _).trans (hxor _ _).symm, ?_⟩
  cases d
  · exact ⟨(hxor _ _).trans (hxor _ _).symm, (hxor _ _).trans (hxor _ _).symm, hxor _ _⟩
  · exact ⟨(hset _ _).trans (hset _ _).symm, (hset _ _).trans (hset _ _).symm, hset _ _⟩

/-- Settles O17: the words by `xorRate_getElem`, `setRate_getElem` and `le64_rateBytes`, the bytes of the decrypted tail's block
by `getD_decryptTailBlock`. -/
theorem blockOperationEquations : Obligations.BlockOperationEquations := by
  unfold Obligations.BlockOperationEquations
  refine ⟨fun R g b S i => ⟨fun hcap => ?_, fun hrate => ?_⟩, fun R g t S ht => ⟨rfl, rfl, ?_⟩⟩
  · have hcap' : ¬ i.val < 12 := by omega
    simp only [absorbBlock, encryptBlock, decryptBlock, Fin.getElem_fin, xorRate_getElem _ _ i.isLt,
      setRate_getElem _ _ i.isLt, if_neg hcap', and_self]
  · simp only [absorbBlock, encryptBlock, decryptBlock, Fin.getElem_fin, le64_rateBytes _ hrate,
      xorRate_getElem _ _ i.isLt, setRate_getElem _ _ i.isLt, if_pos hrate, and_self]
  · have hks : (rateBytes (F R (injectTag .payload S))).length = 96 := length_rateBytes _
    have hlen := length_decryptTailBlock ht hks
    refine ⟨decryptTailBlock t (rateBytes (F R (injectTag .payload S))), hlen, fun i j hi hj => ?_, rfl⟩
    have hk : 8 * i.val + j < 96 := by omega
    have hdiv : (8 * i.val + j) / 8 = i.val := by omega
    have hmod : (8 * i.val + j) % 8 = j := by omega
    refine getElem?_of_getD (by rwa [hlen]) ?_
    rw [getD_decryptTailBlock ht hks]
    by_cases hlt : 8 * i.val + j < t.length
    · have hne : 8 * i.val + j ≠ t.length ∧ 8 * i.val + j ≠ 95 := by omega
      simp [hlt, hne]
    · simp only [if_neg hlt, getD_rateBytes _ hk, hdiv, hmod, BitVec.xor_assoc, Fin.getElem_fin]

/-! ## Lengths -/

@[simp] theorem length_finalTag (K : Quad) (R : Nat) (S : Sponge) : (finalTag K R S).length = 32 := rfl

theorem length_cryptFrom (d : CryptDir) (R m : Nat) (D : List Byte) (S : Sponge) (hm : D.length / 96 = m) :
    (cryptFrom d R m D S).1.length = D.length := by
  induction m generalizing D S with
  | zero => exact length_cryptLast d R (by omega) S
  | succ m ih =>
    have hrest : (D.drop 96).length / 96 = m := by rw [List.length_drop]; omega
    rw [cryptFrom, List.length_append, ih _ _ hrest, List.length_drop, length_cryptBlock]
    omega

theorem cryptData_skipped {skip : Bool} {D : List Byte} (h : (skip && D.isEmpty) = true) (d : CryptDir) (R : Nat) (S : Sponge) :
    cryptData skip d R D S = ([], S) := by rw [cryptData, if_pos h]

theorem cryptData_run {skip : Bool} {D : List Byte} (h : ¬ (skip && D.isEmpty) = true) (d : CryptDir) (R : Nat) (S : Sponge) :
    cryptData skip d R D S = cryptFrom d R (D.length / 96) D S := by rw [cryptData, if_neg h]

theorem length_cryptData (skip : Bool) (d : CryptDir) (R : Nat) (D : List Byte) (S : Sponge) :
    (cryptData skip d R D S).1.length = D.length := by
  by_cases h : (skip && D.isEmpty) = true
  · rw [cryptData_skipped h, List.isEmpty_iff.mp (Bool.and_eq_true_iff.mp h).2]
  · rw [cryptData_run h, length_cryptFrom d R _ D S rfl]

theorem length_processMessage (p : MessageParams) (d : CryptDir) (body : List Byte) :
    (processMessage p d body).1.length = body.length := length_cryptData _ _ _ _ _

theorem length_sealBytes (p : MessageParams) (body : List Byte) : (sealBytes p body).length = body.length + 32 := by
  rw [sealBytes, List.length_append, length_processMessage]; rfl

theorem openBytes_short (p : MessageParams) {c : List Byte} (h : c.length < 32) : openBytes p c = none := if_pos h

theorem openBytes_long (p : MessageParams) {c : List Byte} (h : ¬ c.length < 32) :
    openBytes p c = if (processMessage p .dec (c.take (c.length - 32))).2 = c.drop (c.length - 32)
      then some (processMessage p .dec (c.take (c.length - 32))).1 else none := if_neg h

/-- Settles O15: both directions keep the length block by block. -/
theorem sealLengthLaw : Obligations.SealLengthLaw := by
  unfold Obligations.SealLengthLaw
  refine ⟨length_cryptData, length_sealBytes, fun p c => openBytes_short p, fun p c m h => ?_⟩
  by_cases hc : c.length < 32
  · rw [openBytes_short p hc] at h; exact nomatch h
  · rw [openBytes_long p hc] at h
    split at h
    · obtain rfl := Option.some.inj h
      rw [length_processMessage, List.length_take]
      omega
    · exact nomatch h

/-! ## Initialize, finalize, phases and messages -/

/-- Settles O16: the definitions written out word by word, and F(2) evaluated for the constants. -/
theorem initializeAndFinalizeEquations : Obligations.InitializeAndFinalizeEquations := by
  unfold Obligations.InitializeAndFinalizeEquations
  refine ⟨by decide, fun g S => rfl, by decide +kernel, fun K N R => ⟨fun i hi => ?_, fun i => ?_⟩, fun K R S => ?_⟩
  · obtain ⟨i, hi'⟩ := i
    change i < 12 at hi
    interval_cases i <;> rfl
  · fin_cases i <;> rfl
  · have hkey (A : Sponge) : (((A.set 12 (A[12] ^^^ K[0])).set 13 (A[13] ^^^ K[1])).set 14 (A[14] ^^^ K[2])).set 15
        (A[15] ^^^ K[3]) = xorKey K A := by
      refine Vector.ext fun i hi => ?_
      interval_cases i <;> simp [xorKey]
    simp only [hkey]
    simp [finalTag, finalSponge, capacityBytes, wordBytes, injectTag, Tag.value, xorKey]

/-- Settles O19: an empty phase is its guard, or one block of padding. -/
theorem emptyPhases : Obligations.EmptyPhases := by
  unfold Obligations.EmptyPhases
  refine fun g d R S => ⟨rfl, rfl, rfl, ?_⟩
  cases d with
  | enc => rfl
  | dec =>
    have hblock : decryptTailBlock [] (rateBytes (F R (injectTag .payload S))) =
        rateBytes (xorRate (pad []) (F R (injectTag .payload S))) := decryptTailBlock_take_xorRate (t := []) (Nat.zero_le 95) _
    change ([], setRate (decryptTailBlock [] (rateBytes (F R (injectTag .payload S)))) _) = _
    rw [hblock, setRate_rateBytes_xorRate]

/-- The first `m` full blocks of `D`. -/
def fullBlocks (m : Nat) (D : List Byte) : List (List Byte) := (List.range m).map fun k => (D.drop (96 * k)).take 96

theorem fullBlocks_succ (m : Nat) (D : List Byte) : fullBlocks (m + 1) D = D.take 96 :: fullBlocks m (D.drop 96) := by
  simp only [fullBlocks, List.range_succ_eq_map, List.map_cons, List.map_map, Nat.mul_zero, List.drop_zero, List.drop_drop]
  congr 2
  funext k
  rw [Function.comp_apply, Nat.mul_succ, Nat.add_comm]

theorem length_of_mem_fullBlocks {m : Nat} {D b : List Byte} (h : 96 * m ≤ D.length) (hb : b ∈ fullBlocks m D) :
    b.length = 96 := by
  obtain ⟨k, hk, rfl⟩ := List.mem_map.mp hb
  have hkm : k < m := List.mem_range.mp hk
  rw [List.length_take, List.length_drop]
  omega

theorem fullBlocks_flatten (m : Nat) (D : List Byte) : (fullBlocks m D).flatten ++ D.drop (96 * m) = D := by
  induction m generalizing D with
  | zero => rfl
  | succ m ih =>
    have hdrop : D.drop (96 * (m + 1)) = (D.drop 96).drop (96 * m) := by rw [List.drop_drop, Nat.mul_succ, Nat.add_comm]
    rw [fullBlocks_succ, List.flatten_cons, List.append_assoc, hdrop, ih, List.take_append_drop]

theorem absorbFrom_eq_foldl (g : Tag) (R m : Nat) (D : List Byte) (S : Sponge) :
    absorbFrom g R m D S =
      absorbLast g R (D.drop (96 * m)) ((fullBlocks m D).foldl (fun S b => absorbBlock g R b S) S) := by
  induction m generalizing D S with
  | zero => rfl
  | succ m ih => rw [absorbFrom, ih, fullBlocks_succ, List.foldl_cons, List.drop_drop, Nat.mul_succ, Nat.add_comm]

/-- One full block of the payload: its output bytes after those so far. -/
def cryptNext (d : CryptDir) (R : Nat) (o : List Byte × Sponge) (b : List Byte) : List Byte × Sponge :=
  (o.1 ++ (cryptBlock d R b o.2).1, (cryptBlock d R b o.2).2)

theorem cryptFrom_eq_foldl (d : CryptDir) (R m : Nat) (D acc : List Byte) (S : Sponge) :
    (acc ++ (cryptFrom d R m D S).1, (cryptFrom d R m D S).2) =
      let o := (fullBlocks m D).foldl (cryptNext d R) (acc, S)
      (o.1 ++ (cryptLast d R (D.drop (96 * m)) o.2).1, (cryptLast d R (D.drop (96 * m)) o.2).2) := by
  induction m generalizing D acc S with
  | zero => rfl
  | succ m ih =>
    simp only [cryptFrom, fullBlocks_succ, List.foldl_cons, ← List.append_assoc]
    rw [ih (D.drop 96), List.drop_drop, Nat.mul_succ, Nat.add_comm]
    rfl

theorem openBytes_append (p : MessageParams) (body : List Byte) {tag : List Byte} (h : tag.length = 32) :
    openBytes p (body ++ tag) = if (processMessage p .dec body).2 = tag then some (processMessage p .dec body).1 else none := by
  have hlen : (body ++ tag).length = body.length + 32 := by rw [List.length_append, h]
  rw [openBytes_long p (by omega), hlen, Nat.add_sub_cancel, List.take_left, List.drop_left]

/-- Settles O18: both phase functions are folds over the full blocks, by induction on their number. -/
theorem phaseAndMessageEquations : Obligations.PhaseAndMessageEquations := by
  unfold Obligations.PhaseAndMessageEquations
  refine ⟨fun skip g R D S hrun => ?_, fun p body tag htag => ⟨rfl, fun h => ?_, fun h => ?_⟩⟩
  · have hguard : ¬ (skip && D.isEmpty) = true := by
      simpa only [Bool.and_eq_true, List.isEmpty_iff, not_and_or, Bool.not_eq_true] using hrun
    have hcrypt (d : CryptDir) := cryptFrom_eq_foldl d R (D.length / 96) D [] S
    refine ⟨fun b hb => length_of_mem_fullBlocks (Nat.mul_div_le D.length 96) hb, ?_, fullBlocks_flatten _ D, ?_, ?_, ?_⟩
    · rw [List.length_drop]; omega
    · rw [absorbData, if_neg hguard, absorbFrom_eq_foldl]; rfl
    · rw [cryptData_run hguard]; exact hcrypt .enc
    · rw [cryptData_run hguard]; exact hcrypt .dec
  · rw [openBytes_append p body htag]; exact if_pos h
  · rw [openBytes_append p body htag]; exact if_neg h

end Sys2Proof.Machine
end


section
/-! SUPPORT. A part of a command in which nothing lands: what it adds to the record, all of it or up to the first access that the
platform refuses, and what it does to S and to memory (`Run.Follows`). -/

namespace Sys2Proof.Machine

/-! ## Byte strings in memory -/

theorem Memory.load_eq_some_iff {m : Memory} {a n : Nat} {v : List Byte} :
    Memory.load m a n = some v ↔ v.length = n ∧ ∀ j < n, Memory.read m (a + j) = v[j]? := by
  refine ⟨Memory.read_of_load, ?_⟩
  rintro ⟨rfl, h⟩
  exact Memory.load_of_read h

theorem Memory.load_take {m : Memory} {a n k : Nat} {v : List Byte} (h : Memory.load m a n = some v) (hk : k ≤ n) :
    Memory.load m a k = some (v.take k) := by
  obtain ⟨hlen, hr⟩ := Memory.load_eq_some_iff.mp h
  refine Memory.load_eq_some_iff.mpr ⟨by rw [List.length_take]; omega, fun j hj => ?_⟩
  rw [hr j (by omega), List.getElem?_take_of_lt hj]

theorem Memory.load_drop {m : Memory} {a n k : Nat} {v : List Byte} (h : Memory.load m a n = some v) (hk : k ≤ n) :
    Memory.load m (a + k) (n - k) = some (v.drop k) := by
  obtain ⟨hlen, hr⟩ := Memory.load_eq_some_iff.mp h
  refine Memory.load_eq_some_iff.mpr ⟨by rw [List.length_drop]; omega, fun j hj => ?_⟩
  rw [Nat.add_assoc, hr (k + j) (by omega), List.getElem?_drop]

theorem Memory.load_length {m : Memory} {a n : Nat} {v : List Byte} (h : Memory.load m a n = some v) : v.length = n :=
  (Memory.load_eq_some_iff.mp h).1

theorem Memory.load_congr {m m' : Memory} {a n : Nat} (h : ∀ j < n, Memory.read m' (a + j) = Memory.read m (a + j)) :
    Memory.load m' a n = Memory.load m a n := by
  refine Option.ext fun v => ?_
  rw [Memory.load_eq_some_iff, Memory.load_eq_some_iff]
  exact and_congr_right fun _ => forall₂_congr fun j hj => by rw [h j hj]

theorem Memory.store_append (m : Memory) (a : Nat) (x y : List Byte) :
    Memory.store m a (x ++ y) = Memory.store (Memory.store m a x) (a + x.length) y := by
  induction x generalizing m a with
  | nil => rfl
  | cons b x ih =>
    rw [List.cons_append, Memory.store, ih, Memory.store, List.length_cons, Nat.add_assoc, Nat.add_comm 1]

theorem Memory.load_store {m : Memory} (h : Memory.wf m = true) {a : Nat} {v : List Byte} (ha : a + v.length ≤ 2 ^ 64) :
    Memory.load (Memory.store m a v) a v.length = some v := by
  refine Memory.load_of_read fun j hj => ?_
  rw [Memory.read_store h v ha, if_pos (by omega), Nat.add_sub_cancel_left]

theorem Memory.load_store_apart {m : Memory} (h : Memory.wf m = true) {a b n : Nat} {v : List Byte}
    (hab : apart ⟨a, v.length⟩ ⟨b, n⟩) : Memory.load (Memory.store m a v) b n = Memory.load m b n := by
  refine Memory.load_congr fun j hj => Memory.read_store_outside h (Bool.eq_false_iff.mpr fun hc => ?_)
  exact hab (b + j) ⟨hc, Region.contains_iff.mpr ⟨Nat.le_add_right _ _, Nat.add_lt_add_left hj b⟩⟩

/-- Parts of regions that share no byte share none. -/
theorem apart.mono {r q : Region} (h : apart r q) {a m b n : Nat} (ha : r.addr ≤ a) (hm : a + m ≤ r.addr + r.len)
    (hb : q.addr ≤ b) (hn : b + n ≤ q.addr + q.len) : apart ⟨a, m⟩ ⟨b, n⟩ := by
  intro x hx
  simp only [Region.contains_iff] at hx
  exact h x ⟨Region.contains_iff.mpr (by omega), Region.contains_iff.mpr (by omega)⟩

/-! ## The accesses of a list that the platform answers -/

theorem untilFault_append (p : Platform) (l m : List EngineEvent) :
    untilFault p (l ++ m) = match untilFault p l with
      | some o => some o
      | none => (untilFault p m).map fun o => (l ++ o.1, o.2) := by
  induction l with
  | nil => simp [untilFault]
  | cons e l ih =>
    simp only [List.cons_append, untilFault, ih]
    cases accessFault p e with
    | some x => rfl
    | none => cases untilFault p l <;> cases untilFault p m <;> rfl

theorem untilFault_append_none {p : Platform} {l : List EngineEvent} (h : untilFault p l = none) (m : List EngineEvent) :
    untilFault p (l ++ m) = (untilFault p m).map fun o => (l ++ o.1, o.2) := by
  rw [untilFault_append, h]

theorem untilFault_append_some {p : Platform} {l : List EngineEvent} {o : List EngineEvent × Nat}
    (h : untilFault p l = some o) (m : List EngineEvent) : untilFault p (l ++ m) = some o := by
  rw [untilFault_append, h]

theorem untilFault_eq_none {p : Platform} {l : List EngineEvent} :
    untilFault p l = none ↔ ∀ e ∈ l, accessFault p e = none := by
  induction l with
  | nil => simp [untilFault]
  | cons e l ih =>
    simp only [untilFault, List.forall_mem_cons]
    cases h : accessFault p e with
    | some x => simp
    | none => simp [ih]

/-- Events that are no accesses are not refused, so that it is the accesses among them that decide. -/
theorem untilFault_dmaOf (p : Platform) (l : List EngineEvent) :
    untilFault p (dmaOf l) = (untilFault p l).map fun o => (dmaOf o.1, o.2) := by
  have hcons (e : EngineEvent) (m : List EngineEvent) : dmaOf (e :: m) = dmaOf [e] ++ dmaOf m := List.filter_append [e] m
  induction l with
  | nil => rfl
  | cons e l ih =>
    rw [hcons, untilFault_append, ih, untilFault]
    cases e with
    | read a n =>
      simp only [dmaOf, List.filter_cons_of_pos, List.filter_nil, untilFault]
      cases accessFault p (.read a n) with
      | some x => rfl
      | none => cases untilFault p l <;> rfl
    | write a n =>
      simp only [dmaOf, List.filter_cons_of_pos, List.filter_nil, untilFault]
      cases accessFault p (.write a n) with
      | some x => rfl
      | none => cases untilFault p l <;> rfl
    | _ => cases untilFault p l <;> rfl

/-! ## Parts of a command -/

/-- Nothing lands in what starts in `u`, and no byte is raced. -/
structure Calm (u : State) : Prop where
  quiet : quiet u = true
  raced : u.raced = []

/-- What the parts of a command between its checks and its wipe leave as it is. -/
def Stays (u t : State) : Prop :=
  t = { u with
    S := t.S, blk := t.blk, tag := t.tag, phase := t.phase, k := t.k, mem := t.mem, trace := t.trace, draws := t.draws,
    fresh := t.fresh }

theorem Stays.refl (u : State) : Stays u u := rfl

theorem Stays.trans {u t v : State} (h : Stays u t) (h' : Stays t v) : Stays u v := by
  rw [Stays, h', h]

/-- A field that a part of a command leaves alone. -/
theorem Stays.field {α : Type} {u t : State} (h : Stays u t) (f : State → α)
    (hf : ∀ (S : Sponge) (blk : Vector Byte 96) (tag : Vector Byte 32) (phase : Phase) (k : Nat) (mem : Memory)
      (trace : List EngineEvent) (draws : Nat) (fresh : List Region),
      f { u with S := S, blk := blk, tag := tag, phase := phase, k := k, mem := mem, trace := trace, draws := draws,
                 fresh := fresh } = f u) : f t = f u := by
  rw [h]; exact hf _ _ _ _ _ _ _ _ _

theorem Stays.calm {u t : State} (h : Stays u t) (hc : Calm u) : Calm t :=
  ⟨(quiet_congr (h.field State.inbox fun _ _ _ _ _ _ _ _ _ => rfl)).trans hc.quiet,
    (h.field State.raced fun _ _ _ _ _ _ _ _ _ => rfl).trans hc.raced⟩

theorem Stays.platform_eq {u t : State} (h : Stays u t) : t.platform = u.platform :=
  h.field State.platform fun _ _ _ _ _ _ _ _ _ => rfl

theorem Stays.running_eq {u t : State} (h : Stays u t) : t.running = u.running :=
  h.field State.running fun _ _ _ _ _ _ _ _ _ => rfl

theorem Stays.hdr_eq {u t : State} (h : Stays u t) : t.hdr = u.hdr := h.field State.hdr fun _ _ _ _ _ _ _ _ _ => rfl

theorem Stays.trl_eq {u t : State} (h : Stays u t) : t.trl = u.trl := h.field State.trl fun _ _ _ _ _ _ _ _ _ => rfl

theorem Stays.inAddr_eq {u t : State} (h : Stays u t) : t.inAddr = u.inAddr :=
  h.field (fun v : State => v.inAddr) fun _ _ _ _ _ _ _ _ _ => rfl

theorem Stays.outAddr_eq {u t : State} (h : Stays u t) : t.outAddr = u.outAddr :=
  h.field (fun v : State => v.outAddr) fun _ _ _ _ _ _ _ _ _ => rfl

theorem Stays.tagBuf_eq {u t : State} (h : Stays u t) : t.tagBuf = u.tagBuf :=
  h.field (fun v : State => v.tagBuf) fun _ _ _ _ _ _ _ _ _ => rfl

theorem Stays.key_eq {u t : State} (h : Stays u t) : t.key = u.key :=
  h.field (fun v : State => v.key) fun _ _ _ _ _ _ _ _ _ => rfl

theorem Stays.faultAddr_eq {u t : State} (h : Stays u t) : t.faultAddr = u.faultAddr :=
  h.field (fun v : State => v.faultAddr) fun _ _ _ _ _ _ _ _ _ => rfl

/-- A part that starts in `u`, adds the events `l` to the record and has `Q` of its value and state, unless the platform refuses
an access among them: then it ends there with BUS_FAULT. -/
def Run.Follows {α : Type} (u : State) (l : List EngineEvent) (Q : α → State → Prop) (r : Run α) : Prop :=
  match r with
  | .ok a t => untilFault u.platform l = none ∧ Stays u t ∧ t.trace = u.trace ++ l ∧ Q a t
  | .ended t => ∃ made x w, untilFault u.platform l = some (made, x) ∧ Stays u w ∧ w.trace = u.trace ++ made ∧ t = busFault x w

section Parts
variable {α β : Type} {u : State} {l m : List EngineEvent}

theorem Run.Follows.ok {Q : α → State → Prop} {a : α} {t : State} (hl : untilFault u.platform l = none) (hs : Stays u t)
    (ht : t.trace = u.trace ++ l) (hq : Q a t) : (Run.ok a t).Follows u l Q := ⟨hl, hs, ht, hq⟩

theorem Run.Follows.mono {P Q : α → State → Prop} {r : Run α} (h : r.Follows u l P)
    (hq : ∀ a t, Stays u t → P a t → Q a t) : r.Follows u l Q := by
  cases r with
  | ok a t => obtain ⟨hl, hs, ht, hp⟩ := h; exact ⟨hl, hs, ht, hq a t hs hp⟩
  | ended t => exact h

theorem Run.Follows.bind {P : α → State → Prop} {Q : β → State → Prop} {r : Run α} {f : α → State → Run β}
    (h : r.Follows u l P) (hf : ∀ a t, Stays u t → P a t → (f a t).Follows t m Q) : (r.bind f).Follows u (l ++ m) Q := by
  cases r with
  | ended t =>
    obtain ⟨made, x, w, hl, hrest⟩ := h
    exact ⟨made, x, w, untilFault_append_some hl m, hrest⟩
  | ok a t =>
    obtain ⟨hl, hs, ht, hp⟩ := h
    have hnext := hf a t hs hp
    rw [Run.bind_ok]
    cases hr : f a t with
    | ok b v =>
      rw [hr] at hnext
      obtain ⟨hm, hs', hv, hq⟩ := hnext
      rw [hs.platform_eq] at hm
      exact ⟨by rw [untilFault_append_none hl, hm]; rfl, hs.trans hs', by rw [hv, ht, List.append_assoc], hq⟩
    | ended v =>
      rw [hr] at hnext
      obtain ⟨made, x, w, hm, hs', hw, hv⟩ := hnext
      rw [hs.platform_eq] at hm
      exact ⟨l ++ made, x, w, by rw [untilFault_append_none hl, hm]; rfl, hs.trans hs', by rw [hw, ht, List.append_assoc], hv⟩

/-- What the engine computes between two accesses. -/
theorem Run.Follows.after {Q : α → State → Prop} {r : Run α} {t : State} (hs : Stays u t) (ht : t.trace = u.trace ++ l)
    (hl : untilFault u.platform l = none) (h : r.Follows t m Q) : r.Follows u (l ++ m) Q :=
  Run.Follows.bind (r := Run.ok () t) (P := fun _ v => v = t) (f := fun _ _ => r) ⟨hl, hs, ht, rfl⟩ fun _ _ _ hv => hv ▸ h

theorem enter_follows (hc : Calm u) (p : Phase) :
    (enter p u).Follows u [.enter p] fun _ t => t.k = 0 ∧ t.S = u.S ∧ t.mem = u.mem := by
  rw [enter_quiet hc.quiet]
  exact .ok rfl rfl rfl ⟨rfl, rfl, rfl⟩

theorem dmaRead_follows (hc : Calm u) (a n : Nat) :
    (dmaRead a n u).Follows u (madeAccess (.read a n)) fun b t => b.length = n ∧ t.k = u.k ∧ t.S = u.S ∧ t.mem = u.mem ∧
      ∀ D, Memory.load u.mem a n = some D → b = D := by
  rw [dmaRead_quiet hc.quiet, madeAccess]
  split
  · rename_i hn
    subst hn
    exact .ok rfl rfl (List.append_nil _).symm ⟨rfl, rfl, rfl, rfl, fun D hD => Option.some.inj hD⟩
  · cases hf : firstRefused u.platform .read a n with
    | some x => exact ⟨_, x, logEvent (.read a n) u, by simp only [untilFault, accessFault, hf], rfl, rfl, rfl⟩
    | none =>
      refine .ok (by simp only [untilFault, accessFault, hf, Option.map_none]) rfl rfl
        ⟨dmaBytes_length _ _ _, rfl, rfl, rfl, fun D hD => ?_⟩
      exact dmaBytes_load (by exact hc.raced) hD

theorem dmaWrite_follows (hc : Calm u) (a : Nat) (v : List Byte) :
    (dmaWrite a v u).Follows u (madeAccess (.write a v.length)) fun _ t =>
      t.k = u.k ∧ t.S = u.S ∧ t.tag = u.tag ∧ t.mem = Memory.store u.mem a v := by
  rw [dmaWrite_quiet hc.quiet, madeAccess]
  cases v with
  | nil => exact .ok rfl rfl (List.append_nil _).symm ⟨rfl, rfl, rfl, rfl⟩
  | cons b v =>
    simp only [List.isEmpty_cons, Bool.false_eq_true, if_false, List.length_cons, Nat.succ_ne_zero]
    cases hf : firstRefused u.platform .write a (v.length + 1) with
    | some x =>
      exact ⟨_, x, storeTorn a (b :: v) (logEvent (.write a (v.length + 1)) u), by simp only [untilFault, accessFault, hf],
        rfl, rfl, rfl⟩
    | none =>
      refine .ok (by simp only [untilFault, accessFault, hf, Option.map_none]) rfl rfl ⟨rfl, rfl, rfl, ?_⟩
      exact congrArg (Memory.store u.mem a) (dmaStoredBytes_unraced (by exact hc.raced) a (b :: v))

/-! ## The regions of a message -/

/-- What full blocks `k` to `k + left` of an absorbed region add to the record. -/
def absorbBlockEvents (a : Nat) (g : Tag) (R k left : Nat) : List EngineEvent :=
  (List.range' k left).flatMap fun j => [.read (a + 96 * j) 96, .permute (some g) R]

theorem absorbBlockEvents_succ (a : Nat) (g : Tag) (R k left : Nat) :
    absorbBlockEvents a g R k (left + 1) =
      [.read (a + 96 * k) 96] ++ ([.permute (some g) R] ++ absorbBlockEvents a g R (k + 1) left) := rfl

/-- What an absorbed region adds to the record. -/
def absorbEvents (skip : Bool) (r : Region) (g : Tag) (R : Nat) : List EngineEvent :=
  if skip && decide (r.len = 0) then []
  else absorbBlockEvents r.addr g R 0 (r.len / 96) ++
    (madeAccess (.read (r.addr + 96 * (r.len / 96)) (r.len % 96)) ++ [.permute (some g) R])

/-- What full blocks `k` to `k + left` of the payload add to the record. -/
def cryptBlockEvents (ia oa R k left : Nat) : List EngineEvent :=
  (List.range' k left).flatMap fun j => [.read (ia + 96 * j) 96, .permute (some .payload) R, .write (oa + 96 * j) 96]

theorem cryptBlockEvents_succ (ia oa R k left : Nat) :
    cryptBlockEvents ia oa R k (left + 1) = [.read (ia + 96 * k) 96] ++ ([.permute (some .payload) R] ++
      ([.write (oa + 96 * k) 96] ++ cryptBlockEvents ia oa R (k + 1) left)) := rfl

/-- What the payload adds to the record. -/
def cryptEvents (skip : Bool) (ia oa n R : Nat) : List EngineEvent :=
  if skip && decide (n = 0) then []
  else cryptBlockEvents ia oa R 0 (n / 96) ++
    (madeAccess (.read (ia + 96 * (n / 96)) (n % 96)) ++
      ([.permute (some .payload) R] ++ madeAccess (.write (oa + 96 * (n / 96)) (n % 96))))

theorem absorbBlocks_follows (hc : Calm u) (a : Nat) (g : Tag) (R left : Nat) :
    (absorbBlocks a g R left u).Follows u (absorbBlockEvents a g R u.k left) fun _ t => t.mem = u.mem ∧
      ∀ D, Memory.load u.mem (a + 96 * u.k) D.length = some D → 96 * left ≤ D.length →
        absorbFrom g R left D u.S = absorbLast g R (D.drop (96 * left)) t.S := by
  induction left generalizing u with
  | zero => exact .ok rfl (.refl u) (List.append_nil _).symm ⟨rfl, fun D _ _ => rfl⟩
  | succ left ih =>
    rw [absorbBlockEvents_succ]
    refine (dmaRead_follows hc (a + 96 * u.k) 96).bind fun b t hs ⟨hlen, hk, hS, hm, hb⟩ => ?_
    let t' := countBlock (codecStep g R b (absorbBlock g R b t.S) t)
    have hk' : t'.k = u.k + 1 := congrArg (· + 1) hk
    have hS' : t'.S = absorbBlock g R b u.S := congrArg (absorbBlock g R b) hS
    have hgo := ih (u := t') ⟨(hs.calm hc).quiet, (hs.calm hc).raced⟩
    rw [hk'] at hgo
    refine Run.Follows.after (t := t') (l := [.permute (some g) R]) rfl rfl rfl (hgo.mono fun _ v _ ⟨hmem, hdata⟩ => ?_)
    refine ⟨hmem.trans hm, fun D hD hlong => ?_⟩
    have hfirst := hb _ (Memory.load_take hD (k := 96) (by omega))
    have hrest := Memory.load_drop hD (k := 96) (by omega)
    have haddr : a + 96 * u.k + 96 = a + 96 * (u.k + 1) := by omega
    rw [haddr, ← List.length_drop, ← hm] at hrest
    rw [absorbFrom, ← hfirst, ← hS', hdata _ hrest (by rw [List.length_drop]; omega), List.drop_drop]
    congr 2
    omega

theorem absorbRegion_follows (hc : Calm u) (hk : u.k = 0) (r : Region) (g : Tag) (R : Nat) :
    (absorbRegion r g R u).Follows u (absorbEvents u.platform.skipEmptyPhase r g R) fun _ t => t.mem = u.mem ∧
      ∀ D, Memory.load u.mem r.addr r.len = some D → t.S = absorbData u.platform.skipEmptyPhase g R D u.S := by
  have hempty {D : List Byte} (hD : Memory.load u.mem r.addr r.len = some D) : D.isEmpty = decide (r.len = 0) := by
    rw [← Memory.load_length hD, Bool.eq_iff_iff, List.isEmpty_iff_length_eq_zero, decide_eq_true_iff]
  unfold absorbRegion absorbEvents
  split
  · rename_i hskip
    refine .ok rfl (.refl u) (List.append_nil _).symm ⟨rfl, fun D hD => ?_⟩
    rw [absorbData, hempty hD, if_pos hskip]
  · rename_i hskip
    have hblocks := absorbBlocks_follows hc r.addr g R (r.len / 96)
    rw [hk] at hblocks
    refine hblocks.bind fun _ t hs ⟨hm, hdata⟩ => ?_
    refine (dmaRead_follows (hs.calm hc) _ _).bind fun tail v _ ⟨_, _, hS, hm', htail⟩ => ?_
    refine .ok rfl rfl rfl ⟨hm'.trans hm, fun D hD => ?_⟩
    have hlen := Memory.load_length hD
    have hdrop := Memory.load_drop hD (k := 96 * (r.len / 96)) (by omega)
    have hmod : r.len - 96 * (r.len / 96) = r.len % 96 := by omega
    rw [hmod, ← hm] at hdrop
    change absorbLast g R tail v.S = _
    rw [absorbData, hempty hD, if_neg hskip, hlen, hdata D (by rw [hlen]; exact hD) (by omega), htail _ hdrop, hS]

/-- Where the payload is written: in place of what is read, or apart from it. -/
def InPlaceOrApart (ia oa n : Nat) : Prop := oa = ia ∨ apart ⟨oa, n⟩ ⟨ia, n⟩

/-- A block that has been written is none of what is still to be read. -/
theorem InPlaceOrApart.behind {ia oa n : Nat} (h : InPlaceOrApart ia oa n) {k j : Nat} (hk : k ≤ j) (hj : j ≤ n) :
    apart ⟨oa, k⟩ ⟨ia + j, n - j⟩ := by
  rcases h with rfl | h
  · exact apart_of_le (.inl (by simp only; omega))
  · exact h.mono (Nat.le_refl _) (by simp only; omega) (by simp only; omega) (by simp only; omega)

theorem InPlaceOrApart.rest {ia oa n : Nat} (h : InPlaceOrApart ia oa n) {j : Nat} (hj : j ≤ n) :
    InPlaceOrApart (ia + j) (oa + j) (n - j) := by
  rcases h with rfl | h
  · exact .inl rfl
  · exact .inr (h.mono (by simp only; omega) (by simp only; omega) (by simp only; omega) (by simp only; omega))

theorem cryptBlocks_follows (hc : Calm u) (ia oa : Nat) (d : CryptDir) (R left : Nat) :
    (cryptBlocks ia oa d R left u).Follows u (cryptBlockEvents ia oa R u.k left) fun _ t =>
      ∀ D, Memory.wf u.mem = true → Memory.load u.mem (ia + 96 * u.k) D.length = some D → 96 * left ≤ D.length →
        InPlaceOrApart (ia + 96 * u.k) (oa + 96 * u.k) D.length →
        ∃ o, o.length = 96 * left ∧ t.mem = Memory.store u.mem (oa + 96 * u.k) o ∧
          cryptFrom d R left D u.S = (o ++ (cryptLast d R (D.drop (96 * left)) t.S).1, (cryptLast d R (D.drop (96 * left)) t.S).2) := by
  induction left generalizing u with
  | zero => exact .ok rfl (.refl u) (List.append_nil _).symm fun D _ _ _ _ => ⟨[], rfl, rfl, rfl⟩
  | succ left ih =>
    rw [cryptBlockEvents_succ]
    refine (dmaRead_follows hc (ia + 96 * u.k) 96).bind fun b t hs ⟨hlen, hk, hS, hm, hb⟩ => ?_
    let t' := codecStep .payload R b (cryptBlock d R b t.S).2 t
    have hk' : t'.k = u.k := hk
    have hcalm : Calm t' := ⟨(hs.calm hc).quiet, (hs.calm hc).raced⟩
    have hwrite := dmaWrite_follows hcalm (oa + 96 * u.k) (cryptBlock d R b t.S).1
    rw [length_cryptBlock] at hwrite
    simp only [hk]
    refine Run.Follows.after (t := t') (l := [.permute (some .payload) R]) rfl rfl rfl (hwrite.bind fun _ v hv ⟨hvk, hvS, _, hvm⟩ => ?_)
    have hgo := ih (u := countBlock v) ⟨(hv.calm hcalm).quiet, (hv.calm hcalm).raced⟩
    have hck : (countBlock v).k = u.k + 1 := congrArg (· + 1) (hvk.trans hk')
    rw [hck] at hgo
    refine Run.Follows.after (t := countBlock v) (l := []) rfl (List.append_nil _).symm rfl (hgo.mono fun _ w _ hdata => ?_)
    intro D hwf hD hlong hpl
    have hfirst : b = D.take 96 := hb _ (Memory.load_take hD (k := 96) (by omega))
    have hrest := Memory.load_drop hD (k := 96) (by omega)
    have hmem : (countBlock v).mem = Memory.store u.mem (oa + 96 * u.k) (cryptBlock d R (D.take 96) u.S).1 := by
      rw [countBlock_mem, hvm, hS, hfirst]; exact congrArg (Memory.store · _ _) hm
    have hkeep : Memory.load (countBlock v).mem (ia + 96 * u.k + 96) (D.length - 96) = some (D.drop 96) := by
      rw [hmem, Memory.load_store_apart hwf, hrest]
      rw [length_cryptBlock]
      exact hpl.behind (Nat.le_refl _) (by omega)
    have hpl' := hpl.rest (j := 96) (by omega)
    have hia : ia + 96 * u.k + 96 = ia + 96 * (u.k + 1) := by omega
    have hoa : oa + 96 * u.k + 96 = oa + 96 * (u.k + 1) := by omega
    rw [hia, ← List.length_drop] at hkeep
    rw [hia, hoa, ← List.length_drop] at hpl'
    have hwf' : Memory.wf (countBlock v).mem = true := by rw [hmem]; exact Memory.wf_store hwf _ _
    obtain ⟨o, ho, hwm, hcrypt⟩ := hdata (D.drop 96) hwf' hkeep (by rw [List.length_drop]; omega) hpl'
    refine ⟨(cryptBlock d R (D.take 96) u.S).1 ++ o, by rw [List.length_append, length_cryptBlock, ho]; omega, ?_, ?_⟩
    · rw [hwm, hmem, Memory.store_append, length_cryptBlock, hoa]
    · have hS' : (countBlock v).S = (cryptBlock d R (D.take 96) u.S).2 := by
        rw [countBlock_S, hvS, ← hfirst, ← hS]; rfl
      have hd : (D.drop 96).drop (96 * left) = D.drop (96 * (left + 1)) := by rw [List.drop_drop]; congr 1; omega
      rw [hd, hS'] at hcrypt
      rw [cryptFrom]
      simp only [hcrypt, List.append_assoc]

theorem cryptRegion_follows (hc : Calm u) (hk : u.k = 0) (ia oa n : Nat) (d : CryptDir) (R : Nat) :
    (cryptRegion ia oa n d R u).Follows u (cryptEvents u.platform.skipEmptyPhase ia oa n R) fun _ t =>
      ∀ D, Memory.wf u.mem = true → Memory.load u.mem ia n = some D → InPlaceOrApart ia oa n →
        t.S = (cryptData u.platform.skipEmptyPhase d R D u.S).2 ∧
        t.mem = Memory.store u.mem oa (cryptData u.platform.skipEmptyPhase d R D u.S).1 := by
  have hempty {D : List Byte} (hD : Memory.load u.mem ia n = some D) : D.isEmpty = decide (n = 0) := by
    rw [← Memory.load_length hD, Bool.eq_iff_iff, List.isEmpty_iff_length_eq_zero, decide_eq_true_iff]
  unfold cryptRegion cryptEvents
  split
  · rename_i hskip
    refine .ok rfl (.refl u) (List.append_nil _).symm fun D _ hD _ => ?_
    rw [cryptData_skipped (by rw [hempty hD]; exact hskip)]
    exact ⟨rfl, rfl⟩
  · rename_i hskip
    have hblocks := cryptBlocks_follows hc ia oa d R (n / 96)
    rw [hk] at hblocks
    refine hblocks.bind fun _ t hs hdata => ?_
    refine (dmaRead_follows (hs.calm hc) _ _).bind fun tail v hv ⟨hlen, _, hS, hm, htail⟩ => ?_
    let v' := eraseBlk (codecStep .payload R (cryptTailBlock d R tail v.S) (cryptLast d R tail v.S).2 v)
    have hcalm : Calm v' := ⟨(hv.calm (hs.calm hc)).quiet, (hv.calm (hs.calm hc)).raced⟩
    have hwrite := dmaWrite_follows hcalm (oa + 96 * (n / 96)) (cryptLast d R tail v.S).1
    rw [length_cryptLast d R (by omega), hlen] at hwrite
    refine Run.Follows.after (t := v') (l := [.permute (some .payload) R]) rfl rfl rfl ?_
    rw [← List.append_nil (madeAccess _)]
    refine hwrite.bind fun _ w _ ⟨_, hwS, _, hwm⟩ => .ok rfl rfl (List.append_nil _).symm fun D hwf hD hpl => ?_
    have hDlen := Memory.load_length hD
    obtain ⟨o, ho, htm, hcrypt⟩ := hdata D hwf (by rw [hDlen]; exact hD) (by omega) (by rw [hDlen]; exact hpl)
    have hrest := Memory.load_drop hD (k := 96 * (n / 96)) (by omega)
    have hmod : n - 96 * (n / 96) = n % 96 := by omega
    have hkeep : Memory.load t.mem (ia + 96 * (n / 96)) (n % 96) = some (D.drop (96 * (n / 96))) := by
      rw [htm, Memory.load_store_apart hwf, ← hmod, hrest]
      rw [ho, ← hmod]
      exact hpl.behind (Nat.le_refl _) (by omega)
    obtain rfl := htail _ hkeep
    rw [cryptData_run (by rw [hempty hD]; exact hskip), hDlen, hcrypt, ← hS]
    refine ⟨hwS, ?_⟩
    change w.mem = _
    rw [hwm, Memory.store_append, ho]
    exact congrArg (Memory.store · _ _) (hm.trans htm)

/-! ## The phases of a message -/

theorem toBuffer_toList {n : Nat} {b : List Byte} (h : b.length = n) : (toBuffer n b).toList = b := by
  subst h
  exact List.take_left

/-- What the phases HEADER to FINAL of a message with an `n`-byte body add to the record. -/
def messageEvents (u : State) (n R : Nat) : List EngineEvent :=
  [.permute none R] ++ ([.enter .header] ++ (absorbEvents u.platform.skipEmptyPhase u.hdr .header R ++ ([.enter .payload] ++
    (cryptEvents u.platform.skipEmptyPhase u.inAddr.toNat u.outAddr.toNat n R ++ ([.enter .trailer] ++
      (absorbEvents u.platform.skipEmptyPhase u.trl .trailer R ++
        ([.enter .final] ++ [.permute (some .final) R, .permute none R])))))))

/-- The phases of a message leave the codec's output in memory and its tag in T, where the trailer's bytes are not written
before they are read. -/
theorem messagePhases_follows (hc : Calm u) (d : CryptDir) (n R : Nat) :
    (messagePhases d n R u).Follows u (messageEvents u n R) fun _ t => ∀ hdr D trl, Memory.wf u.mem = true →
      Memory.load u.mem u.hdr.addr u.hdr.len = some hdr → Memory.load u.mem u.inAddr.toNat n = some D →
      Memory.load u.mem u.trl.addr u.trl.len = some trl →
      InPlaceOrApart u.inAddr.toNat u.outAddr.toNat n → apart (u.out n) u.trl →
      let o := processMessage ⟨u.platform.skipEmptyPhase, R, u.key, u.nonce, hdr, trl⟩ d D
      t.mem = Memory.store u.mem u.outAddr.toNat o.1 ∧ t.tag.toList = o.2 := by
  have hinit : Calm (initStep R u) := ⟨hc.quiet, hc.raced⟩
  unfold messagePhases messageEvents
  refine Run.Follows.after (t := initStep R u) (l := [.permute none R]) rfl rfl rfl ?_
  refine (enter_follows hinit .header).bind fun _ v₁ h₁ ⟨hk₁, hS₁, hm₁⟩ => ?_
  replace h₁ : Stays u v₁ := Stays.trans (t := initStep R u) rfl h₁
  have habsorb := absorbRegion_follows (h₁.calm hc) hk₁ v₁.hdr .header R
  rw [h₁.platform_eq, h₁.hdr_eq] at habsorb
  rw [h₁.hdr_eq]
  refine habsorb.bind fun _ v₂ h₂ ⟨hm₂, hS₂⟩ => ?_
  replace h₂ := h₁.trans h₂
  refine (enter_follows (h₂.calm hc) .payload).bind fun _ v₃ h₃ ⟨hk₃, hS₃, hm₃⟩ => ?_
  replace h₃ := h₂.trans h₃
  have hcrypt := cryptRegion_follows (h₃.calm hc) hk₃ v₃.inAddr.toNat v₃.outAddr.toNat n d R
  rw [h₃.platform_eq, h₃.inAddr_eq, h₃.outAddr_eq] at hcrypt
  rw [h₃.inAddr_eq, h₃.outAddr_eq]
  refine hcrypt.bind fun _ v₄ h₄ hcr => ?_
  replace h₄ := h₃.trans h₄
  refine (enter_follows (h₄.calm hc) .trailer).bind fun _ v₅ h₅ ⟨hk₅, hS₅, hm₅⟩ => ?_
  replace h₅ := h₄.trans h₅
  have habsorb := absorbRegion_follows (h₅.calm hc) hk₅ v₅.trl .trailer R
  rw [h₅.platform_eq, h₅.trl_eq] at habsorb
  rw [h₅.trl_eq]
  refine habsorb.bind fun _ v₆ h₆ ⟨hm₆, hS₆⟩ => ?_
  replace h₆ := h₅.trans h₆
  refine (enter_follows (h₆.calm hc) .final).bind fun _ v₇ h₇ ⟨hk₇, hS₇, hm₇⟩ => ?_
  replace h₇ := h₆.trans h₇
  refine .ok rfl rfl (by simp [finalStep]) fun hdr D trl hwf hhdr hD htrl hpl hap => ?_
  have hm : v₃.mem = u.mem := hm₃.trans (hm₂.trans hm₁)
  obtain ⟨hS₄, hm₄⟩ := hcr D (by rwa [hm]) (by rwa [hm]) hpl
  have hout : (cryptData u.platform.skipEmptyPhase d R D v₃.S).1.length = n := by
    rw [length_cryptData, Memory.load_length hD]
  have hload : Memory.load v₅.mem u.trl.addr u.trl.len = some trl := by
    rw [hm₅, hm₄, Memory.load_store_apart (by rwa [hm]), hm, htrl]
    rw [hout]; exact hap
  have hS : v₃.S = absorbData u.platform.skipEmptyPhase .header R hdr (initSponge u.key u.nonce R) := by
    rw [hS₃, hS₂ hdr (by rwa [hm₁]), hS₁]; rfl
  refine ⟨?_, ?_⟩
  · change v₇.mem = _
    rw [hm₇, hm₆, hm₅, hm₄, hm, hS]; rfl
  · change (toBuffer 32 (finalTag v₇.key R v₇.S)).toList = _
    rw [toBuffer_toList (length_finalTag _ _ _), h₇.key_eq, hS₇, hS₆ trl hload, hS₅, hS₄, hS]; rfl

end Parts

end Sys2Proof.Machine
end


section
/-! SUPPORT. SEAL and OPEN where nothing lands in them: their checks, their accesses, phases and calls of F, and what they leave in
memory (42_orchestrator.md R172-R189). -/

namespace Sys2Proof.Machine

/-! ## The record of a message, by what is asked of it -/

theorem dmaOf_append (l m : List EngineEvent) : dmaOf (l ++ m) = dmaOf l ++ dmaOf m := List.filter_append l m

theorem permutesOf_append (l m : List EngineEvent) : permutesOf (l ++ m) = permutesOf l ++ permutesOf m :=
  List.filter_append l m

@[simp] theorem dmaOf_cons_enter (p : Phase) (l : List EngineEvent) : dmaOf (.enter p :: l) = dmaOf l := rfl

@[simp] theorem dmaOf_cons_permute (g : Option Tag) (R : Nat) (l : List EngineEvent) : dmaOf (.permute g R :: l) = dmaOf l :=
  rfl

@[simp] theorem dmaOf_nil : dmaOf [] = [] := rfl

theorem dmaOf_madeRead (a n : Nat) : dmaOf (madeAccess (.read a n)) = madeAccess (.read a n) := by
  rw [madeAccess]; split <;> rfl

theorem dmaOf_madeWrite (a n : Nat) : dmaOf (madeAccess (.write a n)) = madeAccess (.write a n) := by
  rw [madeAccess]; split <;> rfl

theorem permutesOf_madeRead (a n : Nat) : permutesOf (madeAccess (.read a n)) = [] := by
  rw [madeAccess]; split <;> rfl

theorem permutesOf_madeWrite (a n : Nat) : permutesOf (madeAccess (.write a n)) = [] := by
  rw [madeAccess]; split <;> rfl

theorem dmaOf_absorbBlockEvents (a : Nat) (g : Tag) (R k left : Nat) :
    dmaOf (absorbBlockEvents a g R k left) = (List.range' k left).map fun j => .read (a + 96 * j) 96 := by
  induction left generalizing k with
  | zero => rfl
  | succ left ih => rw [absorbBlockEvents_succ, dmaOf_append, dmaOf_append, ih]; rfl

theorem permutesOf_absorbBlockEvents (a : Nat) (g : Tag) (R k left : Nat) :
    permutesOf (absorbBlockEvents a g R k left) = List.replicate left (.permute (some g) R) := by
  induction left generalizing k with
  | zero => rfl
  | succ left ih => rw [absorbBlockEvents_succ, permutesOf_append, permutesOf_append, ih]; rfl

theorem dmaOf_cryptBlockEvents (ia oa R k left : Nat) :
    dmaOf (cryptBlockEvents ia oa R k left) =
      (List.range' k left).flatMap fun j => [.read (ia + 96 * j) 96, .write (oa + 96 * j) 96] := by
  induction left generalizing k with
  | zero => rfl
  | succ left ih => rw [cryptBlockEvents_succ, dmaOf_append, dmaOf_append, dmaOf_append, ih]; rfl

theorem permutesOf_cryptBlockEvents (ia oa R k left : Nat) :
    permutesOf (cryptBlockEvents ia oa R k left) = List.replicate left (.permute (some .payload) R) := by
  induction left generalizing k with
  | zero => rfl
  | succ left ih => rw [cryptBlockEvents_succ, permutesOf_append, permutesOf_append, permutesOf_append, ih]; rfl

theorem dmaOf_absorbEvents (skip : Bool) (r : Region) (g : Tag) (R : Nat) :
    dmaOf (absorbEvents skip r g R) = absorbAccesses r := by
  rw [absorbEvents, absorbAccesses]
  split
  · rename_i h
    have hlen : r.len = 0 := by simp only [Bool.and_eq_true, decide_eq_true_eq] at h; exact h.2
    rw [hlen]; rfl
  · rw [dmaOf_append, dmaOf_append, dmaOf_absorbBlockEvents, dmaOf_madeRead, List.range_eq_range']
    exact congrArg _ (List.append_nil _)

theorem dmaOf_cryptEvents (skip : Bool) (ia oa n R : Nat) : dmaOf (cryptEvents skip ia oa n R) = cryptAccesses ia oa n := by
  rw [cryptEvents, cryptAccesses]
  split
  · rename_i h
    have hn : n = 0 := by simp only [Bool.and_eq_true, decide_eq_true_eq] at h; exact h.2
    rw [hn]; rfl
  · rw [dmaOf_append, dmaOf_append, dmaOf_append, dmaOf_cryptBlockEvents, dmaOf_madeRead, dmaOf_madeWrite,
      List.range_eq_range', List.append_assoc]
    rfl

/-- The calls of F of a phase (41_block_codec.md R157). -/
theorem permutesOf_absorbEvents (u : State) (r : Region) (g : Tag) :
    permutesOf (absorbEvents u.platform.skipEmptyPhase r g u.rounds.toNat) = phaseCalls u g r.len := by
  rw [absorbEvents, phaseCalls]
  split
  · rfl
  · rw [permutesOf_append, permutesOf_append, permutesOf_absorbBlockEvents, permutesOf_madeRead, List.replicate_succ']
    rfl

theorem permutesOf_cryptEvents (u : State) (ia oa n : Nat) :
    permutesOf (cryptEvents u.platform.skipEmptyPhase ia oa n u.rounds.toNat) = phaseCalls u .payload n := by
  rw [cryptEvents, phaseCalls]
  split
  · rfl
  · rw [permutesOf_append, permutesOf_append, permutesOf_append, permutesOf_cryptBlockEvents, permutesOf_madeRead,
      permutesOf_madeWrite, List.replicate_succ']
    rfl

theorem dmaOf_messageEvents (u : State) (n R : Nat) : dmaOf (messageEvents u n R) =
    absorbAccesses u.hdr ++ cryptAccesses u.inAddr.toNat u.outAddr.toNat n ++ absorbAccesses u.trl := by
  simp [messageEvents, dmaOf_append, dmaOf_absorbEvents, dmaOf_cryptEvents]

theorem permutesOf_messageEvents (u : State) (n : Nat) : permutesOf (messageEvents u n u.rounds.toNat) = messageCalls u n := by
  simp only [messageEvents, messageCalls, permutesOf_append, permutesOf_absorbEvents, permutesOf_cryptEvents,
    List.append_assoc]
  rfl

/-! ## The checks -/

/-- The state in which a message makes its checks. -/
def entered (i : Instr) (s : State) : State := logEvent (.enter .init) (setPhase .init (accept i.opcode (some i) s))

theorem calm_accept {s : State} (h : idleQuiet s) (i : Instr) : Calm (accept i.opcode (some i) s) := ⟨h.2, rfl⟩

theorem calm_entered {s : State} (h : idleQuiet s) (i : Instr) : Calm (entered i s) := ⟨h.2, rfl⟩

theorem exec_seal_quiet {s : State} (h : idleQuiet s) :
    exec .sealMsg s = .next (match inputCheck s with
      | some e => Run.ended (raiseError e (entered .sealMsg s))
      | none => if !sealOutputOk s then .ended (raiseError .badRange (entered .sealMsg s))
        else sealRun (entered .sealMsg s)).state := by
  have hq : quiet (accept 0x01 (some .sealMsg) s) = true := h.2
  refine congrArg Host.Outcome.next ?_
  rw [issue_quiet h, sealBody, enter_quiet hq]
  rfl

theorem exec_open_quiet {s : State} (h : idleQuiet s) :
    exec .openMsg s = .next (match inputCheck s with
      | some e => Run.ended (raiseError e (entered .openMsg s))
      | none => if s.inLen.toNat < 32 then .ok () (openShort (entered .openMsg s))
        else if !openOutputOk s then .ended (raiseError .badRange (entered .openMsg s))
        else openRun (entered .openMsg s)).state := by
  have hq : quiet (accept 0x02 (some .openMsg) s) = true := h.2
  refine congrArg Host.Outcome.next ?_
  rw [issue_quiet h, openBody, enter_quiet hq]
  rfl

theorem inputCheck_of_good {s : State} (h : inputsGood s) : inputCheck s = none := by
  obtain ⟨hr, hk, hn, hh, hi, ht⟩ := h
  have hv : roundsValid s.rounds = true := by
    rcases hr with hr | hr <;> rw [hr] <;> rfl
  simp [inputCheck, allLoaded, hv, hk, hn, hh, hi, ht]

theorem good_of_inputCheck {s : State} (h : inputCheck s = none) : inputsGood s := by
  obtain ⟨hr, hk, hn, hh, hi, ht⟩ := inputCheck_eq_none h
  exact ⟨by simpa [roundsValid] using hr, by simpa [allLoaded] using hk, by simpa [allLoaded] using hn, hh, hi, ht⟩

/-- How a message ends whose checks fail with `e`. -/
def FailsWith (e : ErrCode) (i : Instr) (s t : State) : Prop :=
  completedWith e t ∧ authIs false false t ∧ t.outLen = 0 ∧ t.faultAddr = 0 ∧ secretsErased t ∧ transientsErased t ∧
    sameAround s t ∧ t.mem = s.mem ∧ t.trace = s.trace ++ [.accepted i.opcode, .enter .init, .completed e]

theorem failsWith_raiseError {i : Instr} (hi : IsMessage i) (e : ErrCode) (s : State) :
    FailsWith e i s (raiseError e (entered i s)) := by
  rw [raiseError_message (u := entered i s) rfl hi]
  exact ⟨⟨rfl, rfl, rfl, rfl, rfl, rfl⟩, ⟨rfl, rfl⟩, rfl, rfl, ⟨rfl, rfl, rfl, rfl⟩, ⟨rfl, rfl, rfl, rfl, rfl⟩,
    ⟨⟨rfl, rfl, rfl, rfl, rfl, rfl, rfl, rfl, rfl⟩, rfl, rfl, rfl, rfl⟩, rfl, by simp [entered, wipe]⟩

theorem exec_of_inputCheck {s : State} {i : Instr} {e : ErrCode} (h : idleQuiet s) (hi : IsMessage i)
    (he : inputCheck s = some e) : exec i s = .next (raiseError e (entered i s)) := by
  obtain rfl | rfl := hi
  · rw [exec_seal_quiet h, he]; rfl
  · rw [exec_open_quiet h, he]; rfl

/-- Settles O29: the order of the checks is that of `inputCheck`, and each failure ends as `failsWith_raiseError`. -/
theorem contractChecksInOrder : Obligations.ContractChecksInOrder := by
  unfold Obligations.ContractChecksInOrder
  intro s i h hi endsWith rangesGood
  have hcheck {e : ErrCode} (he : inputCheck s = some e) : endsWith e :=
    ⟨_, exec_of_inputCheck h hi he, failsWith_raiseError hi e s⟩
  have hrounds (hr : s.rounds = 4 ∨ s.rounds = 6) : roundsValid s.rounds = true := by
    rcases hr with hr | hr <;> rw [hr] <;> rfl
  have hloaded {m : BitVec 4} (hm : m = 0b1111) : allLoaded m = true := beq_iff_eq.mpr hm
  refine ⟨fun hr => hcheck ?_, fun hr hk => hcheck ?_, fun hr hk hn => hcheck ?_, fun hr hk hn hv => hcheck ?_,
    fun hg hs ho => ?_, fun hg hs hlen ho => ?_⟩
  · have : roundsValid s.rounds = false := by simpa [roundsValid] using hr
    exact inputCheck_of_badRounds this
  · have hk' : allLoaded s.keyMask = false := beq_eq_false_iff_ne.mpr hk
    simp [inputCheck, hrounds hr, hk']
  · have hn' : allLoaded s.nonceMask = false := beq_eq_false_iff_ne.mpr hn
    simp [inputCheck, hrounds hr, hloaded hk, hn']
  · have : (!validRegion s.hdr || !validRegion s.inp || !validRegion s.trl) = true := by
      simp only [rangesGood, ← Bool.and_eq_true] at hv
      simpa [← Bool.not_and] using hv
    simp [inputCheck, hrounds hr, hloaded hk, hloaded hn, this]
  · subst hs
    have hbad : sealOutputOk s = false := by simpa [sealOutputOk] using ho
    refine ⟨_, ?_, failsWith_raiseError (.inl rfl) _ s⟩
    rw [exec_seal_quiet h, inputCheck_of_good hg, hbad]; rfl
  · subst hs
    refine ⟨_, ?_, failsWith_raiseError (.inr rfl) _ s⟩
    have hbad : openOutputOk s = false := ho
    rw [exec_open_quiet h, inputCheck_of_good hg, hbad]
    simp only [if_neg (Nat.not_lt.mpr hlen)]; rfl

/-- Settles O28: `openShort` of the state after the checks. -/
theorem shortOpenFailsWithoutAccess : Obligations.ShortOpenFailsWithoutAccess := by
  unfold Obligations.ShortOpenFailsWithoutAccess
  intro s h hg hlen
  refine ⟨openShort (entered .openMsg s), ?_, ⟨rfl, rfl, rfl, rfl, rfl, rfl⟩, rfl, ⟨rfl, rfl⟩, rfl, rfl, ⟨rfl, rfl, rfl, rfl⟩,
    ⟨rfl, rfl, rfl, rfl, rfl⟩, ⟨⟨rfl, rfl, rfl, rfl, rfl, rfl, rfl, rfl, rfl⟩, rfl, rfl, rfl, rfl⟩, rfl, ?_⟩
  · rw [exec_open_quiet h, inputCheck_of_good hg]
    simp only [if_pos hlen]; rfl
  · simp [openShort, entered, wipe, Instr.opcode]

/-! ## SEAL and OPEN after their checks -/

/-- The last part of a command, which starts in `u` and adds the events `l` to the record: it ends at the first access among them
that the platform refuses, or it ends as `E` of a state `v` with all accesses made and `Q` of it. -/
def Run.EndsAs (u : State) (l : List EngineEvent) (E : State → State) (Q : State → Prop) (r : Run Unit) : Prop :=
  (∃ made x w, untilFault u.platform l = some (made, x) ∧ w.running = u.running ∧ w.trace = u.trace ++ made ∧
    r.state = busFault x w) ∨
  (untilFault u.platform l = none ∧ ∃ v, v.trace = u.trace ++ l ∧ v.faultAddr = u.faultAddr ∧ r.state = E v ∧ Q v)

section Last
variable {α : Type} {u t : State} {l m : List EngineEvent} {E : State → State} {P : α → State → Prop} {Q : State → Prop}

theorem Run.EndsAs.after {r : Run Unit} (h : r.EndsAs t m E Q) (hl : untilFault u.platform l = none)
    (ht : t.trace = u.trace ++ l) (hp : t.platform = u.platform) (hr : t.running = u.running)
    (hf : t.faultAddr = u.faultAddr) : r.EndsAs u (l ++ m) E Q := by
  rcases h with ⟨made, x, w, hm, hw, htr, hend⟩ | ⟨hm, v, htr, hv, hend, hq⟩ <;> rw [hp] at hm
  · exact .inl ⟨l ++ made, x, w, by rw [untilFault_append_none hl, hm]; rfl, hw.trans hr,
      by rw [htr, ht, List.append_assoc], hend⟩
  · exact .inr ⟨by rw [untilFault_append_none hl, hm]; rfl, v, by rw [htr, ht, List.append_assoc], hv.trans hf, hend, hq⟩

/-- The same where the end depends on a value that the last part computes. -/
theorem Run.Follows.endsAs_exists {ι : Type} [Inhabited ι] {m : ι → List EngineEvent} {E : ι → State → State}
    {Q : ι → State → Prop} {r : Run α} {f : α → State → Run Unit} (h : r.Follows u l P)
    (hf : ∀ a t, Stays u t → P a t → ∃ i, (f a t).EndsAs t (m i) (E i) (Q i)) :
    ∃ i, (r.bind f).EndsAs u (l ++ m i) (E i) (Q i) := by
  cases r with
  | ended t =>
    obtain ⟨made, x, w, hl, hs, hw, rfl⟩ := h
    exact ⟨default, .inl ⟨made, x, w, untilFault_append_some hl _, hs.running_eq, hw, rfl⟩⟩
  | ok a t =>
    obtain ⟨hl, hs, ht, hp⟩ := h
    exact (hf a t hs hp).imp fun _ hi => hi.after hl ht hs.platform_eq hs.running_eq hs.faultAddr_eq

theorem Run.Follows.endsAs {r : Run α} {f : α → State → Run Unit} (h : r.Follows u l P)
    (hf : ∀ a t, Stays u t → P a t → (f a t).EndsAs t m E Q) : (r.bind f).EndsAs u (l ++ m) E Q :=
  (h.endsAs_exists (ι := Unit) fun a t hs hp => ⟨(), hf a t hs hp⟩).elim fun _ hi => hi

end Last

theorem wipePhase_quiet {u : State} (hc : Calm u) :
    wipePhase u = .ok () (wipe (logEvent (.enter .wipe) (setPhase .wipe u))) := by
  have hq : quiet (wipe (logEvent (.enter .wipe) (setPhase .wipe u))) = true := hc.quiet
  rw [wipePhase, enter_quiet hc.quiet, Run.bind_ok, slot_quiet hq]

/-- What SEAL adds to the record after its checks, before it wipes. -/
def sealEvents (u : State) : List EngineEvent :=
  messageEvents u u.inLen.toNat u.rounds.toNat ++ [.write (u.outAddr.toNat + u.inLen.toNat) 32]

/-- The end of a SEAL of `n` bytes that has made all its accesses in `v`. -/
def sealEnd (n : Nat) (v : State) : State :=
  complete .noError (setOutLen (BitVec.ofNat 64 (n + 32)) (wipe (logEvent (.enter .wipe) (setPhase .wipe v))))

/-- SEAL after its checks ends at its first refused access, or with the codec's Seal in memory. -/
theorem sealRun_endsAs {u : State} (hc : Calm u) :
    (sealRun u).EndsAs u (sealEvents u) (sealEnd u.inLen.toNat) fun v =>
      ∀ hdr D trl, Memory.wf u.mem = true → holds u u.hdr hdr → holds u u.inp D → holds u u.trl trl →
        InPlaceOrApart u.inAddr.toNat u.outAddr.toNat u.inLen.toNat → apart (u.out u.inLen.toNat) u.trl →
        v.mem = Memory.store u.mem u.outAddr.toNat (sealBytes (messageParams u hdr trl) D) := by
  refine (messagePhases_follows hc .enc u.inLen.toNat u.rounds.toNat).endsAs fun _ w hw hdata => ?_
  rw [hw.outAddr_eq, ← List.append_nil [_]]
  have hwrite := dmaWrite_follows (hw.calm hc) (u.outAddr.toNat + u.inLen.toNat) w.tag.toList
  rw [Vector.length_toList] at hwrite
  refine hwrite.endsAs fun _ v hv ⟨_, _, _, hm⟩ => .inr ⟨rfl, v, (List.append_nil _).symm, rfl, ?_, ?_⟩
  · rw [wipePhase_quiet (hv.calm (hw.calm hc))]; rfl
  · intro hdr D trl hwf hhdr hD htrl hpl hap
    obtain ⟨hwm, htag⟩ := hdata hdr D trl hwf hhdr hD htrl hpl hap
    rw [hm, hwm, htag, sealBytes, Memory.store_append, length_processMessage, Memory.load_length hD]
    rfl

theorem foldl_or_eq_zero (l : List Byte) (acc : Byte) : l.foldl (· ||| ·) acc = 0 ↔ acc = 0 ∧ ∀ b ∈ l, b = 0 := by
  induction l generalizing acc with
  | nil => simp
  | cons b l ih =>
    rw [List.foldl_cons, ih, List.forall_mem_cons, ← and_assoc]
    exact and_congr_left' BitVec.or_eq_zero_iff

/-- The accumulated differences are zero exactly where the strings agree (42_orchestrator.md R176). -/
theorem tagDiff_eq_zero {x y : List Byte} (h : x.length = y.length) : tagDiff x y = 0 ↔ x = y := by
  rw [tagDiff, foldl_or_eq_zero, and_iff_right rfl]
  induction x generalizing y with
  | nil => simp [List.eq_nil_of_length_eq_zero h.symm]
  | cons a x ih =>
    cases y with
    | nil => exact nomatch h
    | cons b y =>
      rw [List.zipWith_cons_cons, List.forall_mem_cons, ih (Nat.succ.inj h), List.cons.injEq]
      exact and_congr_left' BitVec.xor_eq_zero_iff

/-- The zeroing write of an OPEN, where its tags differ. -/
def zeroing (oa n : Nat) (ok : Bool) : List EngineEvent := if ok then [] else madeAccess (.write oa n)

/-- What OPEN adds to the record after its checks, before it wipes. -/
def openEvents (u : State) (ok : Bool) : List EngineEvent :=
  madeAccess (.read (u.inAddr.toNat + (u.inLen.toNat - 32)) 32) ++
    (messageEvents u (u.inLen.toNat - 32) u.rounds.toNat ++ (zeroing u.outAddr.toNat (u.inLen.toNat - 32) ok ++ []))

/-- The end of an OPEN with an `n`-byte body that has made all its accesses in `v`. -/
def openEnd (n : Nat) (ok : Bool) (v : State) : State :=
  complete .noError (setOutLen (if ok then BitVec.ofNat 64 n else 0)
    (setAuth ok (!ok) (wipe (logEvent (.enter .wipe) (setPhase .wipe v)))))

/-- The zeroing write, if any, in the state with the result `ok` of the comparison. -/
theorem zeroing_follows {v : State} (hc : Calm v) (oa n : Nat) (ok : Bool) :
    (if ok then Run.ok () v else dmaWrite oa (zeros n) v).Follows v (zeroing oa n ok) fun _ w =>
      w.mem = if ok then v.mem else Memory.store v.mem oa (zeros n) := by
  cases ok with
  | true => exact .ok rfl rfl (List.append_nil _).symm rfl
  | false =>
    have hwrite := dmaWrite_follows hc oa (zeros n)
    rw [zeros, List.length_replicate] at hwrite
    exact hwrite.mono fun _ _ _ ⟨_, _, _, hm⟩ => hm

/-- What an OPEN leaves in memory by the result `ok` of its comparison: the codec's output, or zeros over it. -/
def OpensTo (u : State) (ok : Bool) (v : State) : Prop :=
  ∀ hdr D trl, Memory.wf u.mem = true → holds u u.hdr hdr → holds u u.inp D → holds u u.trl trl →
    InPlaceOrApart u.inAddr.toNat u.outAddr.toNat (u.inLen.toNat - 32) → apart (u.out (u.inLen.toNat - 32)) u.trl →
    let o := processMessage (messageParams u hdr trl) .dec (D.take (u.inLen.toNat - 32))
    (ok = true ↔ o.2 = D.drop (u.inLen.toNat - 32)) ∧
    v.mem = if ok then Memory.store u.mem u.outAddr.toNat o.1
      else Memory.store (Memory.store u.mem u.outAddr.toNat o.1) u.outAddr.toNat (zeros (u.inLen.toNat - 32))

/-- An OPEN of 32 bytes or more ends after its checks at its first refused access, or by the comparison of the tags. -/
theorem openRun_endsAs {u : State} (hc : Calm u) (hn : 32 ≤ u.inLen.toNat) :
    ∃ ok, (openRun u).EndsAs u (openEvents u ok) (openEnd (u.inLen.toNat - 32) ok) (OpensTo u ok) := by
  refine (dmaRead_follows hc (u.inAddr.toNat + (u.inLen.toNat - 32)) 32).endsAs_exists fun b t hs ⟨hlen, _, _, hm, hb⟩ => ?_
  have hcalm : Calm (loadTagBuf b t) := ⟨(hs.calm hc).quiet, (hs.calm hc).raced⟩
  have hphases := messagePhases_follows hcalm .dec (u.inLen.toNat - 32) t.rounds.toNat
  have hev : messageEvents (loadTagBuf b t) (u.inLen.toNat - 32) t.rounds.toNat =
      messageEvents u (u.inLen.toNat - 32) u.rounds.toNat := by rw [hs]; rfl
  rw [hev] at hphases
  have hgo := hphases.endsAs_exists (f := fun _ s =>
    (if (compareTags s).diff == 0 then Run.ok () (compareTags s)
      else dmaWrite (compareTags s).outAddr.toNat (zeros (u.inLen.toNat - 32)) (compareTags s)).bind fun _ w =>
    (wipePhase w).bind fun _ w => .ok () (complete .noError
      (setOutLen (if (compareTags s).diff == 0 then BitVec.ofNat 64 (u.inLen.toNat - 32) else 0)
        (setAuth ((compareTags s).diff == 0) (!(compareTags s).diff == 0) w))))
    (m := fun ok => zeroing u.outAddr.toNat (u.inLen.toNat - 32) ok ++ []) (E := openEnd (u.inLen.toNat - 32)) (Q := OpensTo u)
    fun _ v hv hdata => ?_
  · exact hgo.imp fun ok h => h.after (u := t) (l := []) rfl (List.append_nil _).symm rfl rfl rfl
  have hvc : Calm (compareTags v) := ⟨(hv.calm hcalm).quiet, (hv.calm hcalm).raced⟩
  have hout : (compareTags v).outAddr = u.outAddr := hv.outAddr_eq.trans hs.outAddr_eq
  rw [hout]
  refine ⟨(compareTags v).diff == 0, Run.EndsAs.after (t := compareTags v) (l := []) ?_ rfl (List.append_nil _).symm rfl rfl rfl⟩
  refine (zeroing_follows hvc _ _ _).endsAs fun _ w hw hwm => .inr ⟨rfl, w, (List.append_nil _).symm, rfl, ?_, ?_⟩
  · rw [wipePhase_quiet (hw.calm hvc)]; rfl
  intro hdr D trl hwf hhdr hD htrl hpl hap
  have hparams : (⟨(loadTagBuf b t).platform.skipEmptyPhase, t.rounds.toNat, (loadTagBuf b t).key, (loadTagBuf b t).nonce, hdr, trl⟩
      : MessageParams) = messageParams u hdr trl := by rw [hs]; rfl
  have hregs : (loadTagBuf b t).hdr = u.hdr ∧ (loadTagBuf b t).trl = u.trl ∧ (loadTagBuf b t).inAddr = u.inAddr ∧
      (loadTagBuf b t).outAddr = u.outAddr ∧ (loadTagBuf b t).out (u.inLen.toNat - 32) = u.out (u.inLen.toNat - 32) := by
    rw [hs]; exact ⟨rfl, rfl, rfl, rfl, rfl⟩
  obtain ⟨eh, et, ei, eo, eout⟩ := hregs
  have hopen := hdata hdr (D.take (u.inLen.toNat - 32)) trl
  rw [hparams, eh, et, ei, eo, eout, loadTagBuf_mem, hm] at hopen
  obtain ⟨hvm, htag⟩ := hopen hwf hhdr (Memory.load_take hD (Nat.sub_le _ _)) htrl hpl hap
  have hrest : u.inp.len - (u.inLen.toNat - 32) = 32 := Nat.sub_sub_self hn
  have hsupplied := Memory.load_drop hD (k := u.inLen.toNat - 32) (Nat.sub_le _ _)
  rw [hrest] at hsupplied
  have hbuf : v.tagBuf.toList = D.drop (u.inLen.toNat - 32) := by
    rw [hv.tagBuf_eq, ← hb _ hsupplied]; exact toBuffer_toList hlen
  refine ⟨?_, ?_⟩
  · change (tagDiff v.tag.toList v.tagBuf.toList == 0) = true ↔ _
    rw [beq_iff_eq, tagDiff_eq_zero (by rw [Vector.length_toList, Vector.length_toList]), htag, hbuf]
  · rw [hwm, compareTags_mem, hvm]

end Sys2Proof.Machine
end


section
/-! SUPPORT. The statements about a SEAL or an OPEN in which nothing lands: its accesses, its calls of F, its outcome and what it
leaves in memory (42_orchestrator.md R172-R188, 41_block_codec.md R157, 60_exceptions.md R215). -/

namespace Sys2Proof.Machine

/-! ## The accesses of a message lie in its regions -/

/-- An access of the direction `d` that lies in the region. -/
inductive Within (r : Region) : Dir → EngineEvent → Prop where
  | read {a n : Nat} (ha : r.addr ≤ a) (hn : a + n ≤ r.addr + r.len) : Within r .read (.read a n)
  | write {a n : Nat} (ha : r.addr ≤ a) (hn : a + n ≤ r.addr + r.len) : Within r .write (.write a n)

theorem Within.not_refused {p : Platform} {r : Region} {d : Dir} {e : EngineEvent} (h : Within r d e) (ha : answered p d r) :
    accessFault p e = none := by
  cases h with
  | read hlow hhigh =>
    exact firstRefused_answered (r := ⟨_, _⟩) fun b hb => ha b (by rw [Region.contains_iff] at hb ⊢; simp only at hb; omega)
  | write hlow hhigh =>
    exact firstRefused_answered (r := ⟨_, _⟩) fun b hb => ha b (by rw [Region.contains_iff] at hb ⊢; simp only at hb; omega)

theorem Within.fault_lt {p : Platform} {r : Region} {d : Dir} {e : EngineEvent} {x : Nat} (h : Within r d e)
    (hx : accessFault p e = some x) : x < r.addr + r.len := by
  cases h with
  | read hlow hhigh => obtain ⟨j, hj, rfl, -⟩ := firstRefused_eq_some.mp hx; omega
  | write hlow hhigh => obtain ⟨j, hj, rfl, -⟩ := firstRefused_eq_some.mp hx; omega

theorem Within.mono {r q : Region} {d : Dir} {e : EngineEvent} (h : Within r d e) (ha : q.addr ≤ r.addr)
    (hn : r.addr + r.len ≤ q.addr + q.len) : Within q d e := by
  cases h with
  | read hlow hhigh => exact .read (by omega) (by omega)
  | write hlow hhigh => exact .write (by omega) (by omega)

theorem eq_of_mem_madeAccess {e e' : EngineEvent} (h : e ∈ madeAccess e') : e = e' := by
  unfold madeAccess at h
  split at h
  · split at h
    · exact absurd h List.not_mem_nil
    · exact List.mem_singleton.mp h
  · split at h
    · exact absurd h List.not_mem_nil
    · exact List.mem_singleton.mp h
  · exact List.mem_singleton.mp h

theorem absorbAccesses_within {r : Region} {e : EngineEvent} (h : e ∈ absorbAccesses r) : Within r .read e := by
  rcases List.mem_append.mp h with h | h
  · obtain ⟨k, hk, rfl⟩ := List.mem_map.mp h
    have := List.mem_range.mp hk
    exact .read (by omega) (by omega)
  · rw [eq_of_mem_madeAccess h]
    exact .read (by omega) (by omega)

theorem cryptAccesses_within {ia oa n : Nat} {e : EngineEvent} (h : e ∈ cryptAccesses ia oa n) :
    Within ⟨ia, n⟩ .read e ∨ Within ⟨oa, n⟩ .write e := by
  rcases List.mem_append.mp h with h | h
  · rcases List.mem_append.mp h with h | h
    · obtain ⟨k, hk, he⟩ := List.mem_flatMap.mp h
      have := List.mem_range.mp hk
      simp only [List.mem_cons, List.not_mem_nil, or_false] at he
      rcases he with rfl | rfl
      · exact .inl (.read (by simp only; omega) (by simp only; omega))
      · exact .inr (.write (by simp only; omega) (by simp only; omega))
    · rw [eq_of_mem_madeAccess h]
      exact .inl (.read (by simp only; omega) (by simp only; omega))
  · rw [eq_of_mem_madeAccess h]
    exact .inr (.write (by simp only; omega) (by simp only; omega))

/-- The access lies in one of the message's input regions, or in its output region of `m` bytes. -/
def InMessage (s : State) (m : Nat) (e : EngineEvent) : Prop :=
  (∃ r ∈ [s.hdr, s.inp, s.trl], Within r .read e) ∨ Within (s.out m) .write e

theorem sealAccesses_within {s : State} {e : EngineEvent} (h : e ∈ sealAccesses s) : InMessage s (s.inLen.toNat + 32) e := by
  simp only [sealAccesses, List.mem_append, List.mem_singleton] at h
  rcases h with ((h | h) | h) | rfl
  · exact .inl ⟨s.hdr, by simp, absorbAccesses_within h⟩
  · refine (cryptAccesses_within h).imp (fun hr => ⟨s.inp, by simp, hr⟩) fun hw => ?_
    exact hw.mono (Nat.le_refl _) (by simp only [State.out]; omega)
  · exact .inl ⟨s.trl, by simp, absorbAccesses_within h⟩
  · exact .inr (.write (by simp only [State.out]; omega) (by simp only [State.out]; omega))

theorem openAccesses_within {s : State} (hn : 32 ≤ s.inLen.toNat) {mismatch : Bool} {e : EngineEvent}
    (h : e ∈ openAccesses s mismatch) : InMessage s (s.inLen.toNat - 32) e := by
  simp only [openAccesses, List.mem_append, List.mem_singleton] at h
  rcases h with (((rfl | h) | h) | h) | h
  · exact .inl ⟨s.inp, by simp, .read (by simp only [State.inp]; omega) (by simp only [State.inp]; omega)⟩
  · exact .inl ⟨s.hdr, by simp, absorbAccesses_within h⟩
  · refine (cryptAccesses_within h).imp (fun hr => ⟨s.inp, by simp, hr.mono ?_ ?_⟩) id
    · exact Nat.le_refl _
    · simp only [State.inp]; omega
  · exact .inl ⟨s.trl, by simp, absorbAccesses_within h⟩
  · cases mismatch with
    | false => exact absurd h List.not_mem_nil
    | true =>
      have he : e = .write s.outAddr.toNat (s.inLen.toNat - 32) := eq_of_mem_madeAccess (by exact h)
      rw [he]
      exact .inr (.write (Nat.le_refl _) (Nat.le_refl _))

/-- Where all regions of a message are answered, none of its accesses is refused. -/
theorem untilFault_none_of_answered {s : State} {m : Nat} {l : List EngineEvent} (hin : ∀ e ∈ l, InMessage s m e)
    (hh : answered s.platform .read s.hdr) (hi : answered s.platform .read s.inp) (ht : answered s.platform .read s.trl)
    (ho : answered s.platform .write (s.out m)) : untilFault s.platform l = none := by
  refine untilFault_eq_none.mpr fun e he => ?_
  rcases hin e he with ⟨r, hr, hw⟩ | hw
  · simp only [List.mem_cons, List.not_mem_nil, or_false] at hr
    rcases hr with rfl | rfl | rfl
    · exact hw.not_refused hh
    · exact hw.not_refused hi
    · exact hw.not_refused ht
  · exact hw.not_refused ho

theorem exists_accessFault {p : Platform} {l made : List EngineEvent} {x : Nat} (h : untilFault p l = some (made, x)) :
    ∃ e ∈ l, accessFault p e = some x := by
  induction l generalizing made with
  | nil => exact nomatch h
  | cons e l ih =>
    simp only [untilFault] at h
    cases he : accessFault p e with
    | some y =>
      rw [he] at h
      obtain ⟨-, rfl⟩ := Prod.mk.inj (Option.some.inj h)
      exact ⟨e, List.mem_cons_self, he⟩
    | none =>
      rw [he] at h
      obtain ⟨⟨m, y⟩, hm, hxy⟩ := Option.map_eq_some_iff.mp h
      obtain ⟨-, rfl⟩ := Prod.mk.inj hxy
      obtain ⟨e', he', hx⟩ := ih hm
      exact ⟨e', List.mem_cons_of_mem _ he', hx⟩

theorem validRegion_end {r : Region} (ha : r.addr < 2 ^ 64) (h : validRegion r = true) : r.addr + r.len ≤ 2 ^ 64 :=
  (Region.coveredBy.of_valid List.mem_cons_self ha h (l := [r])).1

/-- The byte at which a message is refused is an address of the bus. -/
theorem refused_lt {s : State} {m x : Nat} {l made : List EngineEvent} (hin : ∀ e ∈ l, InMessage s m e)
    (hg : inputsGood s) (ho : validRegion (s.out m) = true) (h : untilFault s.platform l = some (made, x)) : x < 2 ^ 64 := by
  obtain ⟨-, -, -, hh, hi, ht⟩ := hg
  obtain ⟨e, he, hx⟩ := exists_accessFault h
  rcases hin e he with ⟨r, hr, hw⟩ | hw
  · refine Nat.lt_of_lt_of_le (hw.fault_lt hx) ?_
    simp only [List.mem_cons, List.not_mem_nil, or_false] at hr
    rcases hr with rfl | rfl | rfl
    · exact validRegion_end s.hdrAddr.isLt hh
    · exact validRegion_end s.inAddr.isLt hi
    · exact validRegion_end s.trlAddr.isLt ht
  · exact Nat.lt_of_lt_of_le (hw.fault_lt hx) (validRegion_end s.outAddr.isLt ho)

/-! ## What every quiet end of a command shares -/

/-- A command that starts where nothing lands completes, with the registers of a completion, and leaves all around it. -/
theorem quiet_completes {s t : State} {i : Instr} (h : idleQuiet s) (he : exec i s = .next t) :
    completedWith t.err t ∧ t.lastOpc = i.opcode ∧ sameAround s t ∧ ReportsApart i t := by
  obtain ⟨ps, es, hends⟩ := exec_ends h.1 he
  obtain ⟨-, hb, hd, hp, hk, hr, hl, ha⟩ := hends.outcome.quiet h.2
  exact ⟨⟨rfl, hb, hd, hp, hk, hr⟩, hl, ha, hends.reports⟩

theorem quiet_wiped {s t : State} {i : Instr} (h : idleQuiet s) (hi : IsMessage i) (he : exec i s = .next t) :
    secretsErased t ∧ transientsErased t := by
  obtain ⟨⟨-, hb, -⟩, -⟩ := quiet_completes h he
  exact messagesEraseSecretsOnEveryPath s t i hi h.1 he hb

/-! ## The record and the ends -/

@[simp] theorem busFault_trace (x : Nat) (w : State) : (busFault x w).trace = w.trace ++ [.completed .busFault] := by
  unfold busFault raiseError; dsimp only; split <;> rfl

@[simp] theorem busFault_err (x : Nat) (w : State) : (busFault x w).err = .busFault := rfl

@[simp] theorem busFault_faultAddr (x : Nat) (w : State) : (busFault x w).faultAddr = BitVec.ofNat 64 x := by
  unfold busFault raiseError; dsimp only; split <;> rfl

@[simp] theorem entered_trace (i : Instr) (s : State) :
    (entered i s).trace = s.trace ++ [.accepted i.opcode, .enter .init] := by simp [entered]

@[simp] theorem sealEnd_trace (n : Nat) (v : State) :
    (sealEnd n v).trace = v.trace ++ [.enter .wipe, .completed .noError] := by simp [sealEnd, wipe]

@[simp] theorem openEnd_trace (n : Nat) (ok : Bool) (v : State) :
    (openEnd n ok v).trace = v.trace ++ [.enter .wipe, .completed .noError] := by simp [openEnd, wipe]

/-- How a message ends at the byte `x`, where the record before its completion holds the accesses `made`. -/
theorem message_fault {s w : State} {i : Instr} {l made : List EngineEvent} {x : Nat} (h : idleQuiet s) (hi : IsMessage i)
    (he : exec i s = .next (busFault x w)) (hx : x < 2 ^ 64) (hw : w.trace = (entered i s).trace ++ l) (hl : dmaOf l = made) :
    completedWith .busFault (busFault x w) ∧ (busFault x w).lastOpc = i.opcode ∧ authIs false false (busFault x w) ∧
      (busFault x w).outLen = 0 ∧ (busFault x w).faultAddr.toNat = x ∧
      dmaOf (busFault x w).trace = dmaOf s.trace ++ made ∧ secretsErased (busFault x w) ∧
      transientsErased (busFault x w) ∧ sameAround s (busFault x w) := by
  obtain ⟨hc, hop, ha, hr⟩ := quiet_completes h he
  obtain ⟨hauth, hlen⟩ := hr.error (by rw [busFault_err]; decide)
  obtain ⟨hse, htr⟩ := quiet_wiped h hi he
  refine ⟨hc, hop, hauth, hlen, ?_, ?_, hse, htr, ha⟩
  · rw [busFault_faultAddr, BitVec.toNat_ofNat, Nat.mod_eq_of_lt hx]
  · rw [busFault_trace, hw, entered_trace]
    simp only [dmaOf_append, hl]
    exact (List.append_nil _).trans (congrArg (· ++ made) (List.append_nil _))

/-- What a list of events holds of the record of a message that has made all its accesses. -/
theorem dmaOf_message (s : State) (i : Instr) (l : List EngineEvent) :
    dmaOf ((entered i s).trace ++ l ++ [.enter .wipe, .completed .noError]) = dmaOf s.trace ++ dmaOf l := by
  rw [entered_trace]
  simp only [dmaOf_append]
  exact (List.append_nil _).trans (congrArg (· ++ dmaOf l) (List.append_nil _))

theorem permutesOf_message (s : State) (i : Instr) (l : List EngineEvent) :
    permutesOf ((entered i s).trace ++ l ++ [.enter .wipe, .completed .noError]) = permutesOf s.trace ++ permutesOf l := by
  rw [entered_trace]
  simp only [permutesOf_append]
  exact (List.append_nil _).trans (congrArg (· ++ permutesOf l) (List.append_nil _))

/-! ## SEAL -/

theorem dmaOf_sealEvents (i : Instr) (s : State) : dmaOf (sealEvents (entered i s)) = sealAccesses s := by
  rw [sealEvents, dmaOf_append, dmaOf_messageEvents]; rfl

theorem permutesOf_sealEvents (i : Instr) (s : State) :
    permutesOf (sealEvents (entered i s)) = messageCalls s s.inLen.toNat := by
  have := permutesOf_messageEvents (entered i s) s.inLen.toNat
  rw [sealEvents, permutesOf_append]
  exact (List.append_nil _).trans this

/-- The output of a SEAL fits (42_orchestrator.md R179). -/
def SealFits (s : State) : Prop := s.inLen.toNat + 32 ≤ 2 ^ 64 - 1 ∧ validRegion (s.out (s.inLen.toNat + 32)) = true

theorem exec_seal_run {s : State} (h : idleQuiet s) (hg : inputsGood s) (ho : SealFits s) :
    exec .sealMsg s = .next (sealRun (entered .sealMsg s)).state := by
  have hout : sealOutputOk s = true := by
    rw [sealOutputOk, Bool.and_eq_true, decide_eq_true_eq]; exact ho
  rw [exec_seal_quiet h, inputCheck_of_good hg, hout]; rfl

/-- A SEAL whose accesses are all answered. -/
theorem seal_done {s : State} (h : idleQuiet s) (hg : inputsGood s) (ho : SealFits s)
    (hh : answered s.platform .read s.hdr) (hi : answered s.platform .read s.inp) (ht : answered s.platform .read s.trl)
    (hw : answered s.platform .write (s.out (s.inLen.toNat + 32))) :
    ∃ v, exec .sealMsg s = .next (sealEnd s.inLen.toNat v) ∧
      v.trace = (entered .sealMsg s).trace ++ sealEvents (entered .sealMsg s) ∧ v.faultAddr = 0 ∧
      ∀ hdr D trl, Memory.wf s.mem = true → holds s s.hdr hdr → holds s s.inp D → holds s s.trl trl →
        goodOverlap s s.inLen.toNat →
        v.mem = Memory.store s.mem s.outAddr.toNat (sealBytes (messageParams s hdr trl) D) := by
  have hnone := untilFault_none_of_answered (fun _ => sealAccesses_within) hh hi ht hw
  rw [← dmaOf_sealEvents .sealMsg, untilFault_dmaOf, Option.map_eq_none_iff] at hnone
  rcases sealRun_endsAs (calm_entered h .sealMsg) with ⟨made, x, w, hl, -⟩ | ⟨-, v, htr, hf, hend, hdata⟩
  · exact nomatch hnone.symm.trans hl
  · refine ⟨v, by rw [exec_seal_run h hg ho, hend]; rfl, htr, hf, fun hdr D trl hwf hhdr hD htrl hpl => ?_⟩
    exact hdata hdr D trl hwf hhdr hD htrl (hpl.1.imp_left (congrArg BitVec.toNat)) hpl.2

/-- Settles O30: `sealRun_endsAs`, where nothing is refused. -/
theorem sealAccessOrder : Obligations.SealAccessOrder := by
  unfold Obligations.SealAccessOrder
  intro s h hg hfit hv hh hi ht hw
  obtain ⟨v, he, htr, -⟩ := seal_done h hg ⟨hfit, hv⟩ hh hi ht hw
  refine ⟨_, he, (quiet_completes h he).1, ?_⟩
  rw [sealEnd_trace, htr, dmaOf_message, dmaOf_sealEvents]

/-- Settles O26: the memory of `sealRun_endsAs` holds the codec's output; the rest is what every quiet message leaves. -/
theorem sealWritesCiphertextAndTag : Obligations.SealWritesCiphertextAndTag := by
  unfold Obligations.SealWritesCiphertextAndTag
  intro s hdr pt trl h hwf hg hfit hv hh hi ht hw hhdr hpt htrl hpl
  obtain ⟨v, he, -, hf, hdata⟩ := seal_done h hg ⟨hfit, hv⟩ hh hi ht hw
  obtain ⟨hc, hop, ha, hr⟩ := quiet_completes h he
  obtain ⟨hse, htr⟩ := quiet_wiped h (.inl rfl) he
  have hmem : (sealEnd s.inLen.toNat v).mem = _ := hdata hdr pt trl hwf hhdr hpt htrl hpl
  have hlen : (sealBytes (messageParams s hdr trl) pt).length = s.inLen.toNat + 32 := by
    rw [length_sealBytes, Memory.load_length hpt]; rfl
  have hend : s.outAddr.toNat + (s.inLen.toNat + 32) ≤ 2 ^ 64 := validRegion_end s.outAddr.isLt hv
  refine ⟨_, he, hc, hop, ⟨?_, ?_⟩, hf, ?_, ?_, commandsWriteOnlyTheirOutput.1 s _ .sealMsg h hwf he, hse, htr, ha⟩
  · exact Bool.eq_false_iff.mpr fun hok => nomatch (hr.ok hok).2.2
  · exact Bool.eq_false_iff.mpr fun hfail => nomatch (hr.fail hfail).2.2.2
  · exact (BitVec.toNat_ofNat _ _).trans (Nat.mod_eq_of_lt (by omega))
  · rw [holds, hmem]
    change Memory.load _ _ (s.inLen.toNat + 32) = _
    rw [← hlen]
    exact Memory.load_store hwf (by rw [hlen]; exact hend)

/-! ## OPEN -/

theorem dmaOf_openEvents (i : Instr) (s : State) (ok : Bool) : dmaOf (openEvents (entered i s) ok) = openAccesses s (!ok) := by
  have hzero : dmaOf (zeroing s.outAddr.toNat (s.inLen.toNat - 32) ok) =
      if (!ok) = true then madeAccess (.write s.outAddr.toNat (s.inLen.toNat - 32)) else [] := by
    cases ok with
    | true => rfl
    | false => exact dmaOf_madeWrite _ _
  simp only [openEvents, dmaOf_append, dmaOf_messageEvents, openAccesses]
  rw [dmaOf_nil, List.append_nil, ← List.append_assoc, ← List.append_assoc, ← List.append_assoc]
  exact congrArg _ hzero

theorem permutesOf_openEvents (i : Instr) (s : State) (ok : Bool) :
    permutesOf (openEvents (entered i s) ok) = messageCalls s (s.inLen.toNat - 32) := by
  have hmsg := permutesOf_messageEvents (entered i s) (s.inLen.toNat - 32)
  have hzero (oa n : Nat) : permutesOf (zeroing oa n ok) = [] := by
    cases ok with
    | true => rfl
    | false => exact permutesOf_madeWrite _ _
  simp only [openEvents, permutesOf_append, hzero]
  exact (List.append_nil _).trans hmsg

theorem exec_open_run {s : State} (h : idleQuiet s) (hg : inputsGood s) (hn : 32 ≤ s.inLen.toNat)
    (ho : validRegion (s.out (s.inLen.toNat - 32)) = true) :
    exec .openMsg s = .next (openRun (entered .openMsg s)).state := by
  have hout : openOutputOk s = true := ho
  rw [exec_open_quiet h, inputCheck_of_good hg, hout]
  simp only [if_neg (Nat.not_lt.mpr hn)]; rfl

/-- What an OPEN that has made all its accesses leaves in memory. -/
def OpenLeaves (s : State) (ok : Bool) (m : Memory) : Prop :=
  ∀ hdr D trl, Memory.wf s.mem = true → holds s s.hdr hdr → holds s s.inp D → holds s s.trl trl →
    goodOverlap s (s.inLen.toNat - 32) →
    let o := processMessage (messageParams s hdr trl) .dec (D.take (s.inLen.toNat - 32))
    (ok = true ↔ o.2 = D.drop (s.inLen.toNat - 32)) ∧
    m = if ok then Memory.store s.mem s.outAddr.toNat o.1
      else Memory.store (Memory.store s.mem s.outAddr.toNat o.1) s.outAddr.toNat (zeros (s.inLen.toNat - 32))

theorem OpensTo.leaves {s v : State} {ok : Bool} (h : OpensTo (entered .openMsg s) ok v) : OpenLeaves s ok v.mem :=
  fun hdr D trl hwf hhdr hD htrl hpl => h hdr D trl hwf hhdr hD htrl (hpl.1.imp_left (congrArg BitVec.toNat)) hpl.2

/-- An OPEN whose accesses are all answered. -/
theorem open_done {s : State} (h : idleQuiet s) (hg : inputsGood s) (hn : 32 ≤ s.inLen.toNat)
    (ho : validRegion (s.out (s.inLen.toNat - 32)) = true)
    (hh : answered s.platform .read s.hdr) (hi : answered s.platform .read s.inp) (ht : answered s.platform .read s.trl)
    (hw : answered s.platform .write (s.out (s.inLen.toNat - 32))) :
    ∃ ok v, exec .openMsg s = .next (openEnd (s.inLen.toNat - 32) ok v) ∧
      v.trace = (entered .openMsg s).trace ++ openEvents (entered .openMsg s) ok ∧ v.faultAddr = 0 ∧
      OpenLeaves s ok v.mem := by
  obtain ⟨ok, hends⟩ := openRun_endsAs (calm_entered h .openMsg) (by exact hn)
  have hnone := untilFault_none_of_answered (fun _ => openAccesses_within hn (mismatch := !ok)) hh hi ht hw
  rw [← dmaOf_openEvents .openMsg, untilFault_dmaOf, Option.map_eq_none_iff] at hnone
  rcases hends with ⟨made, x, w, hl, -⟩ | ⟨-, v, htr, hf, hend, hdata⟩
  · exact nomatch hnone.symm.trans hl
  · exact ⟨ok, v, by rw [exec_open_run h hg hn ho, hend]; rfl, htr, hf, hdata.leaves⟩

/-- Settles O31: `openRun_endsAs`, where nothing is refused. -/
theorem openAccessOrder : Obligations.OpenAccessOrder := by
  unfold Obligations.OpenAccessOrder
  intro s h hg hn hv hh hi ht hw
  obtain ⟨ok, v, he, htr, -⟩ := open_done h hg hn hv hh hi ht hw
  refine ⟨_, he, (quiet_completes h he).1, rfl, ?_⟩
  rw [openEnd_trace, htr, dmaOf_message, dmaOf_openEvents]
  rfl

/-- Opening by the tag comparison (42_orchestrator.md R174). -/
theorem openBytes_of_tag {p : MessageParams} {c : List Byte} {n : Nat} (hn : 32 ≤ n) (hc : c.length = n) {ok : Bool}
    (hok : ok = true ↔ (processMessage p .dec (c.take (n - 32))).2 = c.drop (n - 32)) :
    openBytes p c = if ok then some (processMessage p .dec (c.take (n - 32))).1 else none := by
  subst hc
  rw [openBytes_long p (Nat.not_lt.mpr hn)]
  cases ok with
  | true => exact if_pos (hok.mp rfl)
  | false => exact if_neg fun h => nomatch hok.mpr h

/-- Bytes written to the output region are what it holds. -/
theorem holds_store {s t : State} {n : Nat} {m : Memory} {v : List Byte} (hwf : Memory.wf m = true)
    (hv : validRegion (s.out n) = true) (hlen : v.length = n) (hm : t.mem = Memory.store m s.outAddr.toNat v) :
    holds t (s.out n) v := by
  have hend := validRegion_end (r := s.out n) s.outAddr.isLt hv
  subst hlen
  rw [holds, hm]
  exact Memory.load_store hwf hend

/-- Settles O27: the memory of `openRun_endsAs`, by the result of the comparison; the rest is what every quiet message leaves. -/
theorem openWritesPlaintextOrZeros : Obligations.OpenWritesPlaintextOrZeros := by
  unfold Obligations.OpenWritesPlaintextOrZeros
  intro s hdr ct trl h hwf hg hn hv hh hi ht hw hhdr hct htrl hpl
  obtain ⟨ok, v, he, -, hf, hdata⟩ := open_done h hg hn hv hh hi ht hw
  obtain ⟨hc, hop, ha, hr⟩ := quiet_completes h he
  obtain ⟨hse, htr⟩ := quiet_wiped h (.inr rfl) he
  obtain ⟨hok, hmem⟩ := hdata hdr ct trl hwf hhdr hct htrl hpl
  have hopen := openBytes_of_tag hn (Memory.load_length hct) hok
  refine ⟨_, he, hc, hop, hf, commandsWriteOnlyTheirOutput.1 s _ .openMsg h hwf he, hse, htr, ha, fun pt hpt => ?_,
    fun hnone => ?_⟩
  · cases ok with
    | false => exact nomatch hopen.symm.trans hpt
    | true =>
      obtain rfl := Option.some.inj (hopen.symm.trans hpt)
      refine ⟨⟨rfl, rfl⟩, ?_, holds_store hwf hv ?_ hmem⟩
      · exact (BitVec.toNat_ofNat _ _).trans (Nat.mod_eq_of_lt (Nat.lt_of_le_of_lt (Nat.sub_le _ _) s.inLen.isLt))
      · rw [length_processMessage, List.length_take, Memory.load_length hct]
        exact Nat.min_eq_left (Nat.sub_le _ _)
  · cases ok with
    | true => exact nomatch hopen.symm.trans hnone
    | false => exact ⟨⟨rfl, rfl⟩, rfl, holds_store (Memory.wf_store hwf _ _) hv List.length_replicate hmem⟩

/-! ## Refused accesses, calls of F, released plaintext -/

/-- The first refused access of a record is that of its accesses. -/
theorem untilFault_of_dmaOf {p : Platform} {l made : List EngineEvent} {x : Nat} (h : untilFault p (dmaOf l) = some (made, x)) :
    ∃ l', untilFault p l = some (l', x) ∧ dmaOf l' = made := by
  rw [untilFault_dmaOf] at h
  obtain ⟨⟨l', y⟩, hl, hxy⟩ := Option.map_eq_some_iff.mp h
  obtain ⟨hmade, rfl⟩ := Prod.mk.inj hxy
  exact ⟨l', hl, hmade⟩

/-- The zeroing write comes after all other accesses of an OPEN. -/
theorem openAccesses_refused {p : Platform} {s : State} {o : List EngineEvent × Nat}
    (h : untilFault p (openAccesses s false) = some o) (mismatch : Bool) : untilFault p (openAccesses s mismatch) = some o := by
  cases mismatch with
  | false => exact h
  | true =>
    simp only [openAccesses, Bool.false_eq_true, if_false, List.append_nil, if_true] at h ⊢
    exact untilFault_append_some h _

/-- Settles O32: the first of the two ends of `sealRun_endsAs` and `openRun_endsAs`. -/
theorem refusedAccessEndsTheMessage : Obligations.RefusedAccessEndsTheMessage := by
  unfold Obligations.RefusedAccessEndsTheMessage
  intro s made x h hg endsAtFault
  refine ⟨fun hfit hv hu => ?_, fun hn hv hu => ?_⟩
  · have hx := refused_lt (fun _ => sealAccesses_within) hg hv hu
    obtain ⟨l, hl, hmade⟩ := untilFault_of_dmaOf ((congrArg _ (dmaOf_sealEvents .sealMsg s)).trans hu)
    rcases sealRun_endsAs (calm_entered h .sealMsg) with ⟨l', y, w, hl', -, htr, hend⟩ | ⟨hnone, -⟩
    · obtain ⟨rfl, rfl⟩ := Prod.mk.inj (Option.some.inj (hl'.symm.trans hl))
      have he : exec .sealMsg s = .next (busFault y w) := by rw [exec_seal_run h hg ⟨hfit, hv⟩, hend]
      exact ⟨_, he, message_fault h (.inl rfl) he hx htr hmade⟩
    · exact nomatch hnone.symm.trans hl
  · have hx := refused_lt (fun _ => openAccesses_within hn) hg hv hu
    obtain ⟨ok, hends⟩ := openRun_endsAs (calm_entered h .openMsg) (by exact hn)
    obtain ⟨l, hl, hmade⟩ :=
      untilFault_of_dmaOf ((congrArg _ (dmaOf_openEvents .openMsg s ok)).trans (openAccesses_refused hu (!ok)))
    rcases hends with ⟨l', y, w, hl', -, htr, hend⟩ | ⟨hnone, -⟩
    · obtain ⟨rfl, rfl⟩ := Prod.mk.inj (Option.some.inj (hl'.symm.trans hl))
      have he : exec .openMsg s = .next (busFault y w) := by rw [exec_open_run h hg hn hv, hend]
      exact ⟨_, he, message_fault h (.inr rfl) he hx htr hmade⟩
    · exact nomatch hnone.symm.trans hl

/-- Settles O33: the calls of F among the events of `sealRun_endsAs` and `openRun_endsAs`. -/
theorem messagePermutationCalls : Obligations.MessagePermutationCalls := by
  unfold Obligations.MessagePermutationCalls
  intro s h hg hh hi ht
  refine ⟨fun hfit hw hv => ?_, fun hn hw hv => ?_⟩
  · obtain ⟨v, he, htr, -⟩ := seal_done h hg ⟨hfit, hv⟩ hh hi ht hw
    exact ⟨_, he, by rw [sealEnd_trace, htr, permutesOf_message, permutesOf_sealEvents]⟩
  · obtain ⟨ok, v, he, htr, -⟩ := open_done h hg hn hv hh hi ht hw
    exact ⟨_, he, by rw [openEnd_trace, htr, permutesOf_message, permutesOf_openEvents]⟩

/-- An OPEN that reports AUTH_OK has passed its checks and made all its accesses, and its tags agreed. -/
theorem open_authOk {s t : State} (h : idleQuiet s) (he : exec .openMsg s = .next t) (hok : t.authOk = true) :
    32 ≤ s.inLen.toNat ∧ validRegion (s.out (s.inLen.toNat - 32)) = true ∧
      ∃ v, t = openEnd (s.inLen.toNat - 32) true v ∧ OpenLeaves s true v.mem := by
  have herr : t.err = .noError := ((quiet_completes h he).2.2.2.ok hok).1
  rw [exec_open_quiet h] at he
  obtain rfl := Host.Outcome.next.inj he
  cases hc : inputCheck s with
  | some e => rw [hc] at herr; exact absurd herr (inputCheck_eq_some hc).1
  | none =>
    simp only [hc] at herr hok ⊢
    split at hok
    · exact nomatch hok
    · rename_i hn
      split at hok
      · exact nomatch hok
      · rename_i hout
        have hn' := Nat.le_of_not_lt hn
        obtain ⟨ok, ⟨_, _, w, -, -, -, hend⟩ | ⟨-, v, -, -, hend, hdata⟩⟩ :=
          openRun_endsAs (calm_entered h .openMsg) (by exact hn')
        · simp only [if_neg hn, if_neg hout, hend] at herr
          exact nomatch herr
        · rw [hend] at hok
          obtain rfl : ok = true := hok
          exact ⟨hn', by simpa [openOutputOk] using hout, v, by simp only [if_neg hn, if_neg hout, hend]; rfl, hdata.leaves⟩

/-- Settles O45: where AUTH_OK is reported the tags agreed, and memory holds what `openRun_endsAs` says. -/
theorem releasedPlaintextIsAuthentic : Obligations.ReleasedPlaintextIsAuthentic := by
  unfold Obligations.ReleasedPlaintextIsAuthentic
  intro s t hdr ct trl h hwf hhdr hct htrl hpl he hrel
  have hok : t.authOk = true := by
    rw [mayReleaseOut, Bool.and_eq_true] at hrel; exact hrel.2
  obtain ⟨hn, hv, v, rfl, hdata⟩ := open_authOk h he hok
  obtain ⟨htag, hmem⟩ := hdata hdr ct trl hwf hhdr hct htrl hpl
  refine ⟨_, openBytes_of_tag hn (Memory.load_length hct) htag, ?_⟩
  have hlen : (openEnd (s.inLen.toNat - 32) true v).outLen.toNat = s.inLen.toNat - 32 :=
    (BitVec.toNat_ofNat _ _).trans (Nat.mod_eq_of_lt (Nat.lt_of_le_of_lt (Nat.sub_le _ _) s.inLen.isLt))
  rw [hlen]
  refine holds_store hwf hv ?_ hmem
  rw [length_processMessage, List.length_take, Memory.load_length hct]
  exact Nat.min_eq_left (Nat.sub_le _ _)

end Sys2Proof.Machine
end


section
/-! SUPPORT. The DMA primitives (20_memory.md R76, R77) and the commands NOP, ERASE and PERMUTE where nothing lands in them. -/

namespace Sys2Proof.Machine

/-! ## MemRead and MemWrite -/

theorem raiseError_completed (e : ErrCode) (s : State) : completedWith e (raiseError e s) :=
  ⟨rfl, rfl, rfl, rfl, rfl, rfl⟩

theorem raiseError_mem (e : ErrCode) (s : State) : (raiseError e s).mem = s.mem := by
  unfold raiseError; dsimp only; split <;> rfl

@[simp] theorem busFault_mem (x : Nat) (s : State) : (busFault x s).mem = s.mem := raiseError_mem _ _

theorem dmaBytes_getElem? (s : State) {a n j : Nat} (hj : j < n) : (dmaBytes s a n)[j]? = some (dmaByte s (a + j)) := by
  induction n generalizing a j with
  | zero => exact absurd hj (Nat.not_lt_zero j)
  | succ n ih =>
    cases j with
    | zero => rfl
    | succ j => rw [dmaBytes, List.getElem?_cons_succ, ih (Nat.lt_of_succ_lt_succ hj), Nat.add_right_comm, Nat.add_assoc]

/-- Settles O20: `dmaRead_quiet`, by the first refused byte. -/
theorem dmaReadAnswersOrFaults : Obligations.DmaReadAnswersOrFaults := by
  unfold Obligations.DmaReadAnswersOrFaults
  intro s a n hq hr
  refine ⟨fun hn => by rw [hn, dmaRead_zero], fun hn hok => ?_, fun j hj hno hbefore => ?_⟩
  · have hnone := firstRefused_eq_none.mpr hok
    refine ⟨dmaBytes (logEvent (.read a n) s) a n, nextDraw (logEvent (.read a n) s), ?_, dmaBytes_length _ _ _,
      fun j v hj hv => ?_, rfl⟩
    · rw [dmaRead_quiet hq, if_neg (Nat.pos_iff_ne_zero.mp hn), hnone]
    · rw [dmaBytes_getElem? _ hj, dmaByte, logEvent_raced, hr, logEvent_mem, hv]
      rfl
  · have hsome := firstRefused_eq_some.mpr ⟨j, hj, rfl, hno, hbefore⟩
    refine ⟨busFault (a + j) (logEvent (.read a n) s), ?_, raiseError_completed _ _, busFault_faultAddr _ _, busFault_mem _ _⟩
    rw [dmaRead_quiet hq, if_neg (by omega), hsome]

/-- Each of the first `k` bytes of a write of `v` to `a` is old or new, no other byte changes (20_memory.md R77). -/
def Torn (m m' : Memory) (a k : Nat) (v : List Byte) : Prop :=
  (∀ b, ¬ (a ≤ b ∧ b < a + k) → Memory.read m' b = Memory.read m b) ∧
  ∀ b, a ≤ b → b < a + k → Memory.read m' b = Memory.read m b ∨ Memory.read m' b = v[b - a]?

/-- A write cut short leaves some of the bytes before the first refused one. -/
theorem storeTorn_mem {s : State} (hr : s.raced = []) {a k : Nat} {v : List Byte}
    (hk : k ≤ v.length) (hok : ∀ j, j < k → memOk s.platform .write (a + j) = true)
    (hno : k < v.length → memOk s.platform .write (a + k) = false) :
    (storeTorn a v s).mem = tornStore s.draws s.mem a (v.take k) := by
  rw [storeTorn, setWritten_mem, answeredPart_eq hk hok hno, dmaStoredBytes_unraced hr]

theorem storeTorn_torn {s : State} (hr : s.raced = []) (hwf : Memory.wf s.mem = true) {a k : Nat} {v : List Byte}
    (hk : k ≤ v.length) (hok : ∀ j, j < k → memOk s.platform .write (a + j) = true)
    (hno : k < v.length → memOk s.platform .write (a + k) = false) : Torn s.mem (storeTorn a v s).mem a k v := by
  have hlen : (v.take k).length = k := List.length_take_of_le hk
  have hend : 0 < k → a + k ≤ 2 ^ 64 := fun h0 => by
    have hlast := hok (k - 1) (by omega)
    simp only [memOk, Bool.and_eq_true, decide_eq_true_eq] at hlast
    omega
  rw [storeTorn_mem hr hk hok hno]
  refine ⟨fun b hb => read_tornStore_beyond hwf _ (Bool.eq_false_iff.mpr fun hc => hb ?_), fun b hlow hhigh => ?_⟩
  · rw [Region.contains_iff, hlen] at hc; exact hc
  · have h := read_tornStore_inside hwf s.draws (a := a) (v.take k) (by rw [hlen]; exact hend (by omega)) (b := b)
      (by rw [hlen]; exact ⟨hlow, hhigh⟩)
    rwa [List.getElem?_take_of_lt (by omega)] at h

theorem isReset.isStall {p : Platform} {e : HostEvent} (h : isReset p e) : e.isStall = false := by
  cases e with
  | dmaStall => exact absurd h id
  | _ => rfl

theorem hostEvent_reset_leaves {s : State} {e : HostEvent} (h : isReset s.platform e) :
    (hostEvent e s).mem = s.mem ∧ (hostEvent e s).trace = s.trace ++ [.reset] ∧ (hostEvent e s).toEngine = Engine.reset := by
  obtain ⟨u, ho, he⟩ := hostEvent_of_reset h
  exact ⟨hostEvent_mem h.not_memWrite s, by rw [he, resetEngine_trace, ho.trace_eq], by rw [he]; rfl⟩

/-- A reset at the slot of a write (70_reset_and_hazards.md R241). -/
theorem dmaWrite_reset {s : State} {e : HostEvent} {rest : List Arrival} {inside : Bool} (hr : isReset s.platform e) (a : Nat)
    {v : List Byte} (hv : v ≠ []) (hi : s.inbox = ⟨.slot 0 inside, e⟩ :: rest) :
    dmaWrite a v s = .ended (hostEvent e (if inside then storeTorn a v (logEvent (.write a v.length) { s with inbox := rest })
      else { s with inbox := rest })) := by
  have hempty : ¬ v.isEmpty = true := fun h => hv (List.isEmpty_iff.mp h)
  rw [dmaWrite, if_neg hempty, hi, land_ended _ _ hr.isStall (hostEvent_reset_not_busy (by exact hr))]
  rfl

/-- Settles O21: `dmaWrite_quiet` by the first refused byte, and `storeTorn_torn` wherever the write is cut short. -/
theorem dmaWriteLandsOrTears : Obligations.DmaWriteLandsOrTears := by
  unfold Obligations.DmaWriteLandsOrTears
  refine ⟨fun s a v hq hr hwf => ⟨fun hv => by rw [hv, dmaWrite_nil], fun hok hv => ?_, fun j hj hno hbefore => ?_⟩,
    ?_⟩
  · have hempty : ¬ v.isEmpty = true := fun h => hv (List.isEmpty_iff.mp h)
    have hnone := firstRefused_eq_none.mpr hok
    refine ⟨storeAll a v (logEvent (.write a v.length) s), ?_, fun b => ?_, rfl⟩
    · rw [dmaWrite_quiet hq, if_neg hempty, hnone]
    · have hend : a + v.length ≤ 2 ^ 64 := by
        have h0 : 0 < v.length := List.length_pos_iff.mpr hv
        have hlast := hok (v.length - 1) (by omega)
        simp only [memOk, Bool.and_eq_true, decide_eq_true_eq] at hlast
        omega
      rw [storeAll, setWritten_mem, dmaStoredBytes_unraced (by exact hr)]
      exact Memory.read_store hwf v hend b
  · have hempty : ¬ v.isEmpty = true := fun h => by rw [List.isEmpty_iff.mp h] at hj; exact absurd hj (Nat.not_lt_zero j)
    have hsome := firstRefused_eq_some.mpr ⟨j, hj, rfl, hno, hbefore⟩
    refine ⟨busFault (a + j) (storeTorn a v (logEvent (.write a v.length) s)), ?_, raiseError_completed _ _,
      busFault_faultAddr _ _, ?_⟩
    · rw [dmaWrite_quiet hq, if_neg hempty, hsome]
    · rw [busFault_mem]
      exact storeTorn_torn (s := logEvent (.write a v.length) s) hr hwf (Nat.le_of_lt hj) hbefore fun _ => hno
  · intro s a k v rest inside e hb hr hwf hv hk hok hno torn resets
    have hempty : ¬ v.isEmpty = true := fun h => hv (List.isEmpty_iff.mp h)
    have htorn : torn (storeTorn a v (logEvent (.write a v.length) { s with inbox := rest })) :=
      storeTorn_torn (s := logEvent (.write a v.length) { s with inbox := rest }) hr hwf hk hok hno
    have hreset : resets → isReset s.platform e := by
      rintro (rfl | ⟨hw, x, hx, rfl⟩)
      · trivial
      · exact (isReset_iff hw _).mpr (.inr ⟨x, hx, rfl⟩)
    refine ⟨fun hi => ⟨_, ?_, htorn, rfl⟩, fun h hi => ⟨_, dmaWrite_reset (hreset h) a hv hi, ?_⟩,
      fun h hi => ⟨_, dmaWrite_reset (hreset h) a hv hi, ?_⟩⟩
    · rw [dmaWrite, if_neg hempty, hi, (land_dmaStall hb rest _ inside).1, Run.bind_ended]
    · obtain ⟨hm, ht, heng⟩ := hostEvent_reset_leaves
        (s := storeTorn a v (logEvent (.write a v.length) { s with inbox := rest })) (by exact hreset h)
      refine ⟨?_, ht.trans ?_, heng⟩
      · simp only [torn, if_true, hm]; exact htorn
      · simp [storeTorn]
    · exact hostEvent_reset_leaves (s := { s with inbox := rest }) (by exact hreset h)

/-! ## NOP and ERASE -/

/-- Settles O22: NOP is its acceptance and its completion. -/
theorem nopOnlyCompletes : Obligations.NopOnlyCompletes := by
  unfold Obligations.NopOnlyCompletes
  intro s h
  have he : exec .nop s = .next (complete .noError (accept 0x00 (some .nop) s)) :=
    congrArg Host.Outcome.next (issue_quiet h _ _ _)
  exact ⟨_, he, (quiet_completes h he).1, rfl, ⟨rfl, rfl⟩, rfl, rfl, ⟨rfl, rfl, rfl, rfl⟩, (quiet_completes h he).2.2.1, rfl, rfl,
    rfl, rfl, rfl, rfl, by simp⟩

/-- Settles O23: ERASE is its acceptance, its wipe and its completion. -/
theorem eraseWipesEverything : Obligations.EraseWipesEverything := by
  unfold Obligations.EraseWipesEverything
  intro s h
  have he : exec .erase s = .next (complete .noError (setOutLen 0
      (wipe (logEvent (.enter .wipe) (setPhase .wipe (accept 0x04 (some .erase) s)))))) := by
    refine congrArg Host.Outcome.next ((issue_quiet h _ _ _).trans ?_)
    have hc : Calm (accept 0x04 (some .erase) s) := calm_accept h .erase
    rw [wipePhase_quiet hc]; rfl
  exact ⟨_, he, (quiet_completes h he).1, rfl, ⟨rfl, rfl⟩, rfl, rfl, ⟨rfl, rfl, rfl, rfl⟩, ⟨rfl, rfl, rfl, rfl, rfl⟩,
    (quiet_completes h he).2.2.1, rfl, by simp [wipe]⟩

/-! ## PERMUTE -/

/-- The state in which PERMUTE checks its regions. -/
def enteredPerm (r : Nat) (s : State) : State :=
  logEvent (.enter .perm) (setPhase .perm (accept 0x03 (some (.permute r)) s))

/-- PERMUTE between its read of `b` and its write. -/
def permuted (r : Nat) (s : State) (b : List Byte) : State :=
  logEvent (.permute none r)
    (setSponge (F r (loadSponge b)) (nextDraw (logEvent (.read s.inAddr.toNat 128) (enteredPerm r s))))

theorem exec_permute_quiet {s : State} (h : idleQuiet s) (r : Nat) :
    exec (.permute r) s = .next (if !validRegion ⟨s.inAddr.toNat, 128⟩ || !validRegion (s.out 128) then
      Run.ended (raiseError .badRange (enteredPerm r s))
    else (dmaRead s.inAddr.toNat 128 (enteredPerm r s)).bind fun b t =>
      let t := logEvent (.permute none r) (setSponge (F r (loadSponge b)) t)
      (dmaWrite t.outAddr.toNat (spongeBytes t.S) t).bind fun _ t =>
      .ok () (complete .noError (setOutLen 128 (setSponge zeroSponge t)))).state := by
  have hq : quiet (accept 0x03 (some (.permute r)) s) = true := h.2
  refine congrArg Host.Outcome.next ((issue_quiet h _ _ _).trans ?_)
  rw [permuteBody, enter_quiet hq]; rfl

theorem exec_permute_read {s : State} (h : idleQuiet s) (r : Nat) (hi : validRegion ⟨s.inAddr.toNat, 128⟩ = true)
    (ho : validRegion (s.out 128) = true) (hr : firstRefused s.platform .read s.inAddr.toNat 128 = none) :
    ∃ b, b = dmaBytes (logEvent (.read s.inAddr.toNat 128) (enteredPerm r s)) s.inAddr.toNat 128 ∧
      exec (.permute r) s = .next ((dmaWrite s.outAddr.toNat (spongeBytes (F r (loadSponge b))) (permuted r s b)).bind fun _ t =>
        .ok () (complete .noError (setOutLen 128 (setSponge zeroSponge t)))).state := by
  have hq : quiet (enteredPerm r s) = true := h.2
  refine ⟨_, rfl, ?_⟩
  rw [exec_permute_quiet h, hi, ho, dmaRead_quiet hq, if_neg (by decide : ¬ (128 : Nat) = 0)]
  change Host.Outcome.next (Run.bind (match firstRefused s.platform .read s.inAddr.toNat 128 with
    | some x => _ | none => _) _).state = _
  rw [hr]; rfl

theorem length_spongeBytes (S : Sponge) : (spongeBytes S).length = 128 := by
  rw [spongeBytes, List.length_append]; rfl

theorem spongeBytes_not_empty (S : Sponge) : ¬ (spongeBytes S).isEmpty = true := by
  rw [List.isEmpty_iff_length_eq_zero, length_spongeBytes]; decide

theorem validRegion_of_answered {p : Platform} {d : Dir} {r : Region} (h : answered p d r) : validRegion r = true := by
  rw [validRegion, Bool.or_eq_true, decide_eq_true_eq, decide_eq_true_eq]
  by_cases h0 : r.len = 0
  · exact .inl h0
  · have hlast := h (r.addr + (r.len - 1)) (Region.contains_iff.mpr (by omega))
    simp only [memOk, Bool.and_eq_true, decide_eq_true_eq] at hlast
    omega

/-- Settles O24: the read returns the bytes, the write leaves F of them. -/
theorem permuteAppliesF : Obligations.PermuteAppliesF := by
  unfold Obligations.PermuteAppliesF
  intro s r b h hwf hin hout hb
  have hv := validRegion_of_answered hout
  obtain ⟨b', hb', he⟩ := exec_permute_read h r (validRegion_of_answered hin) hv (firstRefused_answered hin)
  obtain rfl : b' = b := hb'.trans (dmaBytes_load rfl hb)
  have hq : quiet (permuted r s b') = true := h.2
  have hnone : firstRefused (permuted r s b').platform .write s.outAddr.toNat (spongeBytes (F r (loadSponge b'))).length = none :=
    firstRefused_answered hout
  rw [dmaWrite_quiet hq, if_neg (spongeBytes_not_empty _), hnone] at he
  have hc := quiet_completes h he
  refine ⟨_, he, hc.1, rfl, ⟨rfl, rfl⟩, rfl, rfl, ?_, commandsWriteOnlyTheirOutput.1 s _ (.permute r) h hwf he,
    ⟨rfl, rfl, rfl, rfl⟩, hc.2.2.1, rfl, rfl, rfl, rfl, rfl, ?_⟩
  · refine holds_store hwf hv (length_spongeBytes _) ?_
    exact congrArg (Memory.store s.mem s.outAddr.toNat) (dmaStoredBytes_unraced rfl _ _)
  · simp [storeAll, permuted, enteredPerm, length_spongeBytes]

/-- What every error of PERMUTE leaves, where the command has come to `w` with the accesses `made` (60_exceptions.md R212). -/
theorem permute_error {s w t : State} {r : Nat} {e : ErrCode} {made : List EngineEvent} (h : idleQuiet s)
    (he : exec (.permute r) s = .next t) (ht : t = raiseError e w)
    (hrun : w.running = some (.permute r)) (hw : dmaOf w.trace = dmaOf s.trace ++ made) (hsec : sameSecrets s w) :
    completedWith e t ∧ t.lastOpc = 0x03 ∧ authIs false false t ∧ t.outLen = 0 ∧ t.faultAddr = w.faultAddr ∧
      dmaOf t.trace = dmaOf s.trace ++ made ∧ sameSecrets s t ∧ sameAround s t ∧ transientsErased t := by
  obtain ⟨-, hop, ha, -⟩ := quiet_completes h he
  rw [raiseError_other hrun (by simp [IsMessage])] at ht
  subst ht
  refine ⟨⟨rfl, rfl, rfl, rfl, rfl, rfl⟩, hop, ⟨rfl, rfl⟩, rfl, rfl, ?_, hsec, ha, ⟨rfl, rfl, rfl, rfl, rfl⟩⟩
  simp only [complete_trace, setAuth_trace, setOutLen_trace, eraseTransients_trace, dmaOf_append, hw]
  exact List.append_nil _

theorem dmaOf_enteredPerm (r : Nat) (s : State) : dmaOf (enteredPerm r s).trace = dmaOf s.trace := by
  simp only [enteredPerm, logEvent_trace, setPhase_trace, accept_trace, dmaOf_append]
  exact (List.append_nil _).trans (List.append_nil _)

theorem toNat_faultAddr {a : Word} {j : Nat} (hv : validRegion ⟨a.toNat, 128⟩ = true) (hj : j < 128) :
    (BitVec.ofNat 64 (a.toNat + j)).toNat = a.toNat + j := by
  have hend : a.toNat + 128 ≤ 2 ^ 64 := validRegion_end (r := ⟨a.toNat, 128⟩) a.isLt hv
  rw [BitVec.toNat_ofNat, Nat.mod_eq_of_lt (by omega)]

/-- Settles O25: the three places at which PERMUTE can fail, each by `permute_error`. -/
theorem permuteErrorsKeepTheKey : Obligations.PermuteErrorsKeepTheKey := by
  unfold Obligations.PermuteErrorsKeepTheKey
  intro s r h hwf endsWith
  have hq : quiet (enteredPerm r s) = true := h.2
  refine ⟨fun hbad => ?_, fun hin hout j hj hno hbefore => ?_, fun hin hout j hj hno hbefore => ?_⟩
  · have he : exec (.permute r) s = .next (raiseError .badRange (enteredPerm r s)) := by
      have hor : (!validRegion ⟨s.inAddr.toNat, 128⟩ || !validRegion (s.out 128)) = true := by
        rcases hbad with hbad | hbad <;> simp [hbad]
      rw [exec_permute_quiet h, if_pos hor]; rfl
    obtain ⟨hc, hop, ha, hl, hf, hd, hs, har, htr⟩ := permute_error (made := []) h he rfl rfl
      ((dmaOf_enteredPerm r s).trans (List.append_nil _).symm) ⟨rfl, rfl, rfl, rfl⟩
    have hm : (raiseError .badRange (enteredPerm r s)).mem = s.mem := raiseError_mem _ _
    exact ⟨_, he, hc, hop, ha, hl, by rw [hf]; rfl, hd, fun a _ => by rw [hm], fun _ => hm, hs, har, htr⟩
  · have hsome : firstRefused (enteredPerm r s).platform .read s.inAddr.toNat 128 = some (s.inAddr.toNat + j) :=
      firstRefused_eq_some.mpr ⟨j, hj, rfl, hno, hbefore⟩
    have he : exec (.permute r) s =
        .next (busFault (s.inAddr.toNat + j) (logEvent (.read s.inAddr.toNat 128) (enteredPerm r s))) := by
      rw [exec_permute_quiet h, hin, hout, dmaRead_quiet hq, if_neg (by decide : ¬ (128 : Nat) = 0), hsome]; rfl
    obtain ⟨hc, hop, ha, hl, hf, hd, hs, har, htr⟩ := permute_error (made := [.read s.inAddr.toNat 128]) h he rfl rfl
      (by
        change dmaOf ((enteredPerm r s).trace ++ [.read s.inAddr.toNat 128]) = _
        rw [dmaOf_append, dmaOf_enteredPerm]; rfl) ⟨rfl, rfl, rfl, rfl⟩
    have hm := busFault_mem (s.inAddr.toNat + j) (logEvent (.read s.inAddr.toNat 128) (enteredPerm r s))
    refine ⟨_, he, hc, hop, ha, hl, ?_, hd, fun a _ => by rw [hm]; rfl, fun _ => hm, hs, har, htr⟩
    rw [hf]; exact toNat_faultAddr hin hj
  · obtain ⟨b, -, he⟩ := exec_permute_read h r (validRegion_of_answered hin) hout (firstRefused_answered hin)
    have hqp : quiet (permuted r s b) = true := h.2
    have hlen := length_spongeBytes (F r (loadSponge b))
    have hsome : firstRefused (permuted r s b).platform .write s.outAddr.toNat (spongeBytes (F r (loadSponge b))).length =
        some (s.outAddr.toNat + j) := firstRefused_eq_some.mpr ⟨j, by rw [hlen]; exact hj, rfl, hno, hbefore⟩
    rw [dmaWrite_quiet hqp, if_neg (spongeBytes_not_empty _), hsome, Run.bind_ended, Run.state_ended] at he
    obtain ⟨hc, hop, ha, hl, hf, hd, hs, har, htr⟩ := permute_error
      (made := [.read s.inAddr.toNat 128, .write s.outAddr.toNat 128]) h he rfl rfl
      (by
        change dmaOf ((enteredPerm r s).trace ++ [.read s.inAddr.toNat 128] ++ [.permute none r] ++ [.write s.outAddr.toNat _]) = _
        rw [hlen]
        simp only [dmaOf_append, dmaOf_enteredPerm, List.append_assoc]; rfl) ⟨rfl, rfl, rfl, rfl⟩
    let w := logEvent (.write s.outAddr.toNat (spongeBytes (F r (loadSponge b))).length) (permuted r s b)
    have hle : j ≤ (spongeBytes (F r (loadSponge b))).length := by rw [hlen]; exact Nat.le_of_lt hj
    have htorn := storeTorn_torn (s := w) rfl hwf hle hbefore fun _ => hno
    have hmem := storeTorn_mem (s := w) rfl hle hbefore fun _ => hno
    refine ⟨_, he, hc, hop, ha, hl, ?_, hd, fun a hna => ?_, ?_, hs, har, htr⟩
    · rw [hf]; exact toNat_faultAddr hout hj
    · rw [busFault_mem]
      exact htorn.1 a fun hb => Bool.eq_false_iff.mp hna (Region.contains_iff.mpr hb)
    · rintro rfl
      rw [busFault_mem]; exact hmem

end Sys2Proof.Machine
end


section
/-! SUPPORT. Two runs of one command side by side: what holds of every pair of operations (`TwoRuns`) holds of the two commands,
by one walk through the orchestrator. Used for commands on different data, and for a command met by outside events and the same
command alone. -/

namespace Sys2Proof.Machine

/-- Two parts of commands that both go on, with related values and states, or both have ended, in related states. -/
def Run.Both {α : Type} (R E : State → State → Prop) (Q : α → α → Prop) : Run α → Run α → Prop
  | .ok a t, .ok a' t' => Q a a' ∧ R t t'
  | .ended t, .ended t' => E t t'
  | _, _ => False

/-- Command `i`, started with the operands of `s`, on two states: the relation of the states while both run, that of the states in
which they end, that of the byte strings they hold, and that every operation keeps them. -/
structure TwoRuns (i : Instr) (s : State) (R E : State → State → Prop) (V : List Byte → List Byte → Prop) : Prop where
  busy {u u' : State} : R u u' → u.busy = true
  operands {u u' : State} : R u u' → sameOperands s u ∧ sameOperands s u'
  control {u u' : State} : R u u' → u'.k = u.k ∧ u'.keyMask = u.keyMask ∧ u'.nonceMask = u.nonceMask
  length {v v' : List Byte} : V v v' → v'.length = v.length
  slot {u u' : State} : R u u' → (slot u).Both R E (fun _ _ => True) (slot u')
  read {u u' : State} {a n : Nat} : R u u' → Region.coveredBy ⟨a, n⟩ (inputRegions i s) →
    (dmaRead a n u).Both R E V (dmaRead a n u')
  write {u u' : State} {a : Nat} {v v' : List Byte} : R u u' → V v v' → Region.coveredBy ⟨a, v.length⟩ [outputRegion i s] →
    (dmaWrite a v u).Both R E (fun _ _ => True) (dmaWrite a v' u')
  enters {u u' : State} (p : Phase) : R u u' → R (logEvent (.enter p) (setPhase p u)) (logEvent (.enter p) (setPhase p u'))
  codec {u u' : State} {b b' : List Byte} (g : Tag) (n : Nat) (c : List Byte → Sponge → List Byte)
    (f : List Byte → Sponge → Sponge) : R u u' → V b b' →
    R (codecStep g n (c b u.S) (f b u.S) u) (codecStep g n (c b' u'.S) (f b' u'.S) u')
  output {u u' : State} {b b' : List Byte} (c : List Byte → Sponge → List Byte) : R u u' → V b b' →
    (∀ x x' S S', x'.length = x.length → (c x' S').length = (c x S).length) → V (c b u.S) (c b' u'.S)
  count {u u' : State} : R u u' → R (countBlock u) (countBlock u')
  erase {u u' : State} : R u u' → R (eraseBlk u) (eraseBlk u')
  init {u u' : State} (n : Nat) : R u u' → R (initStep n u) (initStep n u')
  final {u u' : State} (n : Nat) : R u u' → R (finalStep n u) (finalStep n u')
  tag {u u' : State} : R u u' → V u.tag.toList u'.tag.toList
  permute {u u' : State} {b b' : List Byte} (r : Nat) : R u u' → V b b' →
    R (logEvent (.permute none r) (setSponge (F r (loadSponge b)) u))
      (logEvent (.permute none r) (setSponge (F r (loadSponge b')) u'))
  sponge {u u' : State} : R u u' → V (spongeBytes u.S) (spongeBytes u'.S)
  wipe {u u' : State} : R u u' → R (wipe u) (wipe u')
  zero {u u' : State} : R u u' → R (setSponge zeroSponge u) (setSponge zeroSponge u')
  raises {u u' : State} (e : ErrCode) : R u u' → E (raiseError e u) (raiseError e u')
  completes {u u' : State} : R u u' → E (complete .noError u) (complete .noError u')
  reports {u u' : State} (v : Word) : R u u' → E (complete .noError (setOutLen v u)) (complete .noError (setOutLen v u'))

/-- What OPEN needs besides: that the two comparisons agree. -/
structure TwoOpens (s : State) (R E : State → State → Prop) (V : List Byte → List Byte → Prop) : Prop
    extends TwoRuns .openMsg s R E V where
  tagBuf {u u' : State} {b b' : List Byte} : R u u' → V b b' → R (loadTagBuf b u) (loadTagBuf b' u')
  compare {u u' : State} : R u u' → R (compareTags u) (compareTags u') ∧ (compareTags u').diff = (compareTags u).diff
  zeros (n : Nat) : V (zeros n) (zeros n)
  opens {u u' : State} (v : Word) (ok : Bool) : R u u' →
    E (complete .noError (setOutLen v (setAuth ok (!ok) u))) (complete .noError (setOutLen v (setAuth ok (!ok) u')))
  short {u u' : State} : R u u' → E (openShort u) (openShort u')

section Walk
variable {α β : Type} {i : Instr} {s : State} {R E : State → State → Prop} {V : List Byte → List Byte → Prop} {u u' : State}

theorem Run.Both.bind {Q : α → α → Prop} {P : β → β → Prop} {r r' : Run α} {f f' : α → State → Run β} (h : r.Both R E Q r')
    (hf : ∀ a a' t t', r = .ok a t → Q a a' → R t t' → (f a t).Both R E P (f' a' t')) :
    (r.bind f).Both R E P (r'.bind f') := by
  cases r with
  | ok a t => cases r' with
    | ok a' t' => exact hf a a' t t' rfl h.1 h.2
    | ended t' => exact absurd h id
  | ended t => cases r' with
    | ok a' t' => exact absurd h id
    | ended t' => exact h

theorem Run.Both.finish {Q : α → α → Prop} {r r' : Run α} {f f' : α → State → Run β} (h : r.Both R E Q r')
    (hf : ∀ a a' t t', r = .ok a t → Q a a' → R t t' → E (f a t).state (f' a' t').state) :
    E (r.bind f).state (r'.bind f').state := by
  cases r with
  | ok a t => cases r' with
    | ok a' t' => exact hf a a' t t' rfl h.1 h.2
    | ended t' => exact absurd h id
  | ended t => cases r' with
    | ok a' t' => exact absurd h id
    | ended t' => exact h

/-! ## What a part that goes on leaves of `k` -/

theorem enter_ok {p : Phase} {t : State} (hb : u.busy = true) (h : enter p u = .ok () t) : t.k = 0 := by
  rcases enter_cases hb p with ⟨v, hv, ho⟩ | ⟨v, _, hv⟩
  · obtain ⟨-, rfl⟩ := Run.ok.inj (hv.symm.trans h)
    exact ho.k_eq
  · exact nomatch hv.symm.trans h

theorem dmaRead_ok {a n : Nat} {b : List Byte} {t : State} (hb : u.busy = true) (h : dmaRead a n u = .ok b t) :
    t.k = u.k ∧ b.length = n := by
  by_cases hn : n = 0
  · subst hn
    obtain ⟨rfl, rfl⟩ := Run.ok.inj ((dmaRead_zero a u).symm.trans h)
    exact ⟨rfl, rfl⟩
  · obtain ⟨v, ho, ⟨_, hv⟩ | ⟨_, _, hv⟩ | hv | ⟨_, _, hv⟩ | hv⟩ := dmaRead_cases hb a hn
    · obtain ⟨rfl, rfl⟩ := Run.ok.inj (hv.symm.trans h)
      exact ⟨ho.k_eq, dmaBytes_length _ _ _⟩
    all_goals exact nomatch hv.symm.trans h

theorem dmaWrite_ok {a : Nat} {v : List Byte} {x : Unit} {t : State} (hb : u.busy = true) (h : dmaWrite a v u = .ok x t) :
    t.k = u.k := by
  cases hv : v.isEmpty with
  | true =>
    rw [List.isEmpty_iff.mp hv, dmaWrite_nil] at h
    obtain ⟨-, rfl⟩ := Run.ok.inj h
    rfl
  | false =>
    obtain ⟨w, ho, ⟨_, hw⟩ | ⟨_, _, hw⟩ | hw | ⟨_, _, hw⟩ | hw⟩ := dmaWrite_cases hb a hv
    · obtain ⟨-, rfl⟩ := Run.ok.inj (hw.symm.trans h)
      exact ho.k_eq
    all_goals exact nomatch hw.symm.trans h

/-! ## The walk -/

/-- Registers that a state with the operands of `s` shares with it. -/
theorem sameOperands.regs (h : sameOperands s u) : u.rounds = s.rounds ∧ u.hdr = s.hdr ∧ u.inp = s.inp ∧ u.trl = s.trl ∧
    u.inAddr = s.inAddr ∧ u.inLen = s.inLen ∧ u.outAddr = s.outAddr ∧ u.platform = s.platform ∧ u.out = s.out := by
  obtain ⟨hr, hha, hhl, hia, hil, hta, htl, hoa, hp⟩ := h
  exact ⟨hr, by simp only [State.hdr, hha, hhl], by simp only [State.inp, hia, hil], by simp only [State.trl, hta, htl], hia, hil,
    hoa, hp, funext fun n => by simp only [State.out, hoa]⟩

theorem length_cryptLast_min (d : CryptDir) (R : Nat) (b : List Byte) (S : Sponge) :
    (cryptLast d R b S).1.length = min b.length 96 := by
  cases d <;> exact List.length_take

section General
variable (T : TwoRuns i s R E V)
include T

theorem TwoRuns.enter (h : R u u') (p : Phase) : (enter p u).Both R E (fun _ _ => True) (enter p u') :=
  T.slot (T.enters p h)

theorem TwoRuns.wipePhase (h : R u u') : (wipePhase u).Both R E (fun _ _ => True) (wipePhase u') :=
  (T.enter h .wipe).bind fun _ _ _ _ _ _ h => T.slot (T.wipe h)

theorem TwoRuns.absorbBlocks (h : R u u') {r : Region} (hc : r.coveredBy (inputRegions i s)) (g : Tag) (n : Nat) {left : Nat}
    (hk : 96 * (u.k + left) ≤ r.len) :
    (absorbBlocks r.addr g n left u).Both R E (fun _ _ => True) (absorbBlocks r.addr g n left u') := by
  induction left generalizing u u' with
  | zero => exact ⟨trivial, h⟩
  | succ left ih =>
    unfold Machine.absorbBlocks
    rw [(T.control h).1]
    refine (T.read h (hc.sub (by omega) (by omega))).bind fun b b' t t' hr hv ht => ?_
    refine ih (T.count (T.codec g n (fun b _ => b) (absorbBlock g n) ht hv)) ?_
    simp only [countBlock_k, Machine.codecStep, setSponge_k, logEvent_k, setBlk_k, (dmaRead_ok (T.busy h) hr).1]
    omega

theorem TwoRuns.absorbRegion (h : R u u') {r : Region} (hc : r.coveredBy (inputRegions i s)) (hk : u.k = 0) (g : Tag) (n : Nat) :
    (absorbRegion r g n u).Both R E (fun _ _ => True) (absorbRegion r g n u') := by
  obtain ⟨-, -, -, -, -, -, -, hp, -⟩ := (T.operands h).1.regs
  obtain ⟨-, -, -, -, -, -, -, hp', -⟩ := (T.operands h).2.regs
  unfold Machine.absorbRegion
  rw [hp, hp']
  split
  · exact ⟨trivial, h⟩
  · refine (T.absorbBlocks h hc g n (by omega)).bind fun _ _ t t' _ _ ht => ?_
    refine (T.read ht (hc.sub (by omega) (by omega))).bind fun b b' w w' _ hv hw => ?_
    exact ⟨trivial, T.erase (T.codec g n (fun b _ => pad b) (absorbLast g n) hw hv)⟩

theorem TwoRuns.cryptBlocks (h : R u u') (d : CryptDir) (R' : Nat) {ia oa n : Nat}
    (hin : Region.coveredBy ⟨ia, n⟩ (inputRegions i s)) (hout : Region.coveredBy ⟨oa, n⟩ [outputRegion i s])
    {left : Nat} (hk : 96 * (u.k + left) ≤ n) :
    (cryptBlocks ia oa d R' left u).Both R E (fun _ _ => True) (cryptBlocks ia oa d R' left u') := by
  induction left generalizing u u' with
  | zero => exact ⟨trivial, h⟩
  | succ left ih =>
    unfold Machine.cryptBlocks
    rw [(T.control h).1]
    refine (T.read h (hin.sub (by simp only; omega) (by simp only; omega))).bind fun b b' t t' hr hv ht => ?_
    have hkt := (dmaRead_ok (T.busy h) hr).1
    have hstep := T.codec .payload R' (fun b _ => b) (fun b S => (cryptBlock d R' b S).2) ht hv
    have hval := T.output (fun b S => (cryptBlock d R' b S).1) ht hv fun _ _ _ _ _ => by
      rw [length_cryptBlock, length_cryptBlock]
    rw [(T.control ht).1]
    refine (T.write hstep hval (hout.sub ?_ ?_)).bind fun _ _ w w' hw _ hww => ?_
    · simp only; omega
    · simp only [length_cryptBlock]; omega
    · refine ih (T.count hww) ?_
      rw [countBlock_k, dmaWrite_ok (T.busy hstep) hw]
      simp only [Machine.codecStep, setSponge_k, logEvent_k, setBlk_k]
      omega

theorem TwoRuns.cryptRegion (h : R u u') (d : CryptDir) (R' : Nat) {ia oa n : Nat}
    (hin : Region.coveredBy ⟨ia, n⟩ (inputRegions i s)) (hout : Region.coveredBy ⟨oa, n⟩ [outputRegion i s]) (hk : u.k = 0) :
    (cryptRegion ia oa n d R' u).Both R E (fun _ _ => True) (cryptRegion ia oa n d R' u') := by
  obtain ⟨-, -, -, -, -, -, -, hp, -⟩ := (T.operands h).1.regs
  obtain ⟨-, -, -, -, -, -, -, hp', -⟩ := (T.operands h).2.regs
  unfold Machine.cryptRegion
  rw [hp, hp']
  split
  · exact ⟨trivial, h⟩
  · refine (T.cryptBlocks h d R' hin hout (by omega)).bind fun _ _ t t' _ _ ht => ?_
    refine (T.read ht (hin.sub (by simp only; omega) (by simp only; omega))).bind fun b b' w w' hr hv hw => ?_
    have hval := T.output (fun b S => (cryptLast d R' b S).1) hw hv fun x x' _ _ hx => by
      rw [length_cryptLast_min, length_cryptLast_min, hx]
    refine (T.write (T.erase (T.codec .payload R' (cryptTailBlock d R') (fun b S => (cryptLast d R' b S).2) hw hv)) hval
      (hout.sub ?_ ?_)).bind fun _ _ _ _ _ _ hx => ⟨trivial, T.erase hx⟩
    · simp only; omega
    · rw [length_cryptLast_min, (dmaRead_ok (T.busy ht) hr).2]; simp only; omega

theorem TwoRuns.messagePhases (h : R u u') (hi : IsMessage i) (d : CryptDir) (R' : Nat) {n : Nat}
    (hh : validRegion s.hdr = true) (ht : validRegion s.trl = true)
    (hin : Region.coveredBy ⟨s.inAddr.toNat, n⟩ (inputRegions i s))
    (hout : Region.coveredBy ⟨s.outAddr.toNat, n⟩ [outputRegion i s]) :
    (messagePhases d n R' u).Both R E (fun _ _ => True) (messagePhases d n R' u') := by
  have hhdr : s.hdr.coveredBy (inputRegions i s) := .of_valid (by simp [hi.inputs]) s.hdrAddr.isLt hh
  have htrl : s.trl.coveredBy (inputRegions i s) := .of_valid (by simp [hi.inputs]) s.trlAddr.isLt ht
  refine (T.enter (T.init R' h) .header).bind fun _ _ v v' hr _ hv => ?_
  obtain ⟨⟨-, eh, -⟩, ⟨-, eh', -⟩⟩ := And.intro (T.operands hv).1.regs (T.operands hv).2.regs
  rw [eh, eh']
  refine (T.absorbRegion hv hhdr (enter_ok (T.busy (T.init R' h)) hr) .header R').bind fun _ _ v v' _ _ hv => ?_
  refine (T.enter hv .payload).bind fun _ _ w w' hr _ hw => ?_
  obtain ⟨-, -, -, -, ei, -, eo, -⟩ := (T.operands hw).1.regs
  obtain ⟨-, -, -, -, ei', -, eo', -⟩ := (T.operands hw).2.regs
  rw [ei, ei', eo, eo']
  refine (T.cryptRegion hw d R' hin hout (enter_ok (T.busy hv) hr)).bind fun _ _ v v' _ _ hv => ?_
  refine (T.enter hv .trailer).bind fun _ _ w w' hr _ hw => ?_
  obtain ⟨-, -, -, et, -⟩ := (T.operands hw).1.regs
  obtain ⟨-, -, -, et', -⟩ := (T.operands hw).2.regs
  rw [et, et']
  refine (T.absorbRegion hw htrl (enter_ok (T.busy hv) hr) .trailer R').bind fun _ _ v v' _ _ hv => ?_
  exact (T.enter hv .final).bind fun _ _ w w' _ _ hw => ⟨trivial, T.final R' hw⟩

theorem TwoRuns.inputCheck (h : R u u') : inputCheck u' = inputCheck u := by
  obtain ⟨hr, hh, hi, ht, -⟩ := (T.operands h).1.regs
  obtain ⟨hr', hh', hi', ht', -⟩ := (T.operands h).2.regs
  obtain ⟨-, hkm, hnm⟩ := T.control h
  simp only [Machine.inputCheck, hr, hh, hi, ht, hr', hh', hi', ht', hkm, hnm]

end General

/-! ## Whole commands -/

theorem TwoRuns.sealRun (T : TwoRuns .sealMsg s R E V) (h : R u u') (hc : Machine.inputCheck u = none)
    (ho : sealOutputOk u = true) : E (sealRun u).state (sealRun u').state := by
  obtain ⟨er, eh, ei, et, -, en, -, -, eo⟩ := (T.operands h).1.regs
  obtain ⟨er', -, -, -, -, en', -, -, -⟩ := (T.operands h).2.regs
  obtain ⟨-, -, -, hh, hin, ht⟩ := inputCheck_eq_none hc
  rw [eh] at hh; rw [ei] at hin; rw [et] at ht
  rw [sealOutputOk, eo, en, Bool.and_eq_true] at ho
  have hinput : s.inp.coveredBy (inputRegions .sealMsg s) := .of_valid (by simp [inputRegions]) s.inAddr.isLt hin
  have hout : (outputRegion .sealMsg s).coveredBy [outputRegion .sealMsg s] := .of_valid (by simp) s.outAddr.isLt ho.2
  unfold Machine.sealRun
  rw [en, en', er, er']
  refine (T.messagePhases h (.inl rfl) .enc _ hh ht hinput (hout.sub (Nat.le_refl _) ?_)).finish fun _ _ w w' _ _ hw => ?_
  · simp only [outputRegion, State.out]; omega
  obtain ⟨-, -, -, -, -, -, ea, -⟩ := (T.operands hw).1.regs
  obtain ⟨-, -, -, -, -, -, ea', -⟩ := (T.operands hw).2.regs
  rw [ea, ea']
  refine (T.write hw (T.tag hw) (hout.sub ?_ ?_)).finish fun _ _ v v' _ _ hv => ?_
  · simp only [outputRegion, State.out]; omega
  · simp only [outputRegion, State.out, Vector.length_toList]; omega
  exact (T.wipePhase hv).finish fun _ _ _ _ _ _ hx => T.reports _ hx

theorem TwoRuns.sealBody (T : TwoRuns .sealMsg s R E V) (h : R u u') : E (sealBody u).state (sealBody u').state := by
  refine (T.enter h .init).finish fun _ _ w w' _ _ hw => ?_
  obtain ⟨-, -, -, -, -, en, -, -, eo⟩ := (T.operands hw).1.regs
  obtain ⟨-, -, -, -, -, en', -, -, eo'⟩ := (T.operands hw).2.regs
  have hok : sealOutputOk w' = sealOutputOk w := by rw [sealOutputOk, sealOutputOk, eo, eo', en, en']
  rw [T.inputCheck hw, hok]
  cases hc : Machine.inputCheck w with
  | some e => exact T.raises e hw
  | none =>
    cases ho : sealOutputOk w with
    | false => exact T.raises .badRange hw
    | true => exact T.sealRun hw hc ho

theorem TwoOpens.openRun (T : TwoOpens s R E V) (h : R u u') (hc : Machine.inputCheck u = none) (ho : openOutputOk u = true)
    (hn : 32 ≤ s.inLen.toNat) : E (openRun u).state (openRun u').state := by
  obtain ⟨er, eh, ei, et, ea, en, -, -, eo⟩ := (T.operands h).1.regs
  obtain ⟨-, -, -, -, ea', en', -, -, -⟩ := (T.operands h).2.regs
  obtain ⟨-, -, -, hh, hin, ht⟩ := inputCheck_eq_none hc
  rw [eh] at hh; rw [ei] at hin; rw [et] at ht
  rw [openOutputOk, eo, en] at ho
  have hinput : s.inp.coveredBy (inputRegions .openMsg s) := .of_valid (by simp [inputRegions]) s.inAddr.isLt hin
  have hout : (outputRegion .openMsg s).coveredBy [outputRegion .openMsg s] := .of_valid (by simp) s.outAddr.isLt ho
  have hinp : s.inp = ⟨s.inAddr.toNat, s.inLen.toNat⟩ := rfl
  unfold Machine.openRun
  rw [en, en', ea, ea']
  refine (T.read h (hinput.sub ?_ ?_)).finish fun b b' w w' _ hv hw => ?_
  · simp only [hinp]; omega
  · simp only [hinp]; omega
  rw [(T.operands hw).1.regs.1, (T.operands hw).2.regs.1]
  refine (T.messagePhases (T.tagBuf hw hv) (.inr rfl) .dec _ hh ht (hinput.sub (Nat.le_refl _) ?_) hout).finish
    fun _ _ v v' _ _ hx => ?_
  · simp only [hinp]; omega
  obtain ⟨hcmp, hdiff⟩ := T.compare hx
  obtain ⟨-, -, -, -, -, -, ev, -⟩ := (T.operands hcmp).1.regs
  obtain ⟨-, -, -, -, -, -, ev', -⟩ := (T.operands hcmp).2.regs
  dsimp only
  rw [hdiff, ev, ev']
  refine Run.Both.finish (Q := fun _ _ => True) (R := R) ?_ fun _ _ y y' _ _ hy =>
    (T.wipePhase hy).finish fun _ _ _ _ _ _ hz => T.opens _ _ hz
  split
  · exact ⟨trivial, hcmp⟩
  · refine T.write hcmp (T.zeros _) (hout.sub (Nat.le_refl _) ?_)
    simp [Machine.zeros, outputRegion, State.out]

theorem TwoOpens.openBody (T : TwoOpens s R E V) (h : R u u') : E (openBody u).state (openBody u').state := by
  refine (T.enter h .init).finish fun _ _ w w' _ _ hw => ?_
  obtain ⟨-, -, -, -, -, en, -, -, eo⟩ := (T.operands hw).1.regs
  obtain ⟨-, -, -, -, -, en', -, -, eo'⟩ := (T.operands hw).2.regs
  have hok : openOutputOk w' = openOutputOk w := by rw [openOutputOk, openOutputOk, eo, eo', en, en']
  rw [T.inputCheck hw, hok, en, en']
  cases hc : Machine.inputCheck w with
  | some e => exact T.raises e hw
  | none =>
    by_cases hn : s.inLen.toNat < 32
    · simp only [if_pos hn]; exact T.short hw
    · simp only [if_neg hn]
      cases ho : openOutputOk w with
      | false => exact T.raises .badRange hw
      | true => exact T.openRun hw hc ho (Nat.le_of_not_lt hn)

theorem TwoRuns.permuteBody {r : Nat} (T : TwoRuns (.permute r) s R E V) (h : R u u') :
    E (permuteBody r u).state (permuteBody r u').state := by
  refine (T.enter h .perm).finish fun _ _ w w' _ _ hw => ?_
  obtain ⟨-, -, -, -, ei, -, -, -, eo⟩ := (T.operands hw).1.regs
  obtain ⟨-, -, -, -, ei', -, -, -, eo'⟩ := (T.operands hw).2.regs
  rw [ei, ei', eo, eo']
  split
  · exact T.raises .badRange hw
  · rename_i hv
    simp only [Bool.or_eq_true, Bool.not_eq_true', not_or, Bool.not_eq_false] at hv
    have hin : Region.coveredBy ⟨s.inAddr.toNat, 128⟩ (inputRegions (.permute r) s) :=
      .of_valid (by simp [inputRegions]) s.inAddr.isLt hv.1
    have hout : (outputRegion (.permute r) s).coveredBy [outputRegion (.permute r) s] :=
      .of_valid (by simp) s.outAddr.isLt hv.2
    refine (T.read hw hin).finish fun b b' x x' _ hv hx => ?_
    have hstep := T.permute r hx hv
    obtain ⟨-, -, -, -, -, -, ea, -⟩ := (T.operands hstep).1.regs
    obtain ⟨-, -, -, -, -, -, ea', -⟩ := (T.operands hstep).2.regs
    simp only [ea, ea']
    refine (T.write hstep (T.sponge hstep) ?_).finish fun _ _ y y' _ _ hy => T.reports 128 (T.zero hy)
    rw [length_spongeBytes]; exact hout

theorem TwoRuns.eraseBody (T : TwoRuns .erase s R E V) (h : R u u') :
    E ((Machine.wipePhase u).bind fun _ w => .ok () (complete .noError (setOutLen 0 w))).state
      ((Machine.wipePhase u').bind fun _ w => .ok () (complete .noError (setOutLen 0 w))).state :=
  (T.wipePhase h).finish fun _ _ _ _ _ _ hw => T.reports 0 hw

/-- Two runs of a command from their acceptances to their ends. -/
theorem TwoRuns.exec (T : TwoRuns i s R E V) (hopen : i = .openMsg → TwoOpens s R E V) {s₁ s₂ t₁ t₂ : State}
    (hb₁ : s₁.busy = false) (hb₂ : s₂.busy = false) (h : R (accept i.opcode (some i) s₁) (accept i.opcode (some i) s₂))
    (h₁ : exec i s₁ = .next t₁) (h₂ : exec i s₂ = .next t₂) : E t₁ t₂ := by
  have hissue {body : State → Run Unit} (hbody : ∀ w w', R w w' → E (body w).state (body w').state) :
      E (issue i.opcode (some i) body s₁) (issue i.opcode (some i) body s₂) := by
    rw [issue_idle hb₁, issue_idle hb₂]
    exact (T.slot h).finish fun _ _ w w' _ _ hw => hbody w w' hw
  cases i <;> obtain rfl := Host.Outcome.next.inj h₁ <;> obtain rfl := Host.Outcome.next.inj h₂
  case nop => exact hissue fun _ _ hw => T.completes hw
  case sealMsg => exact hissue fun _ _ hw => T.sealBody hw
  case openMsg => exact hissue fun _ _ hw => (hopen rfl).openBody hw
  case permute r => exact hissue fun _ _ hw => T.permuteBody hw
  case erase => exact hissue fun _ _ hw => T.eraseBody hw

end Walk

end Sys2Proof.Machine
end


section
/-! SUPPORT. What a command does on the bus, and how it ends, does not depend on key, nonce, message or memory bytes
(60_exceptions.md R229): two runs in states that agree on all else agree on all else at every point. -/

namespace Sys2Proof.Machine

section Control
variable {i : Instr} {s u u' : State}

theorem sameControl.inbox_eq (h : sameControl u u') : u'.inbox = u.inbox := by rw [h]

theorem sameControl.busy_eq (h : sameControl u u') : u'.busy = u.busy := by rw [h]

theorem sameControl.platform_eq (h : sameControl u u') : u'.platform = u.platform := by rw [h]

theorem sameControl.pop (h : sameControl u u') (rest : List Arrival) :
    sameControl { u with inbox := rest } { u' with inbox := rest } := by rw [h]; rfl

theorem sameControl.respond (h : sameControl u u') (r r' : Response) : sameControl (respond r u) (respond r' u') := by
  rw [h]; rfl

theorem sameControl.setSponge (h : sameControl u u') (S S' : Sponge) : sameControl (setSponge S u) (setSponge S' u') := by
  rw [h]; rfl

theorem sameControl.logEvent (h : sameControl u u') (e : EngineEvent) : sameControl (logEvent e u) (logEvent e u') := by
  rw [h]; rfl

theorem sameControl.resetEngine (h : sameControl u u') : sameControl (resetEngine u) (resetEngine u') := by rw [h]; rfl

theorem sameControl.raiseError (h : sameControl u u') (e : ErrCode) : sameControl (raiseError e u) (raiseError e u') := by
  have hruns : runsMessage (eraseTransients u') = runsMessage (eraseTransients u) := by rw [h]; rfl
  unfold Machine.raiseError
  dsimp only
  rw [hruns]
  split <;> rw [h] <;> rfl

theorem sameControl.busFault (h : sameControl u u') (a : Nat) : sameControl (busFault a u) (busFault a u') :=
  sameControl.raiseError (u := { u with faultAddr := BitVec.ofNat 64 a }) (u' := { u' with faultAddr := BitVec.ofNat 64 a })
    (by rw [h]; rfl) .busFault

theorem sameControl.storeReg (h : sameControl u u') (r : Reg) (v : Word) : sameControl (storeReg r v u) (storeReg r v u') := by
  cases r with
  | ctrl => simp only [Machine.storeReg]; split; exacts [h.resetEngine, h]
  | _ => rw [h]; rfl

theorem sameControl.writeReg (h : sameControl u u') (r : Reg) (v : Word) : sameControl (writeReg r v u) (writeReg r v u') := by
  simp only [Machine.writeReg, h.busy_eq]
  split
  · rw [h]; rfl
  · exact h.storeReg r v

theorem sameControl.agentWrite (h : sameControl u u') (a : Nat) (v : Byte) : sameControl (agentWrite a v u) (agentWrite a v u') := by
  have hc : conflicts u' a = conflicts u a := by rw [h]; rfl
  simp only [Machine.agentWrite, hc]
  split <;> rw [h] <;> rfl

/-- An outside event does the same to both, but for data. -/
theorem sameControl.hostEvent (h : sameControl u u') (e : HostEvent) : sameControl (hostEvent e u) (hostEvent e u') := by
  cases e with
  | regRead addr width =>
    simp only [Machine.hostEvent, h.platform_eq]
    split <;> exact h.respond _ _
  | regWrite addr width data =>
    simp only [Machine.hostEvent, h.platform_eq]
    split
    · exact (h.respond _ _).writeReg _ _
    all_goals exact h.respond _ _
  | memRead who addr => rw [h]; rfl
  | memWrite addr v => exact h.agentWrite _ v
  | cacheDiscard q => rw [h]; rfl
  | hardReset => exact h.resetEngine
  | dmaStall => exact h

theorem sameControl.storeTorn (h : sameControl u u') (a : Nat) {v v' : List Byte} (hv : v'.length = v.length) :
    sameControl (storeTorn a v (Machine.logEvent (.write a v.length) u))
      (storeTorn a v' (Machine.logEvent (.write a v'.length) u')) := by
  rw [h, hv]
  simp only [Machine.storeTorn, hv]
  rfl

theorem sameControl.storeAll (h : sameControl u u') (a : Nat) {v v' : List Byte} (hv : v'.length = v.length) :
    sameControl (storeAll a v (Machine.logEvent (.write a v.length) u))
      (storeAll a v' (Machine.logEvent (.write a v'.length) u')) := by
  rw [h, hv]
  simp only [Machine.storeAll, hv]
  rfl

/-- Two running commands that agree on all but data. -/
structure TwinRuns (s u u' : State) : Prop where
  busy : u.busy = true
  operands : sameOperands s u
  same : sameControl u u'

theorem TwinRuns.operands' (h : TwinRuns s u u') : sameOperands s u' := by
  rw [h.same]; exact h.operands

/-- Slots of two such commands, at which accesses may begin. -/
theorem TwinRuns.land (h : TwinRuns s u u') {l : List Arrival} {f f' : Option (State → State)} (hsome : f'.isSome = f.isSome)
    (hf : ∀ w w', sameControl w w' → sameControl (f.getD id w) (f'.getD id w')) :
    (land f l u).Both (TwinRuns s) sameControl (fun _ _ => True) (land f' l u') := by
  induction l generalizing u u' with
  | nil => exact ⟨trivial, h.busy, h.operands, h.same.pop []⟩
  | cons x rest ih =>
    obtain ⟨time, e⟩ := x
    have hpop := h.same.pop rest
    match time with
    | .whenIdle => exact ⟨trivial, h.busy, h.operands, h.same.pop _⟩
    | .slot (n + 1) inside => exact ⟨trivial, h.busy, h.operands, h.same.pop _⟩
    | .slot 0 inside =>
      have hev := hpop.hostEvent e
      simp only [Machine.land, hsome, hev.busy_eq]
      split
      · exact hf _ _ hpop
      · split
        · rename_i hgo
          have ho := outsideOnly_of_busy (s := { u with inbox := rest }) h.busy hgo
          exact ih ⟨hgo, ho.operands_iff.mpr h.operands, hev⟩
        · refine sameControl.hostEvent ?_ e
          split
          · exact hf _ _ hpop
          · exact hpop

theorem TwinRuns.slot (h : TwinRuns s u u') : (slot u).Both (TwinRuns s) sameControl (fun _ _ => True) (slot u') := by
  rw [Machine.slot, Machine.slot, h.same.inbox_eq]
  exact h.land rfl fun _ _ hw => hw

theorem TwinRuns.own {w w' : State} (h : TwinRuns s u u') (hs : sameControl w w')
    (he : (w.busy, w.platform, w.rounds, w.hdrAddr, w.hdrLen, w.inAddr, w.inLen, w.trlAddr, w.trlLen, w.outAddr) =
      (u.busy, u.platform, u.rounds, u.hdrAddr, u.hdrLen, u.inAddr, u.inLen, u.trlAddr, u.trlLen, u.outAddr)) :
    TwinRuns s w w' := by
  simp only [Prod.mk.injEq] at he
  obtain ⟨hb, hp, o1, o2, o3, o4, o5, o6, o7, o8⟩ := he
  refine ⟨hb.trans h.busy, ?_, hs⟩
  have ho := h.operands
  unfold sameOperands at ho ⊢
  rwa [o1, o2, o3, o4, o5, o6, o7, o8, hp]

theorem TwinRuns.read (h : TwinRuns s u u') (a n : Nat) :
    (dmaRead a n u).Both (TwinRuns s) sameControl (fun b b' => b'.length = b.length) (dmaRead a n u') := by
  unfold dmaRead
  split
  · exact ⟨rfl, h⟩
  · rw [h.same.inbox_eq]
    refine (h.land (f := some (logEvent (.read a n))) (f' := some (logEvent (.read a n))) rfl
      fun _ _ hw => hw.logEvent _).bind fun _ _ w w' _ _ hw => ?_
    simp only [logEvent_platform, hw.same.platform_eq]
    split
    · exact (hw.same.logEvent _).busFault _
    · refine ⟨(dmaBytes_length _ _ _).trans (dmaBytes_length _ _ _).symm, hw.own ?_ rfl⟩
      rw [hw.same]; rfl

theorem TwinRuns.write (h : TwinRuns s u u') (a : Nat) {v v' : List Byte} (hv : v'.length = v.length) :
    (dmaWrite a v u).Both (TwinRuns s) sameControl (fun _ _ => True) (dmaWrite a v' u') := by
  have hempty : v'.isEmpty = v.isEmpty := by
    rw [Bool.eq_iff_iff, List.isEmpty_iff_length_eq_zero, List.isEmpty_iff_length_eq_zero, hv]
  unfold dmaWrite
  rw [hempty]
  split
  · exact ⟨trivial, h⟩
  · rw [h.same.inbox_eq]
    refine (h.land (f := some fun w => storeTorn a v (logEvent (.write a v.length) w))
      (f' := some fun w => storeTorn a v' (logEvent (.write a v'.length) w)) rfl
      fun _ _ hw => hw.storeTorn a hv).bind fun _ _ w w' _ _ hw => ?_
    simp only [logEvent_platform, hw.same.platform_eq, hv]
    split
    · have := (hw.same.storeTorn a hv).busFault (by assumption)
      rwa [hv] at this
    · refine ⟨trivial, hw.own ?_ rfl⟩
      have := hw.same.storeAll a hv
      rwa [hv] at this

/-- Byte strings of one length are all that the activity of a command sees of its data. -/
theorem twinRuns (i : Instr) (s : State) :
    TwoRuns i s (TwinRuns s) sameControl fun b b' => b'.length = b.length where
  busy h := h.busy
  operands h := ⟨h.operands, h.operands'⟩
  control h := by rw [h.same]; exact ⟨rfl, rfl, rfl⟩
  length h := h
  slot h := h.slot
  read h _ := h.read _ _
  write h hv _ := h.write _ hv
  enters p h := h.own (by rw [h.same]; rfl) rfl
  codec g n c f h hv := h.own (by rw [h.same]; rfl) rfl
  output c h hv hc := hc _ _ _ _ hv
  count h := h.own (by rw [h.same]; rfl) rfl
  erase h := h.own (by rw [h.same]; rfl) rfl
  init n h := h.own (by rw [h.same]; rfl) rfl
  final n h := h.own (by rw [h.same]; rfl) rfl
  tag h := by rw [Vector.length_toList, Vector.length_toList]
  permute r h _ := h.own ((h.same.setSponge _ _).logEvent _) rfl
  sponge h := by rw [length_spongeBytes, length_spongeBytes]
  wipe h := h.own (by rw [h.same]; rfl) rfl
  zero h := h.own (by rw [h.same]; rfl) rfl
  raises e h := h.same.raiseError e
  completes h := by rw [h.same]; rfl
  reports v h := by rw [h.same]; rfl

/-! ## OPEN, up to the result of its comparison -/

/-- What of two ends of a command is compared, but for BUSY. -/
def SameEnd (t t' : State) : Prop :=
  t'.trace = t.trace ∧ t'.err = t.err ∧ t'.outLen = t.outLen ∧ t'.faultAddr = t.faultAddr

theorem sameControl.sameEnd (h : sameControl u u') : SameEnd u u' := by
  rw [h]; exact ⟨rfl, rfl, rfl, rfl⟩

theorem sameControl.entered (h : sameControl s u) (i : Instr) : sameControl (entered i s) (entered i u) := by rw [h]; rfl

theorem sameControl.openShort (h : sameControl u u') : sameControl (openShort u) (openShort u') := by rw [h]; rfl

theorem sameControl.inputCheck_eq (h : sameControl u u') : inputCheck u' = inputCheck u := by rw [h]; rfl

/-- The zeroing write comes after all other events of an OPEN. -/
theorem openEvents_refused {p : Platform} {ok : Bool} {o : List EngineEvent × Nat} (h : untilFault p (openEvents u ok) = some o) :
    untilFault p (openEvents u false) = some o := by
  cases ok with
  | false => exact h
  | true =>
    have happ : openEvents u false = openEvents u true ++ madeAccess (.write u.outAddr.toNat (u.inLen.toNat - 32)) := by
      simp [openEvents, zeroing]
    rw [happ]
    exact untilFault_append_some h _

theorem busFault_reports (x : Nat) (w : State) : (busFault x w).authOk = false ∧ (busFault x w).outLen = 0 := by
  unfold Machine.busFault Machine.raiseError; dsimp only; split <;> exact ⟨rfl, rfl⟩

/-- Two OPENs past their checks that report one AUTH_OK: both meet the same refused access, or both compare with the same result. -/
theorem sameEnd_of_openRun (h : sameControl u u') {ok ok' : Bool} {n : Nat} {r r' : Run Unit} {Q Q' : State → Prop}
    (hr : r.EndsAs u (openEvents u ok) (openEnd n ok) Q) (hr' : r'.EndsAs u' (openEvents u' ok') (openEnd n ok') Q')
    (hok : r'.state.authOk = r.state.authOk) : SameEnd r.state r'.state := by
  have hev : openEvents u' ok' = openEvents u ok' := by rw [h]; rfl
  obtain ⟨htr, -, -, hf⟩ := h.sameEnd
  rw [hev] at hr'
  rcases hr with ⟨made, x, w, hm, -, hw, hend⟩ | ⟨hm, v, hv, hvf, hend, -⟩ <;>
    rcases hr' with ⟨made', x', w', hm', -, hw', hend'⟩ | ⟨hm', v', hv', hvf', hend', -⟩ <;>
    rw [h.platform_eq] at hm' <;> rw [hend, hend'] at hok ⊢
  · obtain ⟨rfl, rfl⟩ := Prod.mk.inj (Option.some.inj ((openEvents_refused hm').symm.trans (openEvents_refused hm)))
    refine ⟨by rw [busFault_trace, busFault_trace, hw, hw', htr], rfl, ?_, by rw [busFault_faultAddr, busFault_faultAddr]⟩
    rw [(busFault_reports _ w).2, (busFault_reports _ w').2]
  · obtain rfl : ok' = false := hok.trans (busFault_reports x w).1
    exact nomatch hm'.symm.trans (openEvents_refused hm)
  · obtain rfl : ok = false := hok.symm.trans (busFault_reports x' w').1
    exact nomatch hm.symm.trans (openEvents_refused hm')
  · obtain rfl : ok' = ok := hok
    exact ⟨by rw [openEnd_trace, openEnd_trace, hv, hv', htr], rfl, rfl, (hvf'.trans hf).trans hvf.symm⟩

theorem sameEnd_open {t t' : State} (h : idleQuiet s) (hs : sameControl s u) (he : exec .openMsg s = .next t)
    (he' : exec .openMsg u = .next t') (hok : t'.authOk = t.authOk) : SameEnd t t' := by
  have h' : idleQuiet u := by rw [hs]; exact h
  have hn : u.inLen = s.inLen := by rw [hs]
  have ho : openOutputOk u = openOutputOk s := by rw [hs]; rfl
  have hu := hs.entered .openMsg
  rw [exec_open_quiet h] at he
  rw [exec_open_quiet h', hs.inputCheck_eq, hn, ho] at he'
  obtain rfl := Host.Outcome.next.inj he
  obtain rfl := Host.Outcome.next.inj he'
  cases hc : inputCheck s with
  | some e => exact (hu.raiseError e).sameEnd
  | none =>
    by_cases hlen : s.inLen.toNat < 32
    · simp only [if_pos hlen]
      exact hu.openShort.sameEnd
    · simp only [hc, if_neg hlen] at hok ⊢
      cases hout : openOutputOk s with
      | false => exact (hu.raiseError .badRange).sameEnd
      | true =>
        simp only [hout] at hok ⊢
        obtain ⟨ok, hr⟩ := openRun_endsAs (calm_entered h .openMsg) (Nat.le_of_not_lt hlen)
        obtain ⟨ok', hr'⟩ := openRun_endsAs (calm_entered h' .openMsg) (by rw [← hn] at hlen; exact Nat.le_of_not_lt hlen)
        have hn' : (entered .openMsg u).inLen.toNat - 32 = (entered .openMsg s).inLen.toNat - 32 := by rw [hu]
        rw [hn'] at hr'
        exact sameEnd_of_openRun hu hr hr' hok

/-- Settles O44: the walk through both runs, which for an OPEN needs the comparison's result. -/
theorem activityIsDataIndependent : Obligations.ActivityIsDataIndependent := by
  unfold Obligations.ActivityIsDataIndependent
  refine ⟨fun s s' t t' i hi hb hs he he' => ?_, fun s s' t t' h hs he he' hok => sameEnd_open h hs he he' hok⟩
  have hstart : TwinRuns s (accept i.opcode (some i) s) (accept i.opcode (some i) s') :=
    ⟨rfl, ⟨rfl, rfl, rfl, rfl, rfl, rfl, rfl, rfl, rfl⟩, by rw [hs]; rfl⟩
  have hend := (twinRuns i s).exec (fun h => absurd h hi) hb (hs.busy_eq.trans hb) hstart he he'
  obtain ⟨htr, herr, hlen, hf⟩ := hend.sameEnd
  exact ⟨htr, herr, hend.busy_eq, hlen, hf⟩

end Control

end Sys2Proof.Machine
end


section
/-! SUPPORT. A command that harmless accesses meet, beside the same command alone (20_memory.md R85): the engine does the same at
every point, and the memory that the command touches holds the same. -/

namespace Sys2Proof.Machine

/-- Two states that outside events alone can have made different. -/
def SameEngine (u u' : State) : Prop :=
  u' = { u with
    done := u'.done, doneIe := u'.doneIe, wrBusy := u'.wrBusy, inbox := u'.inbox, responses := u'.responses, mem := u'.mem,
    draws := u'.draws, raced := u'.raced, stale := u'.stale }

/-- Two memories, canonical both, that hold the same where command `i` with the operands of `s` reads and writes, and all its
input. -/
structure HoldSame (i : Instr) (s : State) (m m' : Memory) : Prop where
  wf : Memory.wf m = true
  wf' : Memory.wf m' = true
  agree {a : Nat} : (touchedRegions i s).any (fun r => r.contains a) = true → Memory.read m' a = Memory.read m a
  written {r : Region} {a : Nat} : r ∈ inputRegions i s → r.contains a = true → ∃ v, Memory.read m a = some v

/-- Command `i` runs alone in `u`, and in `u'` where only harmless events have landed and are to land. -/
structure Undisturbed (i : Instr) (s u u' : State) : Prop where
  busy : u.busy = true
  running : u.running = some i
  operands : sameOperands s u
  same : SameEngine u u'
  mems : HoldSame i s u.mem u'.mem
  raced : u.raced = [] ∧ u'.raced = []
  alone : u.inbox = []
  harmless {x : Arrival} : x ∈ u'.inbox → harmless i s x.event = true

/-- The ends of two such commands. -/
def EndSame (i : Instr) (s u u' : State) : Prop := SameEngine u u' ∧ HoldSame i s u.mem u'.mem

section Two
variable {i : Instr} {s u u' w w' : State}

theorem SameEngine.busy_eq (h : SameEngine u u') : u'.busy = u.busy := by rw [h]

theorem SameEngine.platform_eq (h : SameEngine u u') : u'.platform = u.platform := by rw [h]

theorem SameEngine.outside {v : State} (h : SameEngine u u') (ho : OutsideOnly u' v) : SameEngine u v := by
  have hv : v = { u' with
      done := v.done, doneIe := v.doneIe, wrBusy := v.wrBusy, inbox := v.inbox, responses := v.responses, mem := v.mem,
      draws := v.draws, raced := v.raced, stale := v.stale } :=
    congrArg (fun x => { x with
      done := v.done, doneIe := v.doneIe, wrBusy := v.wrBusy, inbox := v.inbox, responses := v.responses, mem := v.mem,
      draws := v.draws, raced := v.raced, stale := v.stale }) ho.same
  exact hv.trans (by rw [h])

theorem SameEngine.setSponge (h : SameEngine u u') (S : Sponge) : SameEngine (setSponge S u) (setSponge S u') := by
  rw [h]; rfl

theorem SameEngine.logEvent (h : SameEngine u u') (e : EngineEvent) : SameEngine (logEvent e u) (logEvent e u') := by
  rw [h]; rfl

theorem SameEngine.setWritten (h : SameEngine u u') (m m' : Memory) (r : Region) :
    SameEngine (setWritten m r u) (setWritten m' r u') := by
  rw [h]; rfl

theorem SameEngine.raiseError (h : SameEngine u u') (e : ErrCode) : SameEngine (raiseError e u) (raiseError e u') := by
  have hruns : runsMessage (eraseTransients u') = runsMessage (eraseTransients u) := by rw [h]; rfl
  unfold Machine.raiseError
  dsimp only
  rw [hruns]
  split <;> rw [h] <;> rfl

theorem raiseError_keeps_mem (e : ErrCode) (u : State) : (raiseError e u).mem = u.mem := by
  unfold raiseError; dsimp only; split <;> rfl

theorem HoldSame.store {m m' : Memory} (h : HoldSame i s m m') {a : Nat} {v : List Byte} (ha : a + v.length ≤ 2 ^ 64) :
    HoldSame i s (Memory.store m a v) (Memory.store m' a v) where
  wf := Memory.wf_store h.wf a v
  wf' := Memory.wf_store h.wf' a v
  agree hb := by rw [Memory.read_store h.wf v ha, Memory.read_store h.wf' v ha, h.agree hb]
  written {r b} hr hb := by
    rw [Memory.read_store h.wf v ha]
    split
    · exact ⟨_, List.getElem?_eq_getElem (by omega)⟩
    · exact h.written hr hb

/-- A part of the command that leaves memory alone and lets nothing land. -/
theorem Undisturbed.own (h : Undisturbed i s u u') (hs : SameEngine w w')
    (he : (w.busy, w.running, w.platform, w.rounds, w.hdrAddr, w.hdrLen, w.inAddr, w.inLen, w.trlAddr, w.trlLen, w.outAddr) =
      (u.busy, u.running, u.platform, u.rounds, u.hdrAddr, u.hdrLen, u.inAddr, u.inLen, u.trlAddr, u.trlLen, u.outAddr))
    (hm : HoldSame i s w.mem w'.mem)
    (hi : (w.raced, w.inbox, w'.raced, w'.inbox) = (u.raced, u.inbox, u'.raced, u'.inbox)) : Undisturbed i s w w' := by
  simp only [Prod.mk.injEq] at he hi
  obtain ⟨hb, hrun, hp, o1, o2, o3, o4, o5, o6, o7, o8⟩ := he
  obtain ⟨hr, hin, hr', hin'⟩ := hi
  refine ⟨hb.trans h.busy, hrun.trans h.running, ?_, hs, hm, ⟨hr.trans h.raced.1, hr'.trans h.raced.2⟩, hin.trans h.alone,
    fun hx => h.harmless (hin' ▸ hx)⟩
  have ho := h.operands
  unfold sameOperands at ho ⊢
  rwa [o1, o2, o3, o4, o5, o6, o7, o8, hp]

theorem sameOperands.touchedRegions_eq (h : sameOperands s u) : touchedRegions i u = touchedRegions i s := by
  obtain ⟨-, hh, hin, ht, ha, hn, -, -, ho⟩ := h.regs
  cases i <;> simp only [touchedRegions, inputRegions, outputRegion, hh, hin, ht, ha, hn, ho]

theorem Undisturbed.operands' (h : Undisturbed i s u u') : sameOperands s u' := by
  rw [h.same]; exact h.operands

/-! ## Slots -/

theorem not_isReset_of_harmless {e : HostEvent} (h : harmless i s e = true) : ¬ isReset s.platform e := by
  cases e with
  | regWrite addr width data =>
    rintro ⟨hs, hd⟩
    exact nomatch h.symm.trans (by rw [Machine.harmless, hs, hd]; rfl : Machine.harmless i s (.regWrite addr width data) = false)
  | hardReset => exact nomatch h
  | _ => exact id

theorem not_isStall_of_harmless {e : HostEvent} (h : harmless i s e = true) : e.isStall = false := by
  cases e with
  | dmaStall => exact nomatch h
  | _ => rfl

/-- Of all events only another agent's write can race. -/
theorem hostEvent_unraced {e : HostEvent} (hr : u.raced = []) (hb : (hostEvent e u).busy = true)
    (hc : ∀ a v, e = .memWrite a v → conflicts u a.toNat = false) : (hostEvent e u).raced = [] := by
  cases e with
  | regRead addr width => simp only [hostEvent]; split <;> exact hr
  | regWrite addr width data =>
    simp only [hostEvent]
    split
    · rename_i r _
      simp only [writeReg]
      split
      · exact hr
      · cases r with
        | ctrl => simp only [storeReg]; split; exacts [rfl, hr]
        | _ => exact hr
    all_goals exact hr
  | memWrite a v => rw [hostEvent, agentWrite_free (hc a v rfl)]; exact hr
  | hardReset => rfl
  | _ => exact hr

/-- A harmless event lets the command go on, and changes nothing that the command sees. -/
theorem Undisturbed.event (h : Undisturbed i s u u') {e : HostEvent} (he : Machine.harmless i s e = true) :
    (hostEvent e u').busy = true ∧ Undisturbed i s u (hostEvent e u') := by
  have hb' : u'.busy = true := h.same.busy_eq.trans h.busy
  obtain ⟨-, -, -, -, -, -, -, hp, -⟩ := h.operands'.regs
  have ho := hostEvent_no_reset hb' (hp.symm ▸ not_isReset_of_harmless he)
  have hgo : (hostEvent e u').busy = true := ho.busy_eq.trans hb'
  have hfree {a : Word} {v : Byte} (hw : e = .memWrite a v) : (touchedRegions i s).any (fun r => r.contains a.toNat) = false := by
    subst hw
    simpa [Machine.harmless] using he
  refine ⟨hgo, h.busy, h.running, h.operands, h.same.outside ho, ⟨h.mems.wf, ho.wf h.mems.wf', fun {a} ha => ?_, h.mems.written⟩,
    ⟨h.raced.1, hostEvent_unraced h.raced.2 hgo fun a v hw => ?_⟩, h.alone, fun hx => h.harmless (by rwa [hostEvent_inbox] at hx)⟩
  · rw [hostEvent_read h.mems.wf' fun b v hw hab => ?_, h.mems.agree ha]
    rw [← hab, hfree hw] at ha
    exact nomatch ha
  · have hrun : u'.running = some i := by rw [h.same]; exact h.running
    rw [conflicts_of_running hb' hrun, h.operands'.touchedRegions_eq, hfree hw]

/-- Where only harmless events land, the command goes on. -/
theorem Undisturbed.land (h : Undisturbed i s u u') (f : Option (State → State)) {l : List Arrival}
    (hl : ∀ x ∈ l, Machine.harmless i s x.event = true) : ∃ w', Machine.land f l u' = .ok () w' ∧ Undisturbed i s u w' := by
  have hset {l : List Arrival} {u' : State} (h : Undisturbed i s u u') (hl : ∀ x ∈ l, Machine.harmless i s x.event = true) :
      Undisturbed i s u { u' with inbox := l } :=
    ⟨h.busy, h.running, h.operands, h.same.outside (.inbox _ _), h.mems, h.raced, h.alone, fun hx => hl _ hx⟩
  induction l generalizing u' with
  | nil => exact ⟨_, rfl, hset h hl⟩
  | cons x rest ih =>
    obtain ⟨time, e⟩ := x
    obtain ⟨he, hrest⟩ := List.forall_mem_cons.mp hl
    match time with
    | .whenIdle => exact ⟨_, rfl, hset h hl⟩
    | .slot (n + 1) inside => exact ⟨_, rfl, hset h (List.forall_mem_cons.mpr ⟨he, hrest⟩)⟩
    | .slot 0 inside =>
      obtain ⟨hb, hnext⟩ := (hset h hrest).event he
      rw [land_event f inside (not_isStall_of_harmless he) hb]
      exact ih hnext hrest

theorem Undisturbed.lands (h : Undisturbed i s u u') (f f' : Option (State → State)) :
    (Machine.land f u.inbox u).Both (Undisturbed i s) (EndSame i s) (fun _ _ => True) (Machine.land f' u'.inbox u') := by
  obtain ⟨w', hw', hnext⟩ := h.land f' fun _ hx => h.harmless hx
  rw [land_quiet (by rw [quiet, h.alone]), hw']
  exact ⟨trivial, hnext⟩

/-! ## Accesses -/

theorem covered_answered {p : Platform} {d : Dir} {l : List Region} (hl : ∀ r ∈ l, answered p d r) {a n : Nat}
    (hc : Region.coveredBy ⟨a, n⟩ l) : firstRefused p d a n = none := by
  refine firstRefused_answered (r := ⟨a, n⟩) fun b hb => ?_
  obtain ⟨r, hr, hrb⟩ := hc.2 b hb
  exact hl r hr b hrb

theorem dmaBytes_congr {a n : Nat} (h : ∀ j < n, dmaByte u' (a + j) = dmaByte u (a + j)) : dmaBytes u' a n = dmaBytes u a n := by
  induction n generalizing a with
  | zero => rfl
  | succ n ih =>
    have h0 : dmaByte u' a = dmaByte u a := h 0 (Nat.succ_pos n)
    rw [dmaBytes, dmaBytes, h0, ih fun j hj => ?_]
    rw [Nat.add_assoc, Nat.add_comm 1 j]
    exact h (j + 1) (Nat.succ_lt_succ hj)

/-- Both read the byte last written. -/
theorem Undisturbed.byte (h : Undisturbed i s u u') {r : Region} {a : Nat} (hr : r ∈ inputRegions i s) (ha : r.contains a = true) :
    dmaByte u' a = dmaByte u a := by
  obtain ⟨v, hv⟩ := h.mems.written hr ha
  have htouch : (touchedRegions i s).any (fun r => r.contains a) = true :=
    List.any_eq_true.mpr ⟨r, List.mem_append_left _ hr, ha⟩
  simp [dmaByte, h.raced.1, h.raced.2, h.mems.agree htouch, hv]

theorem Undisturbed.read (h : Undisturbed i s u u') {a n : Nat} (hin : ∀ r ∈ inputRegions i s, answered s.platform .read r)
    (hc : Region.coveredBy ⟨a, n⟩ (inputRegions i s)) :
    (dmaRead a n u).Both (Undisturbed i s) (EndSame i s) Eq (dmaRead a n u') := by
  unfold dmaRead
  split
  · exact ⟨rfl, h⟩
  · refine (h.lands _ _).bind fun _ _ w w' _ _ hw => ?_
    obtain ⟨-, -, -, -, -, -, -, hp, -⟩ := hw.operands.regs
    obtain ⟨-, -, -, -, -, -, -, hp', -⟩ := hw.operands'.regs
    simp only [logEvent_platform, hp, hp', covered_answered hin hc]
    refine ⟨(dmaBytes_congr fun j hj => ?_).symm, hw.own (by rw [hw.same]; rfl) rfl hw.mems rfl⟩
    obtain ⟨r, hr, hrb⟩ := hc.2 (a + j) (Region.contains_iff.mpr ⟨Nat.le_add_right _ _, Nat.add_lt_add_left hj a⟩)
    exact hw.byte hr hrb

theorem Undisturbed.write (h : Undisturbed i s u u') {a : Nat} {v : List Byte} (hout : answered s.platform .write (outputRegion i s))
    (hc : Region.coveredBy ⟨a, v.length⟩ [outputRegion i s]) :
    (dmaWrite a v u).Both (Undisturbed i s) (EndSame i s) (fun _ _ => True) (dmaWrite a v u') := by
  unfold dmaWrite
  split
  · exact ⟨trivial, h⟩
  · refine (h.lands _ _).bind fun _ _ w w' _ _ hw => ?_
    obtain ⟨-, -, -, -, -, -, -, hp, -⟩ := hw.operands.regs
    obtain ⟨-, -, -, -, -, -, -, hp', -⟩ := hw.operands'.regs
    simp only [logEvent_platform, hp, hp', covered_answered (List.forall_mem_singleton.mpr hout) hc, storeAll]
    rw [dmaStoredBytes_unraced (s := logEvent _ w) hw.raced.1, dmaStoredBytes_unraced (s := logEvent _ w') hw.raced.2]
    exact ⟨trivial, hw.own ((hw.same.logEvent _).setWritten _ _ _) rfl (hw.mems.store hc.1) rfl⟩

/-! ## The two runs -/

theorem Undisturbed.endSame (h : Undisturbed i s u u') (hs : SameEngine w w') (hm : w.mem = u.mem) (hm' : w'.mem = u'.mem) :
    EndSame i s w w' := ⟨hs, by rw [hm, hm']; exact h.mems⟩

theorem undisturbedRuns (hin : ∀ r ∈ inputRegions i s, answered s.platform .read r)
    (hout : answered s.platform .write (outputRegion i s)) : TwoRuns i s (Undisturbed i s) (EndSame i s) Eq where
  busy h := h.busy
  operands h := ⟨h.operands, h.operands'⟩
  control h := by rw [h.same]; exact ⟨rfl, rfl, rfl⟩
  length h := by rw [h]
  slot h := h.lands none none
  read h hc := h.read hin hc
  write h hv hc := by subst hv; exact h.write hout hc
  enters p h := h.own (by rw [h.same]; rfl) rfl h.mems rfl
  codec g n c f h hv := by subst hv; exact h.own (by rw [h.same]; rfl) rfl h.mems rfl
  output c h hv _ := by subst hv; rw [h.same]
  count h := h.own (by rw [h.same]; rfl) rfl h.mems rfl
  erase h := h.own (by rw [h.same]; rfl) rfl h.mems rfl
  init n h := h.own (by rw [h.same]; rfl) rfl h.mems rfl
  final n h := h.own (by rw [h.same]; rfl) rfl h.mems rfl
  tag h := by rw [h.same]
  permute r h hv := by subst hv; exact h.own ((h.same.setSponge _).logEvent _) rfl h.mems rfl
  sponge h := by rw [h.same]
  wipe h := h.own (by rw [h.same]; rfl) rfl h.mems rfl
  zero h := h.own (by rw [h.same]; rfl) rfl h.mems rfl
  raises e h := h.endSame (h.same.raiseError e) (raiseError_keeps_mem e _) (raiseError_keeps_mem e _)
  completes h := h.endSame (by rw [h.same]; rfl) rfl rfl
  reports v h := h.endSame (by rw [h.same]; rfl) rfl rfl

theorem undisturbedOpens (hin : ∀ r ∈ inputRegions .openMsg s, answered s.platform .read r)
    (hout : answered s.platform .write (outputRegion .openMsg s)) :
    TwoOpens s (Undisturbed .openMsg s) (EndSame .openMsg s) Eq where
  toTwoRuns := undisturbedRuns hin hout
  tagBuf h hv := by subst hv; exact h.own (by rw [h.same]; rfl) rfl h.mems rfl
  compare h := ⟨h.own (by rw [h.same]; rfl) rfl h.mems rfl, by rw [h.same]; rfl⟩
  zeros n := rfl
  opens v ok h := h.endSame (by rw [h.same]; rfl) rfl rfl
  short h := h.endSame (by rw [h.same]; rfl) rfl rfl

/-- Settles O46: two runs that agree at every point, by the walk of `TwoRuns`. -/
theorem harmlessAccessesDoNotDisturb : Obligations.HarmlessAccessesDoNotDisturb := by
  unfold Obligations.HarmlessAccessesDoNotDisturb
  intro s t u i l hb hwf hl hinput hout hu ht
  have hin r (hr : r ∈ inputRegions i s) : answered s.platform .read r := (hinput r hr).1
  have hmems : HoldSame i s s.mem s.mem := ⟨hwf, hwf, fun _ => rfl, fun {r a} hr ha => ?_⟩
  · have hstart : Undisturbed i s (accept i.opcode (some i) { s with inbox := [] }) (accept i.opcode (some i) { s with inbox := l }) :=
      ⟨rfl, rfl, ⟨rfl, rfl, rfl, rfl, rfl, rfl, rfl, rfl, rfl⟩, rfl, hmems, ⟨rfl, rfl⟩, rfl, fun hx => hl _ hx⟩
    obtain ⟨hsame, hagree⟩ := (undisturbedRuns hin hout).exec (s₁ := { s with inbox := [] }) (s₂ := { s with inbox := l })
      (fun h => by subst h; exact undisturbedOpens hin hout) hb hb hstart hu ht
    have hread a (ha : (outputRegion i s).contains a = true) : Memory.read t.mem a = Memory.read u.mem a :=
      hagree.agree (List.any_eq_true.mpr ⟨_, List.mem_append_right _ (List.mem_singleton.mpr rfl), ha⟩)
    refine ⟨?_, ?_, ?_, ?_, ?_, ?_, ?_, ?_, ?_, hread⟩ <;> rw [hsame] <;> trivial
  · obtain ⟨b, hload⟩ := (hinput r hr).2
    obtain ⟨hle, hlt⟩ := Region.contains_iff.mp ha
    obtain ⟨hlen, hbytes⟩ := Memory.load_eq_some_iff.mp hload
    have hbyte := hbytes (a - r.addr) (by omega)
    rw [Nat.add_sub_cancel' hle] at hbyte
    exact ⟨_, hbyte.trans (List.getElem?_eq_getElem (by omega))⟩

end Two

end Sys2Proof.Machine
end
